-- ==== Sys2Proof/Word.lean ====
section
/-! DEFINITION. The word types of the Hesor L9 (R8, R17, R62). -/

namespace Sys2Proof

/-- One byte of memory. -/
abbrev Byte := BitVec 8

/-- A 16-bit value: an L16 code, a block scale, half of a packed register. -/
abbrev Half := BitVec 16

/-- A 32-bit lane or group register, or one instruction word (R17). -/
abbrev Word := BitVec 32

/-- A 64-bit value: a register pair or a k register (R23). -/
abbrev DWord := BitVec 64

/-- An 8-bit operand code as the instruction carries it; each engine reads it in its own way (R22). -/
abbrev Code := BitVec 8

/-- The index of a condition bit, c0 to c7. -/
abbrev CBit := BitVec 3

end Sys2Proof
end

