-- ==== Sys2Proof/Syntax.lean ====
section
/-! DEFINITION. The instructions and the device steps of the Hesor L9: one constructor of Instr per row of the
opcode table (R50 and 95_what_each_step_holds.md), and the turns by which the parts of the device move. -/

namespace Sys2Proof

/-- The four forms that LEN selects (R19). -/
inductive Len where
  | base | ext | lit | extLit
  deriving DecidableEq, Repr, Inhabited

/-- The guard of an instruction: c[bit], inverted when neg holds (R27). -/
structure Guard where
  bit : CBit
  neg : Bool
  deriving DecidableEq, Repr, Inhabited

/-- What every instruction carries: its form and its guard. A base form's guard is c7 (R27, R32). -/
structure Hd where
  len : Len
  guard : Guard
  deriving DecidableEq, Repr, Inhabited

/-- Source operand B: a register's code, or the literal of the literal forms (R31). -/
inductive SrcB where
  | reg (c : Code)
  | lit (v : DWord)
  deriving DecidableEq, Repr, Inhabited

/-- The task field of a tile task (R163): accumulator tile, QUIET and tag. -/
structure TaskField where
  tile : BitVec 8
  quiet : Bool
  tag : BitVec 16
  deriving DecidableEq, Repr, Inhabited

/-- A quad of a cluster, and with it the quad's control core. -/
structure QuadRef where
  cid : Nat
  quad : Nat
  deriving DecidableEq, Repr, Inhabited

/-- A group: its cluster, its team (the core's index in the cluster) and its GROUPID. -/
structure GroupRef where
  cid : Nat
  team : Nat
  group : Nat
  deriving DecidableEq, Repr, Inhabited

/-- A lane of a group. -/
structure LaneRef where
  cid : Nat
  team : Nat
  group : Nat
  lane : Nat
  deriving DecidableEq, Repr, Inhabited

/-- One of the four copy queues of the core that a team holds (R164). -/
structure QueueRef where
  cid : Nat
  team : Nat
  q : Nat
  deriving DecidableEq, Repr, Inhabited

/-- A graph node as the graph of one slot runs through it (R247). -/
structure NodeRef where
  slot : Fin 8
  addr : Nat
  deriving DecidableEq, Repr, Inhabited

/-- Where a load reads (R133, R265): a copy in the L1 that serves the core, or the home slice, with or without
filling an L1 copy. -/
inductive LoadPlace where
  | l1
  | home (fill : Bool)
  deriving DecidableEq, Repr, Inhabited

/-- The point that a store reaches (R265). -/
inductive StorePlace where
  | l1 | home
  deriving DecidableEq, Repr, Inhabited

/-- Where an atomic performs (R280): in an owned L1 line, or at the home as a built-in wave. -/
inductive AtomPlace where
  | l1 (req : Nat)
  | home (slice : Nat)
  deriving DecidableEq, Repr, Inhabited

/-- A register line that a fill pushes out of the register cache (R245). -/
structure VictimLine where
  g : GroupRef
  line : Nat
  deriving DecidableEq, Repr, Inhabited

/-- The classes of a log value: zero, NaN, Inf with a sign, and a finite value of a sign and a field. -/
inductive LogVal where
  | zero
  | nan
  | inf (s : Bool)
  | fin (s : Bool) (e : Int)
  deriving DecidableEq, Repr, Inhabited

/-- What a peer device asks for (R298, R322, R348). write gives the mask and the value of each byte, so that a store of nibbles
writes only them (R136, R273); scatter is one add of a hashed-grid scatter: the exact products of
its low and its high half (R330). -/
inductive PeerKind where
  | read (bytes : Nat)
  | write (data : List (Byte × Byte))
  | atomic (op ty : Nat) (b c : DWord)
  | comb (method : Nat) (b c : Word)
  | scatter (lo hi : LogVal)
  deriving DecidableEq, Repr, Inhabited

/-- A request from a peer device: its source, the requester's own number for it, the physical address; bad says that an
uncorrectable error meets its data here (R298). -/
structure PeerAccess where
  src : Nat
  seq : Nat
  pa : Nat
  kind : PeerKind
  bad : Bool
  deriving DecidableEq, Repr, Inhabited

/-- How a peer device answers an access, or does not (R299). -/
inductive PeerAnswer where
  | data | error | timeout
  deriving DecidableEq, Repr, Inhabited

/-- The agent of a grid that meets an uncorrectable error before it has used the data (R301): a lane's request, with its
walk; a wave; or a copy, a task, a fetch or a control core of a cluster. -/
inductive Reader where
  | request (id : Nat)
  | wave (slice : Nat)
  | engine (cid : Nat)
  deriving DecidableEq, Repr, Inhabited

/-- Where an uncorrectable error is found (R301). -/
inductive ErrorPlace where
  | readBy (r : Reader)
  | restoring (grid : Nat)
  | noReader (line : Nat)
  | unattributed
  deriving DecidableEq, Repr, Inhabited

/-- A host access through BAR2 (R349). -/
inductive HostMove where
  | read (off bytes : Nat)
  | write (off : Nat) (data : List Byte)
  deriving DecidableEq, Repr, Inhabited

/-- The instructions and device steps, one constructor per row of the opcode table. -/
inductive Instr where
  -- NOP and integers (R51, R69 to R78)
  | nop (h : Hd)
  | iadd (h : Hd) (v : BitVec 4) (d a : Code) (b : SrcB)
  | isub (h : Hd) (v : BitVec 4) (d a : Code) (b : SrcB)
  | imul (h : Hd) (v : BitVec 4) (d a : Code) (b : SrcB)
  | imulh (h : Hd) (v : BitVec 4) (d a : Code) (b : SrcB)
  | imad (h : Hd) (v : BitVec 4) (d a : Code) (b : SrcB) (c : Code)
  | imin (h : Hd) (v : BitVec 4) (d a : Code) (b : SrcB)
  | imax (h : Hd) (v : BitVec 4) (d a : Code) (b : SrcB)
  | iabs (h : Hd) (v : BitVec 4) (d a : Code)
  | ineg (h : Hd) (v : BitVec 4) (d a : Code)
  | icmp (h : Hd) (v md : BitVec 4) (cd : CBit) (a : Code) (b : SrcB)
  | iaddc (h : Hd) (v : BitVec 4) (d a : Code) (b : SrcB) (cc : CBit)
  | lea (h : Hd) (v : BitVec 4) (d a : Code) (b : SrcB)
  | and (h : Hd) (v : BitVec 4) (d a : Code) (b : SrcB)
  | or (h : Hd) (v : BitVec 4) (d a : Code) (b : SrcB)
  | xor (h : Hd) (v : BitVec 4) (d a : Code) (b : SrcB)
  | andn (h : Hd) (v : BitVec 4) (d a : Code) (b : SrcB)
  | not (h : Hd) (v : BitVec 4) (d a : Code)
  | shl (h : Hd) (v : BitVec 4) (d a : Code) (b : SrcB)
  | shr (h : Hd) (v : BitVec 4) (d a : Code) (b : SrcB)
  | sar (h : Hd) (v : BitVec 4) (d a : Code) (b : SrcB)
  | rotl (h : Hd) (v : BitVec 4) (d a : Code) (b : SrcB)
  | bfx (h : Hd) (v : BitVec 4) (d a : Code) (b : SrcB)
  | bfi (h : Hd) (v : BitVec 4) (d a : Code) (b : SrcB) (c : Code)
  | popc (h : Hd) (v : BitVec 4) (d a : Code)
  | clz (h : Hd) (v : BitVec 4) (d a : Code)
  | ctz (h : Hd) (v : BitVec 4) (d a : Code)
  | brev (h : Hd) (v : BitVec 4) (d a : Code)
  | sel (h : Hd) (v : BitVec 4) (d a : Code) (b : SrcB)
  | mov (h : Hd) (v : BitVec 4) (d a : Code)
  | movi (h : Hd) (v : BitVec 4) (d : Code) (k : BitVec 64)
  | cbit (h : Hd) (v : BitVec 4) (cd ca cb : CBit)
  -- packed integers (R79 to R82)
  | padd2 (h : Hd) (v : BitVec 4) (d a : Code) (b : SrcB)
  | psub2 (h : Hd) (v : BitVec 4) (d a : Code) (b : SrcB)
  | pmul2 (h : Hd) (v : BitVec 4) (d a : Code) (b : SrcB)
  | pmac2 (h : Hd) (d a : Code) (b : SrcB)
  | pmin2 (h : Hd) (v : BitVec 4) (d a : Code) (b : SrcB)
  | pmax2 (h : Hd) (v : BitVec 4) (d a : Code) (b : SrcB)
  | pshr2 (h : Hd) (v : BitVec 4) (d a : Code) (b : SrcB)
  | pnarrow (h : Hd) (v : BitVec 4) (d a : Code) (b : SrcB)
  | punpk (h : Hd) (v : BitVec 4) (d a : Code)
  | padd4 (h : Hd) (v : BitVec 4) (d a : Code) (b : SrcB)
  | pdot4 (h : Hd) (v : BitVec 4) (d a : Code) (b : SrcB)
  | pcmp2 (h : Hd) (v : BitVec 4) (d a : Code) (b : SrcB)
  -- bytes and hashing (R83 to R85)
  | bcmp (h : Hd) (v : BitVec 4) (d a : Code) (b : SrcB)
  | bfind (h : Hd) (v : BitVec 4) (d a : Code) (b : SrcB)
  | bhash (h : Hd) (v : BitVec 4) (d a : Code)
  | bcrc (h : Hd) (v : BitVec 4) (d a : Code)
  -- cross-lane (R86 to R92)
  | shfl (h : Hd) (v : BitVec 4) (d a b : Code) (dist : BitVec 5)
  | slide (h : Hd) (v : BitVec 4) (d a b : Code)
  | vote (h : Hd) (v : BitVec 4) (d : Code) (ca : CBit)
  | scan (h : Hd) (v md : BitVec 4) (d a : Code)
  | redux (h : Hd) (v : BitVec 4) (d a : Code)
  | matchLanes (h : Hd) (v : BitVec 4) (d a : Code)
  | bcast (h : Hd) (v : BitVec 4) (d a : Code)
  | gmov (h : Hd) (d b : Code)
  -- log arithmetic (R105 to R118)
  | lmul (h : Hd) (v md : BitVec 4) (d a : Code) (b : SrcB)
  | ldiv (h : Hd) (v md : BitVec 4) (d a : Code) (b : SrcB)
  | ladd (h : Hd) (v md : BitVec 4) (d a : Code) (b : SrcB)
  | lsub (h : Hd) (v md : BitVec 4) (d a : Code) (b : SrcB)
  | lmad (h : Hd) (v md : BitVec 4) (d a : Code) (b : SrcB) (c : Code)
  | lmsb (h : Hd) (v md : BitVec 4) (d a : Code) (b : SrcB) (c : Code)
  | lsqrt (h : Hd) (v : BitVec 4) (d a : Code)
  | lrsqrt (h : Hd) (v md : BitVec 4) (d a : Code)
  | lsqr (h : Hd) (v md : BitVec 4) (d a : Code)
  | lrcp (h : Hd) (v md : BitVec 4) (d a : Code)
  | lpowi (h : Hd) (v md : BitVec 4) (d a : Code) (b : SrcB)
  | lpowf (h : Hd) (v md : BitVec 4) (d a : Code) (b : SrcB)
  | lscale (h : Hd) (v md : BitVec 4) (d a : Code) (b : SrcB)
  | labs (h : Hd) (v : BitVec 4) (d a : Code)
  | lneg (h : Hd) (v : BitVec 4) (d a : Code)
  | lmin (h : Hd) (v : BitVec 4) (d a : Code) (b : SrcB)
  | lmax (h : Hd) (v : BitVec 4) (d a : Code) (b : SrcB)
  | lcmp (h : Hd) (v md : BitVec 4) (cd : CBit) (a : Code) (b : SrcB)
  | lclass (h : Hd) (v : BitVec 4) (cd : CBit) (a : Code) (mask : BitVec 6)
  | lexp2 (h : Hd) (v md : BitVec 4) (d a : Code)
  | llog2 (h : Hd) (v md : BitVec 4) (d a : Code)
  | lclamp (h : Hd) (v : BitVec 4) (d a : Code) (b : SrcB)
  -- conversions (R119 to R125)
  | cvtfl (h : Hd) (v md : BitVec 4) (d a b : Code)
  | cvtlf (h : Hd) (v : BitVec 4) (d a : Code)
  | cvtil (h : Hd) (v : BitVec 4) (d a : Code)
  | cvtli (h : Hd) (v md : BitVec 4) (d a : Code)
  | cvtll (h : Hd) (v : BitVec 4) (d a b : Code)
  | cvtxl (h : Hd) (v : BitVec 4) (d a : Code) (q : BitVec 6)
  | cvtlx (h : Hd) (v md : BitVec 4) (d a : Code) (q : BitVec 6)
  | lfld (h : Hd) (v : BitVec 4) (d a b : Code)
  -- control (R93 to R104)
  | bra (h : Hd) (disp : BitVec 32)
  | jmp (h : Hd) (a : Code)
  | call (h : Hd) (disp : BitVec 32)
  | callr (h : Hd) (a : Code)
  | ret (h : Hd)
  | exit (h : Hd)
  | yield (h : Hd)
  | pause (h : Hd) (v : BitVec 4) (a : Code) (n : BitVec 32)
  | bar (h : Hd) (v : BitVec 4) (cd : CBit) (bar : BitVec 4) (n : BitVec 14)
  | barc (h : Hd) (v : BitVec 4) (cd : CBit) (bar : BitVec 4) (n : BitVec 14)
  | twait (h : Hd) (a : Code) (tok : BitVec 9)
  | tsignal (h : Hd) (v : BitVec 4) (a : Code) (tok : BitVec 9)
  | live (h : Hd) (mask : BitVec 48)
  | trap (h : Hd) (k : BitVec 32)
  | brk (h : Hd) (k : BitVec 32)
  -- memory (R126 to R145)
  | ldg (h : Hd) (v md : BitVec 4) (sc : BitVec 3) (d a : Code) (imm : BitVec 32)
  | ldgRc (h : Hd) (v md : BitVec 4) (sc : BitVec 3) (rc : CBit) (d a : Code) (imm : BitVec 32)
  | stg (h : Hd) (v md : BitVec 4) (sc : BitVec 3) (a b : Code) (imm : BitVec 32)
  | lds (h : Hd) (v md : BitVec 4) (d a : Code) (imm : BitVec 32)
  | sts (h : Hd) (v md : BitVec 4) (a b : Code) (imm : BitVec 32)
  | ldc (h : Hd) (v md : BitVec 4) (d a : Code) (core : BitVec 4) (off : BitVec 16)
  | stc (h : Hd) (v md : BitVec 4) (a b : Code) (core : BitVec 4) (off : BitVec 16)
  | stn (h : Hd) (v md : BitVec 4) (sc : BitVec 3) (a b c : Code) (imm : BitVec 32)
  | ldgu (h : Hd) (v md : BitVec 4) (sc : BitVec 3) (d a : Code) (imm : BitVec 32)
  | pref (h : Hd) (v : BitVec 4) (a : Code) (imm : BitVec 32)
  | touch (h : Hd) (cd : CBit) (a : Code) (imm : BitVec 32)
  | cctl (h : Hd) (v : BitVec 4) (a : Code) (imm : BitVec 32)
  | fence (h : Hd) (md : BitVec 4) (sc : BitVec 3)
  | promote (h : Hd) (v : BitVec 4) (sc : BitVec 3) (d a : Code) (imm : BitVec 32)
  -- atomics and combining (R146 to R156)
  | atom (h : Hd) (v md : BitVec 4) (sc : BitVec 3) (d a b c : Code) (imm : BitVec 32)
  | red (h : Hd) (v md : BitVec 4) (sc : BitVec 3) (a b : Code) (imm : BitVec 32)
  | atoms (h : Hd) (v md : BitVec 4) (d a b c : Code) (imm : BitVec 32)
  | comb (h : Hd) (v md : BitVec 4) (sc : BitVec 3) (d a b c : Code) (m : BitVec 5)
  | combr (h : Hd) (v md : BitVec 4) (sc : BitVec 3) (a b c : Code) (m : BitVec 5)
  | objld (h : Hd) (v : BitVec 4) (d a : Code) (imm : BitVec 32)
  | objst (h : Hd) (v : BitVec 4) (a b : Code) (imm : BitVec 32)
  | reply (h : Hd) (a : Code)
  | mabort (h : Hd)
  -- hashed grids (R157 to R161)
  | hgcfg (h : Hd) (a : Code) (imm : BitVec 32)
  | hgld (h : Hd) (d a : Code)
  | hgscat (h : Hd) (a b : Code)
  | hgidx (h : Hd) (v : BitVec 4) (d a : Code) (level : BitVec 4) (corner : BitVec 8)
  -- copy queues (R163 to R176)
  | cpy (h : Hd) (q : BitVec 2) (a : Code) (imm : BitVec 32)
  | cpyb (h : Hd) (q : BitVec 2) (a : Code) (bar : BitVec 4) (n : BitVec 14)
  | qfence (h : Hd) (q : BitVec 2) (md mask : BitVec 4)
  | qwait (h : Hd) (q : BitVec 2) (cd : CBit)
  | qstat (h : Hd) (q : BitVec 2) (d : Code)
  | qreset (h : Hd) (q : BitVec 2)
  | cpyt (h : Hd) (q : BitVec 2) (a b : Code) (tok : BitVec 9)
  -- tile tasks (R177 to R188)
  | tmma (h : Hd) (v : BitVec 4) (a b c : Code) (t : TaskField)
  | tmmas (h : Hd) (v : BitVec 4) (a b c : Code) (t : TaskField)
  | tzero (h : Hd) (t : TaskField)
  | tdrain (h : Hd) (a b c : Code) (t : TaskField)
  | tdapply (h : Hd) (a b c : Code) (t : TaskField)
  | tloadacc (h : Hd) (a : Code) (t : TaskField)
  | tamax (h : Hd) (v : BitVec 4) (d : Code) (n : BitVec 4)
  | tfence (h : Hd) (t : TaskField)
  | tfenceW (h : Hd)
  | evpop (h : Hd) (d : Code) (cc : CBit)
  | evwait (h : Hd) (d : Code)
  | ttok (h : Hd) (v : BitVec 4) (d a : Code) (tok : BitVec 6)
  | ttokClr (h : Hd)
  | flipv (h : Hd) (a b : Code)
  -- determinism and system (R190 to R199)
  | dgst (h : Hd) (d : Code)
  | postr (h : Hd) (a : Code)
  | sread (h : Hd) (v : BitVec 4) (d : Code) (n : BitVec 8)
  | swrite (h : Hd) (a : Code) (n : BitVec 8)
  | rte (h : Hd)
  | tlbinv (h : Hd) (a b : Code)
  | pcnt (h : Hd) (v : BitVec 4) (d : Code) (n : BitVec 8)
  | halt (h : Hd)
  | evsend (h : Hd) (v : BitVec 4) (a : Code) (code : BitVec 8)
  -- the device's own steps (95_what_each_step_holds.md)
  | loadDataReturn (req : Nat) (place : LoadPlace)
  | storePerform (req : Nat) (place : StorePlace)
  | homeAtomicPerform (place : AtomPlace)
  | registerLineFill (g : GroupRef) (line : Nat) (victim : Option VictimLine)
  | pauseExpiry (l : LaneRef)
  | barrierArrival (l : LaneRef)
  | trapEntry (g : GroupRef)
  | controlCoreTrapEntry (q : QuadRef)
  | pageWalk (req : Nat)
  | invalidationComplete (id : Nat)
  | pushToHome (req core : Nat)
  | promoteReturn (req : Nat)
  | lineRecall (line : Nat)
  | peerCompletion (req : Nat) (ok : Bool) (data : List Byte)
  | peerTimeout (req : Nat)
  | peerRequest (r : PeerAccess)
  | queueEntryAccept (l : LaneRef)
  | copyCommandStart (q : QueueRef)
  | copyCommandEnd (q : QueueRef)
  | qfenceComplete (q : QueueRef)
  | taskTableEntry (q : QuadRef)
  | taskStart (q : QuadRef) (drain : Bool)
  | taskFinish (q : QuadRef) (task : Nat)
  | taskComplete (q : QuadRef) (task : Nat)
  | batchAccept (batch : Nat)
  | gateAdmit (batch : Nat)
  | gateDivergence (slice line : Nat)
  | waveForm (slice : Nat)
  | waveBudgetExceeded (slice : Nat)
  | waveCommit (slice : Nat)
  | waveFault (slice : Nat)
  | combReply (req : Nat)
  | eventRingWrite
  | doorbell (slot : Fin 8)
  | preempt (v : DWord)
  | nodeStart (n : NodeRef)
  | launch (n : NodeRef)
  | bulk (n : NodeRef)
  | flip (n : NodeRef)
  | signal (n : NodeRef)
  | waitw (n : NodeRef)
  | waitwTimeout (n : NodeRef)
  | branch (n : NodeRef)
  | nodeEnd (n : NodeRef)
  | clusterStart (grid row col : Nat)
  | clusterEnd (cid : Nat)
  | clusterRetire (grid : Nat)
  | gridAbort (grid : Nat)
  | quantumExpiry (grid : Nat)
  | clusterPreemption (cid : Nat)
  | clusterResume (cid row col : Nat)
  | machineCheck (w : ErrorPlace)
  | throttle (on : Bool)
  | thermalTrip
  | freeze
  | freezeSaveAll
  | freezeResume
  | invlen (v : DWord)
  | attreq
  | registerWrite (off : Nat) (v : DWord)
  | hostAccess (a : HostMove)
  | coldReset
  | warmReset
  | linkRetrain (port : Fin 5)
  | hardwarePrefetch (core va : Nat) (fill : Bool)
  | powerRemoved
  deriving DecidableEq, Repr, Inhabited

/-- A block that counts its own local cycles (R3). -/
inductive ClockUnit where
  | core (n : Nat)
  | quad (n : Nat)
  | slice (n : Nat)
  | cp
  deriving DecidableEq, Repr, Inhabited

/-- A block that keeps instruction words (R36, R38, R306). -/
inductive FetchUnit where
  | core (n : Nat)
  | quad (n : Nat)
  | slice (n : Nat)
  deriving DecidableEq, Repr, Inhabited

/-- A cached thing that a policy which programs cannot see lets go (R245, R262, R281, R289). -/
inductive Evict where
  | code (u : FetchUnit)
  | l2 (slice line : Nat)
  | l1 (core line : Nat)
  | tlb (core page : Nat)
  | quadTlb (quad page : Nat)
  | walkCache (quad : Nat)
  | predictor (core entry : Nat)
  | regLine (v : VictimLine)
  deriving DecidableEq, Repr, Inhabited

/-- Which part of the device moves next. -/
inductive Turn where
  | port (cid team port : Nat)
  | control (q : QuadRef)
  | wave (slice : Nat)
  | event (i : Instr)
  | clock (u : ClockUnit) (cycles : Nat)
  | evict (e : Evict)
  | fetchAhead (u : FetchUnit) (grid va : Nat)
  | fillL2 (slice line : Nat) (sectors : BitVec 4)
  | submit (slot : Nat)
  | wakeHalted (q : QuadRef)
  | errorCount (uncorrected : Bool) (detail : DWord)
  | sensors (temp current : DWord)
  deriving DecidableEq, Repr, Inhabited

end Sys2Proof
end

