-- ==== Sys2Proof/Config.lean ====
section
/-! DEFINITION. What the spec leaves open and what one module is made with: constants with no body, so that no
proof can see their values. -/

namespace Sys2Proof.Config

/-- Which part of the device moves when the agenda names none (R243 and R254 promise no order between them). -/
opaque freeTurn : Nat → Turn

/-- Whether a contention-predictor entry shows few recalls, so that the core may request ownership (R281). -/
opaque fewRecalls : BitVec 2 → Bool

/-- How an access that the device makes to a peer within one step comes back, at a moment and an address: the peer is
no part of this device (R298, R299). -/
opaque peerAnswer : Nat → Nat → PeerAnswer

/-- A byte that such an access reads, at a moment and an address. -/
opaque peerByte : Nat → Nat → Byte

/-- TAUX of a SPACE trap whose instruction names no core and no quad, at a moment (R194 states none). -/
opaque spaceAux : Nat → DWord

/-! What one module is made with (R1, R355). The firmware store is the module's flash of 64 MiB, which no step of the device
writes; the spec gives no layout of the image in it (log 71). -/

/-- The bytes of the flash. -/
opaque flash : Nat → Byte

/-- Where the signed image lies in the flash: its offset and its length. -/
opaque imageSpan : Nat × Nat

/-- The offset of the image's signature, r then s. -/
opaque signatureAt : Nat

/-- The offset of the public firmware key, its two coordinates. -/
opaque keyAt : Nat

/-- The offset of the image's version. -/
opaque versionAt : Nat

/-- The fused SHA-384 of the firmware key. -/
opaque firmwareKeyHash : List Byte

/-- The fused anti-rollback counter. -/
opaque rollbackCounter : BitVec 32

/-- The configuration that a report hashes: fuses, debug lock, boot ROM version. -/
opaque configuration : List Byte

/-- The identity certificate. -/
opaque certificate : List Byte

/-- The private half of the fused identity key. -/
opaque identityKey : Nat

/-- The ephemeral number of a signature made at a moment. -/
opaque signNonce : Nat → Nat

end Sys2Proof.Config
end

