-- ==== Sys2Proof/Decode.lean ====
section
/-! DEFINITION. Decoding and encoding (R17 to R39): words to fields, fields to instructions, and back. Every
undefined encoding that does not depend on the engine is rejected here by name; what depends on the engine (R22,
R23, R25, R50) stands in Machine/Operands.lean. -/

namespace Sys2Proof

/-! ### Bit fields and byte order -/

/-- Bits [lo+n-1:lo] of a natural number. -/
def bitsAt (x lo n : Nat) : Nat := (x >>> lo) % 2 ^ n

/-- Bits [lo+n-1:lo] of a bit vector, as a bit vector of n bits. -/
def slice {w : Nat} (x : BitVec w) (lo n : Nat) : BitVec n := x.extractLsb' lo n

/-- A natural number of n bits read as two's complement. -/
def sextNat (n x : Nat) : Int :=
  let y := x % 2 ^ n
  if y < 2 ^ (n - 1) then (y : Int) else (y : Int) - (2 ^ n : Nat)

/-- The n low bytes of a number, least significant first (R8). -/
def toBytesLE : Nat → Nat → List Byte
  | 0, _ => []
  | n + 1, x => BitVec.ofNat 8 x :: toBytesLE n (x / 256)

/-- The number that bytes spell, least significant first (R8). -/
def ofBytesLE : List Byte → Nat
  | [] => 0
  | b :: bs => b.toNat + 256 * ofBytesLE bs

/-! ### The fields of an instruction (R18 to R21) -/

/-- Every field of an instruction; a form that lacks words 1 and 2 has the fields of R32, with SC 0 standing for
the default scope. -/
structure Fields where
  len : Len
  op : BitVec 8 := 0
  sub : BitVec 4 := 0
  d : Code := 0
  a : Code := 0
  b : Code := 0
  c : Code := 0
  sc : BitVec 3 := 0
  md : BitVec 4 := 0
  g : CBit := 7
  gn : Bool := false
  re : Bool := false
  rc : CBit := 0
  imm : Word := 0
  lit : DWord := 0
  deriving DecidableEq, Repr

/-- Why a word sequence is no instruction of any engine (R34). -/
inductive Reject where
  /-- fewer words than LEN asks for -/
  | truncated
  /-- word 1 bits [31:29] are not 0 (R34 4) -/
  | reservedBits
  /-- OP is an undefined slot (R34 1) -/
  | opcode
  /-- a field that the instruction does not use is not 0, or a condition-bit field, RE or RC is out of its rule (R34 6, 7, 9) -/
  | field
  /-- LEN, SUB, MD, SC or an immediate holds a value that the entry does not define (R34 2, 3, 5) -/
  | variant
  deriving DecidableEq, Repr

/-- LEN's two bits (R19). -/
def Len.toBits : Len → BitVec 2
  | .base => 0
  | .ext => 1
  | .lit => 2
  | .extLit => 3

/-- LEN from its two bits (R19). -/
def Len.ofBits (x : BitVec 2) : Len :=
  if x = 0 then .base else if x = 1 then .ext else if x = 2 then .lit else .extLit

/-- The number of words of each form (R19). -/
def Len.words : Len → Nat
  | .base => 1
  | .ext => 3
  | .lit => 3
  | .extLit => 5

/-- The number of bytes of each form (R17). -/
def Len.bytes (l : Len) : Nat := 4 * l.words

/-- Whether words 1 and 2 are the extension and IMM (R19). -/
def Len.hasExt : Len → Bool
  | .ext | .extLit => true
  | _ => false

/-- Whether a literal follows (R19). -/
def Len.hasLit : Len → Bool
  | .lit | .extLit => true
  | _ => false

/-- Word 0 (R18). -/
def Fields.word0 (f : Fields) : Word :=
  slice f.b 0 6 ++ slice f.a 0 6 ++ slice f.d 0 6 ++ f.sub ++ f.op ++ f.len.toBits

/-- Word 1 of the extended forms (R20). -/
def Fields.word1 (f : Fields) : Word :=
  (0 : BitVec 3) ++ BitVec.ofBool f.re ++ f.rc ++ f.md ++ f.sc ++ BitVec.ofBool f.gn ++ f.g ++ f.c
    ++ slice f.b 6 2 ++ slice f.a 6 2 ++ slice f.d 6 2

/-- The words of an instruction, word 0 first (R19). -/
def Fields.toWords (f : Fields) : List Word :=
  match f.len with
  | .base => [f.word0]
  | .ext => [f.word0, f.word1, f.imm]
  | .lit => [f.word0, slice f.lit 0 32, slice f.lit 32 32]
  | .extLit => [f.word0, f.word1, f.imm, slice f.lit 0 32, slice f.lit 32 32]

/-- The fields of a base form (R18, R32). -/
def Fields.ofWord0 (w0 : Word) : Fields where
  len := Len.ofBits (slice w0 0 2)
  op := slice w0 2 8
  sub := slice w0 10 4
  d := (0 : BitVec 2) ++ slice w0 14 6
  a := (0 : BitVec 2) ++ slice w0 20 6
  b := (0 : BitVec 2) ++ slice w0 26 6

/-- The fields of an extended form (R18, R20, R21). -/
def Fields.ofWord01 (w0 w1 imm : Word) : Fields where
  len := Len.ofBits (slice w0 0 2)
  op := slice w0 2 8
  sub := slice w0 10 4
  d := slice w1 0 2 ++ slice w0 14 6
  a := slice w1 2 2 ++ slice w0 20 6
  b := slice w1 4 2 ++ slice w0 26 6
  c := slice w1 6 8
  g := slice w1 14 3
  gn := w1.getLsbD 17
  sc := slice w1 18 3
  md := slice w1 21 4
  rc := slice w1 25 3
  re := w1.getLsbD 28
  imm := imm

/-- The fields that a word sequence holds (R18 to R21); the words after the instruction are not read. -/
def Fields.ofWords (ws : List Word) : Except Reject Fields :=
  match ws with
  | [] => .error .truncated
  | w0 :: rest =>
    match Len.ofBits (slice w0 0 2), rest with
    | .base, _ => .ok (Fields.ofWord0 w0)
    | .ext, w1 :: imm :: _ =>
      if slice w1 29 3 = 0 then .ok (Fields.ofWord01 w0 w1 imm) else .error .reservedBits
    | .lit, lo :: hi :: _ => .ok { Fields.ofWord0 w0 with lit := hi ++ lo }
    | .extLit, w1 :: imm :: lo :: hi :: _ =>
      if slice w1 29 3 = 0 then .ok { Fields.ofWord01 w0 w1 imm with lit := hi ++ lo } else .error .reservedBits
    | _, _ => .error .truncated

/-! ### The opcode map (R50) and the shape of each entry -/

/-- The opcode of each instruction (R50); the device's own steps have none. -/
def Instr.op : Instr → Option (BitVec 8)
  | .nop .. => some 0x00
  | .iadd .. => some 0x01
  | .isub .. => some 0x02
  | .imul .. => some 0x03
  | .imulh .. => some 0x04
  | .imad .. => some 0x05
  | .imin .. => some 0x06
  | .imax .. => some 0x07
  | .iabs .. => some 0x08
  | .ineg .. => some 0x09
  | .icmp .. => some 0x0A
  | .iaddc .. => some 0x0B
  | .lea .. => some 0x0C
  | .and .. => some 0x0D
  | .or .. => some 0x0E
  | .xor .. => some 0x0F
  | .andn .. => some 0x10
  | .not .. => some 0x11
  | .shl .. => some 0x12
  | .shr .. => some 0x13
  | .sar .. => some 0x14
  | .rotl .. => some 0x15
  | .bfx .. => some 0x16
  | .bfi .. => some 0x17
  | .popc .. => some 0x18
  | .clz .. => some 0x19
  | .ctz .. => some 0x1A
  | .brev .. => some 0x1B
  | .sel .. => some 0x1C
  | .mov .. => some 0x1D
  | .movi .. => some 0x1E
  | .cbit .. => some 0x1F
  | .padd2 .. => some 0x20
  | .psub2 .. => some 0x21
  | .pmul2 .. => some 0x22
  | .pmac2 .. => some 0x23
  | .pmin2 .. => some 0x24
  | .pmax2 .. => some 0x25
  | .pshr2 .. => some 0x26
  | .pnarrow .. => some 0x27
  | .punpk .. => some 0x28
  | .padd4 .. => some 0x29
  | .pdot4 .. => some 0x2A
  | .pcmp2 .. => some 0x2B
  | .bcmp .. => some 0x2C
  | .bfind .. => some 0x2D
  | .bhash .. => some 0x2E
  | .bcrc .. => some 0x2F
  | .shfl .. => some 0x30
  | .slide .. => some 0x31
  | .vote .. => some 0x32
  | .scan .. => some 0x33
  | .redux .. => some 0x34
  | .matchLanes .. => some 0x35
  | .bcast .. => some 0x36
  | .gmov .. => some 0x37
  | .lmul .. => some 0x40
  | .ldiv .. => some 0x41
  | .ladd .. => some 0x42
  | .lsub .. => some 0x43
  | .lmad .. => some 0x44
  | .lmsb .. => some 0x45
  | .lsqrt .. => some 0x46
  | .lrsqrt .. => some 0x47
  | .lsqr .. => some 0x48
  | .lrcp .. => some 0x49
  | .lpowi .. => some 0x4A
  | .lpowf .. => some 0x4B
  | .lscale .. => some 0x4C
  | .labs .. => some 0x4D
  | .lneg .. => some 0x4E
  | .lmin .. => some 0x4F
  | .lmax .. => some 0x50
  | .lcmp .. => some 0x51
  | .lclass .. => some 0x52
  | .lexp2 .. => some 0x53
  | .llog2 .. => some 0x54
  | .lclamp .. => some 0x55
  | .cvtfl .. => some 0x58
  | .cvtlf .. => some 0x59
  | .cvtil .. => some 0x5A
  | .cvtli .. => some 0x5B
  | .cvtll .. => some 0x5C
  | .cvtxl .. => some 0x5D
  | .cvtlx .. => some 0x5E
  | .lfld .. => some 0x5F
  | .bra .. => some 0x60
  | .jmp .. => some 0x62
  | .call .. => some 0x63
  | .callr .. => some 0x64
  | .ret .. => some 0x65
  | .exit .. => some 0x66
  | .yield .. => some 0x67
  | .pause .. => some 0x68
  | .bar .. => some 0x69
  | .barc .. => some 0x6A
  | .twait .. => some 0x6B
  | .tsignal .. => some 0x6C
  | .live .. => some 0x6D
  | .trap .. => some 0x6E
  | .brk .. => some 0x6F
  | .ldg .. => some 0x70
  | .ldgRc .. => some 0x70
  | .stg .. => some 0x71
  | .lds .. => some 0x72
  | .sts .. => some 0x73
  | .ldc .. => some 0x74
  | .stc .. => some 0x75
  | .stn .. => some 0x76
  | .ldgu .. => some 0x77
  | .pref .. => some 0x78
  | .touch .. => some 0x79
  | .cctl .. => some 0x7A
  | .fence .. => some 0x7B
  | .promote .. => some 0x7C
  | .atom .. => some 0x80
  | .red .. => some 0x81
  | .atoms .. => some 0x82
  | .comb .. => some 0x83
  | .combr .. => some 0x84
  | .objld .. => some 0x88
  | .objst .. => some 0x89
  | .reply .. => some 0x8A
  | .mabort .. => some 0x8B
  | .hgcfg .. => some 0x90
  | .hgld .. => some 0x91
  | .hgscat .. => some 0x92
  | .hgidx .. => some 0x93
  | .cpy .. => some 0xA0
  | .cpyb .. => some 0xA1
  | .qfence .. => some 0xA2
  | .qwait .. => some 0xA3
  | .qstat .. => some 0xA4
  | .qreset .. => some 0xA5
  | .cpyt .. => some 0xA6
  | .tmma .. => some 0xB0
  | .tmmas .. => some 0xB1
  | .tzero .. => some 0xB2
  | .tdrain .. => some 0xB3
  | .tdapply .. => some 0xB4
  | .tloadacc .. => some 0xB5
  | .tamax .. => some 0xB6
  | .tfence .. => some 0xB7
  | .tfenceW .. => some 0xB7
  | .evpop .. => some 0xB8
  | .evwait .. => some 0xB9
  | .ttok .. => some 0xBB
  | .ttokClr .. => some 0xBB
  | .flipv .. => some 0xBC
  | .dgst .. => some 0xC0
  | .postr .. => some 0xC1
  | .sread .. => some 0xE0
  | .swrite .. => some 0xE1
  | .rte .. => some 0xE2
  | .tlbinv .. => some 0xE3
  | .pcnt .. => some 0xE4
  | .halt .. => some 0xE5
  | .evsend .. => some 0xE6
  | .loadDataReturn .. => none
  | .storePerform .. => none
  | .homeAtomicPerform .. => none
  | .registerLineFill .. => none
  | .pauseExpiry .. => none
  | .barrierArrival .. => none
  | .trapEntry .. => none
  | .controlCoreTrapEntry .. => none
  | .pageWalk .. => none
  | .invalidationComplete .. => none
  | .pushToHome .. => none
  | .promoteReturn .. => none
  | .lineRecall .. => none
  | .peerCompletion .. => none
  | .peerTimeout .. => none
  | .peerRequest .. => none
  | .queueEntryAccept .. => none
  | .copyCommandStart .. => none
  | .copyCommandEnd .. => none
  | .qfenceComplete .. => none
  | .taskTableEntry .. => none
  | .taskStart .. => none
  | .taskFinish .. => none
  | .taskComplete .. => none
  | .batchAccept .. => none
  | .gateAdmit .. => none
  | .gateDivergence .. => none
  | .waveForm .. => none
  | .waveBudgetExceeded .. => none
  | .waveCommit .. => none
  | .waveFault .. => none
  | .combReply .. => none
  | .eventRingWrite => none
  | .doorbell .. => none
  | .preempt .. => none
  | .nodeStart .. => none
  | .launch .. => none
  | .bulk .. => none
  | .flip .. => none
  | .signal .. => none
  | .waitw .. => none
  | .waitwTimeout .. => none
  | .branch .. => none
  | .nodeEnd .. => none
  | .clusterStart .. => none
  | .clusterEnd .. => none
  | .clusterRetire .. => none
  | .gridAbort .. => none
  | .quantumExpiry .. => none
  | .clusterPreemption .. => none
  | .clusterResume .. => none
  | .machineCheck .. => none
  | .throttle .. => none
  | .thermalTrip => none
  | .freeze => none
  | .freezeSaveAll => none
  | .freezeResume => none
  | .invlen .. => none
  | .attreq => none
  | .registerWrite .. => none
  | .hostAccess .. => none
  | .coldReset => none
  | .warmReset => none
  | .linkRetrain .. => none
  | .hardwarePrefetch .. => none
  | .powerRemoved => none

/-- What an entry defines: the forms it accepts (bit 0 base, 1 extended, 2 literal, 3 extended and literal; R31), its
SUB values and its MD values (one bit each, R29), and whether it takes a scope (R28). -/
structure Shape where
  lens : BitVec 4
  subs : BitVec 16
  mds : BitVec 16
  takesScope : Bool
  deriving DecidableEq, Repr

/-- The shape of each instruction, from R31, the tables of R69 to R125, R126, R163 and the entries. -/
def Instr.shape : Instr → Option Shape
  | .nop .. => some ⟨3, 0x1, 0x1, false⟩
  | .iadd .. => some ⟨15, 0x77, 0x1, false⟩
  | .isub .. => some ⟨15, 0x77, 0x1, false⟩
  | .imul .. => some ⟨15, 0x77, 0x1, false⟩
  | .imulh .. => some ⟨15, 0x55, 0x1, false⟩
  | .imad .. => some ⟨10, 0x77, 0x1, false⟩
  | .imin .. => some ⟨15, 0x55, 0x1, false⟩
  | .imax .. => some ⟨15, 0x55, 0x1, false⟩
  | .iabs .. => some ⟨3, 0x33, 0x1, false⟩
  | .ineg .. => some ⟨3, 0x33, 0x1, false⟩
  | .icmp .. => some ⟨15, 0x3FF, 0x3, false⟩
  | .iaddc .. => some ⟨10, 0x33, 0x1, false⟩
  | .lea .. => some ⟨15, 0xFFFF, 0x1, false⟩
  | .and .. => some ⟨15, 0x11, 0x1, false⟩
  | .or .. => some ⟨15, 0x11, 0x1, false⟩
  | .xor .. => some ⟨15, 0x11, 0x1, false⟩
  | .andn .. => some ⟨15, 0x11, 0x1, false⟩
  | .not .. => some ⟨3, 0x11, 0x1, false⟩
  | .shl .. => some ⟨15, 0x11, 0x1, false⟩
  | .shr .. => some ⟨15, 0x11, 0x1, false⟩
  | .sar .. => some ⟨15, 0x11, 0x1, false⟩
  | .rotl .. => some ⟨15, 0x11, 0x1, false⟩
  | .bfx .. => some ⟨15, 0x33, 0x1, false⟩
  | .bfi .. => some ⟨10, 0x11, 0x1, false⟩
  | .popc .. => some ⟨3, 0x11, 0x1, false⟩
  | .clz .. => some ⟨3, 0x11, 0x1, false⟩
  | .ctz .. => some ⟨3, 0x11, 0x1, false⟩
  | .brev .. => some ⟨3, 0x11, 0x1, false⟩
  | .sel .. => some ⟨15, 0xFFFF, 0x1, false⟩
  | .mov .. => some ⟨3, 0x11, 0x1, false⟩
  | .movi .. => some ⟨14, 0x7, 0x1, false⟩
  | .cbit .. => some ⟨3, 0xFF, 0x1, false⟩
  | .padd2 .. => some ⟨15, 0x7, 0x1, false⟩
  | .psub2 .. => some ⟨15, 0x7, 0x1, false⟩
  | .pmul2 .. => some ⟨15, 0x3, 0x1, false⟩
  | .pmac2 .. => some ⟨15, 0x1, 0x1, false⟩
  | .pmin2 .. => some ⟨15, 0x5, 0x1, false⟩
  | .pmax2 .. => some ⟨15, 0x5, 0x1, false⟩
  | .pshr2 .. => some ⟨15, 0x3, 0x1, false⟩
  | .pnarrow .. => some ⟨15, 0xFFFF, 0x1, false⟩
  | .punpk .. => some ⟨3, 0xFFF, 0x1, false⟩
  | .padd4 .. => some ⟨15, 0x7, 0x1, false⟩
  | .pdot4 .. => some ⟨15, 0x7, 0x1, false⟩
  | .pcmp2 .. => some ⟨15, 0x3F, 0x1, false⟩
  | .bcmp .. => some ⟨15, 0x7, 0x1, false⟩
  | .bfind .. => some ⟨15, 0x3, 0x1, false⟩
  | .bhash .. => some ⟨3, 0x3, 0x1, false⟩
  | .bcrc .. => some ⟨3, 0x7, 0x1, false⟩
  | .shfl .. => some ⟨3, 0xFFFF, 0x1, false⟩
  | .slide .. => some ⟨2, 0xF, 0x1, false⟩
  | .vote .. => some ⟨3, 0xF, 0x1, false⟩
  | .scan .. => some ⟨3, 0x3F, 0x3, false⟩
  | .redux .. => some ⟨3, 0x3F, 0x1, false⟩
  | .matchLanes .. => some ⟨3, 0x11, 0x1, false⟩
  | .bcast .. => some ⟨3, 0x3, 0x1, false⟩
  | .gmov .. => some ⟨3, 0x1, 0x1, false⟩
  | .lmul .. => some ⟨15, 0x7, 0x3, false⟩
  | .ldiv .. => some ⟨15, 0x7, 0x3, false⟩
  | .ladd .. => some ⟨15, 0x7, 0x3, false⟩
  | .lsub .. => some ⟨15, 0x7, 0x3, false⟩
  | .lmad .. => some ⟨10, 0x7, 0x3, false⟩
  | .lmsb .. => some ⟨10, 0x7, 0x3, false⟩
  | .lsqrt .. => some ⟨3, 0x7, 0x1, false⟩
  | .lrsqrt .. => some ⟨3, 0x7, 0x3, false⟩
  | .lsqr .. => some ⟨3, 0x7, 0x3, false⟩
  | .lrcp .. => some ⟨3, 0x7, 0x3, false⟩
  | .lpowi .. => some ⟨15, 0x7, 0x3, false⟩
  | .lpowf .. => some ⟨15, 0x7, 0x3, false⟩
  | .lscale .. => some ⟨15, 0x77, 0x3, false⟩
  | .labs .. => some ⟨3, 0x7, 0x1, false⟩
  | .lneg .. => some ⟨3, 0x7, 0x1, false⟩
  | .lmin .. => some ⟨15, 0x77, 0x1, false⟩
  | .lmax .. => some ⟨15, 0x77, 0x1, false⟩
  | .lcmp .. => some ⟨15, 0x3, 0xFF, false⟩
  | .lclass .. => some ⟨2, 0x3, 0x1, false⟩
  | .lexp2 .. => some ⟨3, 0x7, 0x3, false⟩
  | .llog2 .. => some ⟨3, 0x7, 0x3, false⟩
  | .lclamp .. => some ⟨15, 0x7, 0x1, false⟩
  | .cvtfl .. => some ⟨3, 0x773, 0x3, false⟩
  | .cvtlf .. => some ⟨3, 0x677, 0x1, false⟩
  | .cvtil .. => some ⟨3, 0x3333, 0x1, false⟩
  | .cvtli .. => some ⟨3, 0x3333, 0xFF, false⟩
  | .cvtll .. => some ⟨3, 0x27, 0x1, false⟩
  | .cvtxl .. => some ⟨2, 0x33, 0x1, false⟩
  | .cvtlx .. => some ⟨2, 0x33, 0xFF, false⟩
  | .lfld .. => some ⟨3, 0xF, 0x1, false⟩
  | .bra .. => some ⟨3, 0x1, 0x1, false⟩
  | .jmp .. => some ⟨3, 0x1, 0x1, false⟩
  | .call .. => some ⟨3, 0x1, 0x1, false⟩
  | .callr .. => some ⟨3, 0x1, 0x1, false⟩
  | .ret .. => some ⟨3, 0x1, 0x1, false⟩
  | .exit .. => some ⟨3, 0x1, 0x1, false⟩
  | .yield .. => some ⟨3, 0x1, 0x1, false⟩
  | .pause .. => some ⟨3, 0x3, 0x1, false⟩
  | .bar .. => some ⟨2, 0x7, 0x1, false⟩
  | .barc .. => some ⟨2, 0x7, 0x1, false⟩
  | .twait .. => some ⟨2, 0x1, 0x1, false⟩
  | .tsignal .. => some ⟨2, 0x3, 0x1, false⟩
  | .live .. => some ⟨2, 0x1, 0x1, false⟩
  | .trap .. => some ⟨2, 0x1, 0x1, false⟩
  | .brk .. => some ⟨2, 0x1, 0x1, false⟩
  | .ldg .. => some ⟨3, 0x31F, 0x7, true⟩
  | .ldgRc .. => some ⟨2, 0x31F, 0x7, true⟩
  | .stg .. => some ⟨3, 0x1F, 0x3, true⟩
  | .lds .. => some ⟨3, 0x31F, 0xFF, false⟩
  | .sts .. => some ⟨3, 0x1F, 0xFF, false⟩
  | .ldc .. => some ⟨2, 0x31F, 0xFF, false⟩
  | .stc .. => some ⟨2, 0x1F, 0xFF, false⟩
  | .stn .. => some ⟨2, 0x1C, 0x3, true⟩
  | .ldgu .. => some ⟨3, 0xC, 0x3, true⟩
  | .pref .. => some ⟨3, 0x3, 0x1, false⟩
  | .touch .. => some ⟨3, 0x1, 0x1, false⟩
  | .cctl .. => some ⟨3, 0x3, 0x1, false⟩
  | .fence .. => some ⟨3, 0x1, 0x7, true⟩
  | .promote .. => some ⟨3, 0xC, 0x1, true⟩
  | .atom .. => some ⟨3, 0xFFF, 0xFFFF, true⟩
  | .red .. => some ⟨3, 0xE7F, 0xFFFF, true⟩
  | .atoms .. => some ⟨3, 0xFFF, 0x1111, false⟩
  | .comb .. => some ⟨2, 0x7, 0xF, true⟩
  | .combr .. => some ⟨2, 0x7, 0xF, true⟩
  | .objld .. => some ⟨3, 0x31F, 0x1, false⟩
  | .objst .. => some ⟨3, 0x1F, 0x1, false⟩
  | .reply .. => some ⟨3, 0x1, 0x1, false⟩
  | .mabort .. => some ⟨3, 0x1, 0x1, false⟩
  | .hgcfg .. => some ⟨3, 0x1, 0x1, false⟩
  | .hgld .. => some ⟨3, 0x1, 0x1, false⟩
  | .hgscat .. => some ⟨3, 0x1, 0x1, false⟩
  | .hgidx .. => some ⟨2, 0x7, 0x1, false⟩
  | .cpy .. => some ⟨3, 0xF, 0x1, false⟩
  | .cpyb .. => some ⟨2, 0xF, 0x1, false⟩
  | .qfence .. => some ⟨2, 0xF, 0x3, false⟩
  | .qwait .. => some ⟨3, 0xF, 0x1, false⟩
  | .qstat .. => some ⟨3, 0xF, 0x1, false⟩
  | .qreset .. => some ⟨3, 0xF, 0x1, false⟩
  | .cpyt .. => some ⟨2, 0xF, 0x1, false⟩
  | .tmma .. => some ⟨2, 0x3, 0x1, false⟩
  | .tmmas .. => some ⟨2, 0x3, 0x1, false⟩
  | .tzero .. => some ⟨2, 0x1, 0x1, false⟩
  | .tdrain .. => some ⟨2, 0x1, 0x1, false⟩
  | .tdapply .. => some ⟨2, 0x1, 0x1, false⟩
  | .tloadacc .. => some ⟨2, 0x1, 0x1, false⟩
  | .tamax .. => some ⟨2, 0x3, 0x1, false⟩
  | .tfence .. => some ⟨2, 0x1, 0x1, false⟩
  | .tfenceW .. => some ⟨3, 0x2, 0x1, false⟩
  | .evpop .. => some ⟨2, 0x1, 0x1, false⟩
  | .evwait .. => some ⟨3, 0x1, 0x1, false⟩
  | .ttok .. => some ⟨2, 0x1F, 0x1, false⟩
  | .ttokClr .. => some ⟨3, 0x20, 0x1, false⟩
  | .flipv .. => some ⟨3, 0x1, 0x1, false⟩
  | .dgst .. => some ⟨3, 0x1, 0x1, false⟩
  | .postr .. => some ⟨3, 0x1, 0x1, false⟩
  | .sread .. => some ⟨2, 0x3, 0x1, false⟩
  | .swrite .. => some ⟨2, 0x1, 0x1, false⟩
  | .rte .. => some ⟨3, 0x1, 0x1, false⟩
  | .tlbinv .. => some ⟨3, 0x1, 0x1, false⟩
  | .pcnt .. => some ⟨2, 0x3, 0x1, false⟩
  | .halt .. => some ⟨3, 0x1, 0x1, false⟩
  | .evsend .. => some ⟨2, 0x3, 0x1, false⟩
  | .loadDataReturn .. => none
  | .storePerform .. => none
  | .homeAtomicPerform .. => none
  | .registerLineFill .. => none
  | .pauseExpiry .. => none
  | .barrierArrival .. => none
  | .trapEntry .. => none
  | .controlCoreTrapEntry .. => none
  | .pageWalk .. => none
  | .invalidationComplete .. => none
  | .pushToHome .. => none
  | .promoteReturn .. => none
  | .lineRecall .. => none
  | .peerCompletion .. => none
  | .peerTimeout .. => none
  | .peerRequest .. => none
  | .queueEntryAccept .. => none
  | .copyCommandStart .. => none
  | .copyCommandEnd .. => none
  | .qfenceComplete .. => none
  | .taskTableEntry .. => none
  | .taskStart .. => none
  | .taskFinish .. => none
  | .taskComplete .. => none
  | .batchAccept .. => none
  | .gateAdmit .. => none
  | .gateDivergence .. => none
  | .waveForm .. => none
  | .waveBudgetExceeded .. => none
  | .waveCommit .. => none
  | .waveFault .. => none
  | .combReply .. => none
  | .eventRingWrite => none
  | .doorbell .. => none
  | .preempt .. => none
  | .nodeStart .. => none
  | .launch .. => none
  | .bulk .. => none
  | .flip .. => none
  | .signal .. => none
  | .waitw .. => none
  | .waitwTimeout .. => none
  | .branch .. => none
  | .nodeEnd .. => none
  | .clusterStart .. => none
  | .clusterEnd .. => none
  | .clusterRetire .. => none
  | .gridAbort .. => none
  | .quantumExpiry .. => none
  | .clusterPreemption .. => none
  | .clusterResume .. => none
  | .machineCheck .. => none
  | .throttle .. => none
  | .thermalTrip => none
  | .freeze => none
  | .freezeSaveAll => none
  | .freezeResume => none
  | .invlen .. => none
  | .attreq => none
  | .registerWrite .. => none
  | .hostAccess .. => none
  | .coldReset => none
  | .warmReset => none
  | .linkRetrain .. => none
  | .hardwarePrefetch .. => none
  | .powerRemoved => none

/-! ### Instructions and their fields -/

/-- A token field (R102): IMM[8:0]. -/
abbrev TokField := BitVec 9

/-- IMM of a tile task (R163). -/
def TaskField.toImm (t : TaskField) : Word := t.tag ++ (0 : BitVec 7) ++ BitVec.ofBool t.quiet ++ t.tile

/-- The task field of an IMM (R163). -/
def TaskField.ofImm (w : Word) : TaskField := ⟨slice w 0 8, w.getLsbD 8, slice w 16 16⟩

/-- The fields that an instruction's head fixes. -/
def Hd.fields (h : Hd) (op : BitVec 8) : Fields := { len := h.len, op := op, g := h.guard.bit, gn := h.guard.neg }

/-- The head that the fields give. -/
def Fields.hd (f : Fields) : Hd := ⟨f.len, ⟨f.g, f.gn⟩⟩

/-- Operand B as the fields give it (R31). -/
def Fields.srcB (f : Fields) : SrcB := if f.len.hasLit then .lit f.lit else .reg f.b

/-- The B field of an operand B (R31). -/
def SrcB.code : SrcB → Code
  | .reg c => c
  | .lit _ => 0

/-- The literal of an operand B (R31). -/
def SrcB.literal : SrcB → DWord
  | .reg _ => 0
  | .lit v => v

/-- SC as a form carries it: a base form carries none (R28, R32). -/
def scField (l : Len) (sc : BitVec 3) : BitVec 3 := if l.hasExt then sc else 0

/-- The scope that a form names: a base form names the default, device (R28, R126). -/
def Fields.scope (f : Fields) : BitVec 3 := if f.len.hasExt then f.sc else 4

/-- The displacement of BRA and CALL (R93). -/
def Fields.disp (f : Fields) : Word :=
  if f.len.hasExt then f.imm else (slice f.b 0 6 ++ slice f.a 0 6 ++ slice f.d 0 6 : BitVec 18).signExtend 32

/-- The fields of BRA and CALL (R93). -/
def dispFields (h : Hd) (op : BitVec 8) (disp : Word) : Fields :=
  if h.len.hasExt then { h.fields op with imm := disp }
  else { h.fields op with d := (0 : BitVec 2) ++ slice disp 0 6, a := (0 : BitVec 2) ++ slice disp 6 6,
                          b := (0 : BitVec 2) ++ slice disp 12 6 }

/-- The mask of LIVE (R103). -/
def Fields.liveMask (f : Fields) : BitVec 48 := slice f.b 0 4 ++ slice f.a 0 6 ++ slice f.d 0 6 ++ f.imm

/-- The value of MOVI (R77): the literal, or IMM. -/
def Fields.constant (f : Fields) : DWord := if f.len.hasLit then f.lit else f.imm.zeroExtend 64

/-- A condition-bit index as an operand code (R24). -/
def CBit.code (c : CBit) : Code := c.zeroExtend 8

/-- The condition-bit index of an operand code; bits above [2:0] are checked by the round trip of decode (R24). -/
def Code.cbit (c : Code) : CBit := slice c 0 3

/-- The fields of an instruction: every field its entry does not use is 0 (R26). A device step has none. -/
def Instr.fields : Instr → Option Fields
  | .nop h => some (h.fields 0x00)
  | .iadd h v d a b => some { h.fields 0x01 with sub := v, d := d, a := a, b := b.code, lit := b.literal }
  | .isub h v d a b => some { h.fields 0x02 with sub := v, d := d, a := a, b := b.code, lit := b.literal }
  | .imul h v d a b => some { h.fields 0x03 with sub := v, d := d, a := a, b := b.code, lit := b.literal }
  | .imulh h v d a b => some { h.fields 0x04 with sub := v, d := d, a := a, b := b.code, lit := b.literal }
  | .imad h v d a b c => some { h.fields 0x05 with sub := v, d := d, a := a, b := b.code, lit := b.literal, c := c }
  | .imin h v d a b => some { h.fields 0x06 with sub := v, d := d, a := a, b := b.code, lit := b.literal }
  | .imax h v d a b => some { h.fields 0x07 with sub := v, d := d, a := a, b := b.code, lit := b.literal }
  | .iabs h v d a => some { h.fields 0x08 with sub := v, d := d, a := a }
  | .ineg h v d a => some { h.fields 0x09 with sub := v, d := d, a := a }
  | .icmp h v md cd a b => some { h.fields 0x0A with sub := v, md := md, d := CBit.code cd, a := a, b := b.code, lit := b.literal }
  | .iaddc h v d a b cc => some { h.fields 0x0B with sub := v, d := d, a := a, b := b.code, lit := b.literal, c := CBit.code cc }
  | .lea h v d a b => some { h.fields 0x0C with sub := v, d := d, a := a, b := b.code, lit := b.literal }
  | .and h v d a b => some { h.fields 0x0D with sub := v, d := d, a := a, b := b.code, lit := b.literal }
  | .or h v d a b => some { h.fields 0x0E with sub := v, d := d, a := a, b := b.code, lit := b.literal }
  | .xor h v d a b => some { h.fields 0x0F with sub := v, d := d, a := a, b := b.code, lit := b.literal }
  | .andn h v d a b => some { h.fields 0x10 with sub := v, d := d, a := a, b := b.code, lit := b.literal }
  | .not h v d a => some { h.fields 0x11 with sub := v, d := d, a := a }
  | .shl h v d a b => some { h.fields 0x12 with sub := v, d := d, a := a, b := b.code, lit := b.literal }
  | .shr h v d a b => some { h.fields 0x13 with sub := v, d := d, a := a, b := b.code, lit := b.literal }
  | .sar h v d a b => some { h.fields 0x14 with sub := v, d := d, a := a, b := b.code, lit := b.literal }
  | .rotl h v d a b => some { h.fields 0x15 with sub := v, d := d, a := a, b := b.code, lit := b.literal }
  | .bfx h v d a b => some { h.fields 0x16 with sub := v, d := d, a := a, b := b.code, lit := b.literal }
  | .bfi h v d a b c => some { h.fields 0x17 with sub := v, d := d, a := a, b := b.code, lit := b.literal, c := c }
  | .popc h v d a => some { h.fields 0x18 with sub := v, d := d, a := a }
  | .clz h v d a => some { h.fields 0x19 with sub := v, d := d, a := a }
  | .ctz h v d a => some { h.fields 0x1A with sub := v, d := d, a := a }
  | .brev h v d a => some { h.fields 0x1B with sub := v, d := d, a := a }
  | .sel h v d a b => some { h.fields 0x1C with sub := v, d := d, a := a, b := b.code, lit := b.literal }
  | .mov h v d a => some { h.fields 0x1D with sub := v, d := d, a := a }
  | .movi h v d k => some { h.fields 0x1E with sub := v, d := d, imm := if h.len.hasLit then 0 else slice k 0 32, lit := if h.len.hasLit then k else 0 }
  | .cbit h v cd ca cb => some { h.fields 0x1F with sub := v, d := CBit.code cd, a := CBit.code ca, b := CBit.code cb }
  | .padd2 h v d a b => some { h.fields 0x20 with sub := v, d := d, a := a, b := b.code, lit := b.literal }
  | .psub2 h v d a b => some { h.fields 0x21 with sub := v, d := d, a := a, b := b.code, lit := b.literal }
  | .pmul2 h v d a b => some { h.fields 0x22 with sub := v, d := d, a := a, b := b.code, lit := b.literal }
  | .pmac2 h d a b => some { h.fields 0x23 with d := d, a := a, b := b.code, lit := b.literal }
  | .pmin2 h v d a b => some { h.fields 0x24 with sub := v, d := d, a := a, b := b.code, lit := b.literal }
  | .pmax2 h v d a b => some { h.fields 0x25 with sub := v, d := d, a := a, b := b.code, lit := b.literal }
  | .pshr2 h v d a b => some { h.fields 0x26 with sub := v, d := d, a := a, b := b.code, lit := b.literal }
  | .pnarrow h v d a b => some { h.fields 0x27 with sub := v, d := d, a := a, b := b.code, lit := b.literal }
  | .punpk h v d a => some { h.fields 0x28 with sub := v, d := d, a := a }
  | .padd4 h v d a b => some { h.fields 0x29 with sub := v, d := d, a := a, b := b.code, lit := b.literal }
  | .pdot4 h v d a b => some { h.fields 0x2A with sub := v, d := d, a := a, b := b.code, lit := b.literal }
  | .pcmp2 h v d a b => some { h.fields 0x2B with sub := v, d := d, a := a, b := b.code, lit := b.literal }
  | .bcmp h v d a b => some { h.fields 0x2C with sub := v, d := d, a := a, b := b.code, lit := b.literal }
  | .bfind h v d a b => some { h.fields 0x2D with sub := v, d := d, a := a, b := b.code, lit := b.literal }
  | .bhash h v d a => some { h.fields 0x2E with sub := v, d := d, a := a }
  | .bcrc h v d a => some { h.fields 0x2F with sub := v, d := d, a := a }
  | .shfl h v d a b dist => some { h.fields 0x30 with sub := v, d := d, a := a, b := b, imm := dist.zeroExtend 32 }
  | .slide h v d a b => some { h.fields 0x31 with sub := v, d := d, a := a, b := b }
  | .vote h v d ca => some { h.fields 0x32 with sub := v, d := d, a := CBit.code ca }
  | .scan h v md d a => some { h.fields 0x33 with sub := v, md := md, d := d, a := a }
  | .redux h v d a => some { h.fields 0x34 with sub := v, d := d, a := a }
  | .matchLanes h v d a => some { h.fields 0x35 with sub := v, d := d, a := a }
  | .bcast h v d a => some { h.fields 0x36 with sub := v, d := d, a := a }
  | .gmov h d b => some { h.fields 0x37 with d := d, b := b }
  | .lmul h v md d a b => some { h.fields 0x40 with sub := v, md := md, d := d, a := a, b := b.code, lit := b.literal }
  | .ldiv h v md d a b => some { h.fields 0x41 with sub := v, md := md, d := d, a := a, b := b.code, lit := b.literal }
  | .ladd h v md d a b => some { h.fields 0x42 with sub := v, md := md, d := d, a := a, b := b.code, lit := b.literal }
  | .lsub h v md d a b => some { h.fields 0x43 with sub := v, md := md, d := d, a := a, b := b.code, lit := b.literal }
  | .lmad h v md d a b c => some { h.fields 0x44 with sub := v, md := md, d := d, a := a, b := b.code, lit := b.literal, c := c }
  | .lmsb h v md d a b c => some { h.fields 0x45 with sub := v, md := md, d := d, a := a, b := b.code, lit := b.literal, c := c }
  | .lsqrt h v d a => some { h.fields 0x46 with sub := v, d := d, a := a }
  | .lrsqrt h v md d a => some { h.fields 0x47 with sub := v, md := md, d := d, a := a }
  | .lsqr h v md d a => some { h.fields 0x48 with sub := v, md := md, d := d, a := a }
  | .lrcp h v md d a => some { h.fields 0x49 with sub := v, md := md, d := d, a := a }
  | .lpowi h v md d a b => some { h.fields 0x4A with sub := v, md := md, d := d, a := a, b := b.code, lit := b.literal }
  | .lpowf h v md d a b => some { h.fields 0x4B with sub := v, md := md, d := d, a := a, b := b.code, lit := b.literal }
  | .lscale h v md d a b => some { h.fields 0x4C with sub := v, md := md, d := d, a := a, b := b.code, lit := b.literal }
  | .labs h v d a => some { h.fields 0x4D with sub := v, d := d, a := a }
  | .lneg h v d a => some { h.fields 0x4E with sub := v, d := d, a := a }
  | .lmin h v d a b => some { h.fields 0x4F with sub := v, d := d, a := a, b := b.code, lit := b.literal }
  | .lmax h v d a b => some { h.fields 0x50 with sub := v, d := d, a := a, b := b.code, lit := b.literal }
  | .lcmp h v md cd a b => some { h.fields 0x51 with sub := v, md := md, d := CBit.code cd, a := a, b := b.code, lit := b.literal }
  | .lclass h v cd a mask => some { h.fields 0x52 with sub := v, d := CBit.code cd, a := a, imm := mask.zeroExtend 32 }
  | .lexp2 h v md d a => some { h.fields 0x53 with sub := v, md := md, d := d, a := a }
  | .llog2 h v md d a => some { h.fields 0x54 with sub := v, md := md, d := d, a := a }
  | .lclamp h v d a b => some { h.fields 0x55 with sub := v, d := d, a := a, b := b.code, lit := b.literal }
  | .cvtfl h v md d a b => some { h.fields 0x58 with sub := v, md := md, d := d, a := a, b := b }
  | .cvtlf h v d a => some { h.fields 0x59 with sub := v, d := d, a := a }
  | .cvtil h v d a => some { h.fields 0x5A with sub := v, d := d, a := a }
  | .cvtli h v md d a => some { h.fields 0x5B with sub := v, md := md, d := d, a := a }
  | .cvtll h v d a b => some { h.fields 0x5C with sub := v, d := d, a := a, b := b }
  | .cvtxl h v d a q => some { h.fields 0x5D with sub := v, d := d, a := a, imm := q.zeroExtend 32 }
  | .cvtlx h v md d a q => some { h.fields 0x5E with sub := v, md := md, d := d, a := a, imm := q.zeroExtend 32 }
  | .lfld h v d a b => some { h.fields 0x5F with sub := v, d := d, a := a, b := b }
  | .bra h disp => some (dispFields h 0x60 disp)
  | .jmp h a => some { h.fields 0x62 with a := a }
  | .call h disp => some (dispFields h 0x63 disp)
  | .callr h a => some { h.fields 0x64 with a := a }
  | .ret h => some (h.fields 0x65)
  | .exit h => some (h.fields 0x66)
  | .yield h => some (h.fields 0x67)
  | .pause h v a n => some { h.fields 0x68 with sub := v, a := a, imm := n }
  | .bar h v cd bx n => some { h.fields 0x69 with sub := v, d := CBit.code cd, imm := (0 : BitVec 14) ++ n ++ bx }
  | .barc h v cd bx n => some { h.fields 0x6A with sub := v, d := CBit.code cd, imm := (0 : BitVec 14) ++ n ++ bx }
  | .twait h a tok => some { h.fields 0x6B with a := a, imm := tok.zeroExtend 32 }
  | .tsignal h v a tok => some { h.fields 0x6C with sub := v, a := a, imm := tok.zeroExtend 32 }
  | .live h mask => some { h.fields 0x6D with imm := slice mask 0 32, d := (0 : BitVec 2) ++ slice mask 32 6, a := (0 : BitVec 2) ++ slice mask 38 6, b := (0 : BitVec 4) ++ slice mask 44 4 }
  | .trap h k => some { h.fields 0x6E with imm := k }
  | .brk h k => some { h.fields 0x6F with imm := k }
  | .ldg h v md sc d a imm => some { h.fields 0x70 with sub := v, md := md, sc := scField h.len sc, d := d, a := a, imm := imm }
  | .ldgRc h v md sc rc d a imm => some { h.fields 0x70 with sub := v, md := md, sc := scField h.len sc, re := true, rc := rc, d := d, a := a, imm := imm }
  | .stg h v md sc a b imm => some { h.fields 0x71 with sub := v, md := md, sc := scField h.len sc, a := a, b := b, imm := imm }
  | .lds h v md d a imm => some { h.fields 0x72 with sub := v, md := md, d := d, a := a, imm := imm }
  | .sts h v md a b imm => some { h.fields 0x73 with sub := v, md := md, a := a, b := b, imm := imm }
  | .ldc h v md d a core off => some { h.fields 0x74 with sub := v, md := md, d := d, a := a, imm := (0 : BitVec 12) ++ core ++ off }
  | .stc h v md a b core off => some { h.fields 0x75 with sub := v, md := md, a := a, b := b, imm := (0 : BitVec 12) ++ core ++ off }
  | .stn h v md sc a b c imm => some { h.fields 0x76 with sub := v, md := md, sc := scField h.len sc, a := a, b := b, c := c, imm := imm }
  | .ldgu h v md sc d a imm => some { h.fields 0x77 with sub := v, md := md, sc := scField h.len sc, d := d, a := a, imm := imm }
  | .pref h v a imm => some { h.fields 0x78 with sub := v, a := a, imm := imm }
  | .touch h cd a imm => some { h.fields 0x79 with d := CBit.code cd, a := a, imm := imm }
  | .cctl h v a imm => some { h.fields 0x7A with sub := v, a := a, imm := imm }
  | .fence h md sc => some { h.fields 0x7B with md := md, sc := scField h.len sc }
  | .promote h v sc d a imm => some { h.fields 0x7C with sub := v, sc := scField h.len sc, d := d, a := a, imm := imm }
  | .atom h v md sc d a b c imm => some { h.fields 0x80 with sub := v, md := md, sc := scField h.len sc, d := d, a := a, b := b, c := c, imm := imm }
  | .red h v md sc a b imm => some { h.fields 0x81 with sub := v, md := md, sc := scField h.len sc, a := a, b := b, imm := imm }
  | .atoms h v md d a b c imm => some { h.fields 0x82 with sub := v, md := md, d := d, a := a, b := b, c := c, imm := imm }
  | .comb h v md sc d a b c m => some { h.fields 0x83 with sub := v, md := md, sc := scField h.len sc, d := d, a := a, b := b, c := c, imm := m.zeroExtend 32 }
  | .combr h v md sc a b c m => some { h.fields 0x84 with sub := v, md := md, sc := scField h.len sc, a := a, b := b, c := c, imm := m.zeroExtend 32 }
  | .objld h v d a imm => some { h.fields 0x88 with sub := v, d := d, a := a, imm := imm }
  | .objst h v a b imm => some { h.fields 0x89 with sub := v, a := a, b := b, imm := imm }
  | .reply h a => some { h.fields 0x8A with a := a }
  | .mabort h => some (h.fields 0x8B)
  | .hgcfg h a imm => some { h.fields 0x90 with a := a, imm := imm }
  | .hgld h d a => some { h.fields 0x91 with d := d, a := a }
  | .hgscat h a b => some { h.fields 0x92 with a := a, b := b }
  | .hgidx h v d a level corner => some { h.fields 0x93 with sub := v, d := d, a := a, imm := (0 : BitVec 20) ++ corner ++ level }
  | .cpy h q a imm => some { h.fields 0xA0 with sub := q.zeroExtend 4, a := a, imm := imm }
  | .cpyb h q a bx n => some { h.fields 0xA1 with sub := q.zeroExtend 4, a := a, imm := (0 : BitVec 14) ++ n ++ bx }
  | .qfence h q md mask => some { h.fields 0xA2 with sub := q.zeroExtend 4, md := md, imm := mask.zeroExtend 32 }
  | .qwait h q cd => some { h.fields 0xA3 with sub := q.zeroExtend 4, d := CBit.code cd }
  | .qstat h q d => some { h.fields 0xA4 with sub := q.zeroExtend 4, d := d }
  | .qreset h q => some { h.fields 0xA5 with sub := q.zeroExtend 4 }
  | .cpyt h q a b tok => some { h.fields 0xA6 with sub := q.zeroExtend 4, a := a, b := b, imm := tok.zeroExtend 32 }
  | .tmma h v a b c t => some { h.fields 0xB0 with sub := v, a := a, b := b, c := c, imm := t.toImm }
  | .tmmas h v a b c t => some { h.fields 0xB1 with sub := v, a := a, b := b, c := c, imm := t.toImm }
  | .tzero h t => some { h.fields 0xB2 with imm := t.toImm }
  | .tdrain h a b c t => some { h.fields 0xB3 with a := a, b := b, c := c, imm := t.toImm }
  | .tdapply h a b c t => some { h.fields 0xB4 with a := a, b := b, c := c, imm := t.toImm }
  | .tloadacc h a t => some { h.fields 0xB5 with a := a, imm := t.toImm }
  | .tamax h v d n => some { h.fields 0xB6 with sub := v, d := d, imm := n.zeroExtend 32 }
  | .tfence h t => some { h.fields 0xB7 with imm := t.toImm }
  | .tfenceW h => some { h.fields 0xB7 with sub := 1 }
  | .evpop h d cc => some { h.fields 0xB8 with d := d, c := CBit.code cc }
  | .evwait h d => some { h.fields 0xB9 with d := d }
  | .ttok h v d a tok => some { h.fields 0xBB with sub := v, d := d, a := a, imm := tok.zeroExtend 32 }
  | .ttokClr h => some { h.fields 0xBB with sub := 5 }
  | .flipv h a b => some { h.fields 0xBC with a := a, b := b }
  | .dgst h d => some { h.fields 0xC0 with d := d }
  | .postr h a => some { h.fields 0xC1 with a := a }
  | .sread h v d n => some { h.fields 0xE0 with sub := v, d := d, imm := n.zeroExtend 32 }
  | .swrite h a n => some { h.fields 0xE1 with a := a, imm := n.zeroExtend 32 }
  | .rte h => some (h.fields 0xE2)
  | .tlbinv h a b => some { h.fields 0xE3 with a := a, b := b }
  | .pcnt h v d n => some { h.fields 0xE4 with sub := v, d := d, imm := n.zeroExtend 32 }
  | .halt h => some (h.fields 0xE5)
  | .evsend h v a code => some { h.fields 0xE6 with sub := v, a := a, imm := code.zeroExtend 32 }
  | .loadDataReturn .. => none
  | .storePerform .. => none
  | .homeAtomicPerform .. => none
  | .registerLineFill .. => none
  | .pauseExpiry .. => none
  | .barrierArrival .. => none
  | .trapEntry .. => none
  | .controlCoreTrapEntry .. => none
  | .pageWalk .. => none
  | .invalidationComplete .. => none
  | .pushToHome .. => none
  | .promoteReturn .. => none
  | .lineRecall .. => none
  | .peerCompletion .. => none
  | .peerTimeout .. => none
  | .peerRequest .. => none
  | .queueEntryAccept .. => none
  | .copyCommandStart .. => none
  | .copyCommandEnd .. => none
  | .qfenceComplete .. => none
  | .taskTableEntry .. => none
  | .taskStart .. => none
  | .taskFinish .. => none
  | .taskComplete .. => none
  | .batchAccept .. => none
  | .gateAdmit .. => none
  | .gateDivergence .. => none
  | .waveForm .. => none
  | .waveBudgetExceeded .. => none
  | .waveCommit .. => none
  | .waveFault .. => none
  | .combReply .. => none
  | .eventRingWrite => none
  | .doorbell .. => none
  | .preempt .. => none
  | .nodeStart .. => none
  | .launch .. => none
  | .bulk .. => none
  | .flip .. => none
  | .signal .. => none
  | .waitw .. => none
  | .waitwTimeout .. => none
  | .branch .. => none
  | .nodeEnd .. => none
  | .clusterStart .. => none
  | .clusterEnd .. => none
  | .clusterRetire .. => none
  | .gridAbort .. => none
  | .quantumExpiry .. => none
  | .clusterPreemption .. => none
  | .clusterResume .. => none
  | .machineCheck .. => none
  | .throttle .. => none
  | .thermalTrip => none
  | .freeze => none
  | .freezeSaveAll => none
  | .freezeResume => none
  | .invlen .. => none
  | .attreq => none
  | .registerWrite .. => none
  | .hostAccess .. => none
  | .coldReset => none
  | .warmReset => none
  | .linkRetrain .. => none
  | .hardwarePrefetch .. => none
  | .powerRemoved => none

/-- The instruction that OP names, with its operands read from the fields (R50). -/
def Fields.build (f : Fields) : Option Instr :=
  match f.op.toNat with
  | 0x00 => some (.nop f.hd)
  | 0x01 => some (.iadd f.hd f.sub f.d f.a f.srcB)
  | 0x02 => some (.isub f.hd f.sub f.d f.a f.srcB)
  | 0x03 => some (.imul f.hd f.sub f.d f.a f.srcB)
  | 0x04 => some (.imulh f.hd f.sub f.d f.a f.srcB)
  | 0x05 => some (.imad f.hd f.sub f.d f.a f.srcB f.c)
  | 0x06 => some (.imin f.hd f.sub f.d f.a f.srcB)
  | 0x07 => some (.imax f.hd f.sub f.d f.a f.srcB)
  | 0x08 => some (.iabs f.hd f.sub f.d f.a)
  | 0x09 => some (.ineg f.hd f.sub f.d f.a)
  | 0x0A => some (.icmp f.hd f.sub f.md (Code.cbit f.d) f.a f.srcB)
  | 0x0B => some (.iaddc f.hd f.sub f.d f.a f.srcB (Code.cbit f.c))
  | 0x0C => some (.lea f.hd f.sub f.d f.a f.srcB)
  | 0x0D => some (.and f.hd f.sub f.d f.a f.srcB)
  | 0x0E => some (.or f.hd f.sub f.d f.a f.srcB)
  | 0x0F => some (.xor f.hd f.sub f.d f.a f.srcB)
  | 0x10 => some (.andn f.hd f.sub f.d f.a f.srcB)
  | 0x11 => some (.not f.hd f.sub f.d f.a)
  | 0x12 => some (.shl f.hd f.sub f.d f.a f.srcB)
  | 0x13 => some (.shr f.hd f.sub f.d f.a f.srcB)
  | 0x14 => some (.sar f.hd f.sub f.d f.a f.srcB)
  | 0x15 => some (.rotl f.hd f.sub f.d f.a f.srcB)
  | 0x16 => some (.bfx f.hd f.sub f.d f.a f.srcB)
  | 0x17 => some (.bfi f.hd f.sub f.d f.a f.srcB f.c)
  | 0x18 => some (.popc f.hd f.sub f.d f.a)
  | 0x19 => some (.clz f.hd f.sub f.d f.a)
  | 0x1A => some (.ctz f.hd f.sub f.d f.a)
  | 0x1B => some (.brev f.hd f.sub f.d f.a)
  | 0x1C => some (.sel f.hd f.sub f.d f.a f.srcB)
  | 0x1D => some (.mov f.hd f.sub f.d f.a)
  | 0x1E => some (.movi f.hd f.sub f.d f.constant)
  | 0x1F => some (.cbit f.hd f.sub (Code.cbit f.d) (Code.cbit f.a) (Code.cbit f.b))
  | 0x20 => some (.padd2 f.hd f.sub f.d f.a f.srcB)
  | 0x21 => some (.psub2 f.hd f.sub f.d f.a f.srcB)
  | 0x22 => some (.pmul2 f.hd f.sub f.d f.a f.srcB)
  | 0x23 => some (.pmac2 f.hd f.d f.a f.srcB)
  | 0x24 => some (.pmin2 f.hd f.sub f.d f.a f.srcB)
  | 0x25 => some (.pmax2 f.hd f.sub f.d f.a f.srcB)
  | 0x26 => some (.pshr2 f.hd f.sub f.d f.a f.srcB)
  | 0x27 => some (.pnarrow f.hd f.sub f.d f.a f.srcB)
  | 0x28 => some (.punpk f.hd f.sub f.d f.a)
  | 0x29 => some (.padd4 f.hd f.sub f.d f.a f.srcB)
  | 0x2A => some (.pdot4 f.hd f.sub f.d f.a f.srcB)
  | 0x2B => some (.pcmp2 f.hd f.sub f.d f.a f.srcB)
  | 0x2C => some (.bcmp f.hd f.sub f.d f.a f.srcB)
  | 0x2D => some (.bfind f.hd f.sub f.d f.a f.srcB)
  | 0x2E => some (.bhash f.hd f.sub f.d f.a)
  | 0x2F => some (.bcrc f.hd f.sub f.d f.a)
  | 0x30 => some (.shfl f.hd f.sub f.d f.a f.b (slice f.imm 0 5))
  | 0x31 => some (.slide f.hd f.sub f.d f.a f.b)
  | 0x32 => some (.vote f.hd f.sub f.d (Code.cbit f.a))
  | 0x33 => some (.scan f.hd f.sub f.md f.d f.a)
  | 0x34 => some (.redux f.hd f.sub f.d f.a)
  | 0x35 => some (.matchLanes f.hd f.sub f.d f.a)
  | 0x36 => some (.bcast f.hd f.sub f.d f.a)
  | 0x37 => some (.gmov f.hd f.d f.b)
  | 0x40 => some (.lmul f.hd f.sub f.md f.d f.a f.srcB)
  | 0x41 => some (.ldiv f.hd f.sub f.md f.d f.a f.srcB)
  | 0x42 => some (.ladd f.hd f.sub f.md f.d f.a f.srcB)
  | 0x43 => some (.lsub f.hd f.sub f.md f.d f.a f.srcB)
  | 0x44 => some (.lmad f.hd f.sub f.md f.d f.a f.srcB f.c)
  | 0x45 => some (.lmsb f.hd f.sub f.md f.d f.a f.srcB f.c)
  | 0x46 => some (.lsqrt f.hd f.sub f.d f.a)
  | 0x47 => some (.lrsqrt f.hd f.sub f.md f.d f.a)
  | 0x48 => some (.lsqr f.hd f.sub f.md f.d f.a)
  | 0x49 => some (.lrcp f.hd f.sub f.md f.d f.a)
  | 0x4A => some (.lpowi f.hd f.sub f.md f.d f.a f.srcB)
  | 0x4B => some (.lpowf f.hd f.sub f.md f.d f.a f.srcB)
  | 0x4C => some (.lscale f.hd f.sub f.md f.d f.a f.srcB)
  | 0x4D => some (.labs f.hd f.sub f.d f.a)
  | 0x4E => some (.lneg f.hd f.sub f.d f.a)
  | 0x4F => some (.lmin f.hd f.sub f.d f.a f.srcB)
  | 0x50 => some (.lmax f.hd f.sub f.d f.a f.srcB)
  | 0x51 => some (.lcmp f.hd f.sub f.md (Code.cbit f.d) f.a f.srcB)
  | 0x52 => some (.lclass f.hd f.sub (Code.cbit f.d) f.a (slice f.imm 0 6))
  | 0x53 => some (.lexp2 f.hd f.sub f.md f.d f.a)
  | 0x54 => some (.llog2 f.hd f.sub f.md f.d f.a)
  | 0x55 => some (.lclamp f.hd f.sub f.d f.a f.srcB)
  | 0x58 => some (.cvtfl f.hd f.sub f.md f.d f.a f.b)
  | 0x59 => some (.cvtlf f.hd f.sub f.d f.a)
  | 0x5A => some (.cvtil f.hd f.sub f.d f.a)
  | 0x5B => some (.cvtli f.hd f.sub f.md f.d f.a)
  | 0x5C => some (.cvtll f.hd f.sub f.d f.a f.b)
  | 0x5D => some (.cvtxl f.hd f.sub f.d f.a (slice f.imm 0 6))
  | 0x5E => some (.cvtlx f.hd f.sub f.md f.d f.a (slice f.imm 0 6))
  | 0x5F => some (.lfld f.hd f.sub f.d f.a f.b)
  | 0x60 => some (.bra f.hd f.disp)
  | 0x62 => some (.jmp f.hd f.a)
  | 0x63 => some (.call f.hd f.disp)
  | 0x64 => some (.callr f.hd f.a)
  | 0x65 => some (.ret f.hd)
  | 0x66 => some (.exit f.hd)
  | 0x67 => some (.yield f.hd)
  | 0x68 => some (.pause f.hd f.sub f.a f.imm)
  | 0x69 => some (.bar f.hd f.sub (Code.cbit f.d) (slice f.imm 0 4) (slice f.imm 4 14))
  | 0x6A => some (.barc f.hd f.sub (Code.cbit f.d) (slice f.imm 0 4) (slice f.imm 4 14))
  | 0x6B => some (.twait f.hd f.a (slice f.imm 0 9))
  | 0x6C => some (.tsignal f.hd f.sub f.a (slice f.imm 0 9))
  | 0x6D => some (.live f.hd f.liveMask)
  | 0x6E => some (.trap f.hd f.imm)
  | 0x6F => some (.brk f.hd f.imm)
  | 0x70 => some (if f.re then .ldgRc f.hd f.sub f.md f.scope f.rc f.d f.a f.imm else .ldg f.hd f.sub f.md f.scope f.d f.a f.imm)
  | 0x71 => some (.stg f.hd f.sub f.md f.scope f.a f.b f.imm)
  | 0x72 => some (.lds f.hd f.sub f.md f.d f.a f.imm)
  | 0x73 => some (.sts f.hd f.sub f.md f.a f.b f.imm)
  | 0x74 => some (.ldc f.hd f.sub f.md f.d f.a (slice f.imm 16 4) (slice f.imm 0 16))
  | 0x75 => some (.stc f.hd f.sub f.md f.a f.b (slice f.imm 16 4) (slice f.imm 0 16))
  | 0x76 => some (.stn f.hd f.sub f.md f.scope f.a f.b f.c f.imm)
  | 0x77 => some (.ldgu f.hd f.sub f.md f.scope f.d f.a f.imm)
  | 0x78 => some (.pref f.hd f.sub f.a f.imm)
  | 0x79 => some (.touch f.hd (Code.cbit f.d) f.a f.imm)
  | 0x7A => some (.cctl f.hd f.sub f.a f.imm)
  | 0x7B => some (.fence f.hd f.md f.scope)
  | 0x7C => some (.promote f.hd f.sub f.scope f.d f.a f.imm)
  | 0x80 => some (.atom f.hd f.sub f.md f.scope f.d f.a f.b f.c f.imm)
  | 0x81 => some (.red f.hd f.sub f.md f.scope f.a f.b f.imm)
  | 0x82 => some (.atoms f.hd f.sub f.md f.d f.a f.b f.c f.imm)
  | 0x83 => some (.comb f.hd f.sub f.md f.scope f.d f.a f.b f.c (slice f.imm 0 5))
  | 0x84 => some (.combr f.hd f.sub f.md f.scope f.a f.b f.c (slice f.imm 0 5))
  | 0x88 => some (.objld f.hd f.sub f.d f.a f.imm)
  | 0x89 => some (.objst f.hd f.sub f.a f.b f.imm)
  | 0x8A => some (.reply f.hd f.a)
  | 0x8B => some (.mabort f.hd)
  | 0x90 => some (.hgcfg f.hd f.a f.imm)
  | 0x91 => some (.hgld f.hd f.d f.a)
  | 0x92 => some (.hgscat f.hd f.a f.b)
  | 0x93 => some (.hgidx f.hd f.sub f.d f.a (slice f.imm 0 4) (slice f.imm 4 8))
  | 0xA0 => some (.cpy f.hd (slice f.sub 0 2) f.a f.imm)
  | 0xA1 => some (.cpyb f.hd (slice f.sub 0 2) f.a (slice f.imm 0 4) (slice f.imm 4 14))
  | 0xA2 => some (.qfence f.hd (slice f.sub 0 2) f.md (slice f.imm 0 4))
  | 0xA3 => some (.qwait f.hd (slice f.sub 0 2) (Code.cbit f.d))
  | 0xA4 => some (.qstat f.hd (slice f.sub 0 2) f.d)
  | 0xA5 => some (.qreset f.hd (slice f.sub 0 2))
  | 0xA6 => some (.cpyt f.hd (slice f.sub 0 2) f.a f.b (slice f.imm 0 9))
  | 0xB0 => some (.tmma f.hd f.sub f.a f.b f.c (TaskField.ofImm f.imm))
  | 0xB1 => some (.tmmas f.hd f.sub f.a f.b f.c (TaskField.ofImm f.imm))
  | 0xB2 => some (.tzero f.hd (TaskField.ofImm f.imm))
  | 0xB3 => some (.tdrain f.hd f.a f.b f.c (TaskField.ofImm f.imm))
  | 0xB4 => some (.tdapply f.hd f.a f.b f.c (TaskField.ofImm f.imm))
  | 0xB5 => some (.tloadacc f.hd f.a (TaskField.ofImm f.imm))
  | 0xB6 => some (.tamax f.hd f.sub f.d (slice f.imm 0 4))
  | 0xB7 => some (if f.sub = 1 then .tfenceW f.hd else .tfence f.hd (TaskField.ofImm f.imm))
  | 0xB8 => some (.evpop f.hd f.d (Code.cbit f.c))
  | 0xB9 => some (.evwait f.hd f.d)
  | 0xBB => some (if f.sub = 5 then .ttokClr f.hd else .ttok f.hd f.sub f.d f.a (slice f.imm 0 6))
  | 0xBC => some (.flipv f.hd f.a f.b)
  | 0xC0 => some (.dgst f.hd f.d)
  | 0xC1 => some (.postr f.hd f.a)
  | 0xE0 => some (.sread f.hd f.sub f.d (slice f.imm 0 8))
  | 0xE1 => some (.swrite f.hd f.a (slice f.imm 0 8))
  | 0xE2 => some (.rte f.hd)
  | 0xE3 => some (.tlbinv f.hd f.a f.b)
  | 0xE4 => some (.pcnt f.hd f.sub f.d (slice f.imm 0 8))
  | 0xE5 => some (.halt f.hd)
  | 0xE6 => some (.evsend f.hd f.sub f.a (slice f.imm 0 8))
  | _ => none

/-- The scope that an instruction carries, where it takes one (R28). -/
def Instr.scope? : Instr → Option (BitVec 3)
  | .ldg _ _ _ sc _ _ _ | .ldgRc _ _ _ sc _ _ _ _ | .stg _ _ _ sc _ _ _ | .stn _ _ _ sc _ _ _ _
  | .ldgu _ _ _ sc _ _ _ | .fence _ _ sc | .promote _ _ sc _ _ _ | .atom _ _ _ sc _ _ _ _ _
  | .red _ _ _ sc _ _ _ | .comb _ _ _ sc _ _ _ _ _ | .combr _ _ _ sc _ _ _ _ => some sc
  | _ => none

/-- Operand B, where an entry allows a literal there (R31). -/
def Instr.srcB? : Instr → Option SrcB
  | .iadd _ _ _ _ b | .isub _ _ _ _ b | .imul _ _ _ _ b | .imulh _ _ _ _ b | .imad _ _ _ _ b _
  | .imin _ _ _ _ b | .imax _ _ _ _ b | .icmp _ _ _ _ _ b | .iaddc _ _ _ _ b _ | .lea _ _ _ _ b
  | .and _ _ _ _ b | .or _ _ _ _ b | .xor _ _ _ _ b | .andn _ _ _ _ b
  | .shl _ _ _ _ b | .shr _ _ _ _ b | .sar _ _ _ _ b | .rotl _ _ _ _ b
  | .bfx _ _ _ _ b | .bfi _ _ _ _ b _ | .sel _ _ _ _ b
  | .padd2 _ _ _ _ b | .psub2 _ _ _ _ b | .pmul2 _ _ _ _ b | .pmac2 _ _ _ b | .pmin2 _ _ _ _ b | .pmax2 _ _ _ _ b
  | .pshr2 _ _ _ _ b | .pnarrow _ _ _ _ b | .padd4 _ _ _ _ b | .pdot4 _ _ _ _ b | .pcmp2 _ _ _ _ b
  | .bcmp _ _ _ _ b | .bfind _ _ _ _ b
  | .lmul _ _ _ _ _ b | .ldiv _ _ _ _ _ b | .ladd _ _ _ _ _ b | .lsub _ _ _ _ _ b
  | .lmad _ _ _ _ _ b _ | .lmsb _ _ _ _ _ b _ | .lpowi _ _ _ _ _ b | .lpowf _ _ _ _ _ b | .lscale _ _ _ _ _ b
  | .lmin _ _ _ _ b | .lmax _ _ _ _ b | .lcmp _ _ _ _ _ b | .lclamp _ _ _ _ b => some b
  | _ => none

/-- The fields that a form lacks hold their defaults, and a literal replaces B (R31, R32). -/
def Fields.formOk (f : Fields) : Bool :=
  (f.len.hasExt || (f.c == 0 && f.sc == 0 && f.md == 0 && f.g == 7 && !f.gn && !f.re && f.rc == 0 && f.imm == 0
      && decide (f.d < 64) && decide (f.a < 64) && decide (f.b < 64)))
    && (if f.len.hasLit then f.b == 0 else f.lit == 0)

/-- LEN, SUB and MD are values that the entry defines (R29, R31). -/
def Shape.ok (s : Shape) (f : Fields) : Bool :=
  s.lens.getLsbD f.len.toBits.toNat && s.subs.getLsbD f.sub.toNat && s.mds.getLsbD f.md.toNat

/-- A token field names another quad only with bit 8 set (R102). -/
def tokOk (t : TokField) : Bool := t.getLsbD 8 || slice t 6 2 == 0

/-- The barrier fields of BAR and BARC (R99, R101). -/
def barOk (v : BitVec 4) (cd : CBit) (n : BitVec 14) (limit : Nat) : Bool :=
  if v = 1 then n == 0 else (n != 0 && decide (n.toNat ≤ limit) && (v == 2 || cd == 0))

/-- Whether SUB and MD[3:2] of an atomic go together: a log type adds only (R146). -/
def atomTypeOk (v md : BitVec 4) : Bool := decide (md < 8) || v == 0

/-- What an entry asks of its own fields beyond SUB, MD and LEN (R24, R26, R29, R31 and the entry). -/
def Instr.entryOk : Instr → Bool
  | .movi h v _ k =>
    if h.len.hasLit then v != 2 && (v == 1 || decide (k.toNat < 2 ^ 32)) else decide (k.toNat < 2 ^ 32)
  | .bra h disp | .call h disp => h.len.hasExt || disp == (slice disp 0 18).signExtend 32
  | .cbit _ v _ ca cb =>
    if v = 3 || v = 7 then cb == 0 else if v = 4 || v = 5 then ca == 0 && cb == 0 else true
  | .shfl h v _ _ b dist => if v.getLsbD 3 then b == 0 && h.len.hasExt else dist == 0
  | .vote _ v d ca => (2 ≤ v || decide (d < 8)) && (v != 3 || ca == 0)
  | .cvtfl _ _ md _ _ b => md == 1 || b == 0
  | .cvtll _ v _ _ b => v == 2 || b == 0
  | .lfld _ v _ _ b => decide (2 ≤ v) || b == 0
  | .cvtxl _ _ _ _ q | .cvtlx _ _ _ _ _ q => decide (q.toNat ≤ 32)
  | .pause h v a n => if v = 1 then a == 0 && h.len.hasExt else n == 0
  | .bar _ v cd _ n => barOk v cd n 1024
  | .barc _ v cd b n => barOk v cd n 12288 && decide (b < 4)
  | .twait _ _ t | .tsignal _ _ _ t => tokOk t
  | .cpyt _ _ _ _ t => tokOk t
  | .cpyb _ _ _ _ n => n != 0 && decide (n.toNat ≤ 1024)
  | .ldg _ _ md sc _ _ _ | .ldgRc _ _ md sc _ _ _ _ | .ldgu _ _ md sc _ _ _ => md != 1 || sc != 0
  | .stg _ _ md sc _ _ _ | .stn _ _ md sc _ _ _ _ => md != 1 || sc != 0
  | .promote _ _ sc _ _ _ => sc == 4 || sc == 5
  | .cctl _ v a imm => v == 0 || (a == 0 && imm == 0)
  | .atom h v md sc _ _ _ c _ =>
    atomTypeOk v md && (slice md 0 2 == 0 || sc != 0) && (if v = 8 then h.len.hasExt else c == 0)
  | .red _ v md sc _ _ _ => atomTypeOk v md && (slice md 0 2 == 0 || sc != 0)
  | .atoms h v md _ _ _ c _ => atomTypeOk v md && (if v = 8 then h.len.hasExt else c == 0)
  | .comb _ v md sc _ _ b c _ | .combr _ v md sc _ b c _ =>
    (md == 0 || sc != 0) && (v != 0 || b == 0) && (v == 2 || c == 0)
  | .tfence _ t => t.tile == 0
  | .ttok _ v d a _ => if v = 0 then a == 0 else d == 0
  | _ => true

/-- The instruction is one that some engine may execute: its fields pass R26 to R31 and its entry. A device step
has no encoding. -/
def Instr.accepts (i : Instr) : Bool :=
  match i.fields, i.shape with
  | some f, some s =>
    f.formOk && s.ok f && i.entryOk
      && (match i.scope? with
          | some sc => decide (sc < 6) && (f.len.hasExt || sc == 4)
          | none => true)
      && (match i.srcB? with
          | some (.lit _) => f.len.hasLit
          | some (.reg _) => !f.len.hasLit
          | none => true)
  | _, _ => false

/-! ### The decoder and the encoder -/

/-- The instruction that fields hold, or why there is none (R33 2, R34). -/
def Fields.decode (f : Fields) : Except Reject Instr :=
  match f.build with
  | none => .error .opcode
  | some i =>
    if i.fields ≠ some f then .error .field
    else if i.accepts then .ok i
    else .error .variant

/-- The instruction at the head of a word sequence (R33, R34, R37). Total: every word sequence is decoded or
rejected by name. -/
def decodeWords (ws : List Word) : Except Reject Instr :=
  match Fields.ofWords ws with
  | .error e => .error e
  | .ok f => f.decode

/-- The words that bytes hold, each least significant byte first; bytes short of a word are dropped (R8, R17). -/
def wordsOfBytes : List Byte → List Word
  | b0 :: b1 :: b2 :: b3 :: rest => (b3 ++ b2 ++ b1 ++ b0) :: wordsOfBytes rest
  | _ => []

/-- The bytes of a word sequence as memory holds them (R8, R17). -/
def bytesOfWords (ws : List Word) : List Byte :=
  ws.flatMap fun w => [slice w 0 8, slice w 8 8, slice w 16 8, slice w 24 8]

/-- The instruction at the head of a byte sequence. -/
def decode (bs : List Byte) : Except Reject Instr := decodeWords (wordsOfBytes bs)

/-- The words of an instruction, from the same tables; a device step has none. -/
def encode (i : Instr) : Option (List Word) := i.fields.map Fields.toWords

/-- The form of an instruction and so its length (R17); a device step has none. -/
def Instr.len (i : Instr) : Len :=
  match i.fields with
  | some f => f.len
  | none => .base

/-- The guard of an instruction (R27); a device step has none. -/
def Instr.guard (i : Instr) : Guard :=
  match i.fields with
  | some f => ⟨f.g, f.gn⟩
  | none => ⟨7, false⟩

/-- The bytes of the longest instruction whose low bits are w, as memory holds them: five words, little-endian. -/
def tableBytes (w : Nat) : List Byte := toBytesLE 20 w

/-- The instruction that the decoder reads from nbits bits of value w, every higher bit 0; bit 0 is the least
significant bit of word 0 and a later word's bits count on from it. -/
def decodeTableWord (nbits w : Nat) : Option Instr :=
  match decode (tableBytes (w % 2 ^ nbits)) with
  | .ok i => some i
  | .error _ => none

end Sys2Proof
end

