-- ==== Sys2Proof/WellFormed.lean ====
section
/-! DEFINITION. Which instructions are well formed: those whose every field passes the checks of R26 to R34 that do
not depend on the engine. A device step has no encoding, so it is well formed as no instruction. -/

namespace Sys2Proof

/-- Some engine may hold this instruction in its code: the decoder accepts exactly its words. -/
def Instr.wellFormed (i : Instr) : Bool := i.accepts

end Sys2Proof
end

