-- ==== Sys2Proof/Machine/State.lean ====
section
/-! DEFINITION. The state of one Hesor L9 device as plain data, its value right after reset, and the reasons for
which a step can stop. INVENTORY.md lists every piece with its rule and its reset value. -/

namespace Sys2Proof.Machine

/-- A sparse table: what an unlisted key holds is said where the table is read. -/
abbrev Table (α : Type) := List (Nat × α)

/-! ### Translation (R283 to R291) -/

/-- The class of a region (R129, R285). -/
inductive RegionClass where
  | normal | combining | hashedGrid
  deriving DecidableEq, Repr, Inhabited

/-- A cached translation of one page (R289); ver tells from which table of a twin region it comes (R285). -/
structure Page where
  base : Nat
  large : Bool
  frame : Nat
  writable : Bool
  dirty : Bool
  cls : RegionClass
  noL1 : Bool
  peer : Option Nat
  ver : Bool
  deriving DecidableEq, Repr, Inhabited

/-- The walk cache of a walk scheduler: level-1 entries by VA[55:40] and region entries by VA[55:23] (R289). -/
structure WalkCache where
  level1 : Table DWord
  region : Table DWord
  deriving DecidableEq, Repr, Inhabited

/-- An instruction word that a block keeps: what it read, or the cause and the device number of a peer's failure; and the
moment at which it was read (R36, R38). -/
structure CodeWord where
  word : Option Word
  cause : Nat
  dev : Nat
  filledAt : Nat
  deriving DecidableEq, Repr, Inhabited

/-- A TLBINV, FLIPV, FLIP node or host invalidation that some block has not acknowledged yet (R189, R196, R250, R350);
flip marks a FLIPV whose toggle waits until the requests in after have performed. -/
structure Invalidation where
  id : Nat
  lo : Nat
  hi : Nat
  host : Bool
  flip : Bool
  after : List Nat
  deriving DecidableEq, Repr, Inhabited

/-! ### Blocks of the device -/

/-- An L1 line, a copy or owned; filledAt is the moment of its last fill (R262). -/
structure L1Line where
  owned : Bool
  bytes : List Byte
  filledAt : Nat
  deriving DecidableEq, Repr, Inhabited

/-- What a core holds beside its team: its local counter, L1, TLB, contention predictor, counters and the instruction
words that it keeps, by a quarter of their target address (R3, R38, R262, R281, R289, R197). -/
structure CoreHw where
  cycle : DWord
  l1 : Table L1Line
  tlb : List Page
  predictor : Table (BitVec 2)
  counters : Table DWord
  code : Table CodeWord
  deriving DecidableEq, Repr, Inhabited

/-- What a quad holds beside its cluster's part: the local counter of its control core, its TLB, the walk cache of its
walk scheduler, its counters and the instruction words that it keeps (R3, R38, R289, R291, R197). -/
structure QuadHw where
  cycle : DWord
  tlb : List Page
  walk : WalkCache
  counters : Table DWord
  code : Table CodeWord
  deriving DecidableEq, Repr, Inhabited

/-! ### Requests in flight (R130 to R162, R260, R265) -/

/-- One byte of a masked write: the bits that are written, and their values (R273). -/
structure MByte where
  mask : Byte
  val : Byte
  deriving DecidableEq, Repr, Inhabited

/-- What a copy command's ending signals (R172). -/
inductive CopyEnding where
  | cpy
  | cpyb (bar n : Nat)
  | cpyt (quad tok : Nat) (inc : Word)
  deriving DecidableEq, Repr, Inhabited

/-- What a request asks for. HGLD and HGSCAT keep the descriptor they were issued with. A request whose addresses lie in
several places asks for each address of a peer device by a request of its own (corner, scatterPart). -/
inductive ReqKind where
  /-- LDG: destination, bytes, sign extension, .strm, and the condition bit of a residency form (R133, R134) -/
  | load (d : Code) (width : Nat) (sx : Bool) (strm : Bool) (rc : Option CBit)
  /-- PROMOTE: destination and bytes (R145, R275) -/
  | promote (d : Code) (width : Nat)
  /-- STG and STN: the masked bytes (R135, R136) -/
  | store (data : List MByte)
  /-- ATOM and RED: operation, type, destination, operands (R146 to R148) -/
  | atomic (op ty : Nat) (d : Option Code) (b c : DWord)
  /-- COMB and COMBR: method, destination pair, operands (R150) -/
  | comb (m : Nat) (d : Option Code) (b c : Word)
  /-- HGLD: first result register, descriptor, coordinates (R159) -/
  | hgld (d : Code) (desc : BitVec 512) (x : List Word)
  /-- HGSCAT: the products of each request, low half then high, and the flags that forming them set (R160, R330) -/
  | hgscat (vals : List (LogVal × LogVal)) (flags : Word)
  /-- LDGU at a page of a peer: destination, bytes, whether it acquires, and the members that it serves (R137) -/
  | uniform (d : Code) (width : Nat) (acq : Bool) (lanes : List Nat)
  /-- HGCFG at a page of a peer: the members that it serves (R157) -/
  | config (lanes : List Nat)
  /-- the descriptor of a copy command that lies, or part of which lies, in a peer's memory: queue and ending (R165) -/
  | descriptor (q : Nat) (ending : CopyEnding)
  /-- n bytes of a peer for the address idx of another request -/
  | corner (parent idx n : Nat)
  /-- the add idx of a scatter, at a peer: its products (R330) -/
  | scatterPart (parent idx : Nat) (p : LogVal × LogVal)
  /-- an instruction word at a peer, for the block that fetches it (R36) -/
  | fetch (u : FetchUnit)
  deriving DecidableEq, Repr, Inhabited

/-- Who made a request: a lane, a control core, a cluster's instruction fetch, a graph node or a peer device (with the
requester's own number). -/
inductive Owner where
  | lane (l : LaneRef)
  | control (q : QuadRef)
  | cluster (cid : Nat)
  | node (n : NodeRef)
  | peer (dev seq : Nat)
  deriving DecidableEq, Repr, Inhabited

/-- How far a request has come. -/
inductive Stage where
  /-- waits for a walk (R291) -/
  | walk
  /-- its walk is in flight (R291) -/
  | walking (region : Nat)
  /-- translated, still in its core -/
  | ready
  /-- a store that its L1 holds (R265) -/
  | inL1 (core : Nat)
  /-- left for a peer device (R299) -/
  | atPeer
  /-- in a batch that waits at its home slice, or in an object's queue or wave (R312, R313) -/
  | atHome
  /-- its value, and the flags it sets, are on their way back (R152, R319) -/
  | replied (val : DWord) (flags : Word)
  /-- removed by MABORT (false) or in a faulted wave (true) (R152) -/
  | lost (wave : Bool)
  /-- its asker has taken PEERTO; the block that counts a late completion (R299) -/
  | timedOut (u : ClockUnit)
  deriving DecidableEq, Repr, Inhabited

/-- One lane's part of a global memory, atomic, combining or hashed-grid instruction, in flight. Identities rise in
program order. issue numbers the instruction that made it, and op is the same while its lane is held, then 0. fail is the
cause, address and TAUX that a part of it has met while others are under way; got lists what peers have returned for its
addresses; retrained says that no completion will come (R358). -/
structure Req where
  id : Nat
  owner : Owner
  issue : Nat
  op : Nat
  kind : ReqKind
  scope : BitVec 3
  acq : Bool
  rel : Bool
  vas : List Nat
  pas : List Nat
  cls : RegionClass
  noL1 : Bool
  peer : Option Nat
  stage : Stage
  left : Nat
  acks : List Nat
  waited : Nat
  serial : Word
  flags : Word
  fail : Option (Nat × DWord × DWord)
  got : List (Nat × List Byte)
  retrained : Bool
  deriving DecidableEq, Repr, Inhabited

/-- How far one member of an open instruction is (R130, R162, R295). -/
inductive PartState where
  | waiting
  | translated
  | performed
  | failed (cause : Nat) (addr aux : DWord)
  deriving DecidableEq, Repr, Inhabited

/-- One member of an open instruction. -/
structure Part where
  lane : Nat
  st : PartState
  deriving DecidableEq, Repr, Inhabited

/-- An issued instruction some member of which is not settled; counted marks those that a lane's serial counts
(R331), inHandler those issued inside a handler (R296), and gone those past which their lanes have gone on while a peer's
data is outstanding (R354). rest lists the members that a resumption issues it anew for, which the others wait for (R239,
R258). -/
structure Open where
  id : Nat
  pc : BitVec 56
  counted : Bool
  inHandler : Bool
  gone : Bool
  parts : List Part
  rest : List Nat
  deriving DecidableEq, Repr, Inhabited

/-! ### Lanes, groups and teams (R240 to R246) -/

/-- Why a lane is not ready (R241). -/
inductive LaneWait where
  | ready
  | exited
  /-- PAUSE: the cycles that remain (R98) -/
  | paused (left : Nat)
  /-- an arrival that has not counted yet, and the bit to write when it then waits (R99, R101) -/
  | arriving (cluster : Bool) (bar n : Nat) (cd : Option CBit)
  /-- waits for a barrier phase (R99, R101) -/
  | barrier (cluster : Bool) (bar phase : Nat) (cd : CBit)
  /-- TWAIT (R102) -/
  | token (quad tok : Nat) (value : Word)
  /-- TSIGNAL: the add to make once the listed requests have performed (R102, R266) -/
  | signal (quad tok : Nat) (inc : Word) (after : List Nat)
  /-- QWAIT: the entries accepted before it, in the queue's current epoch (R174) -/
  | queue (q upto epoch : Nat) (cd : CBit)
  /-- EVSEND (R199) -/
  | event (host : Bool) (payload : DWord) (code : Byte)
  /-- FENCE (R144) -/
  | fence (md : BitVec 4) (sc : BitVec 3)
  /-- DGST, which waits for the copy commands of the listed lanes of its group (R190) -/
  | digest (d : Code) (lanes : List Nat)
  /-- FLIPV and TLBINV (R189, R196) -/
  | sweep (inv : Nat)
  /-- a member of an open instruction (R132, R152, R160, R165) -/
  | held (op : Nat)
  /-- a copy command that its queue has not accepted: descriptor and ending (R165) -/
  | enqueue (op q : Nat) (desc : List Byte) (ending : CopyEnding)
  /-- a QFENCE that its queue has not accepted: mask and the requests that it waits for (R173) -/
  | enqueueFence (op q mask : Nat) (stores : List Nat)
  deriving DecidableEq, Repr, Inhabited

/-- A store record: word address, nibble mask, data (R339). -/
abbrev StoreRecord := DWord × BitVec 16 × DWord

/-- One lane (R240). next is where it goes on once what it waits for has come about; again is the PC and the serial of an
instruction that it is to issue anew (R331); copies lists its accepted copy commands that its copy stream has not folded, in
issue order, with their records where they have ended (R340). -/
structure Lane where
  pc : BitVec 56
  next : BitVec 56
  v : Table Word
  cond : BitVec 8
  link : DWord
  lsw : Word
  taddr : DWord
  pass : Nat
  yielded : Bool
  wait : LaneWait
  lastTeam : Table Nat
  lastCluster : Table Nat
  serial : Word
  again : Option (BitVec 56 × Word)
  st : DWord
  cp : DWord
  copies : List (Nat × Option (List StoreRecord))
  lpr : Option Page
  acqAt : Nat
  deriving DecidableEq, Repr, Inhabited

/-- The trap registers TCAUSE, TPC, TMASK, TDONE, TAUX (R192). -/
structure TrapRegs where
  cause : Word
  pc : DWord
  mask : Word
  done : Word
  aux : DWord
  deriving DecidableEq, Repr, Inhabited

/-- One group (R240, R244, R295): handler holds the handler lanes while the handler flag is set; reissue holds the
lanes that a resumption issues first (R258). hg is the loaded descriptor, hgAt the address it was loaded from (R157). -/
structure Group where
  lanes : List Lane
  g : Table Word
  live : BitVec 48
  cached : BitVec 48
  dirty : BitVec 48
  trap : TrapRegs
  handler : Option (List Nat)
  hg : Option (BitVec 512)
  hgAt : Nat
  opens : List Open
  reissue : List Nat
  lastIssue : Nat
  deriving DecidableEq, Repr, Inhabited

/-- A barrier (R99): its phase, the arrivals of the open phase and their number, whether one of them faulted, and
the completed phases that were faulted. -/
structure Barrier where
  phase : Nat
  count : Nat
  n : Nat
  faulted : Bool
  bad : List Nat
  deriving DecidableEq, Repr, Inhabited

/-- How a command ends (R171). -/
inductive CopyStatus where
  | done
  | fault (cause : Nat)
  | overlap
  | desc
  deriving DecidableEq, Repr, Inhabited

/-- What a started command has done: its ending, the elements it delivered, its flags and the store records it folds
(R171, R338); the address and the device that do not answer it, and the cycles of its core for which it has waited for
them (R299). -/
structure CopyRun where
  status : CopyStatus
  elems : Nat
  flags : Word
  records : List StoreRecord
  owed : Option (Nat × Nat)
  waited : Nat
  deriving DecidableEq, Repr, Inhabited

/-- A queue entry (R164, R173). A fence waits for the listed (queue, count, epoch) triples and requests. -/
inductive QueueEntry where
  | command (id : Nat) (lane : LaneRef) (desc : List Byte) (ending : CopyEnding) (run : Option CopyRun)
  | fence (queues : List (Nat × Nat × Nat)) (stores : List Nat)
  deriving DecidableEq, Repr, Inhabited

/-- A copy queue (R164, R175): accepted and performed count entries since the team's start or the last QRESET, and
epoch counts the QRESETs. state is QSTAT's STATE for a held queue, else 0. doneAt is the moment at which its last command
moved its elements (R266). -/
structure CopyQueue where
  entries : List QueueEntry
  state : BitVec 3
  cause : BitVec 5
  flags : BitVec 3
  done : BitVec 8
  elem : BitVec 40
  accepted : Nat
  performed : Nat
  epoch : Nat
  doneAt : Nat
  deriving DecidableEq, Repr, Inhabited

/-- A team: its groups, its window (an unlisted byte is 0x00), its barriers and its core's queues (R240). -/
structure Team where
  groups : List Group
  window : Table Byte
  bars : Table Barrier
  queues : List CopyQueue
  deriving DecidableEq, Repr, Inhabited

/-! ### Quads (R177 to R188, R219, R297) -/

/-- The seven kinds of tile task, by their KIND code (R187). -/
inductive TaskKind where
  | tmma | tmmas | tzero | tdrain | tdapply | tloadacc | tfence
  deriving DecidableEq, Repr, Inhabited

/-- How far a task is (R177, R231). -/
inductive TaskStage where
  | waiting | running | finished
  deriving DecidableEq, Repr, Inhabited

/-- An entry of the dependency table: the instruction's operands, the template it copied, its record, and the address
and the device that do not answer it, with the cycles for which it has waited for them (R177, R187, R299). -/
structure Task where
  id : Nat
  kind : TaskKind
  z : Bool
  a : DWord
  b : DWord
  c : DWord
  field : TaskField
  w0 : Option (Nat × Word)
  w1 : Option (Nat × Word)
  sig : Option (Nat × Word)
  stage : TaskStage
  record : DWord
  owed : Option (Nat × Nat)
  waited : Nat
  deriving DecidableEq, Repr, Inhabited

/-- The task template (R177, R178). -/
structure Template where
  w0 : Option (Nat × Word)
  w1 : Option (Nat × Word)
  sig : Option (Nat × Word)
  deriving DecidableEq, Repr, Inhabited

/-- Why a control core does not issue. -/
inductive ControlWait where
  | run
  | exited
  | absent
  | halted
  /-- a task that the full table has not taken (R177) -/
  | entering (t : Task)
  /-- EVSEND (R199) -/
  | event (host : Bool) (payload : DWord) (code : Byte)
  /-- FLIPV and TLBINV (R189, R196) -/
  | sweep (inv : Nat)
  /-- LDGU at a page of a peer: the request (R137, R299) -/
  | loading (req : Nat)
  /-- a trap that has not been entered yet: cause, address, TAUX, and whether the instruction performed (R297) -/
  | trapping (cause : Nat) (addr aux : DWord) (done : Bool)
  deriving DecidableEq, Repr, Inhabited

/-- A control core (R240, R297); acqAt is the moment of its last acquire beyond its cluster's L1s (R265). -/
structure Control where
  pc : BitVec 56
  next : BitVec 56
  k : Table DWord
  cond : BitVec 8
  link : DWord
  trap : TrapRegs
  taddr : DWord
  inHandler : Bool
  wait : ControlWait
  acqAt : Nat
  deriving DecidableEq, Repr, Inhabited

/-- The part of a quad that belongs to its cluster (R219). acc lists accumulator codes by 1,024 · tile + 32 · row +
column, an unlisted one being the zero code; tk is the task stream, and folds lists the drains and applications that
entered the table and that tk has not folded, with their records where they have performed (R340). doneAt is the moment at which its
last task read and wrote (R266). -/
structure Quad where
  control : Control
  tokens : Table Word
  acc : Table Word
  amax : Table Half
  tasks : List Task
  template : Template
  events : List DWord
  tk : DWord
  folds : List (Nat × Option (List StoreRecord))
  doneAt : Nat
  deriving DecidableEq, Repr, Inhabited

/-! ### Clusters, grids and graphs (R247 to R259) -/

/-- A cluster that has started and not ended: its grid, its logical linear index, the anchor quad of its slot, or none
while it is saved, and in that case the bytes of the pool that its save holds. spared says that the host's pre-emption
request left it running for want of room (R259). -/
structure Cluster where
  grid : Nat
  index : Nat
  place : Option (Nat × Nat)
  home : Nat × Nat
  saved : Nat
  spared : Bool
  teams : List Team
  quads : List Quad
  bars : Table Barrier
  result : Option DWord
  deriving DecidableEq, Repr, Inhabited

/-- The determinism block as read at the node's start (R344). -/
structure DetBlock where
  base : Nat
  logBase : Nat
  logSize : Nat
  gateLimit : Nat
  recv : Bool
  recdig : DWord
  deriving DecidableEq, Repr, Inhabited

/-- The launch fields (R251, R305). -/
structure Launch where
  entry : BitVec 56
  tentry : BitVec 56
  param : DWord
  tvec : BitVec 56
  gx : Nat
  gy : Nat
  gz : Nat
  shape : Word
  flags : Word
  quantum : Nat
  methods : List (Nat × Nat)
  det : Option DetBlock
  deriving DecidableEq, Repr, Inhabited

/-- What the black box and the graph report say of an abort (R299, R301). -/
structure AbortInfo where
  cause : Nat
  pc : DWord
  mask : Word
  addr : DWord
  core : Nat
  group : Nat
  machineCheck : Bool
  deriving DecidableEq, Repr, Inhabited

/-- A running grid (R251 to R256, R333, R341, R347). began is the moment at which its LAUNCH node started (R38). -/
structure Grid where
  node : NodeRef
  launch : Launch
  next : Nat
  retired : Nat
  ended : List (Nat × DWord × Option DWord)
  digest : DWord
  result : Option (Nat × DWord)
  rrstat : BitVec 3
  overflowed : List Nat
  reex : Bool
  firstDigest : DWord
  rrsum : Word
  ovfsl : Word
  held : Nat
  preempt : Nat
  abort : Option AbortInfo
  since : Nat
  began : Nat
  deriving DecidableEq, Repr, Inhabited

/-- How far a node of a submitted graph is (R248). -/
inductive NodeStage where
  | pending
  | running
  /-- its effect is over; the STATUS that NODE_END writes, and the successor that a BRANCH chose -/
  | ending (status : Nat) (chosen : Option Nat)
  | ended
  deriving DecidableEq, Repr, Inhabited

/-- The command processor's record of a node (R247 to R249). image is the node as read at its graph's submission, and then as
read when it became eligible; owed is the address and the device that do not answer it, with the cycles for which it has
waited for them (R299). -/
structure Node where
  addr : Nat
  arrivals : Nat
  normal : Bool
  stage : NodeStage
  image : List Byte
  waited : Nat
  owed : Option (Nat × Nat × Nat)
  deriving DecidableEq, Repr, Inhabited

/-- What a graph's report to the host says of a node beside its status (R248, R299, R333). -/
inductive GraphReport where
  /-- the end of its grid: cause, TPC, TMASK, TADDR, core and group (R299, R301) -/
  | aborted (node : Nat) (a : AbortInfo)
  /-- a node that does not translate (R248) -/
  | unreadable (node : Nat)
  /-- the recorded digest and that of the re-execution (R333) -/
  | diverged (node : Nat) (recorded found : DWord)
  deriving DecidableEq, Repr, Inhabited

/-- A submission slot (R248, R249, R351): the latched root, whether its graph runs, whether it has failed, whether the host
has asked for its pre-emption, whether a doorbell waits for the command processor, its nodes, and its report to the host. -/
structure Slot where
  root : Nat
  running : Bool
  failed : Bool
  preempt : Bool
  rung : Bool
  nodes : List Node
  reports : List GraphReport
  deriving DecidableEq, Repr, Inhabited

/-! ### Home slices (R304 to R323, R342 to R345) -/

/-- A request in an object's queue: the request, which of its addresses, the batch it came in, and the moment that
batch arrived at the slice. -/
structure QueuedReq where
  req : Nat
  idx : Nat
  batch : Nat
  arrived : Nat
  deriving DecidableEq, Repr, Inhabited

/-- A batch outside the queues: the requests of one issue to one object (R312); begun says that the gate has admitted some
of them (R315). -/
structure Batch where
  id : Nat
  line : Nat
  slice : Nat
  reqs : List (Nat × Nat)
  arrived : Nat
  begun : Bool
  deriving DecidableEq, Repr, Inhabited

/-- What all requests of a wave share (R308, R315). -/
inductive WaveKey where
  | builtin (op ty : Nat)
  | user (m grid : Nat)
  deriving DecidableEq, Repr, Inhabited

/-- Why a user wave faults (R320). -/
inductive WaveStop where
  | undefined | target | objectBounds | abortAfterStore | budget | fetch
  deriving DecidableEq, Repr, Inhabited

/-- A lane of a wave (R309). -/
structure WaveLane where
  pc : BitVec 56
  v : Table Word
  cond : BitVec 8
  lsw : Word
  pass : Nat
  yielded : Bool
  reply : DWord
  stored : Bool
  removed : Bool
  ended : Bool
  deriving DecidableEq, Repr, Inhabited

/-- A wave (R309, R310): its object, its requests, its instruction buffer, the object's bytes as they stood when it began
(R154), and the buffered object writes. -/
structure Wave where
  line : Nat
  key : WaveKey
  reqs : List QueuedReq
  entry : BitVec 56
  code : List Byte
  lanes : List WaveLane
  g : Table Word
  object : List Byte
  buffer : Table Byte
  issues : Nat
  stop : Option WaveStop
  deriving DecidableEq, Repr, Inhabited

/-- The identity and serial of a logged requester (R331). -/
structure Requester where
  cluster : Nat
  team : Nat
  group : Nat
  lane : Nat
  serial : Word
  deriving DecidableEq, Repr, Inhabited

/-- A chunk of an order log (R332). -/
structure Chunk where
  line : Nat
  who : Requester
  count : Nat
  same : Bool
  deriving DecidableEq, Repr, Inhabited

/-- The gate's position at one object: chunks consumed, requests of the head admitted, and the slice cycles for which
the head has been unmatched (R342, R345). -/
structure Gate where
  chunks : Nat
  admitted : Nat
  waited : Nat
  deriving DecidableEq, Repr, Inhabited

/-- A slice's log of one grid (R342, R343): chunks written, open chunks in opening order, overflow, and the gates by
line. -/
structure SliceLog where
  written : Nat
  opened : List Chunk
  full : Bool
  gates : Table Gate
  deriving DecidableEq, Repr, Inhabited

/-- A home slice: the queues of its object table, the batches that wait at it, its wave, the lines a batch of which has
performed in part, with the batch (R131), its local counter, COMBRLOST, its logs by grid, the lines that its L2 slice holds
with their four sectors (R6, R7; their bytes are those of State.mem), and the instruction words that its crucible keeps
(R306). -/
structure Slice where
  queues : Table (List QueuedReq)
  waiting : List Batch
  wave : Option Wave
  split : Table Nat
  cycle : DWord
  lost : DWord
  logs : Table SliceLog
  l2 : Table (BitVec 4)
  code : Table CodeWord
  deriving DecidableEq, Repr, Inhabited

/-! ### Host interface (R348 to R358) -/

/-- The control registers that hold state (R350). slotstat and frzstat hold the register's fields. -/
structure Bar0 where
  fwstat : DWord
  devnum : DWord
  ptroot : DWord
  ctxbase : DWord
  ctxsize : DWord
  peertab : DWord
  inbound : DWord
  peerto : DWord
  evbase : DWord
  evctl : DWord
  evhead : DWord
  evtail : DWord
  evdrop : DWord
  slots : List DWord
  slotstat : List (BitVec 4)
  invstart : DWord
  invstat : BitVec 2
  frzstat : BitVec 3
  nonce : List Byte
  attReady : Bool
  attReport : List Byte
  temp : DWord
  current : DWord
  cec : DWord
  uec : DWord
  lasterr : List Byte
  deriving DecidableEq, Repr, Inhabited

/-- Who is held until a host event has been written. -/
inductive Sender where
  | lane (l : LaneRef)
  | control (q : QuadRef)
  deriving DecidableEq, Repr, Inhabited

/-- An entry that waits for the event ring (R199, R352). -/
structure HostEvent where
  payload : DWord
  info : Word
  source : Word
  sender : Option Sender
  deriving DecidableEq, Repr, Inhabited

/-- A black-box record (R356). -/
structure BlackRecord where
  seq : DWord
  kind : Byte
  cause : Byte
  unit : Half
  cycle : Word
  detail : BitVec 128
  deriving DecidableEq, Repr, Inhabited

/-- A completion sent back to a peer device (R298, R354): data, or the kind of the error. -/
structure PeerReply where
  dev : Nat
  seq : Nat
  ok : Bool
  data : List Byte
  deriving DecidableEq, Repr, Inhabited

/-! ### The issue that an instruction's meaning acts on -/

/-- The engine that executes an instruction, and where (R22). -/
inductive Engine where
  | lane (g : GroupRef)
  | control (q : QuadRef)
  | method (slice : Nat)
  deriving DecidableEq, Repr, Inhabited

/-- The issue now executing: its engine, its run in ascending order, and its PC (R241). -/
structure Issue where
  engine : Engine
  run : List Nat
  pc : BitVec 56
  deriving DecidableEq, Repr, Inhabited

/-- The whole device (INVENTORY.md, State). mem lists device memory and host memory by physical address; an unlisted
byte reads 0x00. saving says that FREEZE 2 has clusters left to save (R357). bad lists the bytes in which an uncorrectable
error stands that no agent has read (R301). agenda holds the turns that the environment
and the schedulers have chosen, tick counts steps and nextId numbers requests, clusters and grids. -/
structure State where
  mem : List Host.Cell
  bad : List Nat
  bar0 : Bar0
  ringSeq : DWord
  hostEvents : List HostEvent
  blackbox : List BlackRecord
  bbSeq : DWord
  powered : Bool
  frozen : Bool
  saving : Bool
  throttled : Bool
  cpCycle : DWord
  cores : Table CoreHw
  quads : Table QuadHw
  slices : Table Slice
  slots : List Slot
  grids : Table Grid
  clusters : Table Cluster
  reqs : List Req
  invalidations : List Invalidation
  peerReplies : List PeerReply
  tick : Nat
  nextId : Nat
  agenda : List Turn
  cur : Option Issue
  deriving DecidableEq, Repr, Inhabited

/-- The reasons for which the model stops. -/
inductive Fault where
  /-- Raised by the meaning of an encoded instruction when exec is asked for it in a state whose cur names no issue:
  no engine of the device executes an instruction that way. Safe: step always names the issue. -/
  | noIssue
  deriving DecidableEq, Repr

/-- The reasons for which the model refuses. -/
inductive Refusal where
  /-- Raised by an arm of Dispatch.lean whose instruction has no meaning yet. Safe. -/
  | notModelled (mnemonic : String)
  deriving DecidableEq, Repr

/-! ### Reset -/

/-- BAR0 after reset (R350); the nonce and the report are write-only or not ready then. -/
def Bar0.reset : Bar0 where
  fwstat := 0
  devnum := 0
  ptroot := 0
  ctxbase := 0
  ctxsize := 0
  peertab := 0
  inbound := 0
  peerto := 1300000
  evbase := 0
  evctl := 0
  evhead := 0
  evtail := 0
  evdrop := 0
  slots := [0, 0, 0, 0, 0, 0, 0, 0]
  slotstat := [0, 0, 0, 0, 0, 0, 0, 0]
  invstart := 0
  invstat := 0
  frzstat := 0
  nonce := []
  attReady := false
  attReport := []
  temp := 0
  current := 0
  cec := 0
  uec := 0
  lasterr := []

/-- A core at reset. -/
def CoreHw.reset : CoreHw := ⟨0, [], [], [], [], []⟩

/-- A quad's hardware at reset. -/
def QuadHw.reset : QuadHw := ⟨0, [], ⟨[], []⟩, [], []⟩

/-- A slice at reset. -/
def Slice.reset : Slice := ⟨[], [], none, [], 0, 0, [], [], []⟩

/-- A submission slot at reset. -/
def Slot.reset : Slot := ⟨0, false, false, false, false, [], []⟩

/-- The device right after a cold reset, before the boot ROM has finished (FWSTAT 0): memory with nothing listed, no
graph, no grid, no cluster. -/
def State.reset : State where
  mem := []
  bad := []
  bar0 := Bar0.reset
  ringSeq := 0
  hostEvents := []
  blackbox := []
  bbSeq := 0
  powered := true
  frozen := false
  saving := false
  throttled := false
  cpCycle := 0
  cores := []
  quads := []
  slices := []
  slots := [Slot.reset, Slot.reset, Slot.reset, Slot.reset, Slot.reset, Slot.reset, Slot.reset, Slot.reset]
  grids := []
  clusters := []
  reqs := []
  invalidations := []
  peerReplies := []
  tick := 0
  nextId := 1
  agenda := []
  cur := none

end Sys2Proof.Machine
end

