-- ==== Sys2Proof/Machine/Ops.lean ====
section
/-! DEFINITION. The named operations over tables, memory, registers and the parts of the device, and the shared
operations of traps: taking one, returning from one, and ending a grid for want of a handler. -/

namespace Sys2Proof

/-- A lane of a group. -/
def GroupRef.at (g : GroupRef) (lane : Nat) : LaneRef := ⟨g.cid, g.team, g.group, lane⟩

/-- The group of a lane. -/
def LaneRef.gr (l : LaneRef) : GroupRef := ⟨l.cid, l.team, l.group⟩

end Sys2Proof

namespace Sys2Proof.Machine

open Sys2Proof

/-! ### Tables -/

/-- The entry of key n. -/
def Table.find {α : Type} : Table α → Nat → Option α
  | [], _ => none
  | (k, x) :: t, n => if k = n then some x else Table.find t n

/-- The table with x at key n; keys stay in rising order. -/
def Table.set {α : Type} : Table α → Nat → α → Table α
  | [], n, x => [(n, x)]
  | (k, y) :: t, n, x =>
    if n = k then (n, x) :: t else if n < k then (n, x) :: (k, y) :: t else (k, y) :: Table.set t n x

/-- The table without key n. -/
def Table.erase {α : Type} : Table α → Nat → Table α
  | [], _ => []
  | (k, y) :: t, n => if k = n then Table.erase t n else (k, y) :: Table.erase t n

/-- The entry of key n, or the value d that an unlisted key holds. -/
def Table.get {α : Type} (t : Table α) (d : α) (n : Nat) : α := (t.find n).getD d

/-- The element i of a list replaced by f of it; nothing where there is none. -/
def modAt {α : Type} : List α → Nat → (α → α) → List α
  | [], _, _ => []
  | x :: xs, 0, f => f x :: xs
  | x :: xs, n + 1, f => x :: modAt xs n f

/-! ### Bytes of a memory: a list of cells, an unlisted address reading 0x00 -/

/-- Reading one byte. -/
def Mem.read (m : List Host.Cell) (a : Nat) : Byte := Table.get m 0 a

/-- Writing one byte, keeping the canonical form: no listed byte is 0x00. -/
def Mem.write (m : List Host.Cell) (a : Nat) (b : Byte) : List Host.Cell :=
  if b = 0 then Table.erase m a else Table.set m a b

/-- The canonical form: addresses strictly rising, no entry 0x00. -/
def Mem.wf : List Host.Cell → Bool
  | [] => true
  | [(_, b)] => b != 0
  | (a, b) :: (a', b') :: t => b != 0 && decide (a < a') && Mem.wf ((a', b') :: t)

/-- n bytes from address a. -/
def Mem.readBytes (m : List Host.Cell) (a : Nat) : Nat → List Byte
  | 0 => []
  | n + 1 => Mem.read m a :: Mem.readBytes m (a + 1) n

/-- Bytes written from address a up. -/
def Mem.writeBytes (m : List Host.Cell) (a : Nat) : List Byte → List Host.Cell
  | [] => m
  | b :: bs => Mem.writeBytes (Mem.write m a b) (a + 1) bs

/-- A byte with the bits of mask replaced (R273). -/
def MByte.apply (x : MByte) (old : Byte) : Byte := (old &&& ~~~x.mask) ||| (x.val &&& x.mask)

/-- Masked bytes written from address a up. -/
def Mem.writeMasked (m : List Host.Cell) (a : Nat) : List MByte → List Host.Cell
  | [] => m
  | x :: xs => Mem.writeMasked (Mem.write m a (x.apply (Mem.read m a))) (a + 1) xs

/-- A byte written whole. -/
def MByte.whole (b : Byte) : MByte := ⟨0xFF, b⟩

/-- Bits written within bytes whose positions count in bits from a byte base: the byte that holds the first bit, and
its mask; widths of 1, 4 and whole bytes (R169). -/
def maskedOfBits (bit width : Nat) (val : Nat) : Nat × List MByte :=
  let a := bit / 8
  if width % 8 = 0 then (a, (toBytesLE (width / 8) val).map MByte.whole)
  else (a, [⟨BitVec.ofNat 8 ((2 ^ width - 1) * 2 ^ (bit % 8)), BitVec.ofNat 8 ((val % 2 ^ width) * 2 ^ (bit % 8))⟩])

/-- Physical device memory is 384 GiB (R283). -/
def deviceBytes : Nat := 0x6000000000

/-- A physical address that R283 decodes to device memory or host memory. -/
def paValid (pa : Nat) : Bool := decide (pa < deviceBytes) || (decide (2 ^ 47 ≤ pa) && decide (pa < 2 ^ 48))

/-- A line number of a physical address (R262). -/
def lineOf (pa : Nat) : Nat := pa / 128

/-- A PC: bits [1:0] are 0 (R17). -/
def alignPc (x : BitVec 56) : BitVec 56 := x &&& ~~~3#56

/-- The home slice of a physical address (R263), of device memory and of host memory alike. -/
def homeSlice (pa : Nat) : Nat :=
  let a := (pa / 128) % 2 ^ 32
  let low := (a &&& 0x7F) ^^^ ((a >>> 7) &&& 0x7F) ^^^ ((a >>> 14) &&& 0x7F) ^^^ ((a >>> 21) &&& 0x7F)
    ^^^ ((a >>> 28) &&& 0xF)
  128 * (a % 3) + low

/-! ### Parts of the device -/

/-- A core's hardware. -/
def State.core (s : State) (n : Nat) : CoreHw := s.cores.get CoreHw.reset n

/-- A core's hardware replaced. -/
def State.setCore (s : State) (n : Nat) (c : CoreHw) : State := { s with cores := s.cores.set n c }

/-- A quad's hardware. -/
def State.quadHw (s : State) (n : Nat) : QuadHw := s.quads.get QuadHw.reset n

/-- A quad's hardware replaced. -/
def State.setQuadHw (s : State) (n : Nat) (q : QuadHw) : State := { s with quads := s.quads.set n q }

/-- A home slice. -/
def State.sliceAt (s : State) (n : Nat) : Slice := s.slices.get Slice.reset n

/-- A home slice replaced. -/
def State.setSlice (s : State) (n : Nat) (x : Slice) : State := { s with slices := s.slices.set n x }

/-- A counter of a core raised by n (R197). -/
def State.countCore (s : State) (core ctr : Nat) (n : Nat) : State :=
  let c := s.core core
  s.setCore core { c with counters := c.counters.set ctr (c.counters.get 0 ctr + BitVec.ofNat 64 n) }

/-- A counter of a quad raised by n (R197). -/
def State.countQuad (s : State) (quad ctr : Nat) (n : Nat) : State :=
  let c := s.quadHw quad
  s.setQuadHw quad { c with counters := c.counters.set ctr (c.counters.get 0 ctr + BitVec.ofNat 64 n) }

/-- A fresh number, and the state that has used it. -/
def State.fresh (s : State) : Nat × State := (s.nextId, { s with nextId := s.nextId + 1 })

/-- A running cluster. -/
def State.cluster (s : State) (cid : Nat) : Option Cluster := s.clusters.find cid

/-- The cluster whose agent made a request. -/
def Owner.cid : Owner → Option Nat
  | .lane l => some l.cid
  | .control q => some q.cid
  | .cluster cid => some cid
  | .node _ | .peer _ _ => none

/-- A cluster changed, where it exists. -/
def State.modCluster (s : State) (cid : Nat) (f : Cluster → Cluster) : State :=
  match s.clusters.find cid with
  | none => s
  | some c => { s with clusters := s.clusters.set cid (f c) }

/-- A team. -/
def State.team (s : State) (cid team : Nat) : Option Team := (s.cluster cid).bind fun c => c.teams[team]?

/-- A team changed. -/
def State.modTeam (s : State) (cid team : Nat) (f : Team → Team) : State :=
  s.modCluster cid fun c => { c with teams := modAt c.teams team f }

/-- A group. -/
def State.group (s : State) (g : GroupRef) : Option Group := (s.team g.cid g.team).bind fun t => t.groups[g.group]?

/-- A group changed. -/
def State.modGroup (s : State) (g : GroupRef) (f : Group → Group) : State :=
  s.modTeam g.cid g.team fun t => { t with groups := modAt t.groups g.group f }

/-- A lane. -/
def State.lane (s : State) (l : LaneRef) : Option Lane := (s.group l.gr).bind fun g => g.lanes[l.lane]?

/-- A lane changed. -/
def State.modLane (s : State) (l : LaneRef) (f : Lane → Lane) : State :=
  s.modGroup l.gr fun g => { g with lanes := modAt g.lanes l.lane f }

/-- A quad's part of a cluster. -/
def State.quad (s : State) (q : QuadRef) : Option Quad := (s.cluster q.cid).bind fun c => c.quads[q.quad]?

/-- A quad's part of a cluster changed. -/
def State.modQuad (s : State) (q : QuadRef) (f : Quad → Quad) : State :=
  s.modCluster q.cid fun c => { c with quads := modAt c.quads q.quad f }

/-- A control core changed. -/
def State.modControl (s : State) (q : QuadRef) (f : Control → Control) : State :=
  s.modQuad q fun x => { x with control := f x.control }

/-- A copy queue. -/
def State.queue (s : State) (q : QueueRef) : Option CopyQueue := (s.team q.cid q.team).bind fun t => t.queues[q.q]?

/-- A copy queue changed. -/
def State.modQueue (s : State) (q : QueueRef) (f : CopyQueue → CopyQueue) : State :=
  s.modTeam q.cid q.team fun t => { t with queues := modAt t.queues q.q f }

/-- A wave lane changed. -/
def State.modWaveLane (s : State) (slice lane : Nat) (f : WaveLane → WaveLane) : State :=
  let x := s.sliceAt slice
  match x.wave with
  | none => s
  | some w => s.setSlice slice { x with wave := some { w with lanes := modAt w.lanes lane f } }

/-- A slice's wave changed. -/
def State.modWave (s : State) (slice : Nat) (f : Wave → Wave) : State :=
  let x := s.sliceAt slice
  match x.wave with
  | none => s
  | some w => s.setSlice slice { x with wave := some (f w) }

/-- A request. -/
def State.req (s : State) (id : Nat) : Option Req := s.reqs.find? fun r => r.id == id

/-- A request changed. -/
def State.modReq (s : State) (id : Nat) (f : Req → Req) : State :=
  { s with reqs := s.reqs.map fun r => if r.id == id then f r else r }

/-- A request that is over. -/
def State.dropReq (s : State) (id : Nat) : State := { s with reqs := s.reqs.filter fun r => r.id != id }

/-- A grid. -/
def State.grid (s : State) (id : Nat) : Option Grid := s.grids.find id

/-- A grid changed. -/
def State.modGrid (s : State) (id : Nat) (f : Grid → Grid) : State :=
  match s.grids.find id with
  | none => s
  | some g => { s with grids := s.grids.set id (f g) }

/-- The grid of a cluster. -/
def State.gridOf (s : State) (cid : Nat) : Option Grid := (s.cluster cid).bind fun c => s.grid c.grid

/-! ### The shape word (R251) -/

/-- Quad rows of the cluster. -/
def Launch.qr (l : Launch) : Nat := (slice l.shape 0 2).toNat
/-- Quad columns of the cluster. -/
def Launch.qc (l : Launch) : Nat := (slice l.shape 2 2).toNat
/-- Lanes per group. -/
def Launch.lpg (l : Launch) : Nat := (slice l.shape 4 6).toNat
/-- Groups per team. -/
def Launch.gpt (l : Launch) : Nat := (slice l.shape 10 6).toNat
/-- The window of a team in bytes. -/
def Launch.window (l : Launch) : Nat := 4096 * (slice l.shape 16 8).toNat
/-- The number of clusters of the grid. -/
def Launch.count (l : Launch) : Nat := l.gx * l.gy * l.gz
/-- Deterministic placement. -/
def Launch.detPlace (l : Launch) : Bool := l.flags.getLsbD 0
/-- The CORES flag, which a replay implies (R335). -/
def Launch.cores (l : Launch) : Bool := l.flags.getLsbD 1 || slice l.flags 4 2 == 2
/-- Fused L1s. -/
def Launch.fused (l : Launch) : Bool := l.flags.getLsbD 2
/-- Store digests on. -/
def Launch.digest (l : Launch) : Bool := l.flags.getLsbD 3
/-- RRMODE. -/
def Launch.rrmode (l : Launch) : Nat := (slice l.flags 4 2).toNat
/-- The FLIP capability. -/
def Launch.capFlip (l : Launch) : Bool := l.flags.getLsbD 8
/-- The TLB capability. -/
def Launch.capTlb (l : Launch) : Bool := l.flags.getLsbD 9
/-- The priority. -/
def Launch.prio (l : Launch) : Nat := (slice l.flags 16 3).toNat

/-! ### Places in the mesh (R140, R192, R252) -/

/-- The anchor quad of a cluster's slot; a saved cluster's is the one it last had. -/
def Cluster.anchor (c : Cluster) : Nat × Nat := c.place.getD c.home

/-- Mesh row and column of core i of a cluster with qc quad columns: the cores are numbered row-major over the
cluster's core rectangle, two by two in each quad. -/
def coreAt (anchor : Nat × Nat) (qc i : Nat) : Nat × Nat :=
  (2 * anchor.1 + i / (2 * qc), 2 * anchor.2 + i % (2 * qc))

/-- The number of a core of the mesh of 32 rows and 48 columns (R309). -/
def coreNum (rc : Nat × Nat) : Nat := 48 * rc.1 + rc.2

/-- The number of a quad of the mesh of 16 rows and 24 columns (R199). -/
def quadNum (rc : Nat × Nat) : Nat := 24 * rc.1 + rc.2

/-- The quad that holds a core. -/
def quadOfCore (n : Nat) : Nat := 24 * (n / 48 / 2) + n % 48 / 2

/-- Row and column of quad i of a cluster. -/
def quadAt (anchor : Nat × Nat) (qc i : Nat) : Nat × Nat := (anchor.1 + i / qc, anchor.2 + i % qc)

/-- The core that a team runs on. -/
def State.coreOf (s : State) (cid team : Nat) : Nat :=
  match s.cluster cid with
  | none => 0
  | some c => coreNum (coreAt c.anchor ((s.grid c.grid).map (·.launch.qc) |>.getD 1) team)

/-- The quad of the mesh that a quad of a cluster is. -/
def State.quadOf (s : State) (q : QuadRef) : Nat :=
  match s.cluster q.cid with
  | none => 0
  | some c => quadNum (quadAt c.anchor ((s.grid c.grid).map (·.launch.qc) |>.getD 1) q.quad)

/-- The L1 that serves a line for a core of a cluster (R262). -/
def State.l1Of (s : State) (cid team line : Nat) : Nat :=
  match s.gridOf cid, s.cluster cid with
  | some g, some c => if g.launch.fused then s.coreOf cid (line % c.teams.length) else s.coreOf cid team
  | _, _ => s.coreOf cid team

/-! ### Threads and their registers (R22, R23, R240, R309) -/

/-- One thread of an engine. -/
inductive Thread where
  | lane (l : LaneRef)
  | control (q : QuadRef)
  | wave (slice lane : Nat)
  deriving DecidableEq, Repr

/-- Thread i of an engine. -/
def Engine.thread (e : Engine) (i : Nat) : Thread :=
  match e with
  | .lane g => .lane (g.at i)
  | .control q => .control q
  | .method n => .wave n i

/-- Whether a thread is a control core, whose registers are 64 bits wide (R68). -/
def Thread.isControl : Thread → Bool
  | .control _ => true
  | _ => false

/-- The value of the register that a code names, zero-extended to 64 bits. A register with no entry reads 0. -/
def State.reg (s : State) (t : Thread) (c : Code) : DWord :=
  match t with
  | .lane l =>
    if c.toNat < 192 then (((s.lane l).map fun x : Lane => x.v.get 0 c.toNat).getD 0).zeroExtend 64
    else (((s.group l.gr).map fun g : Group => g.g.get 0 (c.toNat - 192)).getD 0).zeroExtend 64
  | .control q => ((s.quad q).map fun x : Quad => x.control.k.get 0 c.toNat).getD 0
  | .wave n i =>
    match (s.sliceAt n).wave with
    | none => 0
    | some w =>
      if c.toNat < 192 then ((w.lanes[i]?.map fun x : WaveLane => x.v.get 0 c.toNat).getD 0).zeroExtend 64
      else (w.g.get 0 (c.toNat - 192)).zeroExtend 64

/-- A 32-bit operand; on the control core the low half of a k register. -/
def State.reg32 (s : State) (t : Thread) (c : Code) : Word := (s.reg t c).truncate 32

/-- A 64-bit operand: a pair, or one k register (R23). -/
def State.reg64 (s : State) (t : Thread) (c : Code) : DWord :=
  if t.isControl then s.reg t c else s.reg32 t (c + 1) ++ s.reg32 t c

/-- n registers from a code up. -/
def State.regs (s : State) (t : Thread) (c : Code) (n : Nat) : List Word :=
  (List.range n).map fun i => s.reg32 t (c + BitVec.ofNat 8 i)

/-- A condition bit; c7 reads 1 (R27). -/
def State.condBit (s : State) (t : Thread) (c : CBit) : Bool :=
  c == 7 || (match t with
    | .lane l => ((s.lane l).map fun x : Lane => x.cond.getLsbD c.toNat).getD false
    | .control q => ((s.quad q).map fun x : Quad => x.control.cond.getLsbD c.toNat).getD false
    | .wave n i => (((s.sliceAt n).wave.bind fun w => w.lanes[i]?).map fun x => x.cond.getLsbD c.toNat).getD false)

/-- A bit of a byte set to b. -/
def setBit8 (x : BitVec 8) (i : Nat) (b : Bool) : BitVec 8 :=
  if b then x ||| (1#8 <<< i) else x &&& ~~~(1#8 <<< i)

/-- The condition bits with bit c written; a write to c7 is discarded (R24). -/
def putCond (x : BitVec 8) (c : CBit) (b : Bool) : BitVec 8 := if c = 7 then x else setBit8 x c.toNat b

/-- A condition bit written. -/
def State.setCond (s : State) (t : Thread) (c : CBit) (b : Bool) : State :=
  match t with
  | .lane l => s.modLane l fun x => { x with cond := putCond x.cond c b }
  | .control q => s.modControl q fun x => { x with cond := putCond x.cond c b }
  | .wave n i => s.modWaveLane n i fun x => { x with cond := putCond x.cond c b }

/-- A 32-bit register written; a k register takes it zero-extended. A group code writes the group's register. -/
def State.setReg32 (s : State) (t : Thread) (c : Code) (x : Word) : State :=
  match t with
  | .lane l =>
    if c.toNat < 192 then s.modLane l fun y => { y with v := y.v.set c.toNat x }
    else s.modGroup l.gr fun g => { g with g := g.g.set (c.toNat - 192) x }
  | .control q => s.modControl q fun y => { y with k := y.k.set c.toNat (x.zeroExtend 64) }
  | .wave n i =>
    if c.toNat < 192 then s.modWaveLane n i fun y => { y with v := y.v.set c.toNat x }
    else s.modWave n fun w => { w with g := w.g.set (c.toNat - 192) x }

/-- A 64-bit operand written: a pair, or one k register (R23). -/
def State.setReg64 (s : State) (t : Thread) (c : Code) (x : DWord) : State :=
  match t with
  | .control q => s.modControl q fun y => { y with k := y.k.set c.toNat x }
  | _ => (s.setReg32 t c (x.truncate 32)).setReg32 t (c + 1) (x.extractLsb' 32 32)

/-- Registers written from a code up. -/
def State.setRegs (s : State) (t : Thread) (c : Code) : List Word → State
  | [] => s
  | x :: xs => (s.setReg32 t c x).setRegs t (c + 1) xs

/-- Sticky flags set in a lane's or wave lane's LSW; a control core has none (R64, R68). -/
def State.setFlags (s : State) (t : Thread) (f : Word) : State :=
  match t with
  | .lane l => s.modLane l fun x => { x with lsw := x.lsw ||| f }
  | .control _ => s
  | .wave n i => s.modWaveLane n i fun x => { x with lsw := x.lsw ||| f }

/-- LINK written: bits [63:56] are 0 (R95). -/
def State.setLink (s : State) (t : Thread) (x : DWord) : State :=
  match t with
  | .lane l => s.modLane l fun y => { y with link := x &&& 0x00FFFFFFFFFFFFFF }
  | .control q => s.modControl q fun y => { y with link := x &&& 0x00FFFFFFFFFFFFFF }
  | .wave _ _ => s

/-- LINK of a thread. -/
def State.link (s : State) (t : Thread) : DWord :=
  match t with
  | .lane l => ((s.lane l).map (·.link)).getD 0
  | .control q => ((s.quad q).map (·.control.link)).getD 0
  | .wave _ _ => 0

/-- The PC of a thread written. A wave lane that reaches the end of its method ends (R310). -/
def State.setPc (s : State) (t : Thread) (pc : BitVec 56) : State :=
  match t with
  | .lane l => s.modLane l fun x => { x with pc := pc }
  | .control q => s.modControl q fun x => { x with pc := pc }
  | .wave n i => s.modWave n fun w =>
      { w with lanes := modAt w.lanes i fun x =>
          { x with pc := pc, ended := x.ended || pc == w.entry + BitVec.ofNat 56 w.code.length } }

/-- The PC of a thread. -/
def State.pcOf (s : State) (t : Thread) : BitVec 56 :=
  match t with
  | .lane l => ((s.lane l).map (·.pc)).getD 0
  | .control q => ((s.quad q).map (·.control.pc)).getD 0
  | .wave n i => (((s.sliceAt n).wave.bind fun w => w.lanes[i]?).map (·.pc)).getD 0

/-! ### Effects of one instruction on one thread -/

/-- A register written by an instruction. -/
inductive RegWrite where
  | r32 (c : Code) (x : Word)
  | r64 (c : Code) (x : DWord)
  deriving DecidableEq, Repr

/-- What an instruction does to one thread beside its PC. -/
structure Eff where
  regs : List RegWrite := []
  conds : List (CBit × Bool) := []
  flags : Word := 0
  deriving DecidableEq, Repr

/-- A register written. -/
def State.applyWrite (s : State) (t : Thread) : RegWrite → State
  | .r32 c x => s.setReg32 t c x
  | .r64 c x => s.setReg64 t c x

/-- An effect applied to a thread. -/
def State.applyEff (s : State) (t : Thread) (e : Eff) : State :=
  let s := e.regs.foldl (fun s w => s.applyWrite t w) s
  let s := e.conds.foldl (fun s p => s.setCond t p.1 p.2) s
  if e.flags = 0 then s else s.setFlags t e.flags

/-- An effect for each thread of a list, in order. -/
def State.applyAll (s : State) (es : List (Thread × Eff)) : State :=
  es.foldl (fun s p => s.applyEff p.1 p.2) s

/-- The PC of each thread set. -/
def State.setPcs (s : State) (ts : List Thread) (pc : BitVec 56) : State :=
  ts.foldl (fun s t => s.setPc t pc) s

/-! ### LSW flags (R64) -/

/-- NV: invalid. -/
def flagNV : Word := 0x1
/-- OF: overflow. -/
def flagOF : Word := 0x2
/-- UF: underflow. -/
def flagUF : Word := 0x4
/-- CX: the near-cancellation path was used. -/
def flagCX : Word := 0x8
/-- SAT: an integer saturated. -/
def flagSAT : Word := 0x10
/-- NR: an access met a non-resident page. -/
def flagNR : Word := 0x20

/-! ### The black box and the event ring (R352, R356) -/

/-- A record added to the black box; the oldest of 2,048 gives way (R356). -/
def State.record (s : State) (kind cause unit : Nat) (detail : BitVec 128) : State :=
  let r : BlackRecord := ⟨s.bbSeq + 1, BitVec.ofNat 8 kind, BitVec.ofNat 8 cause, BitVec.ofNat 16 unit,
    s.cpCycle.truncate 32, detail⟩
  { s with bbSeq := s.bbSeq + 1, blackbox := (s.blackbox ++ [r]).drop (s.blackbox.length - 2047) }

/-- DETAIL of an event's record: its payload, its code and its source (R199, log 67). -/
def eventDetail (payload : DWord) (code : Byte) (source : Word) : BitVec 128 :=
  BitVec.ofNat 128 (payload.toNat + 2 ^ 64 * (code.toNat + 2 ^ 32 * source.toNat))

/-- An event that waits for the host ring (R352). -/
def State.postEvent (s : State) (e : HostEvent) : State := { s with hostEvents := s.hostEvents ++ [e] }

/-- SOURCE of a lane's event: core, group and lane (R352). -/
def State.laneSource (s : State) (l : LaneRef) : Word :=
  BitVec.ofNat 32 (s.coreOf l.cid l.team + 2048 * l.group + 65536 * l.lane)

/-- SOURCE of a control core's event: 1,536 + the number of its quad (R199). -/
def State.controlSource (s : State) (q : QuadRef) : Word := BitVec.ofNat 32 (1536 + s.quadOf q)

/-! ### Waiting and going on -/

/-- A lane waits at its instruction, and is to go on at next; its pass count starts anew (R242). -/
def State.hold (s : State) (l : LaneRef) (w : LaneWait) (next : BitVec 56) : State :=
  s.modLane l fun x => { x with wait := w, next := next, pass := 0 }

/-- A waiting lane goes on past its instruction (R242). -/
def State.wake (s : State) (l : LaneRef) : State :=
  s.modLane l fun x => { x with wait := .ready, pc := x.next, pass := 0 }

/-- A stopped control core goes on past its instruction. -/
def State.wakeControl (s : State) (q : QuadRef) : State :=
  s.modControl q fun c => { c with wait := .run, pc := c.next }

/-- The scopes at which an L1 is the point that serves every agent of the instance (R265). -/
def servedByL1 (sc : BitVec 3) (fused : Bool) : Bool := decide (sc < 3) || (sc == 3 && fused)

/-- Whether the launch of a cluster fuses its L1s. -/
def State.fused (s : State) (cid : Nat) : Bool := ((s.gridOf cid).map (·.launch.fused)).getD false

/-- The lanes of a group. -/
def Group.refs (g : Group) (r : GroupRef) : List LaneRef := (List.range g.lanes.length).map r.at

/-- The lanes of a team. -/
def State.teamLanes (s : State) (cid team : Nat) : List LaneRef :=
  match s.team cid team with
  | none => []
  | some t => (List.range t.groups.length).flatMap fun i =>
      match t.groups[i]? with
      | none => []
      | some g => g.refs ⟨cid, team, i⟩

/-- The lanes of a cluster. -/
def State.clusterLanes (s : State) (cid : Nat) : List LaneRef :=
  match s.cluster cid with
  | none => []
  | some c => (List.range c.teams.length).flatMap fun i => s.teamLanes cid i

/-- The lanes of a lane's instance at a scope that an L1 serves (R264). -/
def State.instanceOf (s : State) (l : LaneRef) (sc : BitVec 3) : List LaneRef :=
  match sc.toNat with
  | 0 => [l]
  | 1 => ((s.group l.gr).map fun g : Group => g.refs l.gr).getD []
  | 2 => s.teamLanes l.cid l.team
  | _ => s.clusterLanes l.cid

/-! ### Register lines (R244, R245) -/

/-- The register lines of n lane registers from a code up (R244). -/
def lineMask (c : Code) (n : Nat) : BitVec 48 :=
  if 192 ≤ c.toNat then 0 else (List.range n).foldl (fun m j => m ||| (1#48 <<< ((c.toNat + j) / 4))) 0

/-- The lines that the groups of a core hold in its register cache. -/
def State.cachedLines (s : State) (cid team : Nat) : Nat :=
  ((s.team cid team).map fun t : Team => (t.groups.map fun g : Group =>
    ((List.range 48).filter fun i => g.cached.getLsbD i).length).foldl (· + ·) 0).getD 0

/-- Whether the register cache of a group's core has room for lines that become cached: it holds 512 (R245). -/
def State.lineRoom (s : State) (g : GroupRef) (m : BitVec 48) : Bool :=
  decide (s.cachedLines g.cid g.team + ((List.range 48).filter fun i => m.getLsbD i).length ≤ 512)

/-- Whether the lines of a mask can be written now: a live one is cached, and there is room for the dead ones (R244,
R245). -/
def State.linesReady (s : State) (g : GroupRef) (m : BitVec 48) : Bool :=
  match s.group g with
  | none => true
  | some x => (m &&& ~~~x.cached) &&& x.live == 0 && s.lineRoom g (m &&& ~~~x.cached)

/-- Lines that have been written are live, cached and dirty (R244). -/
def State.lineWritten (s : State) (g : GroupRef) (m : BitVec 48) : State :=
  s.modGroup g fun x => { x with live := x.live ||| m, cached := x.cached ||| m, dirty := x.dirty ||| m }

/-- When the copy queues of a team last moved elements. -/
def Team.doneAt (t : Team) : Nat := (t.queues.map (·.doneAt)).foldl max 0

/-- The moments at which the engines of a lane's instance at a scope have last written at the homes, and its control cores
have last acquired (R264, R266, R276, R277). -/
def State.engineTimes (s : State) (l : LaneRef) (sc : BitVec 3) : List Nat :=
  match s.cluster l.cid with
  | none => []
  | some c =>
    if sc.toNat < 2 then []
    else if sc = 2 then ((c.teams[l.team]?).map Team.doneAt).toList
    else c.teams.map Team.doneAt ++ c.quads.flatMap fun q => [q.doneAt, q.control.acqAt]

/-- An acquire at a scope: the lane's later loads do not hit L1 copies older than this moment, or, where an L1 serves
the scope, older than any agent of the instance has acquired or its engines have written (R265, R269). -/
def State.acquire (s : State) (l : LaneRef) (sc : BitVec 3) : State :=
  let at' := if servedByL1 sc (s.fused l.cid) then
      (((s.instanceOf l sc).filterMap fun k => (s.lane k).map fun x : Lane => x.acqAt) ++ s.engineTimes l sc).foldl max 0
    else s.tick
  s.modLane l fun x => { x with acqAt := at' }

/-- The L1s that serve a team's core (R262). -/
def State.l1sOf (s : State) (cid team : Nat) : List Nat :=
  if s.fused cid then (List.range (((s.cluster cid).map (·.teams.length)).getD 0)).map fun i => s.coreOf cid i
  else [s.coreOf cid team]

/-- At a scope beyond its L1, a release waits for every store that its L1 still holds (R269, R275). -/
def State.drained (s : State) (l : LaneRef) (sc : BitVec 3) : Bool :=
  servedByL1 sc (s.fused l.cid) || s.reqs.all fun r =>
    match r.stage with
    | .inL1 c => !(s.l1sOf l.cid l.team).contains c
    | _ => true

/-- Whether a request has performed at a scope (R265); requests that have performed everywhere are no longer listed. -/
def Req.performedAt (r : Req) (sc : BitVec 3) (fused : Bool) : Bool :=
  match r.stage with
  | .inL1 _ => servedByL1 sc fused
  | .replied _ _ => true
  | _ => false

/-- The members of an instruction that one request serves all of: LDGU and HGCFG (R137, R157). -/
def ReqKind.shared : ReqKind → Option (List Nat)
  | .uniform _ _ _ ls | .config ls => some ls
  | _ => none

/-- Whether a request is one of a lane's: its own, or one that serves it, too. -/
def Req.ofLane (r : Req) (l : LaneRef) : Bool :=
  r.owner == .lane l || (match r.owner, r.kind.shared with
    | .lane k, some ls => k.gr == l.gr && ls.contains l.lane
    | _, _ => false)

/-- Every earlier access of the lane has performed at the scope. -/
def State.performed (s : State) (l : LaneRef) (sc : BitVec 3) : Bool :=
  s.drained l sc && s.reqs.all fun r => !r.ofLane l || r.performedAt sc (s.fused l.cid)

/-- Whether a request writes memory. -/
def ReqKind.writes : ReqKind → Bool
  | .load .. | .promote .. | .hgld .. | .uniform .. | .config _ | .descriptor .. | .corner .. | .fetch _ => false
  | .store .. | .atomic .. | .comb .. | .hgscat .. | .scatterPart .. => true

/-- Whether a request reads memory for its lane. -/
def ReqKind.reads : ReqKind → Bool
  | .load .. | .promote .. | .hgld .. | .uniform .. | .config _ | .descriptor .. | .corner .. => true
  | .atomic _ _ d _ _ => d.isSome
  | .comb _ d _ _ => d.isSome
  | .store .. | .hgscat .. | .scatterPart .. | .fetch _ => false

/-- A load that asks a peer device for its data: it holds no lane (R132, R354). -/
def Req.peerLoad (r : Req) : Bool :=
  r.peer.isSome && (match r.kind with
    | .load .. | .promote .. | .hgld .. | .uniform .. | .config _ => true
    | _ => false)

/-- What FENCE waits for (R144): MD 2 and full, every earlier write performed at the scope; MD 1 and full, every
earlier load and atomic performed. -/
def State.fenceDone (s : State) (l : LaneRef) (md : BitVec 4) (sc : BitVec 3) : Bool :=
  (md == 1 || s.drained l sc) && s.reqs.all fun r =>
    !r.ofLane l
      || ((md == 1 || !r.kind.writes || r.performedAt sc (s.fused l.cid))
          && (md == 2 || !(r.kind.reads || r.acq) || r.performedAt sc (s.fused l.cid)))

/-! ### Store digests (R339 to R341) -/

/-- The initial value of a stream. -/
def digestIV : DWord := 0x2F6BD1E84A93C057

/-- The mixing function. -/
def mix (v : DWord) : DWord :=
  let v := (v ^^^ (v >>> 31)) * 0xB7E34C1D92A5F06B
  let v := (v ^^^ (v >>> 29)) * 0x5C2F89D3E14B6A27
  v ^^^ (v >>> 32)

/-- One record folded into a stream. -/
def foldRecord (st : DWord) (r : StoreRecord) : DWord :=
  mix (mix (mix (st ^^^ r.1) ^^^ r.2.1.zeroExtend 64) ^^^ r.2.2)

/-- The nibble mask bits of one byte: a nibble counts when any bit of it is written (R339). -/
def nibblesOf (x : MByte) : Nat :=
  (if x.mask &&& 0x0F = 0 then 0 else 1) + (if x.mask &&& 0xF0 = 0 then 0 else 2)

/-- Eight masked bytes as one record of the aligned word at a; none where nothing is written. -/
def recordOfWord (a : Nat) (bs : List MByte) : List StoreRecord :=
  let m := bs.foldr (fun x n => nibblesOf x + 4 * n) 0
  let x := bs.foldr (fun x n => (x.val &&& x.mask).toNat + 256 * n) 0
  if m = 0 then [] else [(BitVec.ofNat 64 a, BitVec.ofNat 16 m, BitVec.ofNat 64 x)]

/-- The records of masked bytes written from virtual address a up, past the top address to 0, in order: fuel counts the words that
remain (R339). -/
def recordsFrom (a : Nat) : Nat → List MByte → List StoreRecord
  | 0, _ => []
  | n + 1, bs =>
    recordOfWord a (bs.take 8) ++ (if bs.length ≤ 8 then [] else recordsFrom ((a + 8) % 2 ^ 56) n (bs.drop 8))

/-- The records of one store of masked bytes at virtual address a (R339). -/
def storeRecords (a : Nat) (bs : List MByte) : List StoreRecord :=
  let pad := a % 8
  recordsFrom (a - pad) (bs.length / 8 + 2) (List.replicate pad ⟨0, 0⟩ ++ bs)

/-- A lane's digest (R340). -/
def Lane.digest (x : Lane) : DWord := mix (x.st ^^^ mix x.cp)

/-- The task digest of a cluster, every stream as it stands (R340). -/
def Cluster.taskDigest (c : Cluster) : DWord :=
  let t := c.teams.foldl (fun t tm => tm.groups.foldl (fun t g => g.lanes.foldl (fun t x => mix (t ^^^ x.digest)) t) t) digestIV
  c.quads.foldl (fun t q => mix (t ^^^ q.tk)) t

/-- Whether the launch of a cluster keeps store digests (R334). -/
def State.digestOn (s : State) (cid : Nat) : Bool := ((s.gridOf cid).map (·.launch.digest)).getD false

/-- Store records folded into a lane's store stream, where digests are on (R338, R340). -/
def State.foldStore (s : State) (l : LaneRef) (rs : List StoreRecord) : State :=
  if s.digestOn l.cid then s.modLane l fun x => { x with st := rs.foldl foldRecord x.st } else s

/-- Whether every copy command of a lane has been folded (R340, R190). -/
def State.copiesFolded (s : State) (l : LaneRef) : Bool :=
  ((s.lane l).map fun x : Lane => x.copies.isEmpty).getD true

/-! ### What a waiting lane waits for -/

/-- A token of a quad of a cluster; one that was never added to reads 0 (R177). -/
def State.token (s : State) (q : QuadRef) (t : Nat) : Word := ((s.quad q).map fun x : Quad => x.tokens.get 0 t).getD 0

/-- wrap32(token − value), read as a signed number, is at least 0 (R102, R177). -/
def tokenReached (token value : Word) : Bool := decide (0 ≤ (token - value).toInt)

/-- A barrier of a team or of the cluster; one that no arrival has reached is in phase 0 with count 0 (R240). -/
def State.barrier (s : State) (l : LaneRef) (cluster : Bool) (b : Nat) : Barrier :=
  let none' : Barrier := ⟨0, 0, 0, false, []⟩
  if cluster then ((s.cluster l.cid).map fun c : Cluster => c.bars.get none' b).getD none'
  else ((s.team l.cid l.team).map fun t : Team => t.bars.get none' b).getD none'

/-- Whether a lower lane of the group still waits to send to the event log: events leave in lane order (R199). -/
def State.lowerSends (s : State) (l : LaneRef) : Bool :=
  ((s.group l.gr).map fun g : Group => (g.lanes.take l.lane).any fun x =>
    match x.wait with
    | .event false _ _ => true
    | _ => false).getD false

/-- A lane whose wait is over goes on, with the effects that its instruction's end has; any other lane stays. TWAIT and BARC
acquire at cluster scope, BAR and QWAIT at team scope (R100 to R102, R174, R266). -/
def State.poke (s : State) (l : LaneRef) : State :=
  match s.lane l with
  | none => s
  | some x =>
    match x.wait with
    | .token q t v => if tokenReached (s.token ⟨l.cid, q⟩ t) v then (s.acquire l 3).wake l else s
    | .barrier cl b p cd =>
      let bar := s.barrier l cl b
      if p < bar.phase then
        ((s.setCond (.lane l) cd (!bar.bad.contains p)).acquire l (if cl then 3 else 2)).wake l
      else s
    | .queue q upto epoch cd =>
      match s.queue ⟨l.cid, l.team, q⟩ with
      | none => s
      | some y =>
        if y.epoch ≠ epoch then ((s.setCond (.lane l) cd false).acquire l 2).wake l
        else if upto ≤ y.performed then ((s.setCond (.lane l) cd true).acquire l 2).wake l
        else if y.state ≠ 0 then ((s.setCond (.lane l) cd false).acquire l 2).wake l
        else s
    | .fence md sc => if s.fenceDone l md sc then (if md = 2 then s else s.acquire l sc).wake l else s
    | .digest d ls =>
      if (ls.all fun i => s.copiesFolded (l.gr.at i)) && s.linesReady l.gr (lineMask d 2) then
        ((s.lineWritten l.gr (lineMask d 2)).setReg64 (.lane l) d
          (if s.digestOn l.cid then ((s.cluster l.cid).map (·.taskDigest)).getD 0 else 0)).wake l
      else s
    | .event false payload code =>
      if s.performed l 5 && !s.lowerSends l then
        (s.record 9 0 (s.coreOf l.cid l.team) (eventDetail payload code (s.laneSource l))).wake l
      else s
    | .sweep id => if s.invalidations.any fun v => v.id == id then s else s.wake l
    | _ => s

/-- Lanes poked in order. -/
def State.pokeAll (s : State) (ls : List LaneRef) : State := ls.foldl (fun s l => s.poke l) s

/-- An add to a token: a waiting TWAIT goes on, and a halted control core of the quad goes on (R102, R177, R198). -/
def State.addToken (s : State) (q : QuadRef) (t : Nat) (inc : Word) : State :=
  let s := s.modQuad q fun x => { x with tokens := x.tokens.set t (x.tokens.get 0 t + inc) }
  let s := match (s.quad q).map (·.control.wait) with
    | some .halted => if inc = 0 then s else s.wakeControl q
    | _ => s
  s.pokeAll (s.clusterLanes q.cid)

/-- A lane whose wait may be over: as poke, and a TSIGNAL that waited for its release makes its add (R102); its release
reaches the home slices, where the tile engine reads and writes (R277). -/
def State.advanceLane (s : State) (l : LaneRef) : State :=
  match (s.lane l).map fun x : Lane => x.wait with
  | some (.signal q t inc after) =>
    if s.reqs.all fun r => !after.contains r.id || r.performedAt 4 false then
      (s.wake l).addToken ⟨l.cid, q⟩ t inc
    else s
  | _ => s.poke l

/-- The lanes of a cluster go on where what they wait for has come about. -/
def State.advance (s : State) (cid : Nat) : State := (s.clusterLanes cid).foldl (fun s l => s.advanceLane l) s

/-- An arrival at a barrier (R99): the first opens the phase and fixes its count. -/
def Barrier.arrive (b : Barrier) (n : Nat) (faulted : Bool) : Barrier :=
  let open' := if b.count = 0 then n else b.n
  let bad := (b.count != 0 && b.faulted) || faulted
  if b.count + 1 = open' then
    { phase := b.phase + 1, count := 0, n := 0, faulted := false, bad := if bad then b.phase :: b.bad else b.bad }
  else { b with count := b.count + 1, n := open', faulted := bad }

/-- An arrival at a team's barrier, with the lanes that it lets go on (R99). -/
def State.arriveTeam (s : State) (cid team b n : Nat) (faulted : Bool) : State :=
  let s := s.modTeam cid team fun t =>
    { t with bars := t.bars.set b ((t.bars.get ⟨0, 0, 0, false, []⟩ b).arrive n faulted) }
  s.pokeAll (s.teamLanes cid team)

/-- An arrival at a cluster's barrier, with the lanes that it lets go on (R101). -/
def State.arriveCluster (s : State) (cid b n : Nat) : State :=
  let s := s.modCluster cid fun c =>
    { c with bars := c.bars.set b ((c.bars.get ⟨0, 0, 0, false, []⟩ b).arrive n false) }
  s.pokeAll (s.clusterLanes cid)

/-! ### Open instructions -/

/-- The open instructions that lanes of a list are to issue anew (R258). -/
def Group.awaiting (g : Group) (ls : List Nat) : List Open := g.opens.filter fun o => o.rest.any ls.contains

/-- Parts of an instruction put in lane order. -/
def insertPart (p : Part) : List Part → List Part
  | [] => [p]
  | q :: qs => if p.lane ≤ q.lane then p :: q :: qs else q :: insertPart p qs

/-- An instruction that lanes issue anew after a resumption takes up the open ones that it belongs to: the members that had
performed before, and those that the order gate holds, are its members again, and settle or trap with it (R130, R152, R239,
R258). -/
def State.rejoin (s : State) (g : GroupRef) (o : Open) (old : List Open) : State × Open :=
  let ls := o.parts.map (·.lane)
  let parts := old.flatMap (·.parts)
  let move (x : Lane) : Lane := { x with wait := if old.any (fun y => x.wait == .held y.id) then .held o.id else x.wait }
  let s := s.modGroup g fun x => { x with opens := x.opens.filter fun y => !old.contains y }
  let s := { s with reqs := s.reqs.map fun r : Req => if old.any (fun y => y.id == r.op) then { r with op := o.id } else r }
  (parts.foldl (fun (s : State) p => s.modLane (g.at p.lane) move) s,
   { o with parts := parts.foldl (fun ps p => insertPart p ps) o.parts,
            rest := (old.flatMap (·.rest)).filter fun k => !ls.contains k })

/-- An instruction opened with its members, which it holds (R132, R162). -/
def State.openInstr (s : State) (g : GroupRef) (o : Open) (next : BitVec 56) : State :=
  let old := ((s.group g).map fun x : Group => x.awaiting (o.parts.map (·.lane))).getD []
  let (s, o') := if old.isEmpty then (s, o) else s.rejoin g o old
  let s := s.modGroup g fun x => { x with opens := x.opens ++ [o'] }
  o.parts.foldl (fun s p => s.hold (g.at p.lane) (.held o.id) next) s

/-- An open instruction. -/
def Group.openOf (g : Group) (id : Nat) : Option Open := g.opens.find? fun o => o.id == id

/-- One member's part set. -/
def State.setPart (s : State) (g : GroupRef) (id lane : Nat) (st : PartState) : State :=
  s.modGroup g fun x => { x with opens := x.opens.map fun o =>
    if o.id == id then { o with parts := o.parts.map fun p => if p.lane == lane then { p with st := st } else p } else o }

/-- Whether a part has faulted. -/
def PartState.isFailed : PartState → Bool
  | .failed .. => true
  | _ => false

/-- Every part has performed or faulted, and one has faulted (R295). -/
def Open.trapReady (o : Open) : Bool :=
  o.rest.isEmpty && o.parts.all (fun p => p.st != .waiting && p.st != .translated) && o.parts.any (fun p => p.st.isFailed)

/-- The serial that an instruction at a PC bears for a lane: the original one where it is issued anew (R331). -/
def Lane.serialAt (x : Lane) (pc : BitVec 56) : Word :=
  match x.again with
  | some (p, n) => if p = pc then n else x.serial
  | none => x.serial

/-- A lane that has moved past an instruction; b says that serials count it (R331). -/
def Lane.counted (x : Lane) (b : Bool) : Lane :=
  { x with again := none, serial := if b then x.serial + 1 else x.serial }

/-- The same for an instruction that may have been issued inside a handler: the lane is then still to issue the trapped
instruction anew, with its serial (R331, R342). -/
def Lane.countedIn (x : Lane) (b inHandler : Bool) : Lane :=
  { x.counted b with again := if inHandler then x.again else none }

/-- An open instruction no member of which waits or has faulted lets its lanes go on past it; their requests that are
still in flight go on alone, and it stays listed while a peer owes it data (R260, R354). -/
def State.settle (s : State) (g : GroupRef) (id : Nat) : State :=
  match (s.group g).bind (·.openOf id) with
  | none => s
  | some o =>
    if o.parts.any (fun p => p.st == .waiting || p.st.isFailed) || !o.rest.isEmpty then s
    else
      let s := if s.reqs.any fun r => r.op == id && r.peerLoad then
          s.modGroup g fun x => { x with opens := x.opens.map fun o => if o.id == id then { o with gone := true } else o }
        else
          let s := s.modGroup g fun x => { x with opens := x.opens.filter fun o => o.id != id }
          { s with reqs := s.reqs.map fun r => if r.op == id then { r with op := 0 } else r }
      if o.gone then s
      else o.parts.foldl (fun s p =>
        (s.wake (g.at p.lane)).modLane (g.at p.lane) fun x => x.countedIn o.counted o.inHandler) s

/-! ### Taking an exception and returning from one (R295 to R299) -/

/-- The mask of a list of lanes. -/
def maskOf (ls : List Nat) : Word := ls.foldl (fun m i => m ||| (1#32 <<< i)) 0

/-- Whether a request has left its core (R300). -/
def Req.hasLeft (r : Req) : Bool :=
  match r.stage with
  | .walk | .walking _ | .ready => false
  | _ => true

/-- Whether a request belongs to an agent of a grid. -/
def State.ofGrid (s : State) (gid : Nat) (r : Req) : Bool :=
  ((r.owner.cid.bind s.cluster).map fun c : Cluster => c.grid == gid).getD false

/-- How many requests of a scatter have left its core and have not performed. -/
def State.inService (s : State) (id : Nat) : Nat :=
  (s.slices.map fun p =>
    (p.2.waiting.flatMap (·.reqs)).countP (fun q => q.1 == id) + (p.2.queues.flatMap (·.2)).countP (fun q => q.req == id)
      + ((p.2.wave.map (·.reqs)).getD []).countP (fun q => q.req == id)).foldl (· + ·) 0
  + s.reqs.countP fun q => q.hasLeft && (match q.kind with
    | .scatterPart p _ _ => p == id
    | _ => false)

/-- What an abort leaves of a request of its grid: nothing where it has not left its core, and of a scatter only what has been
sent (R300). -/
def State.afterAbort (s : State) (gid : Nat) (r : Req) : Option Req :=
  if !s.ofGrid gid r then some r
  else if !r.hasLeft then none
  else
    match r.kind, r.stage with
    | .hgscat .., .atHome =>
      let n := s.inService r.id
      if n = 0 then none else some { r with left := n, acks := List.range r.pas.length }
    | _, _ => some r

/-- A trap with no handler, or taken in one, ends the grid (R299): every agent of it stops issuing at once, its requests
that have not left their cores are dropped, and GRID_ABORT brings it to rest (R300). -/
def State.abortById (s : State) (gid : Nat) (a : AbortInfo) : State :=
  let s := { s with reqs := s.reqs.filterMap (s.afterAbort gid) }
  s.modGrid gid fun g => if g.abort.isSome then g else { g with abort := some a }

/-- The same, for the grid of a cluster. -/
def State.abortGrid (s : State) (cid : Nat) (a : AbortInfo) : State :=
  match s.cluster cid with
  | none => s
  | some c => s.abortById c.grid a

/-- The trap vector of a cluster's launch; 0 for none. -/
def State.tvec (s : State) (cid : Nat) : BitVec 56 := ((s.gridOf cid).map (·.launch.tvec)).getD 0

/-- The faulted lanes of an open instruction with their causes, addresses and TAUX values, in lane order. -/
def Open.faults (o : Open) : List (Nat × Nat × DWord × DWord) :=
  o.parts.filterMap fun p =>
    match p.st with
    | .failed c a x => some (p.lane, c, a, x)
    | _ => none

/-- A member of a trapped instruction at the handler's first instruction. One that was ready and that the trap passes over has
been counted as such (R242, R295). -/
def Lane.enterHandler (x : Lane) (pc : BitVec 56) : Lane :=
  if x.wait = .exited then x
  else { x with wait := .ready, pc := pc, pass := if x.wait == .ready then x.pass else 0 }

/-- TAKING A TRAP (R130, R295): the members of an instruction at pc enter the handler at TVEC. TCAUSE holds the cause of
the lowest faulting lane, TMASK the lanes with that cause, TDONE the lanes of done; every member becomes a handler
lane. With no vector, or inside a handler, the grid ends instead (R299). fs lists the faulted lanes with their causes,
addresses and TAUX values in lane order. -/
def State.enterTrap (s : State) (g : GroupRef) (pc : BitVec 56) (members : List Nat)
    (fs : List (Nat × Nat × DWord × DWord)) (done : Word) : State :=
  match fs with
  | [] => s
  | (_, cause, addr0, aux) :: _ =>
    let same := fs.filter fun f => f.2.1 == cause
    let mask := maskOf (same.map (·.1))
    if s.tvec g.cid = 0 ∨ ((s.group g).bind (·.handler)).isSome then
      s.abortGrid g.cid ⟨cause, pc.zeroExtend 64, mask, addr0, s.coreOf g.cid g.team, g.group, false⟩
    else
      let s := s.modGroup g fun x =>
        { x with trap := ⟨BitVec.ofNat 32 cause, pc.zeroExtend 64, mask, done, aux⟩, handler := some members }
      let s := same.foldl (fun s f => s.modLane (g.at f.1) fun x => { x with taddr := f.2.2.1 }) s
      members.foldl (fun s i =>
        s.modLane (g.at i) fun x =>
          x.enterHandler (alignPc (s.tvec g.cid))) s

/-- Lanes taken out of every instruction that they are members of: their requests that have not left their core are
dropped, the others go on alone, and a counted part that has performed is counted (R296, R331). -/
def State.leaveOpens (s : State) (g : GroupRef) (ls : List Nat) (inHandler : Bool) : State :=
  let mine (o : Open) : Bool := (!inHandler || o.inHandler) && o.parts.any fun p => ls.contains p.lane
  let os := ((s.group g).map fun x : Group => x.opens.filter mine).getD []
  let dead (r : Req) : Bool := os.any (fun o => o.id == r.op && (r.kind.shared.isNone || o.parts.all fun p => ls.contains p.lane))
    && (match r.owner with
      | .lane l => r.kind.shared.isSome || ls.contains l.lane
      | _ => false)
  let alone (r : Req) : Req := if dead r then { r with op := 0 } else r
  let s := { s with reqs := (s.reqs.filter fun r => !(dead r && !r.hasLeft)).map alone }
  let s := os.foldl (fun (s : State) o =>
    (o.parts.filter fun p => ls.contains p.lane && o.counted && p.st == .performed).foldl
      (fun (s : State) p => s.modLane (g.at p.lane) fun x => x.countedIn true o.inHandler) s) s
  let left (o : Open) : Open := if mine o then
      { o with parts := o.parts.filter (fun p => !ls.contains p.lane), rest := o.rest.filter fun k => !ls.contains k }
    else o
  let s := s.modGroup g fun x => { x with opens := (x.opens.map left).filter fun o => !o.parts.isEmpty }
  os.foldl (fun (s : State) o => s.settle g o.id) s

/-- The handler ends when every handler lane has exited, with nothing reissued (R296). -/
def State.endHandlerByExit (s : State) (g : GroupRef) : State :=
  match s.group g with
  | none => s
  | some x =>
    match x.handler with
    | none => s
    | some h =>
      if h.all fun i => (x.lanes[i]?.map fun y : Lane => y.wait == .exited).getD true then
        s.modGroup g fun x => { x with handler := none }
      else s

/-- The trap of an instruction whose parts have performed or faulted (R295). A member that has not performed is to bear
the same serial when it issues the instruction anew (R331). -/
def State.takeTrap (s : State) (g : GroupRef) (o : Open) : State :=
  let s := s.modGroup g fun x => { x with opens := x.opens.filter fun y => y.id != o.id }
  let s := { s with reqs := s.reqs.map fun r : Req => if r.op == o.id then { r with op := 0 } else r }
  let ls := o.parts.map (·.lane)
  let s := if o.gone then s.leaveOpens g ls false else s
  let s := if o.counted then
      (o.parts.filter fun p => p.st != .performed).foldl (fun (s : State) p =>
        s.modLane (g.at p.lane) fun x => { x with again := some (o.pc, x.serialAt o.pc) }) s
    else s
  (s.enterTrap g o.pc ls o.faults
    (maskOf ((o.parts.filter fun p => p.st == .performed).map (·.lane)))).endHandlerByExit g

/-- A trap whose every part is known at the issue: the lanes of ls all take the cause (R33, R295). -/
def State.trapRun (s : State) (g : GroupRef) (pc : BitVec 56) (ls : List Nat) (cause : Nat) (addr aux : DWord) : State :=
  s.enterTrap g pc ls (ls.map fun i => (i, cause, addr, aux)) 0

/-- TAKING A TRAP on a control core (R297): it enters its handler at TVEC + 4, TMASK reads 1, and bit 0 of TDONE says
whether the instruction performed. -/
def State.takeControlTrap (s : State) (q : QuadRef) (pc : BitVec 56) (cause : Nat) (addr aux : DWord) (done : Bool) : State :=
  let inHandler := ((s.quad q).map (·.control.inHandler)).getD false
  if s.tvec q.cid = 0 ∨ inHandler then
    s.abortGrid q.cid ⟨cause, pc.zeroExtend 64, 1, addr, 1536 + s.quadOf q, 0, false⟩
  else
    s.modControl q fun c =>
      { c with trap := ⟨BitVec.ofNat 32 cause, pc.zeroExtend 64, 1, if done then 1 else 0, aux⟩, taddr := addr,
               inHandler := true, wait := .run, pc := alignPc (s.tvec q.cid) + 4 }

/-- A handler lane that resumes: past the instruction at TPC, of len bytes, where it is in TDONE, else at TPC. A lane that was
ready and that the return passed over has been counted as such (R242, R295). -/
def Lane.resume (x : Lane) (t : TrapRegs) (i len : Nat) (counted : Bool) : Lane :=
  let tpc := alignPc (t.pc.truncate 56)
  let pass := if x.wait == .ready then x.pass else 0
  if x.wait = .exited then x
  else if t.done.getLsbD i then
    Lane.counted { x with wait := .ready, pass := pass, pc := tpc + BitVec.ofNat 56 len } counted
  else
    { x with wait := .ready, pass := pass, pc := tpc, again := x.again.filter fun p => p.1 == tpc }

/-- RETURNING FROM A TRAP (R195, R296): every handler lane that has not exited goes on, a lane in TDONE past the
instruction at TPC, of len bytes, and every other at TPC; the held lanes become ready again. What a handler lane still
had in hand is dropped, save requests that have left the core. counted says that the instruction at TPC is one that
serials count (R331). -/
def State.returnFromTrap (s : State) (g : GroupRef) (len : Nat) (counted : Bool) : State :=
  match (s.group g).bind (fun x : Group => x.handler.map fun h => (h, x.trap)) with
  | none => s
  | some (h, t) =>
    let s := s.leaveOpens g h true
    let s := s.modGroup g fun x => { x with handler := none }
    h.foldl (fun s i => s.modLane (g.at i) fun x => x.resume t i len counted) s

/-- Returning from a control core's handler: bit 0 of TDONE decides (R195). -/
def State.returnFromControlTrap (s : State) (q : QuadRef) (len : Nat) : State :=
  s.modControl q fun c =>
    let tpc := alignPc (c.trap.pc.truncate 56)
    { c with inHandler := false, pc := if c.trap.done.getLsbD 0 then tpc + BitVec.ofNat 56 len else tpc }

end Sys2Proof.Machine
end

