-- ==== Sys2Proof/Machine/Translate.lean ====
section
/-! DEFINITION. Translation and its caches (R283 to R292), the home side of memory (R262 to R265, R280, R281), and
instruction fetch (R36 to R38). -/

namespace Sys2Proof.Machine

open Sys2Proof

/-! ### Trap causes (R194) -/

/-- UNDEF. -/
def causeUNDEF : Nat := 0x01
/-- PRIV. -/
def causePRIV : Nat := 0x02
/-- ALIGN. -/
def causeALIGN : Nat := 0x03
/-- PAGE. -/
def causePAGE : Nat := 0x04
/-- PROT. -/
def causePROT : Nat := 0x05
/-- NRSTORE. -/
def causeNRSTORE : Nat := 0x06
/-- SPACE. -/
def causeSPACE : Nat := 0x07
/-- OPFMT. -/
def causeOPFMT : Nat := 0x08
/-- COMBLANE. -/
def causeCOMBLANE : Nat := 0x09
/-- COMBWAVE. -/
def causeCOMBWAVE : Nat := 0x0A
/-- PEER. -/
def causePEER : Nat := 0x0B
/-- PEERTO. -/
def causePEERTO : Nat := 0x0C
/-- DIVERGE. -/
def causeDIVERGE : Nat := 0x0D
/-- SWTRAP. -/
def causeSWTRAP : Nat := 0x0E
/-- BRK. -/
def causeBRK : Nat := 0x0F
/-- HGDESC. -/
def causeHGDESC : Nat := 0x10

/-! ### Owned lines and the home (R262, R280, R281, R316) -/

/-- The core whose L1 owns a line, if any. -/
def State.ownerOf (s : State) (line : Nat) : Option Nat :=
  (s.cores.find? fun p => ((p.2.l1.find line).map (·.owned)).getD false).map (·.1)

/-- The predictor entry of a line (R281). -/
def predictorIndex (line : Nat) : Nat := (line &&& 0x3F) ^^^ ((line >>> 6) &&& 0x3F) ^^^ ((line >>> 12) &&& 0x3F)

/-- The home recalls an owned line: its bytes return to the home, the L1 loses it, and the recalled core's predictor
entry counts the recall (R280, R281). -/
def State.recall (s : State) (line : Nat) : State :=
  match s.ownerOf line with
  | none => s
  | some n =>
    let c := s.core n
    match c.l1.find line with
    | none => s
    | some x =>
      let i := predictorIndex line
      let old := c.predictor.get 0 i
      let s := { s with mem := Mem.writeBytes s.mem (128 * line) x.bytes }
      s.setCore n { c with l1 := c.l1.erase line, predictor := c.predictor.set i (if old = 3 then 3 else old + 1) }

/-- A byte as a device-scope load at its home reads it: an L1 that owns its line gives it up for the load (R280). -/
def State.homeByte (s : State) (pa : Nat) : Byte :=
  match (s.ownerOf (lineOf pa)).bind fun n => (s.core n).l1.find (lineOf pa) with
  | some x => x.bytes.getD (pa % 128) 0
  | none => Mem.read s.mem pa

/-- Whether no line stands between the parts of one batch, whose requests no other access comes between (R131). -/
def State.unsplit (s : State) : Bool := s.slices.all fun p => p.2.split.isEmpty

/-- Whether a batch of requests to a line has performed in part (R131). -/
def State.lineSplit (s : State) (line : Nat) : Bool := s.slices.any fun p => (p.2.split.find line).isSome

/-- Whether other accesses to a line wait: an L1 owns it, or a batch of requests to it has performed in part (R131,
R280). -/
def State.lineBusy (s : State) (line : Nat) : Bool := (s.ownerOf line).isSome || s.lineSplit line

/-- Every owned line of n bytes from physical address pa recalled. -/
def State.recallRange (s : State) (pa n : Nat) : State :=
  (List.range ((pa + n + 127) / 128 - pa / 128)).foldl (fun s i => s.recall (pa / 128 + i)) s

/-- The bytes at the home of n bytes from pa. -/
def State.homeBytes (s : State) (pa n : Nat) : List Byte := Mem.readBytes s.mem pa n

/-- Bytes of masked writes at the home, with the recall before them. -/
def State.homeWrite (s : State) (pa : Nat) (bs : List MByte) : State :=
  let s := s.recallRange pa bs.length
  { s with mem := Mem.writeMasked s.mem pa bs }

/-- A value of n bytes at the home. -/
def State.homeNat (s : State) (pa n : Nat) : Nat := ofBytesLE (s.homeBytes pa n)

/-! ### Walks (R284 to R288) -/

/-- What a walk finds. -/
inductive Walk where
  | unmapped
  | absent (p : Page)
  | mapped (p : Page)
  deriving DecidableEq, Repr

/-- What a walk has read: its outcome, the physical address of the leaf entry, the leaf entry, the two upper entries, and
the addresses of the entries that it read. -/
structure Walked where
  out : Walk
  leafPa : Nat
  leaf : DWord
  level1 : DWord
  region : DWord
  reads : List Nat
  deriving DecidableEq, Repr

/-- Bits [hi:lo] of an entry as a number. -/
def field (e : DWord) (hi lo : Nat) : Nat := bitsAt e.toNat lo (hi + 1 - lo)

/-- A level-1 entry that maps: VALID, no reserved bit, its table in device memory (R284, R286). -/
def level1Ok (e : DWord) : Bool :=
  field e 0 0 == 1 && field e 19 1 == 0 && field e 63 48 == 0 && decide (field e 47 20 * 2 ^ 20 < deviceBytes)

/-- A region entry that maps (R285, R286). -/
def regionOk (e : DWord) : Bool :=
  let large := field e 4 4 == 1
  let leaf := field e 47 7 * 128
  field e 0 0 == 1 && field e 1 1 == 0 && field e 6 5 != 3 && decide (field e 49 48 ≤ 1) && field e 63 50 == 0
    && decide (leaf < deviceBytes)
    && (large || leaf % (if field e 3 3 == 1 then 8192 else 4096) == 0)

/-- A leaf entry that maps, whatever its RESIDENT (R286). -/
def leafOk (e : DWord) (large : Bool) : Bool :=
  field e 0 0 == 1 && field e 1 1 == 0 && field e 13 6 == 0 && field e 48 48 == 0
    && (!large || field e 19 14 == 0)
    && (field e 49 49 == 1 || paValid (field e 47 14 * 2 ^ 14))

/-- Whether a region entry names a twin region, which has two leaf tables (R285). -/
def isTwin (e : DWord) : Bool := field e 3 3 == 1

/-- The leaf table that a region entry selects now: for a twin region VER tells which (R285). -/
def regionVer (e : DWord) : Bool := isTwin e && field e 2 2 == 1

/-- A leaf table of a region entry: the second one of a twin region where ver holds, else the first, or the only one
(R285). -/
def leafBase (e : DWord) (ver : Bool) : Nat :=
  field e 47 7 * 128 + (if isTwin e && ver then (if field e 4 4 == 1 then 64 else 4096) else 0)

/-- The class of a region entry. -/
def regionClass (e : DWord) : RegionClass :=
  if field e 6 5 = 0 then .normal else if field e 6 5 = 1 then .combining else .hashedGrid

/-- The page that a leaf entry of a region's table describes for a virtual address. -/
def pageOf (region leaf : DWord) (ver : Bool) (va : Nat) : Page :=
  let large := field region 4 4 == 1
  let size := if large then 2 ^ 20 else 2 ^ 14
  { base := va / size * size, large := large, frame := field leaf 47 14 * 2 ^ 14,
    writable := field leaf 3 3 == 1, dirty := field leaf 5 5 == 1, cls := regionClass region,
    noL1 := field region 49 48 == 1,
    peer := if field leaf 49 49 == 1 then some (field leaf 63 50) else none,
    ver := isTwin region && ver }

/-- The bytes of a page. -/
def Page.size (p : Page) : Nat := if p.large then 2 ^ 20 else 2 ^ 14

/-- Whether a page covers a virtual address. -/
def Page.covers (p : Page) (va : Nat) : Bool := decide (p.base ≤ va) && decide (va < p.base + p.size)

/-- The physical address of a virtual address in a page. -/
def Page.pa (p : Page) (va : Nat) : Nat := p.frame + (va - p.base)

/-- An 8-byte table entry in device memory, as a device-scope load at its home reads it (R280, R287). -/
def State.tableEntry (s : State) (pa : Nat) : DWord :=
  BitVec.ofNat 64 (ofBytesLE ((List.range 8).map fun i => s.homeByte (pa + i)))

/-- The three-level walk of R284 for a virtual address, with cached upper entries where a walk cache holds them; ver selects
a leaf table, and none the current one. -/
def State.walkWith (s : State) (cache : WalkCache) (ver : Option Bool) (va : Nat) : Walked :=
  let root := s.bar0.ptroot.toNat / 2 ^ 19 * 2 ^ 19
  let pa1 := root + 8 * bitsAt va 40 16
  let (e1, r1) := match cache.level1.find (bitsAt va 40 16) with
    | some e => (e, [])
    | none => if root < deviceBytes then (s.tableEntry pa1, [pa1]) else (0, [])
  if !level1Ok e1 then ⟨.unmapped, 0, 0, 0, 0, r1⟩
  else
    let pa2 := field e1 47 20 * 2 ^ 20 + 8 * bitsAt va 23 17
    let (e2, r2) := match cache.region.find (bitsAt va 23 33) with
      | some e => (e, r1)
      | none => (s.tableEntry pa2, r1 ++ [pa2])
    if !regionOk e2 then ⟨.unmapped, 0, 0, e1, 0, r2⟩
    else
      let large := field e2 4 4 == 1
      let v := ver.getD (regionVer e2)
      let pa := leafBase e2 v + 8 * (if large then bitsAt va 20 3 else bitsAt va 14 9)
      let e3 := s.tableEntry pa
      let reads := r2 ++ [pa]
      if !leafOk e3 large then ⟨.unmapped, pa, e3, e1, e2, reads⟩
      else if field e3 2 2 = 1 then ⟨.mapped (pageOf e2 e3 v va), pa, e3, e1, e2, reads⟩
      else ⟨.absent (pageOf e2 e3 v va), pa, e3, e1, e2, reads⟩

/-- A walk that reads every entry from memory (R287, R290). -/
def State.freshWalk (s : State) (va : Nat) : Walked := s.walkWith ⟨[], []⟩ none va

/-- The entries that a walk has read are at their homes: an L1 that owned one of their lines has lost it (R280, R287). -/
def State.walked (s : State) (w : Walked) : State := w.reads.foldl (fun (s : State) pa => s.recall (lineOf pa)) s

/-- ACCESSED, and DIRTY for a write, set in the leaf entry at its home (R280, R288). -/
def State.markLeaf (s : State) (leafPa : Nat) (write : Bool) : State :=
  let s := s.recall (lineOf leafPa)
  let b := Mem.read s.mem leafPa
  { s with mem := Mem.write s.mem leafPa (b ||| (if write then 0x30 else 0x10)) }

/-! ### Translation of an access -/

/-- Why a translation fails (R293): unmapped, non-resident, or a write to a read-only page. -/
inductive TransFault where
  | unmapped | absent | readOnly
  deriving DecidableEq, Repr

/-- The page that a list of cached pages gives for an access, where its permissions and its class, which good tells, allow
the access and, for a write, its DIRTY is set; any other fault is confirmed by a walk (R288 to R290). -/
def cachedFor (ps : List Page) (good : Page → Bool) (va : Nat) (write : Bool) : Option Page :=
  ps.find? fun p => p.covers va && good p && (!write || (p.writable && p.dirty))

/-- Any class will do. -/
def anyPage (_ : Page) : Bool := true

/-- A store's classes: a combining page takes none (R129). -/
def storePage (p : Page) : Bool := p.cls != .combining

/-- A page put into a cache of n entries; an older entry of the page goes (R289). -/
def cachePut (ps : List Page) (n : Nat) (p : Page) : List Page :=
  (p :: ps.filter fun q => !(q.covers p.base)).take n

/-- One walk for an access: the walk cache may serve the upper levels, a fault is confirmed by a fresh walk (R290),
and the outcome is the page or the fault. ver selects a leaf table, and none the current one; good tells whether the page's
class allows the access. -/
def State.walkAccess (s : State) (cache : WalkCache) (ver : Option Bool) (good : Page → Bool) (va : Nat) (write : Bool) :
    Walked × Except TransFault Page :=
  let judge (w : Walked) : Except TransFault Page :=
    match w.out with
    | .unmapped => .error .unmapped
    | .absent _ => .error .absent
    | .mapped p => if write && !p.writable then .error .readOnly else .ok p
  let fresh := s.walkWith ⟨[], []⟩ ver va
  let w := s.walkWith cache ver va
  match judge w with
  | .ok p => if good p then (w, .ok p) else (fresh, judge fresh)
  | .error _ => (fresh, judge fresh)

/-- The upper entries that a walk has used go into a walk cache (R289). -/
def WalkCache.learn (c : WalkCache) (va : Nat) (w : Walked) : WalkCache :=
  ⟨c.level1.set (bitsAt va 40 16) w.level1, c.region.set (bitsAt va 23 33) w.region⟩

/-- A walk made for a core (lanes, copy queues, fetch): ACCESSED and DIRTY are set, the TLB and the quad's walk cache
learn the page (R288, R289). Which bits a refused write sets is the model's choice (log 90). -/
def State.walkForCore (s : State) (core : Nat) (good : Page → Bool) (va : Nat) (write : Bool) :
    State × Except TransFault Page :=
  let q := quadOfCore core
  let (w, r) := s.walkAccess (s.quadHw q).walk none good va write
  let s := s.walked w
  match r with
  | .error f => (s, .error f)
  | .ok p =>
    let p := { p with dirty := p.dirty || write }
    let s := s.markLeaf w.leafPa write
    let h := s.quadHw q
    let s := s.setQuadHw q { h with walk := h.walk.learn va w }
    let c := s.core core
    (s.setCore core { c with tlb := cachePut c.tlb 1024 p }, .ok p)

/-- Translation of one address of a core: the TLB serves it, or a walk, which TLBMISS counts (R289, R197). -/
def State.translateCore (s : State) (core : Nat) (good : Page → Bool) (va : Nat) (write : Bool) :
    State × Except TransFault Page :=
  match cachedFor (s.core core).tlb good va write with
  | some p => (s, .ok p)
  | none => (s.countCore core 3 1).walkForCore core good va write

/-- A walk made for a quad: control core, drains and TDAPPLY, which names the table of a twin region (R184, R237, R288). The
quad TLB learns pages of current tables alone (R289). -/
def State.walkForQuad (s : State) (quad : Nat) (ver : Option Bool) (good : Page → Bool) (va : Nat) (write : Bool) :
    State × Except TransFault Page :=
  let s := s.countQuad quad 3 1
  let (w, r) := s.walkAccess (s.quadHw quad).walk ver good va write
  let s := s.walked w
  match r with
  | .error f => (s, .error f)
  | .ok p =>
    let p := { p with dirty := p.dirty || write }
    let s := s.markLeaf w.leafPa write
    let h := s.quadHw quad
    (s.setQuadHw quad
      { h with walk := h.walk.learn va w, tlb := if p.ver == regionVer w.region then cachePut h.tlb 256 p else h.tlb }, .ok p)

/-- Translation of one address of a quad (R289). -/
def State.translateQuad (s : State) (quad : Nat) (good : Page → Bool) (va : Nat) (write : Bool) :
    State × Except TransFault Page :=
  match cachedFor (s.quadHw quad).tlb good va write with
  | some p => (s, .ok p)
  | none => s.walkForQuad quad none good va write

/-- What a walk that has read its entries leaves: the lines that it read given up, and its leaf marked (R280, R288). -/
def State.afterWalk (s : State) (write : Bool) : Walked × Except TransFault Page → State × Except TransFault Page
  | (w, .error f) => (s.walked w, .error f)
  | (w, .ok p) => ((s.walked w).markLeaf w.leafPa write, .ok p)

/-- Translation of one address of the command processor or of a home slice, which cache nothing (R283, R288). -/
def State.translateNode (s : State) (va : Nat) (write : Bool) : State × Except TransFault Page :=
  s.afterWalk write (s.walkAccess ⟨[], []⟩ none anyPage va write)

/-- The cause of a failed read and of a failed write (R293). -/
def TransFault.cause (f : TransFault) (write : Bool) : Nat :=
  match f with
  | .unmapped => causePAGE
  | .absent => if write then causeNRSTORE else causePAGE
  | .readOnly => causePROT

/-- A 56-bit virtual address: bits [63:56] are ignored (R128). -/
def va56 (x : DWord) : Nat := x.toNat % 2 ^ 56

/-! ### Peer routes (R353) -/

/-- Whether a request to a peer device leaves this device: peer traffic enabled, a valid route, not the device
itself (R353). An entry whose port is none of 1 to 4 counts as not valid, the model's choice (log 94). -/
def State.peerReachable (s : State) (dev : Nat) : Bool :=
  s.bar0.devnum.getLsbD 31 && decide (dev ≠ bitsAt s.bar0.devnum.toNat 0 14)
    && (let e := s.tableEntry (s.bar0.peertab.toNat + 16 * dev + 8)
        field e 63 63 == 1 && decide (1 ≤ field e 2 0) && decide (field e 2 0 ≤ 4))

/-- The cause with which an access to a peer made within one step ends, if it fails (R299, R353). -/
def State.peerFault (s : State) (dev va : Nat) : Option Nat :=
  if !s.peerReachable dev then some causePEER
  else
    match Config.peerAnswer s.tick va with
    | .data => none
    | .error => some causePEER
    | .timeout => some causePEERTO

/-- The translated address of a page: an address in a peer's memory carries the device number above bit 48. -/
def Page.target (p : Page) (va : Nat) : Nat :=
  match p.peer with
  | none => p.pa va
  | some d => p.pa va + 2 ^ 48 * (d + 1)

/-- The peer device of a translated address. -/
def peerOf (a : Nat) : Option Nat := if a < 2 ^ 48 then none else some (a / 2 ^ 48 - 1)

/-! ### Instruction fetch (R36 to R38) -/

/-- What a block that fetches holds: the words that it keeps, and the translation that it uses. -/
structure Fetcher where
  unit : FetchUnit
  since : Nat
  tr : State → Nat → State × Except TransFault Page

/-- What a fetch gives: the words of an instruction; the address of the first word that could not be fetched, with the
cause and TAUX; or nothing yet, while a peer owes the word at a target address. -/
inductive Fetched where
  | words (ws : List Word)
  | fault (va cause aux : Nat)
  | owed (target va : Nat)
  deriving DecidableEq, Repr

/-- The words that a block keeps. -/
def State.codeOf (s : State) : FetchUnit → Table CodeWord
  | .core n => (s.core n).code
  | .quad n => (s.quadHw n).code
  | .slice n => (s.sliceAt n).code

/-- The words that a block keeps, replaced. -/
def State.setCode (s : State) (u : FetchUnit) (t : Table CodeWord) : State :=
  match u with
  | .core n => s.setCore n { s.core n with code := t }
  | .quad n => s.setQuadHw n { s.quadHw n with code := t }
  | .slice n => s.setSlice n { s.sliceAt n with code := t }

/-- One instruction word: one that the block has kept since its grid's LAUNCH node started, or the word at the home now;
a word of a peer must have come (R36, R38). -/
def State.fetchWord (s : State) (x : Fetcher) (va : Nat) : State × Fetched :=
  match x.tr s va with
  | (s, .error _) => (s, .fault va causePAGE 0)
  | (s, .ok p) =>
    match ((s.codeOf x.unit).find (p.target va / 4)).filter fun c => decide (x.since ≤ c.filledAt) with
    | some ⟨some w, _, _, _⟩ => (s, .words [w])
    | some ⟨none, cause, dev, _⟩ => (s.setCode x.unit ((s.codeOf x.unit).erase (p.target va / 4)), .fault va cause dev)
    | none =>
      if p.peer.isSome then (s, .owed (p.target va) va)
      else
        let s := s.recall (lineOf (p.pa va))
        (s, .words [BitVec.ofNat 32 (s.homeNat (p.pa va) 4)])

/-- n further words from a virtual address up. -/
def State.fetchMore (s : State) (x : Fetcher) (va : Nat) : Nat → List Word → State × Fetched
  | 0, ws => (s, .words ws)
  | n + 1, ws =>
    match s.fetchWord x va with
    | (s, .words w) => s.fetchMore x ((va + 4) % 2 ^ 56) n (ws ++ w)
    | r => r

/-- The words of the instruction at a PC: word 0, then as many as its LEN asks for (R36, R37). -/
def State.fetch (s : State) (x : Fetcher) (pc : BitVec 56) : State × Fetched :=
  match s.fetchWord x pc.toNat with
  | (s, .words ws) =>
    s.fetchMore x ((pc.toNat + 4) % 2 ^ 56) ((Len.ofBits (slice (ws.headD 0) 0 2)).words - 1) ws
  | r => r

/-- When the LAUNCH node of a cluster's grid started (R38). -/
def State.launchedAt (s : State) (cid : Nat) : Nat := ((s.gridOf cid).map (·.began)).getD 0

/-- The fetcher of a team's core. -/
def State.fetchCore (s : State) (cid team : Nat) : Fetcher :=
  ⟨.core (s.coreOf cid team), s.launchedAt cid, fun s va => s.translateCore (s.coreOf cid team) anyPage va false⟩

/-- The fetcher of a quad's control core. -/
def State.fetchQuad (s : State) (q : QuadRef) : Fetcher :=
  ⟨.quad (s.quadOf q), s.launchedAt q.cid, fun s va => s.translateQuad (s.quadOf q) anyPage va false⟩

end Sys2Proof.Machine
end

