-- ==== Sys2Proof/Machine/Operands.lean ====
section
/-! DEFINITION. Operands: which engine accepts an instruction (R50), which registers it names and which codes each
engine reads in them (R22 to R25), the special registers (R192), and the checks and the guard that come before every
instruction's effect (R27, R33, R34, R244). -/

namespace Sys2Proof.Machine

open Sys2Proof

/-! ### Engines (R50) -/

/-- The engines of one slot of the opcode map: lane, control core, method. -/
structure Accepts where
  lane : Bool
  control : Bool
  method : Bool
  deriving DecidableEq, Repr

/-- The letters of the opcode map (R50); a device step is no engine's instruction. -/
def enginesOf : Instr → Accepts
  | .nop .. => ⟨true, true, true⟩
  | .iadd .. => ⟨true, true, true⟩
  | .isub .. => ⟨true, true, true⟩
  | .imul .. => ⟨true, true, true⟩
  | .imulh .. => ⟨true, true, true⟩
  | .imad .. => ⟨true, true, true⟩
  | .imin .. => ⟨true, true, true⟩
  | .imax .. => ⟨true, true, true⟩
  | .iabs .. => ⟨true, true, true⟩
  | .ineg .. => ⟨true, true, true⟩
  | .icmp .. => ⟨true, true, true⟩
  | .iaddc .. => ⟨true, true, true⟩
  | .lea .. => ⟨true, true, true⟩
  | .and .. => ⟨true, true, true⟩
  | .or .. => ⟨true, true, true⟩
  | .xor .. => ⟨true, true, true⟩
  | .andn .. => ⟨true, true, true⟩
  | .not .. => ⟨true, true, true⟩
  | .shl .. => ⟨true, true, true⟩
  | .shr .. => ⟨true, true, true⟩
  | .sar .. => ⟨true, true, true⟩
  | .rotl .. => ⟨true, true, true⟩
  | .bfx .. => ⟨true, true, true⟩
  | .bfi .. => ⟨true, true, true⟩
  | .popc .. => ⟨true, true, true⟩
  | .clz .. => ⟨true, true, true⟩
  | .ctz .. => ⟨true, true, true⟩
  | .brev .. => ⟨true, true, true⟩
  | .sel .. => ⟨true, true, true⟩
  | .mov .. => ⟨true, true, true⟩
  | .movi .. => ⟨true, true, true⟩
  | .cbit .. => ⟨true, true, true⟩
  | .padd2 .. => ⟨true, false, false⟩
  | .psub2 .. => ⟨true, false, false⟩
  | .pmul2 .. => ⟨true, false, false⟩
  | .pmac2 .. => ⟨true, false, false⟩
  | .pmin2 .. => ⟨true, false, false⟩
  | .pmax2 .. => ⟨true, false, false⟩
  | .pshr2 .. => ⟨true, false, false⟩
  | .pnarrow .. => ⟨true, false, false⟩
  | .punpk .. => ⟨true, false, false⟩
  | .padd4 .. => ⟨true, false, false⟩
  | .pdot4 .. => ⟨true, false, false⟩
  | .pcmp2 .. => ⟨true, false, false⟩
  | .bcmp .. => ⟨true, false, true⟩
  | .bfind .. => ⟨true, false, true⟩
  | .bhash .. => ⟨true, false, true⟩
  | .bcrc .. => ⟨true, false, true⟩
  | .shfl .. => ⟨true, false, true⟩
  | .slide .. => ⟨true, false, true⟩
  | .vote .. => ⟨true, false, true⟩
  | .scan .. => ⟨true, false, true⟩
  | .redux .. => ⟨true, false, true⟩
  | .matchLanes .. => ⟨true, false, true⟩
  | .bcast .. => ⟨true, false, true⟩
  | .gmov .. => ⟨true, false, true⟩
  | .lmul .. => ⟨true, false, true⟩
  | .ldiv .. => ⟨true, false, true⟩
  | .ladd .. => ⟨true, false, true⟩
  | .lsub .. => ⟨true, false, true⟩
  | .lmad .. => ⟨true, false, true⟩
  | .lmsb .. => ⟨true, false, true⟩
  | .lsqrt .. => ⟨true, false, true⟩
  | .lrsqrt .. => ⟨true, false, true⟩
  | .lsqr .. => ⟨true, false, true⟩
  | .lrcp .. => ⟨true, false, true⟩
  | .lpowi .. => ⟨true, false, true⟩
  | .lpowf .. => ⟨true, false, true⟩
  | .lscale .. => ⟨true, false, true⟩
  | .labs .. => ⟨true, false, true⟩
  | .lneg .. => ⟨true, false, true⟩
  | .lmin .. => ⟨true, false, true⟩
  | .lmax .. => ⟨true, false, true⟩
  | .lcmp .. => ⟨true, false, true⟩
  | .lclass .. => ⟨true, false, true⟩
  | .lexp2 .. => ⟨true, false, true⟩
  | .llog2 .. => ⟨true, false, true⟩
  | .lclamp .. => ⟨true, false, true⟩
  | .cvtfl .. => ⟨true, false, false⟩
  | .cvtlf .. => ⟨true, false, false⟩
  | .cvtil .. => ⟨true, false, false⟩
  | .cvtli .. => ⟨true, false, false⟩
  | .cvtll .. => ⟨true, false, false⟩
  | .cvtxl .. => ⟨true, false, false⟩
  | .cvtlx .. => ⟨true, false, false⟩
  | .lfld .. => ⟨true, false, false⟩
  | .bra .. => ⟨true, true, true⟩
  | .jmp .. => ⟨true, true, false⟩
  | .call .. => ⟨true, true, false⟩
  | .callr .. => ⟨true, true, false⟩
  | .ret .. => ⟨true, true, false⟩
  | .exit .. => ⟨true, true, false⟩
  | .yield .. => ⟨true, false, false⟩
  | .pause .. => ⟨true, false, false⟩
  | .bar .. => ⟨true, false, false⟩
  | .barc .. => ⟨true, false, false⟩
  | .twait .. => ⟨true, false, false⟩
  | .tsignal .. => ⟨true, false, false⟩
  | .live .. => ⟨true, false, false⟩
  | .trap .. => ⟨true, true, false⟩
  | .brk .. => ⟨true, true, false⟩
  | .ldg .. => ⟨true, false, false⟩
  | .ldgRc .. => ⟨true, false, false⟩
  | .stg .. => ⟨true, false, false⟩
  | .lds .. => ⟨true, false, false⟩
  | .sts .. => ⟨true, false, false⟩
  | .ldc .. => ⟨true, false, false⟩
  | .stc .. => ⟨true, false, false⟩
  | .stn .. => ⟨true, false, false⟩
  | .ldgu .. => ⟨true, true, false⟩
  | .pref .. => ⟨true, false, false⟩
  | .touch .. => ⟨true, false, false⟩
  | .cctl .. => ⟨true, false, false⟩
  | .fence .. => ⟨true, true, false⟩
  | .promote .. => ⟨true, false, false⟩
  | .atom .. => ⟨true, false, false⟩
  | .red .. => ⟨true, false, false⟩
  | .atoms .. => ⟨true, false, false⟩
  | .comb .. => ⟨true, false, false⟩
  | .combr .. => ⟨true, false, false⟩
  | .objld .. => ⟨false, false, true⟩
  | .objst .. => ⟨false, false, true⟩
  | .reply .. => ⟨false, false, true⟩
  | .mabort .. => ⟨false, false, true⟩
  | .hgcfg .. => ⟨true, false, false⟩
  | .hgld .. => ⟨true, false, false⟩
  | .hgscat .. => ⟨true, false, false⟩
  | .hgidx .. => ⟨true, false, false⟩
  | .cpy .. => ⟨true, false, false⟩
  | .cpyb .. => ⟨true, false, false⟩
  | .qfence .. => ⟨true, false, false⟩
  | .qwait .. => ⟨true, false, false⟩
  | .qstat .. => ⟨true, false, false⟩
  | .qreset .. => ⟨true, false, false⟩
  | .cpyt .. => ⟨true, false, false⟩
  | .tmma .. => ⟨false, true, false⟩
  | .tmmas .. => ⟨false, true, false⟩
  | .tzero .. => ⟨false, true, false⟩
  | .tdrain .. => ⟨false, true, false⟩
  | .tdapply .. => ⟨false, true, false⟩
  | .tloadacc .. => ⟨false, true, false⟩
  | .tamax .. => ⟨false, true, false⟩
  | .tfence .. => ⟨false, true, false⟩
  | .tfenceW .. => ⟨false, true, false⟩
  | .evpop .. => ⟨false, true, false⟩
  | .evwait .. => ⟨false, true, false⟩
  | .ttok .. => ⟨false, true, false⟩
  | .ttokClr .. => ⟨false, true, false⟩
  | .flipv .. => ⟨true, true, false⟩
  | .dgst .. => ⟨true, true, false⟩
  | .postr .. => ⟨true, true, false⟩
  | .sread .. => ⟨true, true, false⟩
  | .swrite .. => ⟨true, true, false⟩
  | .rte .. => ⟨true, true, false⟩
  | .tlbinv .. => ⟨true, true, false⟩
  | .pcnt .. => ⟨true, true, false⟩
  | .halt .. => ⟨false, true, false⟩
  | .evsend .. => ⟨true, true, false⟩
  | .loadDataReturn .. => ⟨false, false, false⟩
  | .storePerform .. => ⟨false, false, false⟩
  | .homeAtomicPerform .. => ⟨false, false, false⟩
  | .registerLineFill .. => ⟨false, false, false⟩
  | .pauseExpiry .. => ⟨false, false, false⟩
  | .barrierArrival .. => ⟨false, false, false⟩
  | .trapEntry .. => ⟨false, false, false⟩
  | .controlCoreTrapEntry .. => ⟨false, false, false⟩
  | .pageWalk .. => ⟨false, false, false⟩
  | .invalidationComplete .. => ⟨false, false, false⟩
  | .pushToHome .. => ⟨false, false, false⟩
  | .promoteReturn .. => ⟨false, false, false⟩
  | .lineRecall .. => ⟨false, false, false⟩
  | .peerCompletion .. => ⟨false, false, false⟩
  | .peerTimeout .. => ⟨false, false, false⟩
  | .peerRequest .. => ⟨false, false, false⟩
  | .queueEntryAccept .. => ⟨false, false, false⟩
  | .copyCommandStart .. => ⟨false, false, false⟩
  | .copyCommandEnd .. => ⟨false, false, false⟩
  | .qfenceComplete .. => ⟨false, false, false⟩
  | .taskTableEntry .. => ⟨false, false, false⟩
  | .taskStart .. => ⟨false, false, false⟩
  | .taskFinish .. => ⟨false, false, false⟩
  | .taskComplete .. => ⟨false, false, false⟩
  | .batchAccept .. => ⟨false, false, false⟩
  | .gateAdmit .. => ⟨false, false, false⟩
  | .gateDivergence .. => ⟨false, false, false⟩
  | .waveForm .. => ⟨false, false, false⟩
  | .waveBudgetExceeded .. => ⟨false, false, false⟩
  | .waveCommit .. => ⟨false, false, false⟩
  | .waveFault .. => ⟨false, false, false⟩
  | .combReply .. => ⟨false, false, false⟩
  | .eventRingWrite => ⟨false, false, false⟩
  | .doorbell .. => ⟨false, false, false⟩
  | .preempt .. => ⟨false, false, false⟩
  | .nodeStart .. => ⟨false, false, false⟩
  | .launch .. => ⟨false, false, false⟩
  | .bulk .. => ⟨false, false, false⟩
  | .flip .. => ⟨false, false, false⟩
  | .signal .. => ⟨false, false, false⟩
  | .waitw .. => ⟨false, false, false⟩
  | .waitwTimeout .. => ⟨false, false, false⟩
  | .branch .. => ⟨false, false, false⟩
  | .nodeEnd .. => ⟨false, false, false⟩
  | .clusterStart .. => ⟨false, false, false⟩
  | .clusterEnd .. => ⟨false, false, false⟩
  | .clusterRetire .. => ⟨false, false, false⟩
  | .gridAbort .. => ⟨false, false, false⟩
  | .quantumExpiry .. => ⟨false, false, false⟩
  | .clusterPreemption .. => ⟨false, false, false⟩
  | .clusterResume .. => ⟨false, false, false⟩
  | .machineCheck .. => ⟨false, false, false⟩
  | .throttle .. => ⟨false, false, false⟩
  | .thermalTrip => ⟨false, false, false⟩
  | .freeze => ⟨false, false, false⟩
  | .freezeSaveAll => ⟨false, false, false⟩
  | .freezeResume => ⟨false, false, false⟩
  | .invlen .. => ⟨false, false, false⟩
  | .attreq => ⟨false, false, false⟩
  | .registerWrite .. => ⟨false, false, false⟩
  | .hostAccess .. => ⟨false, false, false⟩
  | .coldReset => ⟨false, false, false⟩
  | .warmReset => ⟨false, false, false⟩
  | .linkRetrain .. => ⟨false, false, false⟩
  | .hardwarePrefetch .. => ⟨false, false, false⟩
  | .powerRemoved => ⟨false, false, false⟩

/-- Whether an engine accepts an instruction's opcode (R34 1). -/
def Accepts.has (x : Accepts) : Engine → Bool
  | .lane _ => x.lane
  | .control _ => x.control
  | .method _ => x.method

/-! ### The hashed-grid state as operand sizes (R158, R324) -/

/-- FC of a descriptor. -/
def hgFC (d : BitVec 512) : Nat := (slice d 46 2).toNat
/-- The features F. -/
def hgF (d : BitVec 512) : Nat := 2 ^ hgFC d
/-- The levels Lv. -/
def hgLevels (d : BitVec 512) : Nat := (slice d 42 4).toNat + 1
/-- The dimensions D. -/
def hgD (d : BitVec 512) : Nat := (slice d 39 3).toNat + 1

/-- The registers of a coordinate block; an invalid state has none to check (R158). -/
def hgDims : Option (BitVec 512) → Nat
  | none => 0
  | some d => hgD d

/-- The registers of a result or gradient block: Lv · F / 2 (R158). -/
def hgValues : Option (BitVec 512) → Nat
  | none => 0
  | some d => hgLevels d * hgF d / 2

/-! ### Special registers (R192) -/

/-- What an engine may do with a special register. -/
inductive Access where
  | none | ro | rw
  deriving DecidableEq, Repr

/-- A special register: its width in 32-bit registers, and the access of a lane and of a control core. -/
structure Special where
  regs : Nat
  lane : Access
  control : Access
  deriving DecidableEq, Repr

/-- The special registers by number (R192). -/
def special (n : Nat) : Option Special :=
  match n with
  | 0x00 => some ⟨1, .ro, .none⟩
  | 0x01 => some ⟨1, .ro, .none⟩
  | 0x02 => some ⟨1, .ro, .none⟩
  | 0x03 => some ⟨2, .ro, .ro⟩
  | 0x04 => some ⟨1, .ro, .ro⟩
  | 0x05 => some ⟨2, .ro, .ro⟩
  | 0x06 => some ⟨1, .ro, .none⟩
  | 0x07 => some ⟨1, .ro, .ro⟩
  | 0x08 => some ⟨2, .ro, .ro⟩
  | 0x09 => some ⟨1, .rw, .none⟩
  | 0x0A => some ⟨1, .ro, .none⟩
  | 0x0B => some ⟨2, .rw, .rw⟩
  | 0x10 => some ⟨1, .rw, .rw⟩
  | 0x11 => some ⟨2, .rw, .rw⟩
  | 0x12 => some ⟨1, .rw, .rw⟩
  | 0x13 => some ⟨1, .rw, .rw⟩
  | 0x14 => some ⟨2, .rw, .rw⟩
  | 0x15 => some ⟨2, .rw, .rw⟩
  | 0x18 => some ⟨1, .ro, .ro⟩
  | 0x19 => some ⟨1, .ro, .ro⟩
  | 0x1A => some ⟨1, .ro, .ro⟩
  | 0x1C => some ⟨4, .ro, .none⟩
  | 0x1D => some ⟨4, .ro, .none⟩
  | 0x1E => some ⟨4, .ro, .none⟩
  | 0x1F => some ⟨4, .ro, .none⟩
  | _ => none

/-- The access that an engine has to a special register. -/
def Special.access (x : Special) : Engine → Access
  | .lane _ => x.lane
  | .control _ => x.control
  | .method _ => .none

/-- The registers of a special register's operand. -/
def specialRegs (n : BitVec 8) : Nat := ((special n.toNat).map (·.regs)).getD 1

/-! ### Register operands (R22 to R25) -/

/-- A register operand: its code and how many registers it names; a block names its first; group asks for a group
register, and groupDest lets a destination be one (R25). -/
structure Opnd where
  code : Code
  n : Nat
  dest : Bool := false
  block : Bool := false
  group : Bool := false
  groupDest : Bool := false
  deriving DecidableEq, Repr

/-- A source of n registers. -/
def src (c : Code) (n : Nat) : Opnd := { code := c, n := n }

/-- A destination of n registers. -/
def dst (c : Code) (n : Nat) : Opnd := { code := c, n := n, dest := true }

/-- Operand B, where it is a register. -/
def srcs (b : SrcB) (n : Nat) : List Opnd :=
  match b with
  | .reg c => [src c n]
  | .lit _ => []

/-- Registers of an operand whose 64-bit form SUB[2] marks (R68, R69, R74). -/
def w64 (v : BitVec 4) : Nat := if v.getLsbD 2 then 2 else 1

/-- Bytes of an access width (R127). -/
def widthBytes (v : BitVec 4) : Nat :=
  if v = 0 ∨ v = 8 then 1 else if v = 1 ∨ v = 9 then 2 else if v = 2 then 4 else if v = 3 then 8 else 16

/-- Registers of an access width (R127). -/
def widthRegs (v : BitVec 4) : Nat := if v = 3 then 2 else if v = 4 then 4 else 1

/-- Registers of an atomic's type (R146). -/
def typeRegs (md : BitVec 4) : Nat := if slice md 2 2 = 1 then 2 else 1

/-- The register operands of an instruction, under a hashed-grid state. -/
def operandsOf (hg : Option (BitVec 512)) : Instr → List Opnd
  | .nop _ => []
  | .iadd _ v d a b => [dst d (w64 v), src a (w64 v)] ++ srcs b (w64 v)
  | .isub _ v d a b => [dst d (w64 v), src a (w64 v)] ++ srcs b (w64 v)
  | .imul _ v d a b => [dst d (w64 v), src a (w64 v)] ++ srcs b (w64 v)
  | .imulh _ v d a b => [dst d (w64 v), src a (w64 v)] ++ srcs b (w64 v)
  | .imad _ v d a b c => [dst d (w64 v), src a (w64 v), src c (w64 v)] ++ srcs b (w64 v)
  | .imin _ v d a b => [dst d (w64 v), src a (w64 v)] ++ srcs b (w64 v)
  | .imax _ v d a b => [dst d (w64 v), src a (w64 v)] ++ srcs b (w64 v)
  | .iabs _ v d a => [dst d (w64 v), src a (w64 v)]
  | .ineg _ v d a => [dst d (w64 v), src a (w64 v)]
  | .icmp _ _ md _ a b => [src a (if md = 1 then 2 else 1)] ++ srcs b (if md = 1 then 2 else 1)
  | .iaddc _ v d a b _ => [dst d (w64 v), src a (w64 v)] ++ srcs b (w64 v)
  | .lea _ _ d a b => [dst d 2, src a 2] ++ srcs b 1
  | .and _ v d a b => [dst d (w64 v), src a (w64 v)] ++ srcs b (w64 v)
  | .or _ v d a b => [dst d (w64 v), src a (w64 v)] ++ srcs b (w64 v)
  | .xor _ v d a b => [dst d (w64 v), src a (w64 v)] ++ srcs b (w64 v)
  | .andn _ v d a b => [dst d (w64 v), src a (w64 v)] ++ srcs b (w64 v)
  | .not _ v d a => [dst d (w64 v), src a (w64 v)]
  | .shl _ v d a b => [dst d (w64 v), src a (w64 v)] ++ srcs b 1
  | .shr _ v d a b => [dst d (w64 v), src a (w64 v)] ++ srcs b 1
  | .sar _ v d a b => [dst d (w64 v), src a (w64 v)] ++ srcs b 1
  | .rotl _ v d a b => [dst d (w64 v), src a (w64 v)] ++ srcs b 1
  | .bfx _ v d a b => [dst d (w64 v), src a (w64 v)] ++ srcs b 1
  | .bfi _ v d a b c => [dst d (w64 v), src a (w64 v), src c (w64 v)] ++ srcs b 1
  | .popc _ v d a => [dst d 1, src a (w64 v)]
  | .clz _ v d a => [dst d 1, src a (w64 v)]
  | .ctz _ v d a => [dst d 1, src a (w64 v)]
  | .brev _ v d a => [dst d (w64 v), src a (w64 v)]
  | .sel _ v d a b => [dst d (if v.getLsbD 3 then 2 else 1), src a (if v.getLsbD 3 then 2 else 1)] ++ srcs b (if v.getLsbD 3 then 2 else 1)
  | .mov _ v d a => [dst d (w64 v), src a (w64 v)]
  | .movi _ v d _ => [{ dst d (if v = 0 then 1 else 2) with groupDest := true }]
  | .cbit _ _ _ _ _ => []
  | .padd2 _ _ d a b => [dst d 1, src a 1] ++ srcs b 1
  | .psub2 _ _ d a b => [dst d 1, src a 1] ++ srcs b 1
  | .pmul2 _ _ d a b => [dst d 1, src a 1] ++ srcs b 1
  | .pmac2 _ d a b => [dst d 1, src a 1] ++ srcs b 1
  | .pmin2 _ _ d a b => [dst d 1, src a 1] ++ srcs b 1
  | .pmax2 _ _ d a b => [dst d 1, src a 1] ++ srcs b 1
  | .pshr2 _ _ d a b => [dst d 1, src a 1] ++ srcs b 1
  | .pnarrow _ _ d a b => [dst d 1, src a 1] ++ srcs b 1
  | .punpk _ _ d a => [dst d 1, src a 1]
  | .padd4 _ _ d a b => [dst d 1, src a 1] ++ srcs b 1
  | .pdot4 _ _ d a b => [dst d 1, src a 1] ++ srcs b 1
  | .pcmp2 _ _ d a b => [dst d 1, src a 1] ++ srcs b 1
  | .bcmp _ _ d a b => [dst d 1, src a 1] ++ srcs b 1
  | .bfind _ _ d a b => [dst d 1, src a 1] ++ srcs b 1
  | .bhash _ _ d a => [dst d 1, src a 1]
  | .bcrc _ _ d a => [dst d 1, src a 1]
  | .shfl _ v d a b _ => [dst d (w64 v), src a (w64 v)] ++ (if v.getLsbD 3 then [] else [src b 1])
  | .slide _ _ d a b => [dst d 1, src a 1, { src b 1 with group := true }]
  | .vote _ v d _ => if v = 0 ∨ v = 1 then [] else [dst d 1]
  | .scan _ _ _ d a => [dst d 1, src a 1]
  | .redux _ _ d a => [{ dst d 1 with group := true, groupDest := true }, src a 1]
  | .matchLanes _ v d a => [dst d 1, src a (w64 v)]
  | .bcast _ _ d a => [{ dst d 1 with group := true, groupDest := true }, src a 1]
  | .gmov _ d b => [dst d 1, src b 1]
  | .lmul _ _ _ d a b => [dst d 1, src a 1] ++ srcs b 1
  | .ldiv _ _ _ d a b => [dst d 1, src a 1] ++ srcs b 1
  | .ladd _ _ _ d a b => [dst d 1, src a 1] ++ srcs b 1
  | .lsub _ _ _ d a b => [dst d 1, src a 1] ++ srcs b 1
  | .lmad _ _ _ d a b c => [dst d 1, src a 1, src c 1] ++ srcs b 1
  | .lmsb _ _ _ d a b c => [dst d 1, src a 1, src c 1] ++ srcs b 1
  | .lsqrt _ _ d a => [dst d 1, src a 1]
  | .lrsqrt _ _ _ d a => [dst d 1, src a 1]
  | .lsqr _ _ _ d a => [dst d 1, src a 1]
  | .lrcp _ _ _ d a => [dst d 1, src a 1]
  | .lpowi _ _ _ d a b => [dst d 1, src a 1] ++ srcs b 1
  | .lpowf _ _ _ d a b => [dst d 1, src a 1] ++ srcs b 1
  | .lscale _ _ _ d a b => [dst d 1, src a 1] ++ srcs b 1
  | .labs _ _ d a => [dst d 1, src a 1]
  | .lneg _ _ d a => [dst d 1, src a 1]
  | .lmin _ _ d a b => [dst d 1, src a 1] ++ srcs b 1
  | .lmax _ _ d a b => [dst d 1, src a 1] ++ srcs b 1
  | .lcmp _ _ _ _ a b => [src a 1] ++ srcs b 1
  | .lclass _ _ _ a _ => [src a 1]
  | .lexp2 _ _ _ d a => [dst d 1, src a 1]
  | .llog2 _ _ _ d a => [dst d 1, src a 1]
  | .lclamp _ _ d a b => [dst d 1, src a 1] ++ srcs b 1
  | .cvtfl _ _ md d a b => [dst d 1, src a 1] ++ (if md = 1 then [src b 1] else [])
  | .cvtlf _ _ d a => [dst d 1, src a 1]
  | .cvtil _ v d a => [dst d 1, src a (if v.getLsbD 3 then 2 else 1)]
  | .cvtli _ v _ d a => [dst d (if v.getLsbD 3 then 2 else 1), src a 1]
  | .cvtll _ v d a b => [dst d 1, src a 1] ++ (if v = 2 then [src b 1] else [])
  | .cvtxl _ _ d a _ => [dst d 1, src a 1]
  | .cvtlx _ _ _ d a _ => [dst d 1, src a 1]
  | .lfld _ v d a b => [dst d 1, src a 1] ++ (if v.getLsbD 1 then [src b 1] else [])
  | .bra _ _ => []
  | .jmp _ a => [src a 2]
  | .call _ _ => []
  | .callr _ a => [src a 2]
  | .ret _ => []
  | .exit _ => []
  | .yield _ => []
  | .pause _ v a _ => if v = 0 then [src a 1] else []
  | .bar _ _ _ _ _ => []
  | .barc _ _ _ _ _ => []
  | .twait _ a _ => [src a 1]
  | .tsignal _ _ a _ => [src a 1]
  | .live _ _ => []
  | .trap _ _ => []
  | .brk _ _ => []
  | .ldg _ v _ _ d a _ => [dst d (widthRegs v), src a 2]
  | .ldgRc _ v _ _ _ d a _ => [dst d (widthRegs v), src a 2]
  | .stg _ v _ _ a b _ => [src a 2, src b (widthRegs v)]
  | .lds _ v _ d a _ => [dst d (widthRegs v), src a 1]
  | .sts _ v _ a b _ => [src a 1, src b (widthRegs v)]
  | .ldc _ v _ d a _ _ => [dst d (widthRegs v), src a 1]
  | .stc _ v _ a b _ _ => [src a 1, src b (widthRegs v)]
  | .stn _ v _ _ a b c _ => [src a 2, src b (widthRegs v), src c 1]
  | .ldgu _ v _ _ d a _ => [{ dst d (widthRegs v) with group := true, groupDest := true }, { src a 2 with group := true }]
  | .pref _ _ a _ => [src a 2]
  | .touch _ _ a _ => [src a 2]
  | .cctl _ v a _ => if v = 0 then [src a 2] else []
  | .fence _ _ _ => []
  | .promote _ v _ d a _ => [dst d (widthRegs v), src a 2]
  | .atom _ v md _ d a b c _ => [dst d (typeRegs md), src a 2, src b (typeRegs md)] ++ (if v = 8 then [src c (typeRegs md)] else [])
  | .red _ _ md _ a b _ => [src a 2, src b (typeRegs md)]
  | .atoms _ v md d a b c _ => [dst d (typeRegs md), src a 1, src b (typeRegs md)] ++ (if v = 8 then [src c (typeRegs md)] else [])
  | .comb _ v _ _ d a b c _ => [dst d 2, src a 2] ++ (if v = 0 then [] else [src b 1]) ++ (if v = 2 then [src c 1] else [])
  | .combr _ v _ _ a b c _ => [src a 2] ++ (if v = 0 then [] else [src b 1]) ++ (if v = 2 then [src c 1] else [])
  | .objld _ v d a _ => [dst d (widthRegs v), src a 1]
  | .objst _ v a b _ => [src a 1, src b (widthRegs v)]
  | .reply _ a => [src a 2]
  | .mabort _ => []
  | .hgcfg _ a _ => [{ src a 2 with group := true }]
  | .hgld _ d a => [{ dst d (hgValues hg) with block := true }, { src a (hgDims hg) with block := true }]
  | .hgscat _ a b => [{ src a (hgDims hg) with block := true }, { src b (hgValues hg) with block := true }]
  | .hgidx _ v d a _ _ => [dst d (if v = 2 then 2 else 1), { src a (hgDims hg) with block := true }]
  | .cpy _ _ a _ => [src a 2]
  | .cpyb _ _ a _ _ => [src a 2]
  | .qfence _ _ _ _ => []
  | .qwait _ _ _ => []
  | .qstat _ _ d => [dst d 2]
  | .qreset _ _ => []
  | .cpyt _ _ a b _ => [src a 2, src b 1]
  | .tmma _ _ a b c _ => [src a 2, src b 2, src c 2]
  | .tmmas _ _ a b c _ => [src a 2, src b 2, src c 2]
  | .tzero _ _ => []
  | .tdrain _ a b c _ => [src a 2, src b 2, src c 2]
  | .tdapply _ a b c _ => [src a 2, src b 2, src c 2]
  | .tloadacc _ a _ => [src a 2]
  | .tamax _ _ d _ => [dst d 2]
  | .tfence _ _ => []
  | .tfenceW _ => []
  | .evpop _ d _ => [dst d 2]
  | .evwait _ d => [dst d 2]
  | .ttok _ v d a _ => if v = 0 then [dst d 2] else [src a 2]
  | .ttokClr _ => []
  | .flipv _ a b => [src a 2, src b 2]
  | .dgst _ d => [dst d 2]
  | .postr _ a => [src a 2]
  | .sread _ _ d n => [dst d (specialRegs n)]
  | .swrite _ a n => [src a (specialRegs n)]
  | .rte _ => []
  | .tlbinv _ a b => [src a 2, src b 2]
  | .pcnt _ _ d _ => [dst d 2]
  | .halt _ => []
  | .evsend _ _ a _ => [src a 2]
  | .loadDataReturn .. => []
  | .storePerform .. => []
  | .homeAtomicPerform .. => []
  | .registerLineFill .. => []
  | .pauseExpiry .. => []
  | .barrierArrival .. => []
  | .trapEntry .. => []
  | .controlCoreTrapEntry .. => []
  | .pageWalk .. => []
  | .invalidationComplete .. => []
  | .pushToHome .. => []
  | .promoteReturn .. => []
  | .lineRecall .. => []
  | .peerCompletion .. => []
  | .peerTimeout .. => []
  | .peerRequest .. => []
  | .queueEntryAccept .. => []
  | .copyCommandStart .. => []
  | .copyCommandEnd .. => []
  | .qfenceComplete .. => []
  | .taskTableEntry .. => []
  | .taskStart .. => []
  | .taskFinish .. => []
  | .taskComplete .. => []
  | .batchAccept .. => []
  | .gateAdmit .. => []
  | .gateDivergence .. => []
  | .waveForm .. => []
  | .waveBudgetExceeded .. => []
  | .waveCommit .. => []
  | .waveFault .. => []
  | .combReply .. => []
  | .eventRingWrite => []
  | .doorbell .. => []
  | .preempt .. => []
  | .nodeStart .. => []
  | .launch .. => []
  | .bulk .. => []
  | .flip .. => []
  | .signal .. => []
  | .waitw .. => []
  | .waitwTimeout .. => []
  | .branch .. => []
  | .nodeEnd .. => []
  | .clusterStart .. => []
  | .clusterEnd .. => []
  | .clusterRetire .. => []
  | .gridAbort .. => []
  | .quantumExpiry .. => []
  | .clusterPreemption .. => []
  | .clusterResume .. => []
  | .machineCheck .. => []
  | .throttle .. => []
  | .thermalTrip => []
  | .freeze => []
  | .freezeSaveAll => []
  | .freezeResume => []
  | .invlen .. => []
  | .attreq => []
  | .registerWrite .. => []
  | .hostAccess .. => []
  | .coldReset => []
  | .warmReset => []
  | .linkRetrain .. => []
  | .hardwarePrefetch .. => []
  | .powerRemoved => []

/-- Whether operand B is 64 bits wide, so that a literal stands there whole; on the control core every operand is,
but for shift amounts, field positions and LEA's index (R31, R68, R72, R74). -/
def wideB (control : Bool) : Instr → Bool
  | .iadd _ v _ _ _ => control || v.getLsbD 2
  | .isub _ v _ _ _ => control || v.getLsbD 2
  | .imul _ v _ _ _ => control || v.getLsbD 2
  | .imulh _ v _ _ _ => control || v.getLsbD 2
  | .imad _ v _ _ _ _ => control || v.getLsbD 2
  | .imin _ v _ _ _ => control || v.getLsbD 2
  | .imax _ v _ _ _ => control || v.getLsbD 2
  | .icmp _ _ md _ _ _ => control || md == 1
  | .iaddc _ v _ _ _ _ => control || v.getLsbD 2
  | .and _ v _ _ _ => control || v.getLsbD 2
  | .or _ v _ _ _ => control || v.getLsbD 2
  | .xor _ v _ _ _ => control || v.getLsbD 2
  | .andn _ v _ _ _ => control || v.getLsbD 2
  | .sel _ v _ _ _ => control || v.getLsbD 3
  | _ => false

/-- An operand's code is defined for the engine and keeps the pair, block and group-register rules (R22, R23, R25). -/
def Opnd.legal (o : Opnd) (e : Engine) : Bool :=
  let c := o.code.toNat
  let aligned := o.block || decide (c % o.n = 0)
  match e with
  | .control _ => decide (c < 32)
  | .lane _ =>
    aligned && (if c < 192 then decide (c + o.n ≤ 192) && !o.group
                else !o.block && decide (c + o.n ≤ 256) && (!o.dest || o.groupDest))
  | .method _ =>
    aligned && (if c < 192 then decide (c + o.n ≤ 64) && !o.group
                else !o.block && decide (c + o.n ≤ 208) && (!o.dest || o.groupDest))

/-- What an instruction asks of its engine beyond opcode and operand codes: special registers (R192, R193), counters
(R197), a handler for RTE (R34 10), and a literal that fits a 32-bit operand (R31). -/
def engineOk (e : Engine) (inHandler : Bool) (i : Instr) : Bool :=
  (match i.srcB? with
    | some (.lit x) => wideB (match e with | .control _ => true | _ => false) i || decide (x.toNat < 2 ^ 32)
    | _ => true)
  && (match i with
    | .sread _ v _ n =>
      match special n.toNat with
      | none => false
      | some x => x.access e != .none && (v == 0 || n == 0x09 || n == 0x0A)
    | .swrite _ _ n =>
      match special n.toNat with
      | none => false
      | some x => x.access e == .rw
    | .pcnt _ _ _ n => decide (n.toNat ≤ 8)
    | .rte _ => inHandler
    | _ => true)

/-- The instruction is defined for the engine (R33 2, R34). -/
def legalFor (e : Engine) (hg : Option (BitVec 512)) (inHandler : Bool) (i : Instr) : Bool :=
  i.accepts && (enginesOf i).has e && (operandsOf hg i).all (·.legal e) && engineOk e inHandler i

/-! ### The checks before the effect (R33) -/

/-- The hashed-grid state that an engine executes under. -/
def State.hgOf (s : State) : Engine → Option (BitVec 512)
  | .lane g => (s.group g).bind (·.hg)
  | _ => none

/-- Whether the engine is in its handler. -/
def State.inHandlerOf (s : State) : Engine → Bool
  | .lane g => ((s.group g).bind (·.handler)).isSome
  | .control q => ((s.quad q).map (·.control.inHandler)).getD false
  | .method _ => false

/-- The cluster of an engine. -/
def Engine.cid : Engine → Nat
  | .lane g => g.cid
  | .control q => q.cid
  | .method _ => 0

/-- The capability that an instruction needs (R189, R196). -/
def State.capable (s : State) (e : Engine) : Instr → Bool
  | .flipv .. => ((s.gridOf e.cid).map (·.launch.capFlip)).getD false
  | .tlbinv .. => ((s.gridOf e.cid).map (·.launch.capTlb)).getD false
  | _ => true

/-- A trap of the whole run, whatever the guards (R33, R35): a wave faults instead. -/
def State.trapIssue (s : State) (u : Issue) (cause : Nat) (aux : DWord) : State :=
  match u.engine with
  | .lane g => s.trapRun g u.pc u.run cause 0 aux
  | .control q => s.takeControlTrap q u.pc cause 0 aux false
  | .method n => s.modWave n fun w => { w with stop := some .undefined }

/-- The guard of a thread (R27). -/
def State.guardTrue (s : State) (t : Thread) (g : Guard) : Bool := s.condBit t g.bit != g.neg

/-- The members of an issue: the threads of its run whose guard is true (R27, R86). -/
def Issue.members (u : Issue) (s : State) (i : Instr) : List Nat :=
  u.run.filter fun n => s.guardTrue (u.engine.thread n) i.guard

/-- The threads of an issue's run. -/
def Issue.threads (u : Issue) : List Thread := u.run.map u.engine.thread

/-- The PC after the instruction (R17). -/
def Issue.next (u : Issue) (i : Instr) : BitVec 56 := u.pc + BitVec.ofNat 56 i.len.bytes

/-- The register lines that operands name, and whether they are written (R244). -/
def linesOf (os : List Opnd) (dest : Bool) : BitVec 48 :=
  os.foldl (fun m o =>
    if (dest && !o.dest) || 192 ≤ o.code.toNat then m
    else (List.range o.n).foldl (fun m j => m ||| (1#48 <<< ((o.code.toNat + j) / 4))) m) 0

/-- The instructions whose lane registers are written after their issue, or by some of their members only: the lines of
those registers become live when they are written (R244, R260). -/
def writesLater : Instr → Bool
  | .ldg .. | .ldgRc .. | .promote .. | .atom .. | .comb .. | .hgld .. | .lds .. | .ldc .. | .atoms .. | .hgidx .. | .dgst .. => true
  | _ => false

/-- The lines that an instruction's members touch at their issue become live and cached, the written ones dirty (R244,
R245). -/
def State.touchLines (s : State) (u : Issue) (i : Instr) (members : List Nat) : State :=
  match u.engine with
  | .lane g =>
    if members.isEmpty then s
    else s.modGroup g fun x =>
      let os := (operandsOf x.hg i).filter fun o => !(o.dest && writesLater i)
      let m := linesOf os false
      { x with live := x.live ||| m, cached := x.cached ||| m, dirty := x.dirty ||| linesOf os true }
  | _ => s

/-- The shared beginning of every encoded instruction (R33): undefined for the engine, a trap UNDEF; capability
missing, a trap PRIV with the opcode in TAUX; else its effect on the members. -/
def issued (i : Instr) (s : State) (k : Issue → List Nat → State → State) : Host.Outcome State Fault Refusal :=
  match s.cur with
  | none => .fault .noIssue
  | some u =>
    if !legalFor u.engine (s.hgOf u.engine) (s.inHandlerOf u.engine) i then .next (s.trapIssue u causeUNDEF 0)
    else if !s.capable u.engine i then .next (s.trapIssue u causePRIV ((Instr.op i).getD 0 |>.zeroExtend 64))
    else
      let ms := u.members s i
      .next (k u ms (s.touchLines u i ms))

/-- An instruction that acts on each member by itself and goes on: every source is read before any destination is
written (R67). -/
def alu (i : Instr) (f : State → Thread → Eff) (s : State) : Host.Outcome State Fault Refusal :=
  issued i s fun u ms s =>
    (s.applyAll (ms.map fun n => (u.engine.thread n, f s (u.engine.thread n)))).setPcs u.threads (u.next i)

/-- A trap that some members of an issue take: fs lists them with cause, address and TAUX, done the members that have
performed; lanes of the run whose guard was false have passed the instruction (R27, R295). -/
def State.trapMembers (s : State) (u : Issue) (i : Instr) (ms : List Nat) (fs : List (Nat × Nat × DWord × DWord))
    (done : List Nat) : State :=
  match u.engine with
  | .lane g =>
    let s := s.setPcs ((u.run.filter fun n => !ms.contains n).map u.engine.thread) (u.next i)
    s.enterTrap g u.pc ms fs (maskOf done)
  | .control q =>
    match fs with
    | [] => s
    | (_, cause, addr, aux) :: _ => s.takeControlTrap q u.pc cause addr aux (!done.isEmpty)
  | .method n => s.modWave n fun w => { w with stop := some .undefined }

/-- Operand B as 32 bits (R31). -/
def State.b32 (s : State) (t : Thread) : SrcB → Word
  | .reg c => s.reg32 t c
  | .lit x => x.truncate 32

/-- Operand B as 64 bits (R31). -/
def State.b64 (s : State) (t : Thread) : SrcB → DWord
  | .reg c => s.reg64 t c
  | .lit x => x

end Sys2Proof.Machine
end

