-- ==== Sys2Proof/Machine/LogTable.lean ====
section
/-! DEFINITION. The two functions of log addition at P9, P12 and P23 and the four coefficient tables of P23 (R201 to
R212), as functions that compute: powers of two by products of roots, logarithms by repeated squaring, on fixed-point
numbers of 160 fraction bits. The values that these give are the exactly rounded ones of R204 and R208: log entry 10
says how that was checked for every argument. -/

namespace Sys2Proof.Machine

open Sys2Proof

/-! ### Fixed-point powers and logarithms -/

/-- floor(2^160 · 2^(2^−i)), for i from 1 to 23. -/
def root2 : Nat → Nat
  | 1 => 0x16A09E667F3BCC908B2FB1366EA957D3E3ADEC175
  | 2 => 0x1306FE0A31B7152DE8D5A46305C85EDECBC273436
  | 3 => 0x1172B83C7D517ADCDF7C8C50EB14A792035509FF7
  | 4 => 0x10B5586CF9890F6298B92B71842A98364291408B3
  | 5 => 0x1059B0D31585743AE7C548EB68CA417FE53E3495F
  | 6 => 0x102C9A3E778060EE6F7CACA4F7A29BDE93D70A2CA
  | 7 => 0x10163DA9FB33356D84A66AE336DCDFA4003EC04C3
  | 8 => 0x100B1AFA5ABCBED6129AB13EC11DC954455B8187F
  | 9 => 0x10058C86DA1C09EA1FF19D294CF2F679C68BF05EB
  | 10 => 0x1002C605E2E8CEC506D21BFC89A23A010806C0A42
  | 11 => 0x100162F3904051FA128BCA9C55C31E5E06DDD3115
  | 12 => 0x1000B175EFFDC76BA38E31671CA939726694630E2
  | 13 => 0x100058BA01FB9F96D6CACD4B180917C3E43A86F9E
  | 14 => 0x10002C5CC37DA9491D0985C348C68E7B3D505D939
  | 15 => 0x1000162E525EE054754457D5995292026D9D47870
  | 16 => 0x10000B17255775C040618BF4A4ADE83FCA8F8CFDF
  | 17 => 0x1000058B91B5BC9AE2EED81E9B7D4CFAC1B1B76FB
  | 18 => 0x100002C5C89D5EC6CA4D7C8ACC017B7C9D9CDF6F6
  | 19 => 0x10000162E43F4F831060E02D839A9D16D6FB332D9
  | 20 => 0x100000B1721BCFC99D9F890EA069117637D190CB3
  | 21 => 0x10000058B90CF1E6D97F9CA14DBCC16289FA75FFD
  | 22 => 0x1000002C5C863B73F016468F6BAC5CA2C11F6D72B
  | 23 => 0x100000162E430E5A18F6119E3C02282A5F70F2C46
  | _ => 2 ^ 160

/-- 2^(y / 2^n), for y below 2^n, in units of 2^−160: the product of the roots that y's bits name. -/
def exp2Frac (n y : Nat) : Nat :=
  (List.range n).foldl (fun acc i => if y.testBit (n - 1 - i) then acc * root2 (i + 1) / 2 ^ 160 else acc) (2 ^ 160)

/-- The first n binary digits of log2 of x, for x in [1, 2) in units of 2^−160, by repeated squaring. -/
def log2Digits (x acc : Nat) : Nat → Nat
  | 0 => acc
  | n + 1 =>
    let y := x * x / 2 ^ 160
    if 2 ^ 161 ≤ y then log2Digits (y / 2) (2 * acc + 1) n else log2Digits y (2 * acc) n

/-- 2^64 · log2 of x / 2^160, rounded down, for x > 0. -/
def log2Fix (x : Nat) : Int :=
  let k := Nat.log2 x
  ((k : Int) - 160) * 2 ^ 64 + log2Digits (if k ≤ 160 then x * 2 ^ (160 - k) else x / 2 ^ (k - 160)) 0 64

/-- 2^δ in units of 2^−160, for δ = d / 2^n with d at most 0. -/
def exp2Neg (n : Nat) (d : Int) : Nat :=
  let i := (-d).toNat / 2 ^ n
  let r := (-d).toNat % 2 ^ n
  if r = 0 then 2 ^ 160 / 2 ^ i else exp2Frac n (2 ^ n - r) / 2 ^ (i + 1)

/-- 2^64 · sb(d / 2^n). -/
def sbFix (n : Nat) (d : Int) : Int := log2Fix (2 ^ 160 + exp2Neg n d)

/-- 2^64 · db(d / 2^n), for d below 0. -/
def dbFix (n : Nat) (d : Int) : Int := log2Fix (2 ^ 160 - exp2Neg n d)

/-- x / 2^k rounded to the nearest integer, ties to even (R109). -/
def rneShift (x : Int) (k : Nat) : Int :=
  let q := x / 2 ^ k
  let r := x % 2 ^ k
  if 2 * r < 2 ^ k then q else if 2 ^ k < 2 * r then q + 1 else if q % 2 = 0 then q else q + 1

/-! ### P9 and P12 (R204, R205) -/

/-- SBP(d) for F fraction bits, 9 or 12. -/
def sbP (F : Nat) (d : Int) : Int := if d = 0 then 2 ^ F else rneShift (sbFix F d) (64 - F)

/-- DBP(d) for F fraction bits, 9 or 12, and d below 0; db(−1) = −1 is exact. -/
def dbP (F : Nat) (d : Int) : Int := if d = -(2 ^ F) then -(2 ^ F) else rneShift (dbFix F d) (64 - F)

/-! ### The tables of P23 (R208) -/

/-- The four tables. -/
inductive Tab where
  | sb | db | lg | ex
  deriving DecidableEq, Repr

/-- 2^64 · f at point i of a table, two points to a row: row j starts at point 2j. -/
def tabPoint (t : Tab) (i : Nat) : Int :=
  match t with
  | .sb => if i = 3072 then 2 ^ 64 else sbFix 7 ((i : Int) - 3072)
  | .db => dbFix 7 ((i : Int) - 3072)
  | .lg => log2Fix (2 ^ 160 + i * 2 ^ 153)
  | .ex => if i = 128 then 2 ^ 64 else ((exp2Frac 7 i : Int) - 2 ^ 160) / 2 ^ 96

/-- A row of coefficients. -/
structure Row where
  cf0 : Int
  cf1 : Int
  cf2 : Int
  deriving DecidableEq, Repr

/-- Row j of a table (R208); DB rows 1,533 to 1,535 are zero. -/
def tabRow (t : Tab) (j : Nat) : Row :=
  if t = .db ∧ 1533 ≤ j then ⟨0, 0, 0⟩
  else
    let f0 := tabPoint t (2 * j)
    let fm := tabPoint t (2 * j + 1)
    let f1 := tabPoint t (2 * j + 2)
    ⟨rneShift f0 34, rneShift (-3 * f0 + 4 * fm - f1) 32, rneShift (f0 - 2 * fm + f1) 31⟩

/-- One evaluation step (R209), in units of 2^−30. -/
def poly23 (t : Tab) (j : Nat) (x : Nat) : Int :=
  let r := tabRow t j
  let m := r.cf2 * x / 2 ^ 17
  let n := r.cf1 + m
  r.cf0 + n * x / 2 ^ 19

/-- SB23(d) for d at most 0 (R207, R209). -/
def sb23 (d : Int) : Int :=
  if d = 0 then 2 ^ 23
  else if d < -24 * 2 ^ 23 then 0
  else
    let s := (d + 24 * 2 ^ 23).toNat
    rneShift (poly23 .sb (s / 2 ^ 17) (s % 2 ^ 17)) 7

/-- The near-cancellation zone (R212). -/
def nearCancel (d : Int) : Bool := decide (-(2 ^ 19) < d) && decide (d < 0)

/-- DB23(d) for d below 0 (R207, R209, R212). -/
def db23 (d : Int) : Int :=
  if d < -24 * 2 ^ 23 then 0
  else if nearCancel d then
    let D := (-d).toNat
    let h := Nat.log2 D
    let x := (D - 2 ^ h) * 2 ^ (23 - h)
    let l := ((h : Int) - 23) * 2 ^ 30 + poly23 .lg (x / 2 ^ 17) (x % 2 ^ 17)
    rneShift (l - 567758570 - 64 * D + (31010880 * (D * D) / 2 ^ 46 : Nat)) 7
  else
    let s := (d + 24 * 2 ^ 23).toNat
    rneShift (poly23 .db (s / 2 ^ 17) (s % 2 ^ 17)) 7

end Sys2Proof.Machine
end

