-- ==== Sys2Proof/Machine/Flags.lean ====
section
/-! DEFINITION. How exact results become codes, with the flags they set (R52, R53, R63, R64, R69, R106, R216): integer
saturation, the log formats and finish, the Gaussian-log adders, and rounding out of and into the log formats. -/

namespace Sys2Proof.Machine

open Sys2Proof

/-! ### Integers (R69) -/

/-- x clamped to lo .. hi. -/
def clampInt (lo hi x : Int) : Int := if x < lo then lo else if hi < x then hi else x

/-- x saturated to a signed width. -/
def satS (w : Nat) (x : Int) : Int := clampInt (-(2 ^ (w - 1))) (2 ^ (w - 1) - 1) x

/-- x saturated to an unsigned width. -/
def satU (w : Nat) (x : Int) : Int := clampInt 0 (2 ^ w - 1) x

/-- The finish of an exact integer (R69): wrapped for SUB[1:0] = 0, else saturated, with SAT where that changes it. -/
def intFinish (v : BitVec 4) (w : Nat) (x : Int) : Int × Word :=
  if slice v 0 2 = 0 then (x, 0)
  else
    let y := if slice v 0 2 = 1 then satS w x else satU w x
    (y, if y ≠ x then flagSAT else 0)

/-! ### Log values (R52, R53, R106) -/

/-- A log format: its width, its fraction bits, and whether its top field is Inf (R52). -/
structure LogFmt where
  w : Nat
  f : Nat
  hasInf : Bool
  deriving DecidableEq, Repr

/-- L32. -/
def l32 : LogFmt := ⟨32, 23, true⟩
/-- L16. -/
def l16 : LogFmt := ⟨16, 9, true⟩
/-- L8. -/
def l8 : LogFmt := ⟨8, 3, false⟩
/-- L4, whose code 0xC is the extra value and is handled before this decoding (R55). -/
def l4 : LogFmt := ⟨4, 1, false⟩

/-- bot: the field of the zero code. -/
def LogFmt.bot (m : LogFmt) : Int := -(2 ^ (m.w - 2))
/-- top: the most positive field. -/
def LogFmt.top (m : LogFmt) : Int := 2 ^ (m.w - 2) - 1
/-- The largest finite field (R54). -/
def LogFmt.maxFin (m : LogFmt) : Int := if m.hasInf then m.top - 1 else m.top

/-- The value of a code (R52). -/
def LogFmt.decode (m : LogFmt) (code : Nat) : LogVal :=
  let s := code.testBit (m.w - 1)
  let e := sextNat (m.w - 1) code
  if e = m.bot then (if s then .nan else .zero)
  else if m.hasInf && e == m.top then .inf s
  else .fin s e

/-- The code of a value whose field the format holds (R52, R53). -/
def LogFmt.encode (m : LogFmt) (v : LogVal) : Nat :=
  let put (s : Bool) (e : Int) : Nat := (if s then 2 ^ (m.w - 1) else 0) + (e % (2 ^ (m.w - 1) : Int)).toNat
  match v with
  | .zero => put false m.bot
  | .nan => put true m.bot
  | .inf s => put s m.top
  | .fin s e => put s e

/-- finish (R106): the value of a field that may lie outside the format, with OF or UF; fin is MD = 1. -/
def finishLog (m : LogFmt) (fin : Bool) (s : Bool) (f : Int) : LogVal × Word :=
  if m.top - 1 < f then ((if fin then .fin s (m.top - 1) else .inf s), flagOF)
  else if f < m.bot + 1 then (.zero, flagUF)
  else (.fin s f, 0)

/-- The saturating finish of copies and drains (R167, R183): never an Inf from a finite value. -/
def finishSat (m : LogFmt) (s : Bool) (f : Int) : LogVal × Word :=
  if m.maxFin < f then (.fin s m.maxFin, flagOF)
  else if f < m.bot + 1 then (.zero, flagUF)
  else (.fin s f, 0)

end Sys2Proof.Machine

namespace Sys2Proof

open Machine

/-- The negation of a log value (R114). -/
def LogVal.neg : LogVal → LogVal
  | .zero => .zero
  | .nan => .nan
  | .inf s => .inf (!s)
  | .fin s e => .fin (!s) e

/-- The magnitude of a log value (R114). -/
def LogVal.abs : LogVal → LogVal
  | .zero => .zero
  | .nan => .nan
  | .inf _ => .inf false
  | .fin _ e => .fin false e

end Sys2Proof

namespace Sys2Proof.Machine

open Sys2Proof

/-! ### The Gaussian-log adders (R202, R112) -/

/-- SBP. -/
def sbOf (F : Nat) (d : Int) : Int := if F = 23 then sb23 d else sbP F d

/-- DBP. -/
def dbOf (F : Nat) (d : Int) : Int := if F = 23 then db23 d else dbP F d

/-- Gadd on two finite non-zero operands, before the format's finish: none for exactly cancelling operands; CX where
the near-cancellation path runs (R202, R212). -/
def gadd (F : Nat) (sa : Bool) (ea : Int) (sb : Bool) (eb : Int) : Option (Bool × Int) × Word :=
  let (s1, e1, s2, e2) := if ea < eb then (sb, eb, sa, ea) else (sa, ea, sb, eb)
  let d := e2 - e1
  if s1 = s2 then (some (s1, e1 + sbOf F d), 0)
  else if d = 0 then (none, 0)
  else (some (s1, e1 + dbOf F d), if F = 23 && nearCancel d then flagCX else 0)

/-- The sum of two log values whose fields may lie outside the format, rounded once (R112, R113). -/
def logAdd (m : LogFmt) (fin : Bool) (a b : LogVal) : LogVal × Word :=
  match a, b with
  | .nan, _ => (.nan, 0)
  | _, .nan => (.nan, 0)
  | .inf s, .inf t => if s = t then (.inf s, 0) else (.nan, flagNV)
  | .inf s, _ => (.inf s, 0)
  | _, .inf t => (.inf t, 0)
  | .zero, .zero => (.zero, 0)
  | .zero, .fin s e => finishLog m fin s e
  | .fin s e, .zero => finishLog m fin s e
  | .fin sa ea, .fin sb eb =>
    match gadd m.f sa ea sb eb with
    | (none, fl) => (.zero, fl)
    | (some (s, f), fl) => let (r, g) := finishLog m fin s f; (r, g ||| fl)

/-- The exact product of two log values, its field unbounded (R113, R330): zero times Inf is NaN with NV. -/
def logMul (a b : LogVal) : LogVal × Word :=
  match a, b with
  | .nan, _ => (.nan, 0)
  | _, .nan => (.nan, 0)
  | .zero, .inf _ => (.nan, flagNV)
  | .inf _, .zero => (.nan, flagNV)
  | .zero, _ => (.zero, 0)
  | _, .zero => (.zero, 0)
  | .inf s, .inf t => (.inf (s != t), 0)
  | .inf s, .fin t _ => (.inf (s != t), 0)
  | .fin s _, .inf t => (.inf (s != t), 0)
  | .fin s e, .fin t f => (.fin (s != t) (e + f), 0)

end Sys2Proof.Machine

namespace Sys2Proof

open Machine

/-- finish of a value whose field may lie outside the format; the other classes pass (R106). -/
def LogVal.finish (v : LogVal) (m : LogFmt) (fin : Bool) : LogVal × Word :=
  match v with
  | .fin s e => finishLog m fin s e
  | v => (v, 0)

end Sys2Proof

namespace Sys2Proof.Machine

open Sys2Proof

/-! ### Into a log format (R119, R213, R214) -/

/-- floor(1,024 · log2 m) for a whole number m > 0, exactly. -/
def log2x1024 (m : Nat) : Int := Nat.log2 (m ^ 1024)

/-- Whether a whole number is a power of two, so that its logarithm is exact. -/
def isPow2 (m : Nat) : Bool := m == 2 ^ Nat.log2 m

/-- x + an excess below 1 (there iff sticky holds), divided by 2^k and rounded to nearest, ties to even. -/
def rneSticky (x : Int) (sticky : Bool) (k : Nat) : Int :=
  let q := x / 2 ^ k
  let r := 2 * (x % 2 ^ k)
  if r < 2 ^ k then q
  else if r = 2 ^ k then (if sticky || q % 2 = 1 then q + 1 else q)
  else q + 1

/-- The correctly rounded field, of F ≤ 9 fraction bits, of log2(m · 2^E) + S / 512 (R213). -/
def fieldExact (F m : Nat) (E S : Int) : Int :=
  rneSticky (log2x1024 m + 1024 * E + 2 * S) (!isPow2 m) (10 - F)

/-- The L32 field of 2^E · (1 + x / 2^23) with offset S / 512 (R214). -/
def fieldP23 (E : Int) (x : Nat) (S : Int) : Int :=
  rneShift (E * 2 ^ 30 + poly23 .lg (x / 2 ^ 17) (x % 2 ^ 17) + S * 2 ^ 21) 7

/-- The field of the positive number m · 2^E with offset S / 512 in a log format: the P23 procedure reads the 23 bits
below the leading one (R213, R214). -/
def fieldOf (m : LogFmt) (x : Nat) (E S : Int) : Int :=
  if m.f = 23 then
    let h := Nat.log2 x
    let r := x - 2 ^ h
    fieldP23 (h + E) (if h ≤ 23 then r * 2 ^ (23 - h) else r / 2 ^ (h - 23)) S
  else fieldExact m.f x E S

/-- An IEEE format: exponent bits, fraction bits, bias, and the canonical NaN (R63). -/
structure Ieee where
  ebits : Nat
  fbits : Nat
  deriving DecidableEq, Repr

/-- FP32. -/
def fp32 : Ieee := ⟨8, 23⟩
/-- FP16. -/
def fp16 : Ieee := ⟨5, 10⟩
/-- BF16. -/
def bf16 : Ieee := ⟨8, 7⟩

/-- The bias. -/
def Ieee.bias (t : Ieee) : Nat := 2 ^ (t.ebits - 1) - 1
/-- The width. -/
def Ieee.width (t : Ieee) : Nat := 1 + t.ebits + t.fbits
/-- The canonical NaN (R63). -/
def Ieee.nan (t : Ieee) : Nat := (2 ^ (t.ebits + 1) - 1) * 2 ^ (t.fbits - 1)
/-- The code of an infinity. -/
def Ieee.inf (t : Ieee) (s : Bool) : Nat := (if s then 2 ^ (t.width - 1) else 0) + (2 ^ t.ebits - 1) * 2 ^ t.fbits

/-- An IEEE value. -/
inductive IeeeVal where
  | zero
  | nan
  | inf (s : Bool)
  /-- (−1)^s · m · 2^e with m > 0 -/
  | fin (s : Bool) (m : Nat) (e : Int)
  deriving DecidableEq, Repr

/-- The value of an IEEE code; a subnormal is its exact value (R63). -/
def Ieee.decode (t : Ieee) (code : Nat) : IeeeVal :=
  let s := code.testBit (t.width - 1)
  let e := bitsAt code t.fbits t.ebits
  let f := bitsAt code 0 t.fbits
  if e = 2 ^ t.ebits - 1 then (if f = 0 then .inf s else .nan)
  else if e = 0 then (if f = 0 then .zero else .fin s f (1 - t.bias - t.fbits))
  else .fin s (2 ^ t.fbits + f) ((e : Int) - t.bias - t.fbits)

/-! ### Out of a log format (R119, R121, R215) -/

/-- A positive number m · 2^e, or one strictly between it and (m + 1) · 2^e where sticky holds. -/
structure Mag where
  m : Nat
  e : Int
  sticky : Bool
  deriving DecidableEq, Repr

/-- 2^(q / 512), to 128 fraction bits (R52). -/
def magOf512 (q : Int) : Mag :=
  let i := q / 512
  let y := (q % 512).toNat
  ⟨exp2Frac 9 y / 2 ^ 32, i - 128, y != 0⟩

/-- The exact dyadic value that the P23 power procedure gives a field (R215). -/
def magOfL32 (e : Int) : Mag :=
  let i := e / 2 ^ 23
  let y := (e % 2 ^ 23).toNat
  ⟨(2 ^ 30 + poly23 .ex (y / 2 ^ 17) (y % 2 ^ 17)).toNat, i - 30, false⟩

/-- The magnitude of a finite value of a log format with an offset S / 512 (R167, R215). -/
def magOf (m : LogFmt) (e S : Int) : Mag :=
  if m.f = 23 then magOfL32 (e + S * 2 ^ 14) else magOf512 (e * 2 ^ (9 - m.f) + S)

/-- A magnitude rounded to a whole number: mode 0 to nearest even, 1 toward zero, 2 floor, 3 ceiling, of the number with
sign s (R123). -/
def Mag.round (x : Mag) (mode : Nat) (s : Bool) : Nat :=
  if 0 ≤ x.e then x.m * 2 ^ x.e.toNat
  else
    let k := (-x.e).toNat
    let q := x.m / 2 ^ k
    let r := x.m % 2 ^ k
    let inexact := r != 0 || x.sticky
    match mode with
    | 0 => (rneSticky x.m x.sticky k).toNat
    | 1 => q
    | 2 => if s && inexact then q + 1 else q
    | _ => if !s && inexact then q + 1 else q

/-- A magnitude with a sign rounded to nearest even into an IEEE format, subnormals included: OF where it exceeds the
largest finite value, UF and +0 where it rounds to zero (R121). -/
def Ieee.round (t : Ieee) (s : Bool) (x : Mag) : Nat × Word :=
  let top := (Nat.log2 x.m : Int) + x.e
  let emin : Int := 1 - t.bias
  let e := (if top < emin then emin else top) - t.fbits
  let n := Mag.round { x with e := x.e - e } 0 s
  let (n, e) := if n = 2 ^ (t.fbits + 1) then (2 ^ t.fbits, e + 1) else (n, e)
  let sign := if s then 2 ^ (t.width - 1) else 0
  if n = 0 then (0, flagUF)
  else if n < 2 ^ t.fbits then (sign + n, 0)
  else
    let be := e + t.fbits + t.bias
    if (2 ^ t.ebits - 1 : Int) ≤ be then (t.inf s, flagOF)
    else (sign + be.toNat * 2 ^ t.fbits + (n - 2 ^ t.fbits), 0)

end Sys2Proof.Machine
end

