-- ==== Sys2Proof/Machine/Integer.lean ====
section
/-! DEFINITION. NOP, the integer, logic and move instructions (R51, R68 to R78). -/

namespace Sys2Proof.Machine

open Sys2Proof

/-- The result of a step. -/
abbrev Result := Host.Outcome State Fault Refusal

/-- The operation width (R68): 64 on the control core, else 64 where the form is a 64-bit one. -/
def opWidth (t : Thread) (wide : Bool) : Nat := if t.isControl || wide then 64 else 32

/-- A bit vector read as an integer. -/
def asInt {w : Nat} (signed : Bool) (x : BitVec w) : Int := if signed then x.toInt else x.toNat

/-- A register operand of the width, as an integer. -/
def State.intReg (s : State) (t : Thread) (wide signed : Bool) (c : Code) : Int :=
  if opWidth t wide = 64 then asInt signed (s.reg64 t c) else asInt signed (s.reg32 t c)

/-- Operand B of the width, as an integer. -/
def State.intB (s : State) (t : Thread) (wide signed : Bool) (b : SrcB) : Int :=
  if opWidth t wide = 64 then asInt signed (s.b64 t b) else asInt signed (s.b32 t b)

/-- A result of the width, wrapped. -/
def putInt (t : Thread) (wide : Bool) (d : Code) (x : Int) : List RegWrite :=
  if opWidth t wide = 64 then [.r64 d (BitVec.ofInt 64 x)] else [.r32 d (BitVec.ofInt 32 x)]

/-- The 64-bit forms of R69 and R74 are those with SUB[2] set. -/
def isWide (v : BitVec 4) : Bool := v.getLsbD 2

/-- Sources are read as signed unless SUB[1:0] is 2 (R69, R70). -/
def isSigned (v : BitVec 4) : Bool := slice v 0 2 != 2

/-- An exact integer finished as R69 says. -/
def intResult (t : Thread) (v : BitVec 4) (d : Code) (x : Int) : Eff :=
  let r := intFinish v (opWidth t (isWide v)) x
  { regs := putInt t (isWide v) d r.1, flags := r.2 }

/-- The arithmetic of two operands finished as R69 says. -/
def arith2 (op : Int → Int → Int) (v : BitVec 4) (d a : Code) (b : SrcB) (s : State) (t : Thread) : Eff :=
  intResult t v d (op (s.intReg t (isWide v) (isSigned v) a) (s.intB t (isWide v) (isSigned v) b))

/-- The arithmetic of one operand finished as R69 says. -/
def arith1 (op : Int → Int) (v : BitVec 4) (d a : Code) (s : State) (t : Thread) : Eff :=
  intResult t v d (op (s.intReg t (isWide v) (isSigned v) a))

/-- A result that is neither saturated nor flagged. -/
def plain2 (op : Nat → Int → Int → Int) (v : BitVec 4) (d a : Code) (b : SrcB) (s : State) (t : Thread) : Eff :=
  { regs := putInt t (isWide v) d (op (opWidth t (isWide v))
      (s.intReg t (isWide v) (isSigned v) a) (s.intB t (isWide v) (isSigned v) b)) }

/-- NOP performs nothing (R51). -/
def execNop (h : Hd) (s : State) : Result := alu (.nop h) (fun _ _ => {}) s

/-- IADD: x := a + b (R70). -/
def execIadd (h : Hd) (v : BitVec 4) (d a : Code) (b : SrcB) (s : State) : Result :=
  alu (.iadd h v d a b) (arith2 (· + ·) v d a b) s

/-- ISUB: x := a − b (R70). -/
def execIsub (h : Hd) (v : BitVec 4) (d a : Code) (b : SrcB) (s : State) : Result :=
  alu (.isub h v d a b) (arith2 (· - ·) v d a b) s

/-- IMUL: x := a · b (R70). -/
def execImul (h : Hd) (v : BitVec 4) (d a : Code) (b : SrcB) (s : State) : Result :=
  alu (.imul h v d a b) (arith2 (· * ·) v d a b) s

/-- IMULH: the high half of the product (R70). -/
def execImulh (h : Hd) (v : BitVec 4) (d a : Code) (b : SrcB) (s : State) : Result :=
  alu (.imulh h v d a b) (plain2 (fun w x y => x * y / 2 ^ w) v d a b) s

/-- IMAD: x := a · b + c, finished once (R70). -/
def execImad (h : Hd) (v : BitVec 4) (d a : Code) (b : SrcB) (c : Code) (s : State) : Result :=
  alu (.imad h v d a b c)
    (fun s t => arith2 (fun x y => x * y + s.intReg t (isWide v) (isSigned v) c) v d a b s t) s

/-- IMIN: the smaller (R70). -/
def execImin (h : Hd) (v : BitVec 4) (d a : Code) (b : SrcB) (s : State) : Result :=
  alu (.imin h v d a b) (plain2 (fun _ x y => if y < x then y else x) v d a b) s

/-- IMAX: the larger (R70). -/
def execImax (h : Hd) (v : BitVec 4) (d a : Code) (b : SrcB) (s : State) : Result :=
  alu (.imax h v d a b) (plain2 (fun _ x y => if x < y then y else x) v d a b) s

/-- IABS: x := |a| (R70). -/
def execIabs (h : Hd) (v : BitVec 4) (d a : Code) (s : State) : Result :=
  alu (.iabs h v d a) (arith1 (fun x => (x.natAbs : Int)) v d a) s

/-- INEG: x := −a (R70). -/
def execIneg (h : Hd) (v : BitVec 4) (d a : Code) (s : State) : Result :=
  alu (.ineg h v d a) (arith1 (fun x => -x) v d a) s

/-- The comparisons of ICMP on the exact readings (R73). -/
def icmpHolds (v : BitVec 4) (sa sb ua ub : Int) : Bool :=
  match v.toNat with
  | 0 => sa == sb
  | 1 => sa != sb
  | 2 => decide (sa < sb)
  | 3 => decide (sa ≤ sb)
  | 4 => decide (sb < sa)
  | 5 => decide (sb ≤ sa)
  | 6 => decide (ua < ub)
  | 7 => decide (ua ≤ ub)
  | 8 => decide (ub < ua)
  | _ => decide (ub ≤ ua)

/-- ICMP writes the comparison into c[cd] (R73). -/
def execIcmp (h : Hd) (v md : BitVec 4) (cd : CBit) (a : Code) (b : SrcB) (s : State) : Result :=
  alu (.icmp h v md cd a b)
    (fun s t =>
      let w := md == 1
      { conds := [(cd, icmpHolds v (s.intReg t w true a) (s.intB t w true b)
          (s.intReg t w false a) (s.intB t w false b))] }) s

/-- IADDC adds with carry, or subtracts with borrow (R71). -/
def execIaddc (h : Hd) (v : BitVec 4) (d a : Code) (b : SrcB) (cc : CBit) (s : State) : Result :=
  alu (.iaddc h v d a b cc)
    (fun s t =>
      let w := isWide v
      let x := s.intReg t w false a
      let y := s.intB t w false b
      let ci : Int := if s.condBit t cc then 1 else 0
      if v.getLsbD 0 then
        { regs := putInt t w d (x - y - ci), conds := [(cc, decide (x - y - ci < 0))] }
      else { regs := putInt t w d (x + y + ci), conds := [(cc, decide (2 ^ opWidth t w ≤ x + y + ci))] }) s

/-- LEA: a + (extended b << shift), 64 bits (R72). -/
def execLea (h : Hd) (v : BitVec 4) (d a : Code) (b : SrcB) (s : State) : Result :=
  alu (.lea h v d a b)
    (fun s t =>
      let x : DWord := if v.getLsbD 3 then (s.b32 t b).zeroExtend 64 else (s.b32 t b).signExtend 64
      { regs := [.r64 d (s.reg64 t a + (x <<< (slice v 0 3).toNat))] }) s

/-- A bitwise operation at the operation width (R74). -/
def logic2 (op : DWord → DWord → DWord) (v : BitVec 4) (d a : Code) (b : SrcB) (s : State) (t : Thread) : Eff :=
  if opWidth t (isWide v) = 64 then { regs := [.r64 d (op (s.reg64 t a) (s.b64 t b))] }
  else { regs := [.r32 d ((op ((s.reg32 t a).zeroExtend 64) ((s.b32 t b).zeroExtend 64)).truncate 32)] }

/-- AND (R74). -/
def execAnd (h : Hd) (v : BitVec 4) (d a : Code) (b : SrcB) (s : State) : Result :=
  alu (.and h v d a b) (logic2 (· &&& ·) v d a b) s

/-- OR (R74). -/
def execOr (h : Hd) (v : BitVec 4) (d a : Code) (b : SrcB) (s : State) : Result :=
  alu (.or h v d a b) (logic2 (· ||| ·) v d a b) s

/-- XOR (R74). -/
def execXor (h : Hd) (v : BitVec 4) (d a : Code) (b : SrcB) (s : State) : Result :=
  alu (.xor h v d a b) (logic2 (· ^^^ ·) v d a b) s

/-- ANDN: a AND NOT b (R74). -/
def execAndn (h : Hd) (v : BitVec 4) (d a : Code) (b : SrcB) (s : State) : Result :=
  alu (.andn h v d a b) (logic2 (fun x y => x &&& ~~~y) v d a b) s

/-- An operation on one operand at the operation width; f is given the width. -/
def unary (f32 : Word → Word) (f64 : DWord → DWord) (v : BitVec 4) (d a : Code) (s : State) (t : Thread) : Eff :=
  if opWidth t (isWide v) = 64 then { regs := [.r64 d (f64 (s.reg64 t a))] }
  else { regs := [.r32 d (f32 (s.reg32 t a))] }

/-- NOT (R74). -/
def execNot (h : Hd) (v : BitVec 4) (d a : Code) (s : State) : Result :=
  alu (.not h v d a) (unary (~~~ ·) (~~~ ·) v d a) s

/-- A shift by b mod W, b being 32 bits (R74). -/
def shift (f32 : Word → Nat → Word) (f64 : DWord → Nat → DWord) (v : BitVec 4) (d a : Code) (b : SrcB)
    (s : State) (t : Thread) : Eff :=
  let n := (s.b32 t b).toNat
  unary (fun x => f32 x (n % 32)) (fun x => f64 x (n % 64)) v d a s t

/-- SHL (R74). -/
def execShl (h : Hd) (v : BitVec 4) (d a : Code) (b : SrcB) (s : State) : Result :=
  alu (.shl h v d a b) (shift (fun x n => x <<< n) (fun x n => x <<< n) v d a b) s

/-- SHR: zero fill (R74). -/
def execShr (h : Hd) (v : BitVec 4) (d a : Code) (b : SrcB) (s : State) : Result :=
  alu (.shr h v d a b) (shift (fun x n => x >>> n) (fun x n => x >>> n) v d a b) s

/-- SAR: sign fill (R74). -/
def execSar (h : Hd) (v : BitVec 4) (d a : Code) (b : SrcB) (s : State) : Result :=
  alu (.sar h v d a b) (shift (fun x n => x.sshiftRight n) (fun x n => x.sshiftRight n) v d a b) s

/-- ROTL (R74). -/
def execRotl (h : Hd) (v : BitVec 4) (d a : Code) (b : SrcB) (s : State) : Result :=
  alu (.rotl h v d a b) (shift (fun x n => x.rotateLeft n) (fun x n => x.rotateLeft n) v d a b) s

/-- The field that b names, clipped to the width: position and length (R75). -/
def bitField (w : Nat) (b : Word) : Nat × Nat :=
  let pos := (slice b 0 6).toNat
  let len := (slice b 8 6).toNat
  (pos, if w ≤ pos then 0 else if w - pos < len then w - pos else len)

/-- The extracted field (R75). -/
def extractField (w : Nat) (signed : Bool) (x : Nat) (b : Word) : Int :=
  let (pos, len) := bitField w b
  if len = 0 then 0 else if signed then sextNat len (bitsAt x pos len) else bitsAt x pos len

/-- BFX (R75). -/
def execBfx (h : Hd) (v : BitVec 4) (d a : Code) (b : SrcB) (s : State) : Result :=
  alu (.bfx h v d a b)
    (fun s t =>
      let w := opWidth t (isWide v)
      { regs := putInt t (isWide v) d
          (extractField w (v.getLsbD 0) (s.intReg t (isWide v) false a).toNat (s.b32 t b)) }) s

/-- The value with a field inserted (R75). -/
def insertField (w : Nat) (x y : Nat) (b : Word) : Nat :=
  let (pos, len) := bitField w b
  x - bitsAt x pos len * 2 ^ pos + bitsAt y 0 len * 2 ^ pos

/-- BFI (R75). -/
def execBfi (h : Hd) (v : BitVec 4) (d a : Code) (b : SrcB) (c : Code) (s : State) : Result :=
  alu (.bfi h v d a b c)
    (fun s t =>
      let w := isWide v
      { regs := putInt t w d (insertField (opWidth t w) (s.intReg t w false a).toNat
          (s.intReg t w false c).toNat (s.b32 t b)) }) s

/-- The number of 1 bits among the n low bits. -/
def popCount (x : Nat) (n : Nat) : Nat := (List.range n).foldl (fun k i => if x.testBit i then k + 1 else k) 0

/-- The number of 0 bits above the highest 1 of a value of w bits; w for 0. -/
def leadingZeros (w x : Nat) : Nat := if x = 0 then w else w - 1 - Nat.log2 x

/-- The number of 0 bits below the lowest 1 of a value of w bits; w for 0. -/
def trailingZeros (w x : Nat) : Nat := ((List.range w).find? fun i => x.testBit i).getD w

/-- A count of bits, written to one 32-bit register (R74). -/
def bitCount (f : Nat → Nat → Nat) (v : BitVec 4) (d a : Code) (s : State) (t : Thread) : Eff :=
  { regs := [.r32 d (BitVec.ofNat 32 (f (opWidth t (isWide v)) (s.intReg t (isWide v) false a).toNat))] }

/-- POPC (R74). -/
def execPopc (h : Hd) (v : BitVec 4) (d a : Code) (s : State) : Result :=
  alu (.popc h v d a) (bitCount (fun w x => popCount x w) v d a) s

/-- CLZ (R74). -/
def execClz (h : Hd) (v : BitVec 4) (d a : Code) (s : State) : Result :=
  alu (.clz h v d a) (bitCount leadingZeros v d a) s

/-- CTZ (R74). -/
def execCtz (h : Hd) (v : BitVec 4) (d a : Code) (s : State) : Result :=
  alu (.ctz h v d a) (bitCount trailingZeros v d a) s

/-- BREV (R74). -/
def execBrev (h : Hd) (v : BitVec 4) (d a : Code) (s : State) : Result :=
  alu (.brev h v d a) (unary (·.reverse) (·.reverse) v d a) s

/-- SEL: a where c[SUB[2:0]] is 1, else b (R76). -/
def execSel (h : Hd) (v : BitVec 4) (d a : Code) (b : SrcB) (s : State) : Result :=
  alu (.sel h v d a b)
    (fun s t =>
      let w := v.getLsbD 3
      { regs := putInt t w d (if s.condBit t (slice v 0 3) then s.intReg t w false a else s.intB t w false b) }) s

/-- MOV (R76). -/
def execMov (h : Hd) (v : BitVec 4) (d a : Code) (s : State) : Result :=
  alu (.mov h v d a) (unary (fun x => x) (fun x => x) v d a) s

/-- The constant of MOVI as 64 bits: IMM extended as SUB says, or the literal (R77). -/
def moviValue (h : Hd) (v : BitVec 4) (k : DWord) : DWord :=
  if h.len.hasLit then k else if v = 1 then (k.truncate 32 : Word).signExtend 64 else k

/-- MOVI; SUB 0 on the control core zero-extends (R77). -/
def execMovi (h : Hd) (v : BitVec 4) (d : Code) (k : DWord) (s : State) : Result :=
  alu (.movi h v d k)
    (fun _ _ =>
      if v = 0 then { regs := [.r32 d (k.truncate 32)] } else { regs := [.r64 d (moviValue h v k)] }) s

/-- CBIT (R78). -/
def execCbit (h : Hd) (v : BitVec 4) (cd ca cb : CBit) (s : State) : Result :=
  alu (.cbit h v cd ca cb)
    (fun s t =>
      let x := s.condBit t ca
      let y := s.condBit t cb
      { conds := [(cd, match v.toNat with
          | 0 => x && y
          | 1 => x || y
          | 2 => x != y
          | 3 => !x
          | 4 => true
          | 5 => false
          | 6 => x && !y
          | _ => x)] }) s

end Sys2Proof.Machine
end

