-- ==== Sys2Proof/Machine/CrossLane.lean ====
section
/-! DEFINITION. The cross-lane instructions (R86 to R92). The members are the lanes of the issuing run whose guard is
true; nothing of another lane is read or written. -/

namespace Sys2Proof.Machine

open Sys2Proof

/-- An instruction whose effect on one member depends on all members (R86). -/
def crossLane (i : Instr) (f : State → (Nat → Thread) → List Nat → Nat → Eff) (s : State) : Result :=
  issued i s fun u ms s =>
    (s.applyAll (ms.map fun n => (u.engine.thread n, f s u.engine.thread ms n))).setPcs u.threads (u.next i)

/-- The source lane of lane i at distance n (R87). -/
def shflSource (mode i n : Nat) : Option Nat :=
  match mode with
  | 0 => some n
  | 1 => if n ≤ i then some (i - n) else none
  | 2 => some (i + n)
  | _ => some (i ^^^ n)

/-- SHFL: a of the source lane where that lane is a member, else of the lane itself (R87). -/
def execShfl (h : Hd) (v : BitVec 4) (d a b : Code) (dist : BitVec 5) (s : State) : Result :=
  crossLane (.shfl h v d a b dist)
    (fun s th ms i =>
      let n := if v.getLsbD 3 then dist.toNat else (s.reg32 (th i) b).toNat % 32
      let src := match shflSource (slice v 0 2).toNat i n with
        | none => i
        | some j => if ms.contains j then j else i
      { regs := if v.getLsbD 2 then [.r64 d (s.reg64 (th src) a)] else [.r32 d (s.reg32 (th src) a)] }) s

/-- SLIDE: every element moves one place across lane boundaries; a neighbour that is no member supplies the fill
(R88). -/
def execSlide (h : Hd) (v : BitVec 4) (d a b : Code) (s : State) : Result :=
  crossLane (.slide h v d a b)
    (fun s th ms i =>
      let own := s.reg32 (th i) a
      let fill := s.reg32 (th i) b
      let below := if i ≠ 0 && ms.contains (i - 1) then some (s.reg32 (th (i - 1)) a) else none
      let above := if ms.contains (i + 1) then some (s.reg32 (th (i + 1)) a) else none
      let x : Word := match v.toNat with
        | 0 => slice own 0 16 ++ (match below with | some y => slice y 16 16 | none => slice fill 0 16)
        | 1 => (match above with | some y => slice y 0 16 | none => slice fill 0 16) ++ slice own 16 16
        | 2 => below.getD fill
        | _ => above.getD fill
      { regs := [.r32 d x] }) s

/-- VOTE: any, all, ballot, or the members themselves (R89). -/
def execVote (h : Hd) (v : BitVec 4) (d : Code) (ca : CBit) (s : State) : Result :=
  crossLane (.vote h v d ca)
    (fun s th ms _ =>
      let yes := ms.filter fun j => s.condBit (th j) ca
      match v.toNat with
      | 0 => { conds := [(d.truncate 3, !yes.isEmpty)] }
      | 1 => { conds := [(d.truncate 3, yes.length == ms.length)] }
      | 2 => { regs := [.r32 d (maskOf yes)] }
      | _ => { regs := [.r32 d (maskOf ms)] }) s

/-- MATCH: the members whose a equals this lane's (R89). -/
def execMatchLanes (h : Hd) (v : BitVec 4) (d a : Code) (s : State) : Result :=
  crossLane (.matchLanes h v d a)
    (fun s th ms i =>
      let val (j : Nat) : DWord := if isWide v then s.reg64 (th j) a else (s.reg32 (th j) a).zeroExtend 64
      { regs := [.r32 d (maskOf (ms.filter fun j => val j == val i))] }) s

/-! ### Prefixes (R90, R91) -/

/-- The identity of an operation of SCAN and REDUX (R90). -/
def scanIdentity (op : Nat) : Word :=
  match op with
  | 0 => 0
  | 1 => 0x7FFFFFFF
  | 2 => 0x80000000
  | 3 => 0xFFFFFFFF
  | 4 => 0
  | _ => 0x40000000

/-- G23add on L32 codes, with its flags (R91, R112). -/
def g23add (x y : Word) : Word × Word :=
  let r := logAdd l32 false (l32.decode x.toNat) (l32.decode y.toNat)
  (BitVec.ofNat 32 (l32.encode r.1), r.2)

/-- An operation of SCAN and REDUX on two values, with its flags (R90). -/
def scanOp (op : Nat) (x y : Word) : Word × Word :=
  match op with
  | 0 => (x + y, 0)
  | 1 => (if y.toInt < x.toInt then y else x, 0)
  | 2 => (if x.toInt < y.toInt then y else x, 0)
  | 3 => (if y.toNat < x.toNat then y else x, 0)
  | 4 => (if x.toNat < y.toNat then y else x, 0)
  | _ => g23add x y

/-- Two results combined, with every flag on the way. -/
def scanJoin (op : Nat) (x y : Word × Word) : Word × Word :=
  let r := scanOp op x.1 y.1
  (r.1, r.2 ||| x.2 ||| y.2)

/-- tree(lo, 2^k) of R91. -/
def scanTree (op : Nat) (x : Nat → Word) (lo : Nat) : Nat → Word × Word
  | 0 => (x lo, 0)
  | k + 1 => scanJoin op (scanTree op x lo k) (scanTree op x (lo + 2 ^ k) k)

/-- The sum of the first m values, by the fixed trees of R91; the identity for none. -/
def scanFirst (op : Nat) (x : Nat → Word) (m : Nat) : Word × Word :=
  let step (p : Option (Word × Word) × Nat) (k : Nat) : Option (Word × Word) × Nat :=
    if m.testBit k then
      let t := scanTree op x p.2 k
      (some (match p.1 with | none => t | some r => scanJoin op r t), p.2 + 2 ^ k)
    else p
  ([5, 4, 3, 2, 1, 0].foldl step (none, 0)).1.getD (scanIdentity op, 0)

/-- a of each lane that is a member, the identity elsewhere (R90). -/
def scanInput (s : State) (th : Nat → Thread) (ms : List Nat) (op : Nat) (a : Code) (j : Nat) : Word :=
  if ms.contains j then s.reg32 (th j) a else scanIdentity op

/-- SCAN: the inclusive prefix, or with MD 1 the exclusive one (R90). -/
def execScan (h : Hd) (v md : BitVec 4) (d a : Code) (s : State) : Result :=
  crossLane (.scan h v md d a)
    (fun s th ms i =>
      let r := scanFirst v.toNat (scanInput s th ms v.toNat a) (if md = 1 then i else i + 1)
      { regs := [.r32 d r.1], flags := r.2 }) s

/-- REDUX: the total, into a group register; nothing for no members (R90). -/
def execRedux (h : Hd) (v : BitVec 4) (d a : Code) (s : State) : Result :=
  crossLane (.redux h v d a)
    (fun s th ms _ =>
      let r := scanFirst v.toNat (scanInput s th ms v.toNat a) 32
      { regs := [.r32 d r.1], flags := r.2 }) s

/-- BCAST: a of the lowest or of the highest member, into a group register; nothing for no members (R92). -/
def execBcast (h : Hd) (v : BitVec 4) (d a : Code) (s : State) : Result :=
  crossLane (.bcast h v d a)
    (fun s th ms i =>
      { regs := [.r32 d (s.reg32 (th ((if v = 0 then ms.head? else ms.getLast?).getD i)) a)] }) s

/-- GMOV: the group register that b chooses (R92). -/
def execGmov (h : Hd) (d b : Code) (s : State) : Result :=
  crossLane (.gmov h d b)
    (fun s th _ i =>
      let n := (s.reg32 (th i) b).toNat
      let m := match th i with
        | .wave _ _ => n % 16
        | _ => n % 64
      { regs := [.r32 d (s.reg32 (th i) (BitVec.ofNat 8 (192 + m)))] }) s

end Sys2Proof.Machine
end

