-- ==== Sys2Proof/Machine/Access.lean ====
section
/-! DEFINITION. The shared operations of requests in flight: opening a memory instruction, translating its requests,
what orders them (R131, R267, R269), what they see (R265, R270), and how a request that has performed ends (R162). -/

namespace Sys2Proof.Machine

open Sys2Proof

/-! ### Addresses of a request -/

/-- Whether a physical address lies in device memory. -/
def inDevice (pa : Nat) : Bool := decide (pa < deviceBytes)

/-- Bytes that each address of a request spans. -/
def ReqKind.bytes : ReqKind → Nat
  | .load _ w _ _ _ => w
  | .promote _ w => w
  | .store d => d.length
  | .atomic _ ty _ _ _ => if ty = 1 then 8 else 4
  | .comb .. => 8
  | .hgld _ desc _ => 2 * hgF desc
  | .hgscat .. | .scatterPart .. | .fetch _ => 4
  | .uniform _ w _ _ => w
  | .config _ | .descriptor .. => 64
  | .corner _ _ n => n

/-- Whether two ranges of n and m bytes meet. -/
def rangesMeet (a n b m : Nat) : Bool := decide (a < b + m) && decide (b < a + n)

/-- Whether two requests touch a common byte. -/
def Req.meets (r q : Req) : Bool :=
  r.pas.any fun a => q.pas.any fun b => rangesMeet a r.kind.bytes b q.kind.bytes

/-- The registers of a lane, or of its group, that its requests in flight will write (R260). -/
def ReqKind.dests : ReqKind → List (Code × Nat)
  | .load d w _ _ _ => [(d, (w + 3) / 4)]
  | .promote d w => [(d, w / 4)]
  | .atomic _ ty (some d) _ _ => [(d, if ty = 1 then 2 else 1)]
  | .comb _ (some d) _ _ => [(d, 2)]
  | .hgld d desc _ => [(d, hgLevels desc * hgF desc / 2)]
  | .uniform d w _ _ => [(d, (w + 3) / 4)]
  | _ => []

/-- Whether a request writes registers that a lane reads: its own, or its group's (R137, R260). -/
def Req.feeds (r : Req) (l : LaneRef) : Bool :=
  match r.owner with
  | .lane k => k == l || (r.kind.shared.isSome && k.gr == l.gr)
  | _ => false

/-- Whether a register code of a lane is pending (R260). -/
def State.isPending (s : State) (l : LaneRef) (c : Code) : Bool :=
  s.reqs.any fun r => r.feeds l && r.kind.dests.any fun d =>
    decide (d.1.toNat ≤ c.toNat) && decide (c.toNat < d.1.toNat + d.2)

/-! ### Classes and causes (R129, R151, R293) -/

/-- Whether a request writes, for translation. -/
def Req.writes (r : Req) : Bool := r.kind.writes

/-- The method table entry of a user method (R305). -/
def Launch.method (l : Launch) (m : Nat) : Option (Nat × Nat) := if m < 16 then none else l.methods[m - 16]?

/-- The cause with which a translated address fails its class check, if it does (R129, R151, R307). -/
def State.classFault (s : State) (l : LaneRef) (k : ReqKind) (p : Page) (va : Nat) : Option Nat :=
  match k with
  | .load .. => none
  | .store _ => if p.cls = .combining then some causePROT else none
  | .promote .. => if p.cls = .normal then none else some causePROT
  | .atomic .. => none
  | .comb m _ _ _ =>
    let entry := (((s.gridOf l.cid).bind fun g => g.launch.method m).map (·.1)).getD 0
    if va % 128 ≠ 0 ∨ p.cls ≠ .combining ∨ (16 ≤ m ∧ (entry = 0 ∨ p.peer.isSome)) then some causeCOMBLANE else none
  | .hgld .. | .hgscat .. => if p.cls = .hashedGrid then none else some causePROT
  | .config _ => if p.cls = .hashedGrid then none else some causeHGDESC
  | .uniform .. | .descriptor .. | .corner .. | .scatterPart .. | .fetch _ => none

/-- The page of one address of a lane: its last-page register, its core's TLB, or, where walk holds, a walk; none
where a walk is needed, which TLBMISS counts as it is sent to the scheduler (R197, R289 to R291). good tells whether a
page's class allows the access. -/
def State.translateLane (s : State) (l : LaneRef) (good : Page → Bool) (va : Nat) (write walk : Bool) :
    State × Option (Except TransFault Page) :=
  let core := s.coreOf l.cid l.team
  let lpr := (((s.lane l).bind fun x : Lane => x.lpr).toList)
  let found (s : State) (p : Page) : State := s.modLane l fun x => { x with lpr := some p }
  match cachedFor (lpr ++ (s.core core).tlb) good va write with
  | some p => (found s p, some (.ok p))
  | none =>
    if walk then
      match s.walkForCore core good va write with
      | (s, .ok p) => (found s p, some (.ok p))
      | (s, .error f) => (s, some (.error f))
    else (s.countCore core 3 1, none)

/-- A lane's translation within one step: as above, with its walk (R137, R157, R165). -/
def State.translateNow (s : State) (l : LaneRef) (good : Page → Bool) (va : Nat) (write : Bool) :
    State × Except TransFault Page :=
  match s.translateLane l good va write false with
  | (s, some r) => (s, r)
  | (s, none) =>
    match s.translateLane l good va write true with
    | (s, some r) => (s, r)
    | (s, none) => (s, .error .unmapped)

/-- How the translation of a request's addresses comes out. -/
inductive Placing where
  | again
  | failed (cause va : Nat) (absent : Bool)
  | pages (ps : List Page)
  deriving DecidableEq, Repr

/-- The addresses of a request translated and checked in order; the first that fails decides, and the first that no cache
serves is walked where walk holds (R128, R159, R160, R302). -/
def State.translateAll (s : State) (l : LaneRef) (k : ReqKind) :
    Bool → List Nat → List Page → State × Placing
  | _, [], ps => (s, .pages ps)
  | walk, va :: vas, ps =>
    let good (p : Page) : Bool := (s.classFault l k p va).isNone
    let lpr := (((s.lane l).bind fun x : Lane => x.lpr).toList)
    let cached := (cachedFor (lpr ++ (s.core (s.coreOf l.cid l.team)).tlb) good va k.writes).isSome
    match s.translateLane l good va k.writes walk with
    | (s, none) => (s, .again)
    | (s, some (.error f)) => (s, .failed (f.cause k.writes) va (f == .absent))
    | (s, some (.ok p)) =>
      match s.classFault l k p va with
      | some c => (s, .failed c va false)
      | none => s.translateAll l k (walk && cached) vas (ps ++ [p])

/-! ### Order between requests (R131, R133, R135, R144, R267) -/

/-- The requests of the same agent that a request follows in program order, with those that serve its lane among others. -/
def State.before (s : State) (r : Req) : List Req :=
  s.reqs.filter fun q => decide (q.id < r.id) && (match r.owner with
    | .lane l => q.ofLane l
    | o => q.owner == o)

/-- Whether a request comes from a lower lane than l. -/
def Req.laneBelow (q : Req) (l : LaneRef) : Bool :=
  match q.owner with
  | .lane k => decide (k.lane < l.lane)
  | _ => false

/-- Whether an earlier request must have performed, or have left its core, before a request of the same lane that meets it:
a load always; a write before a write that would overtake it, and any update before a plain store (R267). The parts of a
request stand for nothing of their own. -/
def Req.bars (q r : Req) : Bool :=
  match q.kind with
  | .load .. | .promote .. | .hgld .. | .uniform .. | .config _ | .descriptor .. => true
  | .corner .. | .scatterPart .. | .fetch _ => false
  | .store _ => r.kind.writes && q.stage == .ready
  | .atomic .. | .comb .. | .hgscat .. =>
    match r.kind with
    | .store _ => true
    | _ => r.kind.writes && q.stage == .ready

/-- Whether the requests of an instruction reach their places in lane order by leaving in it: stores, and updates at a peer.
Those at a home of this device leave in one batch (R131, R312). -/
def Req.inLaneOrder (r : Req) : Bool :=
  match r.kind with
  | .store _ => true
  | k => k.writes && r.peer.isSome

/-- Whether what a lane's request must follow has performed: every earlier acquire of its lane, every earlier request of a
common byte that bars it, for a release every earlier access at its scope; and for a store, or an update at a peer, the lower
lanes of its instruction: they have translated, and those that it meets have left (R131, R267, R269). -/
def State.lanePerform (s : State) (r : Req) (l : LaneRef) : Bool :=
  ((s.before r).all fun q =>
    !q.acq && !(r.meets q && q.bars r) && (!r.rel || q.performedAt r.scope (s.fused l.cid)))
  && (!r.inLaneOrder || s.reqs.all fun q =>
        !(q.issue == r.issue && q.laneBelow l && !q.hasLeft && (q.stage != .ready || r.meets q)))

/-- Whether a request has not translated. -/
def Stage.walks : Stage → Bool
  | .walk | .walking _ => true
  | _ => false

/-- Whether an issue's requests still wait for translation. -/
def State.issueWalks (s : State) (issue : Nat) : Bool := s.reqs.any fun q => q.issue == issue && q.stage.walks

/-- Whether a kind is a scatter, whose requests leave one batch after the other. -/
def ReqKind.isScatter : ReqKind → Bool
  | .hgscat .. => true
  | _ => false

/-- Whether the add idx of a scatter is still in its core: in no batch yet, or the request that asks a peer for it has not
left. -/
def State.scatterKeeps (s : State) (r : Req) (idx : Nat) : Bool :=
  if (peerOf (r.pas.getD idx 0)).isNone then !r.acks.contains idx
  else s.reqs.any fun q => !q.hasLeft && (match q.kind with
    | .scatterPart p i _ => p == r.id && i == idx
    | _ => false)

/-- The add that an issue's scatters send next: they leave in lane order, and within a lane in the order of its corners
(R131, R160). -/
def State.scatterHead (s : State) (issue : Nat) : Option (Nat × Nat) :=
  ((s.reqs.filter fun r => r.issue == issue && r.kind.isScatter).flatMap fun r =>
    ((List.range r.pas.length).filter (s.scatterKeeps r)).map fun i => (r.id, i)).head?

/-- Whether a request may perform. A part of another may when that one may; the adds of an issue's scatters go one after the
other (R131, R160, R354). -/
def State.mayPerform (s : State) (r : Req) : Bool :=
  match r.owner, r.kind with
  | .lane l, .corner p _ _ => ((s.req p).map fun q => s.lanePerform q l).getD false
  | .lane l, .scatterPart p i _ =>
    ((s.req p).map fun q => s.lanePerform q l).getD false
      && !s.issueWalks r.issue && s.scatterHead r.issue == some (p, i)
      && (s.before r).all fun q => match q.kind with
        | .scatterPart p' _ _ => p' != p
        | _ => true
  | .lane l, _ => s.lanePerform r l
  | _, _ => true

/-- A release that leaves its L1 waits for every store that the L1 still holds (R269, R275). -/
def State.relDrained (s : State) (r : Req) : Bool :=
  match r.owner with
  | .lane l => !r.rel || s.drained l 4
  | _ => true

/-! ### What a read sees (R265, R267, R270) -/

/-- A byte under the masked bytes that stand at physical address pa. -/
def overByte (pa : Nat) (data : List MByte) (a : Nat) (b : Byte) : Byte :=
  if pa ≤ a then
    match data[a - pa]? with
    | some m => m.apply b
    | none => b
  else b

/-- A byte under the stores of a list of requests, in order. -/
def overStores (rs : List Req) (a : Nat) (b : Byte) : Byte :=
  rs.foldl (fun b r =>
    match r.kind, r.pas with
    | .store data, pa :: _ => overByte pa data a b
    | _, _ => b) b

/-- The stores that an L1 holds and that have not reached their home, in the order in which it took them. -/
def State.stagedIn (s : State) (core : Nat) : List Req := s.reqs.filter fun r => r.stage == .inL1 core

/-- What a lane's request of n bytes at pa reads over a base: the stores of its L1, then the lane's own earlier stores
that have not performed. -/
def State.seen (s : State) (r : Req) (core : Nat) (base : Nat → Byte) (pa n : Nat) : List Byte :=
  let own := (s.before r).filter fun q => q.stage == .ready
  (List.range n).map fun i => overStores own (pa + i) (overStores (s.stagedIn core) (pa + i) (base (pa + i)))

/-- The bytes of a line at its home as an L1 sees them. -/
def State.lineFor (s : State) (core line : Nat) : List Byte :=
  (List.range 128).map fun i => overStores (s.stagedIn core) (128 * line + i) (Mem.read s.mem (128 * line + i))

/-- The lines of an L1: 128 KiB of 128 bytes (R5). -/
def l1Lines : Nat := 1024

/-- A read at the home through an L1 replaces the copy that it finds there, and where fill holds and the L1 has room makes
one (R5, R133, R265). -/
def State.refresh (s : State) (core line : Nat) (fill : Bool) : State :=
  let c := s.core core
  match c.l1.find line with
  | some x =>
    if x.owned then s
    else s.setCore core { c with l1 := c.l1.set line ⟨false, s.lineFor core line, s.tick⟩ }
  | none =>
    if fill && decide (c.l1.length < l1Lines) then
      s.setCore core { c with l1 := c.l1.set line ⟨false, s.lineFor core line, s.tick⟩ }
    else s

/-- A copy that a core holds of a line is dropped; an owned line stays. -/
def State.dropCopy (s : State) (core line : Nat) : State :=
  let c := s.core core
  match c.l1.find line with
  | some x => if x.owned then s else s.setCore core { c with l1 := c.l1.erase line }
  | none => s

/-- Masked bytes put into the line that a core holds, if it holds it. -/
def State.updateL1 (s : State) (core pa : Nat) (data : List MByte) : State :=
  let c := s.core core
  match c.l1.find (lineOf pa) with
  | none => s
  | some x =>
    let bytes := (x.bytes.zipIdx).map fun p => overByte pa data (128 * lineOf pa + p.2) p.1
    s.setCore core { c with l1 := c.l1.set (lineOf pa) { x with bytes := bytes } }

/-! ### Registers that a request writes -/

/-- The registers that bytes fill (R127). -/
def regsOfBytes (bs : List Byte) (sx : Bool) : List Word :=
  match bs with
  | [a] => [if sx then a.signExtend 32 else a.zeroExtend 32]
  | [a, b] => [if sx then (b ++ a : BitVec 16).signExtend 32 else (b ++ a : BitVec 16).zeroExtend 32]
  | bs => wordsOfBytes bs

/-- Registers of a lane written by a completion; their lines are live, cached and dirty (R244, R260). -/
def State.putRegs (s : State) (l : LaneRef) (d : Code) (ws : List Word) : State :=
  (s.lineWritten l.gr (lineMask d ws.length)).setRegs (.lane l) d ws

/-- Whether the registers that a request writes can take it: their lines are cached, or dead with room (R244, R245). -/
def State.canDeliver (s : State) (r : Req) : Bool :=
  match r.owner with
  | .lane l => r.kind.dests.all fun d => s.linesReady l.gr (lineMask d.1 d.2)
  | _ => true

/-- Registers written by a completion, with no lane named when the owner is none. -/
def State.deliver (s : State) (o : Owner) (d : Code) (ws : List Word) : State :=
  match o with
  | .lane l => s.putRegs l d ws
  | _ => s

/-! ### The end of a request -/

/-- The part of a request's lane in its open instruction. -/
def State.markPart (s : State) (r : Req) (st : PartState) : State :=
  match r.owner with
  | .lane l => if r.op = 0 then s else s.setPart l.gr r.op l.lane st
  | _ => s

/-- Its open instruction lets its lanes go on, where none of them waits or has faulted. -/
def State.settleOf (s : State) (r : Req) : State :=
  match r.owner with
  | .lane l => (if r.op = 0 then s else s.settle l.gr r.op).advance l.cid
  | _ => s

/-- A request that has performed: an acquire takes effect, its part is done, and it is listed no more (R162). -/
def State.complete (s : State) (r : Req) : State :=
  let s := match r.owner with
    | .lane l => if r.acq then s.acquire l r.scope else s
    | _ => s
  ((s.dropReq r.id).markPart r .performed).settleOf r

/-- The parts of a request that have not left its core are gone with it. -/
def State.dropParts (s : State) (id : Nat) : State :=
  { s with reqs := s.reqs.filter fun q => match q.kind with
      | .corner p _ _ | .scatterPart p _ _ => p != id || q.hasLeft
      | _ => true }

/-- A store written at its home; a store that its L1 did not hold also updates the L1's copy (R135). -/
def State.storeAtHome (s : State) (r : Req) (pa : Nat) (data : List MByte) : State :=
  let s := { s with mem := Mem.writeMasked s.mem pa data }
  let s := match r.stage, r.owner with
    | .ready, .lane l => s.updateL1 (s.l1Of l.cid l.team (lineOf pa)) pa data
    | _, _ => s
  s.complete r

/-- A store of an L1 written at its home, which recalls the line first where an L1 owns it (R275, R280). -/
def State.pushStore (s : State) (r : Req) : State :=
  match r.kind, r.pas with
  | .store data, pa :: _ => (s.recall (lineOf pa)).storeAtHome r pa data
  | _, _ => s

/-- The stores that the L1s of a list hold, in the order in which they took them. -/
def State.stagedAt (s : State) (cores : List Nat) : List Req :=
  s.reqs.filter fun r => cores.any fun c => r.stage == .inL1 c

/-- The L1s of a list write every store that they hold through to its home, in order (R268, R275). -/
def State.pushStaged (s : State) (cores : List Nat) : State :=
  (s.stagedAt cores).foldl (fun (s : State) q => s.pushStore q) s

/-- Whether the L1s of a list may write their stores through: none of them goes to a line of which a batch has performed in
part (R131). -/
def State.mayPush (s : State) (cores : List Nat) : Bool :=
  (s.stagedAt cores).all fun q => q.pas.all fun pa => !s.lineSplit (lineOf pa)

/-- The cores of a cluster. -/
def State.coresOf (s : State) (cid : Nat) : List Nat :=
  match s.cluster cid with
  | none => []
  | some c => if c.place.isNone then [] else (List.range c.teams.length).map (s.coreOf cid)

/-- The cores of a cluster whose L1s are one instance; none where its launch does not fuse them (R262). -/
def State.fusedCores (s : State) (cid : Nat) : List Nat := if s.fused cid then s.coresOf cid else []

/-- Every part of the open instruction of a request set: one load serves all members (R137, R157, R162). -/
def State.markAll (s : State) (g : GroupRef) (op : Nat) (st : PartState) : State :=
  (((s.group g).bind (·.openOf op)).map fun o : Open =>
    (o.parts.map (·.lane)).foldl (fun (s : State) k => s.setPart g op k st) s).getD s

/-- A word of a fetch kept by its block, or its failure (R36). -/
def State.keepWord (s : State) (u : FetchUnit) (target : Nat) (c : CodeWord) : State :=
  s.setCode u ((s.codeOf u).set (target / 4) c)

/-- A whole request that has failed with a cause: its part says so, or those of every member that it serves; it is listed no
more (R130, R297). -/
def State.failWhole (s : State) (r : Req) (cause : Nat) (addr aux : DWord) : State :=
  let s := (s.dropReq r.id).dropParts r.id
  match r.owner, r.kind with
  | .control q, _ => s.modControl q fun c => { c with wait := .trapping cause addr aux false }
  | .cluster _, .fetch u => s.keepWord u (r.pas.headD 0) ⟨none, cause, aux.toNat, s.tick⟩
  | .lane l, .uniform .. | .lane l, .config _ => (s.markAll l.gr r.op (.failed cause addr aux)).settleOf r
  | _, _ => (s.markPart r (.failed cause addr aux)).settleOf r

/-- One request of a scatter is over, with the flags of its add, or the cause with which it has failed: the lane has
performed or failed when all of its requests are over (R160, R345). -/
def State.scatterDone (s : State) (id : Nat) (flags : Word) (fail : Option (Nat × DWord × DWord)) : State :=
  match s.req id with
  | none => s
  | some r =>
    let s := match r.owner with
      | .lane l => s.setFlags (.lane l) flags
      | _ => s
    let fail := if r.fail.isSome then r.fail else fail
    if 1 < r.left then s.modReq id fun q => { q with left := q.left - 1, fail := fail }
    else
      match fail, r.owner, r.kind with
      | some f, _, _ => s.failWhole r f.1 f.2.1 f.2.2
      | none, .lane l, .hgscat _ forming => (s.setFlags (.lane l) forming).complete r
      | none, _, _ => s.complete r

/-- A request that has failed with a cause; a part fails the request that it belongs to (R130). -/
def State.failReq (s : State) (r : Req) (cause : Nat) (addr aux : DWord) : State :=
  match r.kind with
  | .corner p _ _ =>
    match s.req p with
    | none => s.dropReq r.id
    | some q => (s.dropReq r.id).failWhole q cause addr aux
  | .scatterPart p _ _ => (s.dropReq r.id).scatterDone p 0 (some (cause, addr, aux))
  | _ => s.failWhole r cause addr aux

/-- The store records of a request enter its lane's stream (R338, R340). -/
def State.foldReq (s : State) (r : Req) : State :=
  match r.owner, r.kind, r.vas with
  | .lane l, .store data, va :: _ => s.foldStore l (storeRecords va data)
  | _, _, _ => s

/-- How many bytes of a store of n bytes at an address precede the line boundary that it crosses, where it crosses one:
only STN does, whose alignment unit is 4 bytes (R136). -/
def storeCut (va n : Nat) : Option Nat := if va % 128 + n ≤ 128 then none else some (128 - va % 128)

/-- The addresses of the two parts of a store that crosses a line boundary; else its own address (R136). -/
def storeVas (va n : Nat) : List Nat :=
  match storeCut va n with
  | none => [va]
  | some k => [va, (va + k) % 2 ^ 56]

/-- A store that crosses a line boundary goes on as two stores, one to each line (R136). -/
def State.splitStore (s : State) (r : Req) (ps : List Page) : State :=
  match r.kind, r.vas, r.pas, ps with
  | .store data, va :: vb :: _, pa :: pb :: _, p :: q :: _ =>
    let k := 128 - va % 128
    let (id, s) := s.fresh
    let s := s.modReq r.id fun x => { x with kind := .store (data.take k), vas := [va], pas := [pa], noL1 := p.noL1, left := 1 }
    { s with reqs := s.reqs ++ [{ r with id := id, kind := .store (data.drop k), vas := [vb], pas := [pb], cls := q.cls,
                                          noL1 := q.noL1, left := 1 }] }
  | _, _, _, _ => s

/-- The part in this device's memory of a store that also went to a peer becomes a store of its own (R132, R136). -/
def State.localPart (s : State) (r : Req) : State :=
  match r.kind, r.vas, r.pas with
  | .store data, va :: vb :: _, pa :: pb :: _ =>
    let k := 128 - va % 128
    let part := if (peerOf pa).isNone then some (data.take k, va, pa)
      else if (peerOf pb).isNone then some (data.drop k, vb, pb) else none
    match part with
    | some (bs, v, a) =>
      let (id, s) := s.fresh
      { s with reqs := s.reqs ++ [{ r with id := id, op := 0, kind := .store bs, vas := [v], pas := [a], peer := none,
                                            stage := .ready, left := 1 }] }
    | none => s
  | _, _, _ => s

/-- The device number of a request's peer. -/
def Req.dev (r : Req) : DWord := BitVec.ofNat 64 ((r.peer.getD 0) % 2 ^ 14)

/-- The first address of a request. -/
def Req.addr (r : Req) : DWord := BitVec.ofNat 64 (r.vas.headD 0)

/-- A request whose turn has come leaves for its peer; where it may not, it fails there and then (R353). -/
def State.leave (s : State) (r : Req) : State :=
  if s.peerReachable (r.peer.getD 0) then s.modReq r.id fun q => { q with stage := .atPeer }
  else s.failReq r causePEER r.addr r.dev

/-- A block asks a peer for an instruction word that it does not hold, once at a time (R36). -/
def State.askWord (s : State) (o : Owner) (u : FetchUnit) (target va : Nat) : State :=
  if s.reqs.any fun r => r.kind == .fetch u && r.pas == [target] then s
  else
    let (id, s) := s.fresh
    let r : Req :=
      { id := id, owner := o, issue := id, op := 0, kind := .fetch u, scope := 4, acq := false, rel := false, vas := [va],
        pas := [target], cls := .normal, noL1 := true, peer := peerOf target, stage := .ready, left := 1, acks := [],
        waited := 0, serial := 0, flags := 0, fail := none, got := [], retrained := false }
    ({ s with reqs := s.reqs ++ [r] }).leave r

/-- The request that asks a peer for one of the addresses of another. -/
def Req.part (r : Req) (id idx : Nat) : Req :=
  let kind : ReqKind := match r.kind with
    | .hgscat vals _ => .scatterPart r.id idx (vals.getD idx (.zero, .zero))
    | k => .corner r.id idx k.bytes
  let pa := r.pas.getD idx 0
  { r with id := id, op := 0, kind := kind, acq := false, rel := false, vas := [r.vas.getD idx 0], pas := [pa],
           peer := peerOf pa, left := 1 }

/-- A request for every address that lies in a peer's memory (R159, R160, R165). -/
def State.sendParts (s : State) (r : Req) : State :=
  ((List.range r.pas.length).filter fun i => (peerOf (r.pas.getD i 0)).isSome).foldl (fun (s : State) i =>
    let (id, s) := s.fresh
    { s with reqs := s.reqs ++ [r.part id i] }) s

/-- Whether a request with an address in a peer's memory asks for each of its addresses apart. -/
def ReqKind.apart : ReqKind → Bool
  | .hgld .. | .hgscat .. | .descriptor .. => true
  | _ => false

/-- A request whose addresses have translated. Loads let their lane go on, stores have been accepted and are folded,
and the others hold it; what goes to a peer device holds it unless it is a load (R132, R162, R298, R314, R354). -/
def State.placed (s : State) (r : Req) (ps : List Page) : State :=
  let pas := List.zipWith Page.target ps r.vas
  let peer := pas.findSome? peerOf
  let r := { r with pas := pas, stage := .ready, peer := peer, cls := (ps.head?.map (·.cls)).getD .normal,
                    noL1 := ps.any (·.noL1), left := pas.length }
  let s := s.modReq r.id fun _ => r
  let s := match r.kind, r.owner with
    | .load _ _ _ _ (some rc), .lane l => s.setCond (.lane l) rc false
    | _, _ => s
  let s := match r.kind with
    | .load .. | .promote .. | .hgld .. => s.markPart r .translated
    | .store _ => if peer.isSome then s else ((s.foldReq r).markPart r .performed).splitStore r ps
    | _ => s
  if peer.isNone then s
  else if r.kind.apart then s.sendParts r
  else if s.mayPerform r && s.relDrained r then s.leave r
  else s

/-- A residency-tolerant load that met a non-resident page: zero, the condition bit, NR; it performs and acquires
nothing (R134). -/
def State.nonResident (s : State) (r : Req) (d : Code) (width : Nat) (rc : CBit) : State :=
  match r.owner with
  | .lane l =>
    let s := s.putRegs l d (List.replicate ((width + 3) / 4) 0)
    let s := (s.setCond (.lane l) rc true).setFlags (.lane l) flagNR
    (s.dropReq r.id).markPart r .performed
  | _ => s

/-- The translation of a request, from cached pages alone or with one walk (R289, R291); a request that needs a walk, or
another, waits for it. -/
def State.translateReq (s : State) (id : Nat) (walk : Bool) : State :=
  match s.req id with
  | none => s
  | some r =>
    match r.owner with
    | .lane l =>
      match s.translateAll l r.kind walk r.vas [] with
      | (s, .again) => s.modReq id fun q => { q with stage := .walk }
      | (s, .pages ps) => s.placed r ps
      | (s, .failed cause va absent) =>
        match r.kind, absent with
        | .load d w _ _ (some rc), true => s.nonResident r d w rc
        | _, _ => (s.dropReq r.id).markPart r (.failed cause (BitVec.ofNat 64 va) 0)
    | _ => s

/-! ### Opening a memory instruction -/

/-- What one member of a memory instruction does. -/
inductive Plan where
  | fault (cause : Nat) (addr aux : DWord)
  | done
  | request (kind : ReqKind) (vas : List Nat)
  deriving DecidableEq, Repr

/-- How a memory instruction orders its requests. -/
structure Order where
  sc : BitVec 3
  acq : Bool := false
  rel : Bool := false
  counted : Bool := false
  deriving DecidableEq, Repr

/-- A request as its instruction makes it. -/
def Req.make (id : Nat) (owner : Owner) (issue op : Nat) (kind : ReqKind) (o : Order) (vas : List Nat) (serial : Word) : Req :=
  { id := id, owner := owner, issue := issue, op := op, kind := kind, scope := o.sc, acq := o.acq, rel := o.rel, vas := vas,
    pas := [], cls := .normal, noL1 := false, peer := none, stage := .walk, left := 0, acks := [], waited := 0,
    serial := serial, flags := 0, fail := none, got := [], retrained := false }

/-- A completion that has not come in time: a record of the address and the device, and a request without an asker, whose
completion, if one comes, counts as late (R299, R356). -/
def State.peerTimedOut (s : State) (u : ClockUnit) (va dev : Nat) : State :=
  let n := match u with
    | .core n => n
    | .quad n => 1536 + n
    | .slice n => n
    | .cp => 0
  let (id, s) := (s.record 4 causePEERTO n (BitVec.ofNat 128 (va + 2 ^ 64 * (dev % 2 ^ 14)))).fresh
  let late : Req := { Req.make id (.peer dev id) id 0 (.config []) { sc := 5 } [va] 0 with stage := .timedOut u }
  { s with reqs := s.reqs ++ [late] }

/-- An instruction of a run opened with its parts, inside a handler or not (R296). -/
def State.openParts (s : State) (g : GroupRef) (u : Issue) (op : Nat) (counted : Bool) (parts : List Part)
    (next : BitVec 56) : State :=
  s.openInstr g ⟨op, u.pc, counted, ((s.group g).bind (·.handler)).isSome, false, parts, []⟩ next

/-- A memory instruction opens: its members are held, each makes its request in lane order, requests that cached
translations serve go on at once, and where nothing is left to wait for, so do the members (R131, R241, R289). That
a load, too, holds its members while a page of theirs is being walked is the model's choice (log 89). -/
def State.openMem (s : State) (u : Issue) (i : Instr) (ms : List Nat) (o : Order) (plan : State → LaneRef → Plan) : State :=
  match u.engine with
  | .lane g =>
    let next := u.next i
    let passed := u.run.filter fun n => !ms.contains n
    let s := s.setPcs (passed.map u.engine.thread) next
    let inHandler := ((s.group g).bind (·.handler)).isSome
    let s := if o.counted && !inHandler then
        passed.foldl (fun (s : State) n => s.modLane (g.at n) fun x => { x with again := none }) s
      else s
    if ms.isEmpty then s
    else
      let plans := ms.map fun n => (n, plan s (g.at n))
      let (op, s) := s.fresh
      let parts := plans.map fun p => Part.mk p.1 (match p.2 with
        | .fault c a x => .failed c a x
        | .done => .performed
        | .request _ _ => .waiting)
      let s := s.openParts g u op o.counted parts next
      let (s, ids) := plans.foldl (fun (acc : State × List Nat) p =>
        match p.2 with
        | .request kind vas =>
          let serial := ((s.lane (g.at p.1)).map fun x : Lane => if inHandler then x.serial else x.serialAt u.pc).getD 0
          let (id, s) := acc.1.fresh
          ({ s with reqs := s.reqs ++ [Req.make id (.lane (g.at p.1)) op op kind o vas serial] }, acc.2 ++ [id])
        | _ => acc) (s, [])
      let s := ids.foldl (fun (s : State) id => s.translateReq id false) s
      s.settle g op
  | _ => s

end Sys2Proof.Machine
end

