-- ==== Sys2Proof/Machine/Window.lean ====
section
/-! DEFINITION. Scratch windows with their swizzles (R138 to R140), and the host event ring (R352). -/

namespace Sys2Proof.Machine

open Sys2Proof

/-! ### Swizzles (R139) -/

/-- The physical offset of a logical offset under a swizzle mode. -/
def swizzle (mode o : Nat) : Nat :=
  match mode with
  | 1 => o ^^^ (bitsAt o 7 3 <<< 4)
  | 2 => o ^^^ (bitsAt o 7 2 <<< 5)
  | 3 => o ^^^ (bitsAt o 7 1 <<< 6)
  | 4 => o ^^^ (bitsAt o 8 3 <<< 4)
  | 5 => o ^^^ (bitsAt o 8 2 <<< 5)
  | 6 => o ^^^ (bitsAt o 9 3 <<< 4)
  | 7 => o ^^^ (bitsAt o 7 5 <<< 2)
  | _ => o

/-! ### Windows -/

/-- A byte of a team's window; one that was never written reads 0x00 (R240). -/
def State.winByte (s : State) (cid team o : Nat) : Byte :=
  ((s.team cid team).map fun t : Team => t.window.get 0 o).getD 0

/-- n bytes of a team's window from a logical offset, under a swizzle. -/
def State.winRead (s : State) (cid team mode o n : Nat) : List Byte :=
  (List.range n).map fun i => s.winByte cid team (swizzle mode (o + i))

/-- Masked bytes written to a team's window from a logical offset, under a swizzle. -/
def State.winWrite (s : State) (cid team mode : Nat) : Nat → List MByte → State
  | _, [] => s
  | o, m :: ms =>
    let p := swizzle mode o
    (s.modTeam cid team fun t => { t with window := t.window.set p (m.apply (t.window.get 0 p)) }).winWrite cid team mode
      (o + 1) ms

/-- The bytes of a team's window. -/
def State.winSize (s : State) (cid : Nat) : Nat := ((s.gridOf cid).map (·.launch.window)).getD 0

/-- A scratch access of n bytes at an offset of a window: its cause and TAUX where it fails (R128, R138, R140). core is
the index that the instruction names. -/
def State.winFault (s : State) (cid : Nat) (core : Option Nat) (off : Int) (n : Nat) : Option (Nat × DWord) :=
  let aux : DWord := match core with
    | some k => BitVec.ofNat 64 k
    | none => Config.spaceAux s.tick
  let cores := ((s.cluster cid).map (·.teams.length)).getD 0
  if off % n ≠ 0 then some (causeALIGN, 0)
  else if off < 0 ∨ (s.winSize cid : Int) < off + n ∨ (core.any fun k : Nat => decide (cores ≤ k)) then some (causeSPACE, aux)
  else none

/-! ### The event ring -/

/-- The entries of the ring, where it is enabled. -/
def State.ringEntries (s : State) : Option Nat :=
  let n := (slice s.bar0.evctl 0 5).toNat
  if s.bar0.evctl.getLsbD 31 && decide (6 ≤ n) && decide (n ≤ 16) then some (2 ^ n) else none

/-- Whether the ring is enabled and has room. -/
def State.ringRoom (s : State) : Bool :=
  match s.ringEntries with
  | none => false
  | some n => (s.bar0.evtail - s.bar0.evhead).toNat != n

/-- An entry written at the tail: payload, INFO with its PHASE, source and sequence count, in host memory. -/
def State.ringWrite (s : State) (payload : DWord) (info source : Word) : State :=
  match s.ringEntries with
  | none => s
  | some n =>
    let tail := s.bar0.evtail.toNat
    let pa := 2 ^ 47 + (s.bar0.evbase.toNat / 4096 * 4096) % 2 ^ 47 + 32 * (tail % n)
    let phase : Word := if tail / n % 2 = 0 then 0x80000000 else 0
    let seq := s.ringSeq + 1
    let bytes := toBytesLE 8 payload.toNat ++ toBytesLE 4 (info ||| phase).toNat ++ toBytesLE 4 source.toNat
      ++ toBytesLE 8 seq.toNat ++ toBytesLE 8 0
    let s := { s with mem := Mem.writeBytes s.mem pa bytes }
    { s with ringSeq := seq, bar0 := { s.bar0 with evtail := s.bar0.evtail + 1 } }

/-- A residency event: written where the ring has room, else dropped and counted (R142, R352). -/
def State.residencyEvent (s : State) (page : Nat) (unmapped : Bool) (source : Word) : State :=
  if s.ringRoom then s.ringWrite (BitVec.ofNat 64 page) (if unmapped then 0x1000 else 0) source
  else { s with bar0 := { s.bar0 with evdrop := s.bar0.evdrop + 1 } }

end Sys2Proof.Machine
end

