-- ==== Sys2Proof/Machine/Memory.lean ====
section
/-! DEFINITION. Loads and stores, scratch, prefetch, residency requests, cache control, fences and promotion (R126 to
R145). -/

namespace Sys2Proof.Machine

open Sys2Proof

/-- The virtual address a + sext(imm), bits [63:56] ignored (R128). -/
def State.globalVa (s : State) (t : Thread) (a : Code) (imm : BitVec 32) : Nat :=
  va56 (s.reg64 t a + imm.signExtend 64)

/-- A plan for an access of n bytes at a virtual address: ALIGN, or a request (R128). -/
def planAt (kind : ReqKind) (va n : Nat) : Plan :=
  if va % n ≠ 0 then .fault causeALIGN (BitVec.ofNat 64 va) 0 else .request kind [va]

/-! ### Global loads and stores -/

/-- LDG and its residency form (R133, R134). -/
def loadGlobal (i : Instr) (v md : BitVec 4) (sc : BitVec 3) (rc : Option CBit) (d a : Code) (imm : BitVec 32)
    (s : State) : Result :=
  issued i s fun u ms s =>
    s.openMem u i ms { sc := sc, acq := md == 1 } fun s l =>
      planAt (.load d (widthBytes v) (v.getLsbD 3) (md == 2) rc) (s.globalVa (.lane l) a imm) (widthBytes v)

/-- LDG (R133). -/
def execLdg (h : Hd) (v md : BitVec 4) (sc : BitVec 3) (d a : Code) (imm : BitVec 32) (s : State) : Result :=
  loadGlobal (.ldg h v md sc d a imm) v md sc none d a imm s

/-- LDG with RE = 1 (R134). -/
def execLdgRc (h : Hd) (v md : BitVec 4) (sc : BitVec 3) (rc : CBit) (d a : Code) (imm : BitVec 32) (s : State) :
    Result :=
  loadGlobal (.ldgRc h v md sc rc d a imm) v md sc (some rc) d a imm s

/-- The bytes of a store's data registers (R127). -/
def State.storeBytes (s : State) (t : Thread) (b : Code) (v : BitVec 4) : List Byte :=
  (bytesOfWords (s.regs t b (widthRegs v))).take (widthBytes v)

/-- STG (R135). -/
def execStg (h : Hd) (v md : BitVec 4) (sc : BitVec 3) (a b : Code) (imm : BitVec 32) (s : State) : Result :=
  issued (.stg h v md sc a b imm) s fun u ms s =>
    s.openMem u (.stg h v md sc a b imm) ms { sc := sc, rel := md == 1 } fun s l =>
      planAt (.store ((s.storeBytes (.lane l) b v).map MByte.whole)) (s.globalVa (.lane l) a imm) (widthBytes v)

/-- Bytes under a nibble mask, bit k of which selects nibble k from the lowest address (R136). -/
def nibbleMasked (mask : Nat) (bs : List Byte) : List MByte :=
  bs.zipIdx.map fun p =>
    ⟨(if mask.testBit (2 * p.2) then 0x0F else 0) ||| (if mask.testBit (2 * p.2 + 1) then 0xF0 else 0), p.1⟩

/-- STN (R136). -/
def execStn (h : Hd) (v md : BitVec 4) (sc : BitVec 3) (a b c : Code) (imm : BitVec 32) (s : State) : Result :=
  issued (.stn h v md sc a b c imm) s fun u ms s =>
    s.openMem u (.stn h v md sc a b c imm) ms { sc := sc, rel := md == 1 } fun s l =>
      let va := s.globalVa (.lane l) a imm
      if va % 4 ≠ 0 then .fault causeALIGN (BitVec.ofNat 64 va) 0
      else .request (.store (nibbleMasked (s.reg32 (.lane l) c).toNat (s.storeBytes (.lane l) b v)))
        (storeVas va (widthBytes v))

/-- n bytes at an address of this device or the host, read within one step: at the home, through the stores of the L1s
cores (R265). -/
def State.readHome (s : State) (pa n : Nat) (cores : List Nat) : State × List Byte :=
  let s := s.recallRange pa n
  let staged := cores.flatMap s.stagedIn
  (s, (List.range n).map fun i => overStores staged (pa + i) (Mem.read s.mem (pa + i)))

/-- Why an access of an engine fails: its cause, its address, and the device of a peer (R171, R299). -/
abbrev Fail := Nat × Nat × Nat

/-- What an engine that has not been answered waits for. -/
def Fail.owed (f : Fail) : Option (Nat × Nat) := if f.1 = causePEERTO then some f.2 else none

/-- A read of n bytes at a page that an engine makes within one step: at the home, or a peer's answer, which may be a cause
(R298, R299). -/
def State.readNow (s : State) (p : Page) (va n : Nat) (cores : List Nat) : State × Except Fail (List Byte) :=
  match p.peer with
  | some d =>
    match s.peerFault d va with
    | some c => (s, .error (c, va, d))
    | none => (s, .ok ((List.range n).map fun i => Config.peerByte s.tick (p.pa va + i)))
  | none =>
    let r := s.readHome (p.pa va) n cores
    (r.1, .ok r.2)

/-- A read of a lane's engine beyond the L1 replaces the copy that it finds there (R265). -/
def State.readThrough (s : State) (l : LaneRef) (p : Page) (va n : Nat) : State × List Byte :=
  let line := lineOf (p.pa va)
  let core := s.l1Of l.cid l.team line
  let r := s.readHome (p.pa va) n (if p.noL1 then [] else [core])
  (if p.noL1 then r.1 else r.1.refresh core line false, r.2)

/-- One load that serves every member, at a page of a peer, by a request of a kind. A peer's load holds no lane: the members go
on, and the registers that it writes are pending (R137, R157, R260, R299, R354). A control core waits for its load. -/
def State.askPeer (s : State) (u : Issue) (i : Instr) (ms : List Nat) (kind : ReqKind) (o : Order) (va : Nat) (p : Page) :
    State :=
  let (id, s) := s.fresh
  let request (w : Owner) : Req :=
    { Req.make id w id id kind o [va] 0 with
      pas := [p.target va], stage := .ready, peer := p.peer, cls := p.cls, noL1 := p.noL1, left := 1 }
  match u.engine, ms with
  | .lane g, m :: _ =>
    let s := s.setPcs ((u.run.filter fun n => !ms.contains n).map u.engine.thread) (u.next i)
    let s := s.openParts g u id false (ms.map fun k => ⟨k, .translated⟩) (u.next i)
    let r := request (.lane (g.at m))
    (({ s with reqs := s.reqs ++ [r] }).leave r).settle g id
  | .control q, _ =>
    let s := s.modControl q fun c => { c with wait := .loading id, next := u.next i }
    let r := request (.control q)
    ({ s with reqs := s.reqs ++ [r] }).leave r
  | _, _ => s

/-- LDGU's value reaches its register. -/
def State.putUniform (s : State) (t : Thread) (d : Code) (n : Nat) (bs : List Byte) : State :=
  let x : DWord := BitVec.ofNat 64 (ofBytesLE (bs.take n))
  if n = 8 then s.setReg64 t d x else s.setReg32 t d (x.truncate 32)

/-- LDGU: one load into a uniform register, once per issue (R137). -/
def execLdgu (h : Hd) (v md : BitVec 4) (sc : BitVec 3) (d a : Code) (imm : BitVec 32) (s : State) : Result :=
  issued (.ldgu h v md sc d a imm) s fun u ms s =>
    let i : Instr := .ldgu h v md sc d a imm
    match ms with
    | [] => s.setPcs u.threads (u.next i)
    | m :: _ =>
      let t := u.engine.thread m
      let n := widthBytes v
      let va := s.globalVa t a imm
      let fail (s : State) (cause : Nat) : State :=
        s.trapMembers u i ms (ms.map fun k => (k, cause, BitVec.ofNat 64 va, 0)) []
      if va % n ≠ 0 then fail s causeALIGN
      else
        let r := match u.engine with
          | .lane g => s.translateNow (g.at m) anyPage va false
          | .control q => s.translateQuad (s.quadOf q) anyPage va false
          | .method _ => (s, Except.error TransFault.unmapped)
        match r with
        | (s, .error f) => fail s (f.cause false)
        | (s, .ok p) =>
          if p.peer.isSome then s.askPeer u i ms (.uniform d n (md == 1) ms) { sc := sc, acq := md == 1 } va p
          else
            match u.engine with
            | .lane g =>
              let (s, bs) := s.readThrough (g.at m) p va n
              let s := s.putUniform t d n bs
              let s := if md = 1 then ms.foldl (fun (s : State) k => s.acquire (g.at k) sc) s else s
              s.setPcs u.threads (u.next i)
            | .control q =>
              let line := lineOf (p.pa va)
              let cores := if p.noL1 || !s.fused q.cid then [] else [s.l1Of q.cid 0 line]
              let (s, bs) := s.readHome (p.pa va) n cores
              let s := cores.foldl (fun (s : State) k => s.refresh k line false) s
              let s := if md = 1 && !servedByL1 sc (s.fused q.cid) then s.modControl q fun c => { c with acqAt := s.tick } else s
              (s.putUniform t d n bs).setPcs u.threads (u.next i)
            | .method _ => s

/-! ### Scratch (R138 to R140) -/

/-- A scratch access: members whose access fails trap, the others perform in lane order. off gives a member's offset,
target its team and the index the instruction names. -/
def scratchOp (i : Instr) (n : Nat) (target : GroupRef → Nat × Option Nat) (off : State → Thread → Int)
    (act : State → State → LaneRef → Nat → Nat → State) (s : State) : Result :=
  issued i s fun u ms s =>
    match u.engine with
    | .lane g =>
      let (team, core) := target g
      let plans := ms.map fun k => (k, off s (.lane (g.at k)))
      let faults := plans.filterMap fun p =>
        (s.winFault g.cid core p.2 n).map fun f => (p.1, f.1, BitVec.ofInt 64 p.2, f.2)
      let good := plans.filter fun p => (s.winFault g.cid core p.2 n).isNone
      let s' := good.foldl (fun x p => act s x (g.at p.1) team p.2.toNat) s
      if faults.isEmpty then s'.setPcs u.threads (u.next i)
      else s'.trapMembers u i ms faults (good.map (·.1))
    | _ => s

/-- The offset of LDS and STS. -/
def scratchOff (a : Code) (imm : BitVec 32) (s : State) (t : Thread) : Int := (s.reg32 t a).toNat + imm.toInt

/-- The offset of LDC and STC. -/
def clusterOff (a : Code) (imm : BitVec 16) (s : State) (t : Thread) : Int := (s.reg32 t a).toNat + imm.toNat

/-- A load from a window: it reads what stood there when the instruction issued. -/
def windowLoad (v md : BitVec 4) (d : Code) (s x : State) (l : LaneRef) (team o : Nat) : State :=
  x.putRegs l d (regsOfBytes (s.winRead l.cid team (slice md 0 3).toNat o (widthBytes v)) (v.getLsbD 3))

/-- A store to a window. -/
def windowStore (v md : BitVec 4) (b : Code) (s x : State) (l : LaneRef) (team o : Nat) : State :=
  x.winWrite l.cid team (slice md 0 3).toNat o ((s.storeBytes (.lane l) b v).map MByte.whole)

/-- LDS (R138). -/
def execLds (h : Hd) (v md : BitVec 4) (d a : Code) (imm : BitVec 32) (s : State) : Result :=
  scratchOp (.lds h v md d a imm) (widthBytes v) (fun g => (g.team, none)) (scratchOff a imm) (windowLoad v md d) s

/-- STS (R138). -/
def execSts (h : Hd) (v md : BitVec 4) (a b : Code) (imm : BitVec 32) (s : State) : Result :=
  scratchOp (.sts h v md a b imm) (widthBytes v) (fun g => (g.team, none)) (scratchOff a imm) (windowStore v md b) s

/-- LDC (R140). -/
def execLdc (h : Hd) (v md : BitVec 4) (d a : Code) (core : BitVec 4) (off : BitVec 16) (s : State) : Result :=
  scratchOp (.ldc h v md d a core off) (widthBytes v) (fun _ => (core.toNat, some core.toNat)) (clusterOff a off)
    (windowLoad v md d) s

/-- STC (R140). -/
def execStc (h : Hd) (v md : BitVec 4) (a b : Code) (core : BitVec 4) (off : BitVec 16) (s : State) : Result :=
  scratchOp (.stc h v md a b core off) (widthBytes v) (fun _ => (core.toNat, some core.toNat)) (clusterOff a off)
    (windowStore v md b) s

/-! ### Prefetch, residency, cache control (R141 to R143) -/

/-- A page for an access that sets no bit and never traps: cached, or by a walk; none unless it is resident. -/
def State.peekLane (s : State) (l : LaneRef) (va : Nat) : Option Page :=
  let lpr := (((s.lane l).bind fun x : Lane => x.lpr).toList)
  match cachedFor (lpr ++ (s.core (s.coreOf l.cid l.team)).tlb) anyPage va false with
  | some p => some p
  | none =>
    match (s.freshWalk va).out with
    | .mapped p => some p
    | _ => none

/-- Sectors of a line that its home's L2 slice comes to hold, where the slice has room for the line: 8,192 lines of four
sectors (R6, R7). -/
def State.fillL2 (s : State) (line : Nat) (sectors : BitVec 4) : State :=
  let k := homeSlice (128 * line)
  let x := s.sliceAt k
  match x.l2.find line with
  | some old => s.setSlice k { x with l2 := x.l2.set line (old ||| sectors) }
  | none => if x.l2.length < 8192 then s.setSlice k { x with l2 := x.l2.set line sectors } else s

/-- PREF: each member's line is brought towards its level; what cannot be is dropped and counted, as a line is between the
requests of one batch (R131, R141, log 69). -/
def execPref (h : Hd) (v : BitVec 4) (a : Code) (imm : BitVec 32) (s : State) : Result :=
  issued (.pref h v a imm) s fun u ms s =>
    let s := match u.engine with
      | .lane g => ms.foldl (fun (s : State) k =>
          let l := g.at k
          let va := s.globalVa (.lane l) a imm
          match s.peekLane l va with
          | none => s.countCore (s.coreOf g.cid g.team) 4 1
          | some p =>
            if p.peer.isSome || (v = 1 && s.lineSplit (lineOf (p.pa va))) then s.countCore (s.coreOf g.cid g.team) 4 1
            else if v = 1 && !p.noL1 then
              let line := lineOf (p.pa va)
              (s.recall line).refresh (s.l1Of g.cid g.team line) line true
            else s.fillL2 (lineOf (p.pa va)) 0xF) s
      | _ => s
    s.setPcs u.threads (u.next (.pref h v a imm))

/-- What TOUCH finds at an address: the condition bit, and the page of the event with whether it is unmapped; a peer's leaf
makes no event (R142). -/
def State.touchAt (s : State) (va : Nat) : Bool × Option (Nat × Bool) :=
  let w := s.freshWalk va
  match w.out with
  | .mapped _ => (true, none)
  | .absent p => if p.peer.isSome then (true, none) else (false, some (p.base, false))
  | .unmapped =>
    if field w.leaf 49 49 = 1 then (false, none) else (false, some (va / 2 ^ 14 * 2 ^ 14, true))

/-- The residency events of a TOUCH: one for each distinct page, sourced by the lowest member that names it; done lists
the pages already named (R142). -/
def State.touchEvents (s : State) (g : GroupRef) : List (Nat × Option (Nat × Bool)) → List Nat → State
  | [], _ => s
  | (_, none) :: fs, done => s.touchEvents g fs done
  | (k, some (page, unmapped)) :: fs, done =>
    if done.contains page then s.touchEvents g fs done
    else (s.residencyEvent page unmapped (s.laneSource (g.at k))).touchEvents g fs (page :: done)

/-- TOUCH: condition bits, and residency events for the pages that are absent (R142). -/
def execTouch (h : Hd) (cd : CBit) (a : Code) (imm : BitVec 32) (s : State) : Result :=
  issued (.touch h cd a imm) s fun u ms s =>
    let s := match u.engine with
      | .lane g =>
        let found := ms.map fun k => (k, (s.touchAt (s.globalVa (.lane (g.at k)) a imm)).2)
        let s := ms.foldl (fun (x : State) k =>
          x.setCond (.lane (g.at k)) cd (s.touchAt (s.globalVa (.lane (g.at k)) a imm)).1) s
        s.touchEvents g found []
      | _ => s
    s.setPcs u.threads (u.next (.touch h cd a imm))

/-- A line that an L1 lets go: an owned one returns its bytes to the home (R143). -/
def State.dropLine (s : State) (core line : Nat) : State :=
  let c := s.core core
  match c.l1.find line with
  | none => s
  | some x =>
    let s := if x.owned then { s with mem := Mem.writeBytes s.mem (128 * line) x.bytes } else s
    s.setCore core { c with l1 := c.l1.erase line }

/-- CCTL (R143). -/
def execCctl (h : Hd) (v : BitVec 4) (a : Code) (imm : BitVec 32) (s : State) : Result :=
  issued (.cctl h v a imm) s fun u ms s =>
    let s := match u.engine with
      | .lane g =>
        if v = 1 then
          if ms.isEmpty then s
          else
            let n := s.coreOf g.cid g.team
            ((s.core n).l1.map fun x : Nat × L1Line => x.1).foldl (fun (s : State) line => s.dropLine n line) s
        else ms.foldl (fun (s : State) k =>
          let va := s.globalVa (.lane (g.at k)) a imm
          match s.peekLane (g.at k) va with
          | none => s
          | some p => if p.peer.isSome then s else s.dropLine (s.l1Of g.cid g.team (lineOf (p.pa va))) (lineOf (p.pa va))) s
      | _ => s
    s.setPcs u.threads (u.next (.cctl h v a imm))

/-! ### Fences and promotion (R144, R145) -/

/-- FENCE: each member waits for what its form orders (R144); a control core's accesses have performed when it issues. -/
def execFence (h : Hd) (md : BitVec 4) (sc : BitVec 3) (s : State) : Result :=
  issued (.fence h md sc) s fun u ms s =>
    let next := u.next (.fence h md sc)
    match u.engine with
    | .lane g =>
      let s := s.setPcs ((u.run.filter fun k => !ms.contains k).map u.engine.thread) next
      ms.foldl (fun (s : State) k => (s.hold (g.at k) (.fence md sc) next).poke (g.at k)) s
    | _ => s.setPcs u.threads next

/-- PROMOTE: a load-acquire with remote-scope promotion (R145, R274). -/
def execPromote (h : Hd) (v : BitVec 4) (sc : BitVec 3) (d a : Code) (imm : BitVec 32) (s : State) : Result :=
  issued (.promote h v sc d a imm) s fun u ms s =>
    s.openMem u (.promote h v sc d a imm) ms { sc := sc, acq := true } fun s l =>
      planAt (.promote d (widthBytes v)) (s.globalVa (.lane l) a imm) (widthBytes v)

end Sys2Proof.Machine
end

