-- ==== Sys2Proof/Machine/Atomic.lean ====
section
/-! DEFINITION. Atomics, combining requests and the instructions of a method (R146 to R156). -/

namespace Sys2Proof.Machine

open Sys2Proof

/-! ### The operations of R146 -/

/-- What an integer operation of width w makes of m with b and c (R146). -/
def atomicInt (w op : Nat) (m b c : BitVec w) : BitVec w :=
  match op with
  | 0 => m + b
  | 1 => m - b
  | 2 => if b.toInt < m.toInt then b else m
  | 3 => if m.toInt < b.toInt then b else m
  | 4 => m &&& b
  | 5 => m ||| b
  | 6 => m ^^^ b
  | 7 => b
  | 8 => if m = b then c else m
  | 9 => if b.toNat ≤ m.toNat then 0 else m + 1
  | 10 => if b.toNat < m.toNat then b else m
  | _ => if m.toNat < b.toNat then b else m

/-- G9add on two L16 codes (R112, R146). -/
def g9add (x y : Half) : Half × Word :=
  let r := logAdd l16 false (l16.decode x.toNat) (l16.decode y.toNat)
  (BitVec.ofNat 16 (l16.encode r.1), r.2)

/-- The new value of a word and the flags of an atomic of a type: .32, .64, .l32, .l16x2 (R146). -/
def atomicNew (op ty : Nat) (m b c : DWord) : DWord × Word :=
  match ty with
  | 0 => ((atomicInt 32 op (m.truncate 32) (b.truncate 32) (c.truncate 32)).zeroExtend 64, 0)
  | 1 => (atomicInt 64 op m b c, 0)
  | 2 => let r := g23add (m.truncate 32) (b.truncate 32); (r.1.zeroExtend 64, r.2)
  | _ =>
    let lo := g9add (slice m 0 16) (slice b 0 16)
    let hi := g9add (slice m 16 16) (slice b 16 16)
    ((hi.1 ++ lo.1 : Word).zeroExtend 64, lo.2 ||| hi.2)

/-- Bytes of an atomic's type. -/
def atomicBytes (ty : Nat) : Nat := if ty = 1 then 8 else 4

/-- An operand of an atomic's type. -/
def State.atomicOperand (s : State) (t : Thread) (ty : Nat) (c : Code) : DWord :=
  if ty = 1 then s.reg64 t c else (s.reg32 t c).zeroExtend 64

/-- The order of MD[1:0] (R146). -/
def orderOf (md : BitVec 4) (sc : BitVec 3) : Order :=
  { sc := sc, acq := md.getLsbD 0, rel := md.getLsbD 1, counted := true }

/-! ### ATOM, RED, ATOMS (R147 to R149) -/

/-- ATOM (R147). -/
def execAtom (h : Hd) (v md : BitVec 4) (sc : BitVec 3) (d a b c : Code) (imm : BitVec 32) (s : State) : Result :=
  issued (.atom h v md sc d a b c imm) s fun u ms s =>
    let ty := (slice md 2 2).toNat
    s.openMem u (.atom h v md sc d a b c imm) ms (orderOf md sc) fun s l =>
      planAt (.atomic v.toNat ty (some d) (s.atomicOperand (.lane l) ty b) (s.atomicOperand (.lane l) ty c))
        (s.globalVa (.lane l) a imm) (atomicBytes ty)

/-- RED (R148). -/
def execRed (h : Hd) (v md : BitVec 4) (sc : BitVec 3) (a b : Code) (imm : BitVec 32) (s : State) : Result :=
  issued (.red h v md sc a b imm) s fun u ms s =>
    let ty := (slice md 2 2).toNat
    s.openMem u (.red h v md sc a b imm) ms (orderOf md sc) fun s l =>
      planAt (.atomic v.toNat ty none (s.atomicOperand (.lane l) ty b) 0) (s.globalVa (.lane l) a imm) (atomicBytes ty)

/-- One lane's update of a window: the old value goes to d, the flags to its LSW, CX among them as R146 and R212 say for
every atomic, though R216 names ATOM and RED alone (R149, log 60). -/
def windowAtomic (v md : BitVec 4) (d b c : Code) (s x : State) (l : LaneRef) (team o : Nat) : State :=
  let ty := (slice md 2 2).toNat
  let n := atomicBytes ty
  let bs := x.winRead l.cid team 0 o n
  let r := atomicNew v.toNat ty (BitVec.ofNat 64 (ofBytesLE bs)) (s.atomicOperand (.lane l) ty b)
    (s.atomicOperand (.lane l) ty c)
  let x := x.winWrite l.cid team 0 o ((toBytesLE n r.1.toNat).map MByte.whole)
  (x.putRegs l d (wordsOfBytes bs)).setFlags (.lane l) r.2

/-- ATOMS (R149). -/
def execAtoms (h : Hd) (v md : BitVec 4) (d a b c : Code) (imm : BitVec 32) (s : State) : Result :=
  scratchOp (.atoms h v md d a b c imm) (atomicBytes (slice md 2 2).toNat) (fun g => (g.team, none)) (scratchOff a imm)
    (windowAtomic v md d b c) s

/-! ### COMB and COMBR (R150 to R153) -/

/-- The plan of one member of COMB or COMBR: absent operands are 0, and the address is checked after translation
(R150, R151). -/
def planComb (v : BitVec 4) (d : Option Code) (a b c : Code) (m : BitVec 5) (s : State) (l : LaneRef) : Plan :=
  .request (.comb m.toNat d (if v = 0 then 0 else s.reg32 (.lane l) b) (if v = 2 then s.reg32 (.lane l) c else 0))
    [va56 (s.reg64 (.lane l) a)]

/-- COMB (R150, R152). -/
def execComb (h : Hd) (v md : BitVec 4) (sc : BitVec 3) (d a b c : Code) (m : BitVec 5) (s : State) : Result :=
  issued (.comb h v md sc d a b c m) s fun u ms s =>
    s.openMem u (.comb h v md sc d a b c m) ms (orderOf md sc) (planComb v (some d) a b c m)

/-- COMBR (R150, R153). -/
def execCombr (h : Hd) (v md : BitVec 4) (sc : BitVec 3) (a b c : Code) (m : BitVec 5) (s : State) : Result :=
  issued (.combr h v md sc a b c m) s fun u ms s =>
    s.openMem u (.combr h v md sc a b c m) ms (orderOf md sc) (planComb v none a b c m)

/-! ### The instructions of a method (R154 to R156) -/

/-- The object of a wave as the wave sees it: its bytes as they stood when the wave began, under its buffered writes
(R154). -/
def Wave.objectByte (w : Wave) (o : Nat) : Byte :=
  match w.buffer.find o with
  | some b => b
  | none => w.object.getD o 0

/-- Whether an object access of n bytes stays in the object and is aligned (R154). -/
def objectOk (off : Int) (n : Nat) : Bool := decide (0 ≤ off) && decide (off + n ≤ 128) && decide (off % n = 0)

/-- An object access of every member: one that leaves the object or is misaligned aborts the wave (R154). -/
def objectOp (i : Instr) (n : Nat) (a : Code) (imm : BitVec 32) (act : State → Nat → Wave → Nat → Nat → State → State)
    (s : State) : Result :=
  issued i s fun u ms s =>
    match u.engine with
    | .method k =>
      match (s.sliceAt k).wave with
      | none => s
      | some w =>
        let plans := ms.map fun j => (j, scratchOff a imm s (.wave k j))
        if plans.any fun p => !objectOk p.2 n then s.modWave k fun w => { w with stop := some .objectBounds }
        else (plans.foldl (fun x p => act s k w p.1 p.2.toNat x) s).setPcs u.threads (u.next i)
    | _ => s

/-- OBJLD (R154). -/
def execObjld (h : Hd) (v : BitVec 4) (d a : Code) (imm : BitVec 32) (s : State) : Result :=
  objectOp (.objld h v d a imm) (widthBytes v) a imm
    (fun _ k w j o x =>
      x.setRegs (.wave k j) d
        (regsOfBytes ((List.range (widthBytes v)).map fun i => w.objectByte (o + i)) (v.getLsbD 3))) s

/-- Bytes put into a wave's buffer from an offset up. -/
def putBuffer (t : Table Byte) (o : Nat) : List Byte → Table Byte
  | [] => t
  | b :: bs => putBuffer (t.set o b) (o + 1) bs

/-- OBJST writes into the wave's buffer (R154). -/
def execObjst (h : Hd) (v : BitVec 4) (a b : Code) (imm : BitVec 32) (s : State) : Result :=
  objectOp (.objst h v a b imm) (widthBytes v) a imm
    (fun s k _ j o x =>
      let bytes := s.storeBytes (.wave k j) b v
      (x.modWave k fun w => { w with buffer := putBuffer w.buffer o bytes }).modWaveLane k j fun y =>
        { y with stored := true }) s

/-- REPLY (R155). -/
def execReply (h : Hd) (a : Code) (s : State) : Result :=
  issued (.reply h a) s fun u ms s =>
    let s := match u.engine with
      | .method k => ms.foldl (fun (x : State) j =>
          x.modWaveLane k j fun y => { y with reply := s.reg64 (.wave k j) a }) s
      | _ => s
    s.setPcs u.threads (u.next (.reply h a))

/-- MABORT removes the members, or aborts the wave where one of them has stored (R156). -/
def execMabort (h : Hd) (s : State) : Result :=
  issued (.mabort h) s fun u ms s =>
    match u.engine with
    | .method k =>
      let stored := ((s.sliceAt k).wave.map fun w : Wave =>
        ms.any fun j => (w.lanes[j]?.map fun y : WaveLane => y.stored).getD false).getD false
      if stored then s.modWave k fun w => { w with stop := some .abortAfterStore }
      else
        let s := s.setPcs u.threads (u.next (.mabort h))
        ms.foldl (fun (x : State) j => x.modWaveLane k j fun y => { y with removed := true, reply := 0 }) s
    | _ => s

end Sys2Proof.Machine
end

