-- ==== Sys2Proof/Machine/Tree.lean ====
section
/-! DEFINITION. The node format and the pairwise tree of the Anvil and of the hashed-grid unit (R224 to R227). -/

namespace Sys2Proof.Machine

open Sys2Proof

/-- The node format (R225). -/
def nodeFmt : LogFmt := ⟨21, 12, true⟩

/-- The field of a value times 8: an L16 field in node units (R224). -/
def toNode : LogVal → LogVal
  | .fin s e => .fin s (e * 8)
  | v => v

/-- product: the exact product of two operands whose fields are in node units, with nodefinish (R224). -/
def nodeProduct (a b : LogVal) : LogVal × Word :=
  let (x, f) := logMul a b
  let (y, g) := x.finish nodeFmt false
  (y, f ||| g)

/-- node: one sum of the tree; with a zero operand nothing rounds (R226). -/
def node (a b : LogVal) : LogVal × Word :=
  match a, b with
  | .nan, _ => (.nan, 0)
  | _, .nan => (.nan, 0)
  | .zero, y => (y, 0)
  | x, .zero => (x, 0)
  | x, y => logAdd nodeFmt false x y

/-- One level of the tree: neighbours are summed in pairs. -/
def treeLevel : List (LogVal × Word) → List (LogVal × Word)
  | (a, f) :: (b, g) :: t => (let r := node a b; (r.1, r.2 ||| f ||| g)) :: treeLevel t
  | t => t

/-- tree12 over 2^n leaves, with the OR of their flags and the nodes' (R226). -/
def tree12 : Nat → List (LogVal × Word) → LogVal × Word
  | 0, xs => xs.headD (.zero, 0)
  | n + 1, xs => tree12 n (treeLevel xs)

/-- extend23: a tree result as an L32 value (R227). -/
def extend23 : LogVal → LogVal
  | .fin s f => .fin s (f * 2 ^ 11)
  | v => v

end Sys2Proof.Machine
end

