-- ==== Sys2Proof/Machine/HashedGrid.lean ====
section
/-! DEFINITION. Hashed grids: the descriptor, corners, indices and weights (R324 to R328), and the instructions that load
the descriptor, interpolate, scatter and evaluate one corner (R157 to R161, R329, R330). -/

namespace Sys2Proof.Machine

open Sys2Proof

/-! ### The descriptor (R324, R325) -/

/-- t of a level. -/
def hgT (d : BitVec 512) (l : Nat) : Nat := bitsAt d.toNat (48 + 5 * l) 5

/-- N of a level. -/
def hgN (d : BitVec 512) (l : Nat) : Nat := bitsAt d.toNat (128 + 24 * l) 24

/-- The table base of a descriptor that lies at an address. -/
def hgBase (d : BitVec 512) (addr : Nat) : Nat := addr + 8 * bitsAt d.toNat 0 39

/-- The bytes of the tables of the levels below l. -/
def hgTables (d : BitVec 512) (l : Nat) : Nat := (List.range l).foldl (fun n k => n + 2 ^ hgT d k * (2 * hgF d)) 0

/-- Whether a descriptor at an address keeps its limits (R325). -/
def hgOk (d : BitVec 512) (addr : Nat) : Bool :=
  hgFC d != 0
    && ((List.range 16).all fun l =>
      if l < hgLevels d then decide (4 ≤ hgT d l) && decide (hgT d l ≤ 24) && hgN d l != 0
      else hgT d l == 0 && hgN d l == 0)
    && hgBase d addr % (2 * hgF d) == 0
    && decide (hgBase d addr + hgTables d (hgLevels d) ≤ 2 ^ 56)

/-! ### Corners, indices and weights (R326 to R328) -/

/-- A coordinate in a level: the corner coordinate and the fraction. -/
def hgSplit (d : BitVec 512) (l : Nat) (x : Word) : Nat × Nat :=
  let p := x.toNat * hgN d l
  (p / 2 ^ 32, p % 2 ^ 32)

/-- The coordinates of corner k of a level (R326). -/
def hgCorner (d : BitVec 512) (l k : Nat) (xs : List Word) : List Nat :=
  xs.zipIdx.map fun p => (hgSplit d l p.1).1 + bitsAt k p.2 1

/-- The hash constants K0 to K7 (R327). -/
def hgK : List Nat :=
  [0x00000001, 0x9C4A6E35, 0x3D1B58C7, 0xB5E29A4F, 0x6A9F03D1, 0xE34C7B29, 0x1F87C6AB, 0xC2D5E40D]

/-- The index of a corner in its level's table: dense or hashed (R327). -/
def hgIndex (d : BitVec 512) (l : Nat) (cs : List Nat) : Nat :=
  let n := hgN d l
  if (n + 1) ^ hgD d ≤ 2 ^ hgT d l then
    cs.zipIdx.foldl (fun s p => s + p.1 * (n + 1) ^ p.2) 0
  else
    let h := (List.zipWith (fun c k => c * k % 2 ^ 32) cs hgK).foldl (fun h x => h ^^^ x) 0
    let h := h ^^^ (h / 2 ^ 16)
    let h := h * 0x6B43A9B5 % 2 ^ 32
    h / 2 ^ (32 - hgT d l)

/-- The byte address of a level's entry (R325). -/
def hgEntry (d : BitVec 512) (addr l index : Nat) : Nat :=
  (hgBase d addr + hgTables d l + index * (2 * hgF d)) % 2 ^ 56

/-- One weight factor v / 2^32: its L16 field, or none where it is zero (R328). -/
def hgFactor (v : Nat) : Option Int :=
  if v ≤ 1 then none else some (fieldExact 9 v (-32) 0)

/-- The weight of corner k of a level (R328). -/
def hgWeight (d : BitVec 512) (l k : Nat) (xs : List Word) : LogVal :=
  let fs := xs.zipIdx.map fun p =>
    let f := (hgSplit d l p.1).2
    hgFactor (if k.testBit p.2 then f else 2 ^ 32 - f)
  if fs.any (·.isNone) then .zero
  else
    let sum := (fs.filterMap id).foldl (· + ·) 0
    if sum < -16383 then .zero else .fin false sum

/-- The corners of a descriptor in the order of R159: level, then corner. -/
def hgCorners (d : BitVec 512) : List (Nat × Nat) :=
  (List.range (hgLevels d)).flatMap fun l => (List.range (2 ^ hgD d)).map fun k => (l, k)

/-- The entry address of a corner. -/
def hgVa (d : BitVec 512) (addr : Nat) (xs : List Word) (lk : Nat × Nat) : Nat :=
  hgEntry d addr lk.1 (hgIndex d lk.1 (hgCorner d lk.1 lk.2 xs))

/-- The coordinates in the registers of a block. -/
def State.hgCoords (s : State) (t : Thread) (d : BitVec 512) (a : Code) : List Word := s.regs t a (hgD d)

/-! ### HGCFG (R157) -/

/-- The trap HGDESC of every member, with an address. -/
def State.trapDesc (s : State) (u : Issue) (i : Instr) (ms : List Nat) (addr : Nat) : State :=
  if ms.isEmpty then s.setPcs u.threads (u.next i)
  else s.trapMembers u i ms (ms.map fun n => (n, causeHGDESC, BitVec.ofNat 64 addr, 0)) []

/-- The descriptor that HGCFG has read becomes the group's (R157). -/
def State.putDesc (s : State) (g : GroupRef) (va : Nat) (bs : List Byte) : State :=
  s.modGroup g fun x => { x with hg := some (BitVec.ofNat 512 (ofBytesLE (bs.take 64))), hgAt := va }

/-- Whether 64 bytes at an address are a descriptor that keeps its limits (R157, R325). -/
def descOk (bs : List Byte) (va : Nat) : Bool := hgOk (BitVec.ofNat 512 (ofBytesLE (bs.take 64))) va

/-- HGCFG: one load per issue of the descriptor into the group's state (R157). -/
def execHgcfg (h : Hd) (a : Code) (imm : BitVec 32) (s : State) : Result :=
  issued (.hgcfg h a imm) s fun u ms s =>
    let i : Instr := .hgcfg h a imm
    match u.engine, ms with
    | .lane g, m :: _ =>
      let va := s.globalVa (.lane (g.at m)) a imm
      let fail (s : State) (cause : Nat) : State :=
        s.trapMembers u i ms (ms.map fun k => (k, cause, BitVec.ofNat 64 va, 0)) []
      if va % 64 ≠ 0 then fail s causeALIGN
      else
        match s.translateNow (g.at m) (fun p => p.cls == .hashedGrid) va false with
        | (s, .error f) => fail s (f.cause false)
        | (s, .ok p) =>
          if p.cls ≠ .hashedGrid then s.trapDesc u i ms va
          else if p.peer.isSome then s.askPeer u i ms (.config ms) { sc := 4 } va p
          else
            let (s, bs) := s.readThrough (g.at m) p va 64
            if descOk bs va then (s.putDesc g va bs).setPcs u.threads (u.next i) else s.trapDesc u i ms va
    | _, _ => s.setPcs u.threads (u.next i)

/-! ### HGLD (R159, R329) -/

/-- The descriptor of a group with the address it was loaded from. -/
def State.hgState (s : State) (e : Engine) : Option (BitVec 512 × Nat) :=
  match e with
  | .lane g => (s.group g).bind fun x : Group => x.hg.map fun d => (d, x.hgAt)
  | _ => none

/-- HGLD: each member's request names the entries of all its corners (R159). -/
def execHgld (h : Hd) (d a : Code) (s : State) : Result :=
  issued (.hgld h d a) s fun u ms s =>
    match s.hgState u.engine with
    | none => s.trapDesc u (.hgld h d a) ms 0
    | some (desc, addr) =>
      s.openMem u (.hgld h d a) ms { sc := 4 } fun s l =>
        let xs := s.hgCoords (.lane l) desc a
        .request (.hgld d desc xs) ((hgCorners desc).map (hgVa desc addr xs))

/-- round16: the one rounding of a tree result to L16 (R329). -/
def round16 : LogVal → LogVal × Word
  | .fin s f => finishLog l16 false s (rneShift f 3)
  | v => (v, 0)

/-- One result of HGLD: level l, feature j, over the entries' bytes in corner order (R159, R329). -/
def hgInterpolate (d : BitVec 512) (xs : List Word) (l j : Nat) (entries : List (List Byte)) : Half × Word :=
  let leaves := entries.zipIdx.map fun p =>
    nodeProduct (toNode (hgWeight d l p.2 xs))
      (toNode (l16.decode (ofBytesLE ((p.1.drop (2 * j)).take 2))))
  let (t, f) := tree12 (hgD d) leaves
  let (r, g) := round16 t
  (BitVec.ofNat 16 (l16.encode r), f ||| g)

/-- The result block of HGLD and its flags, from the bytes of every entry in the order of R159. -/
def hgResults (d : BitVec 512) (xs : List Word) (entries : List (List Byte)) : List Word × Word :=
  let rs := (List.range (hgLevels d)).flatMap fun l =>
    let es := (entries.drop (l * 2 ^ hgD d)).take (2 ^ hgD d)
    (List.range (hgF d)).map fun j => hgInterpolate d xs l j es
  (wordsOfBytes (rs.flatMap fun r => toBytesLE 2 r.1.toNat), rs.foldl (fun f r => f ||| r.2) 0)

/-! ### HGSCAT (R160, R330) -/

/-- The products of one request: level l, corner k, feature pair j, from the gradient register (R330). -/
def hgProducts (w : LogVal) (g : Word) : (LogVal × LogVal) × Word :=
  let lo := logMul w (l16.decode (slice g 0 16).toNat)
  let hi := logMul w (l16.decode (slice g 16 16).toNat)
  ((lo.1, hi.1), lo.2 ||| hi.2)

/-- HGSCAT: each member sends one request of the built-in method (add, .l16x2) for every level, corner and feature pair,
in the order of R160. -/
def execHgscat (h : Hd) (a b : Code) (s : State) : Result :=
  issued (.hgscat h a b) s fun u ms s =>
    match s.hgState u.engine with
    | none => s.trapDesc u (.hgscat h a b) ms 0
    | some (desc, addr) =>
      let half := hgF desc / 2
      s.openMem u (.hgscat h a b) ms { sc := 4, counted := true } fun s l =>
        let xs := s.hgCoords (.lane l) desc a
        let gs := s.regs (.lane l) b (hgValues (some desc))
        let parts := (hgCorners desc).flatMap fun lk =>
          let w := hgWeight desc lk.1 lk.2 xs
          let va := hgVa desc addr xs lk
          (List.range half).map fun j => (va + 4 * j, hgProducts w (gs.getD (lk.1 * half + j) 0))
        .request (.hgscat (parts.map fun p => p.2.1) (parts.foldl (fun f p => f ||| p.2.2) 0)) (parts.map (·.1))

/-- G9add of an exact product into a half: a zero product leaves it unchanged (R330). -/
def addProduct (m : Half) (p : LogVal) : Half × Word :=
  if p = .zero then (m, 0)
  else
    let r := logAdd l16 false (l16.decode m.toNat) p
    (BitVec.ofNat 16 (l16.encode r.1), r.2)

/-- The add of a scatter: the word after it, and the flags of its two halves (R330). -/
def addWord (m : Word) (p : LogVal × LogVal) : Word × Word :=
  let lo := addProduct (slice m 0 16) p.1
  let hi := addProduct (slice m 16 16) p.2
  (hi.1 ++ lo.1, lo.2 ||| hi.2)

/-! ### HGIDX (R161) -/

/-- HGIDX: a level or a corner out of range traps HGDESC (R161). -/
def execHgidx (h : Hd) (v : BitVec 4) (d a : Code) (level : BitVec 4) (corner : BitVec 8) (s : State) : Result :=
  issued (.hgidx h v d a level corner) s fun u ms s =>
    let i : Instr := .hgidx h v d a level corner
    match s.hgState u.engine with
    | none => s.trapDesc u i ms 0
    | some (desc, addr) =>
      let l := level.toNat
      let k := corner.toNat
      if hgLevels desc ≤ l ∨ 2 ^ hgD desc ≤ k then s.trapDesc u i ms 0
      else
        let write (s : State) : State := match u.engine with
          | .lane g => if ms.isEmpty then s else s.lineWritten g (lineMask d (if v = 2 then 2 else 1))
          | _ => s
        ((write s).applyAll (ms.map fun n =>
          let t := u.engine.thread n
          let xs := s.hgCoords t desc a
          let w : RegWrite :=
            if v = 0 then .r32 d (BitVec.ofNat 32 (hgIndex desc l (hgCorner desc l k xs)))
            else if v = 1 then .r32 d (BitVec.ofNat 32 (l16.encode (hgWeight desc l k xs)))
            else .r64 d (BitVec.ofNat 64 (hgVa desc addr xs (l, k)))
          (t, { regs := [w] }))).setPcs u.threads (u.next i)

end Sys2Proof.Machine
end

