-- ==== Sys2Proof/Machine/Select.lean ====
section
/-! DEFINITION. Which run a group issues next and what it needs (R241 to R245): selection, readiness, the register lines
that it waits for, and the instruction that a fetch gives (R33, R36). -/

namespace Sys2Proof.Machine

open Sys2Proof

/-! ### Selection (R242) -/

/-- The further issues that may pass over the run at a PC before its oldest lane is late. -/
def dueOf (ls : List (BitVec 56 × Nat)) (pc : BitVec 56) : Nat :=
  63 - ((ls.filter fun l => l.1 == pc).map (·.2)).foldl max 0

/-- The lowest PC of a list. -/
def lowestPc : List (BitVec 56) → Option (BitVec 56)
  | [] => none
  | p :: ps =>
    match lowestPc ps with
    | none => some p
    | some q => some (if p.toNat ≤ q.toNat then p else q)

/-- Whether some set of runs could no longer all be served in time. -/
def tight (ls : List (BitVec 56 × Nat)) : Bool :=
  let dues := (ls.map (·.1)).dedup.map (dueOf ls)
  (List.range 64).any fun d => decide (d + 1 ≤ (dues.filter fun x => decide (x ≤ d)).length)

/-- The PC that select of R242 chooses among ready lanes: their PCs, pass counts and yield marks. -/
def selectPc (ls : List (BitVec 56 × Nat × Bool)) : Option (BitVec 56) :=
  let passes := ls.map fun l => (l.1, l.2.1)
  let pcs := (ls.map (·.1)).dedup
  if tight passes then
    let least := (pcs.map (dueOf passes)).foldl min 63
    lowestPc (pcs.filter fun p => dueOf passes p == least)
  else
    match lowestPc ((ls.filter fun l => !l.2.2).map (·.1)) with
    | some p => some p
    | none => lowestPc pcs

/-- Whether a lane has met the failure of a peer's data past which it has gone on: it issues no more until the trap
(R295, R354, log 66). -/
def Group.stopped (g : Group) (i : Nat) : Bool :=
  g.opens.any fun o => o.gone && (g.handler.isNone || o.inHandler)
    && o.parts.any fun p => p.lane == i && p.st.isFailed

/-- The lanes of a group that are ready: inside a handler only its lanes (R241, R296). -/
def Group.ready (g : Group) : List Nat :=
  (List.range g.lanes.length).filter fun i =>
    ((g.lanes[i]?).map fun x : Lane => x.wait == .ready).getD false && !g.stopped i
      && (match g.handler with
        | none => true
        | some h => h.contains i)

/-- The lanes among which the next issue chooses: those that a resumption issues first, else every ready lane (R258). -/
def Group.choices (g : Group) : List Nat :=
  let first := g.ready.filter g.reissue.contains
  if first.isEmpty then g.ready else first

/-- The run that the group issues next: its PC and its lanes (R241, R242). -/
def Group.selection (g : Group) : Option (BitVec 56 × List Nat) :=
  let ls := g.choices.filterMap fun i => (g.lanes[i]?).map fun x : Lane => (i, x)
  match selectPc (ls.map fun p => (p.2.pc, p.2.pass, p.2.yielded)) with
  | none => none
  | some pc => some (pc, (ls.filter fun p => p.2.pc == pc).map (·.1))

/-- A lane after a selection: its mark is cleared, and a ready lane's pass count is 0 or one more (R242). -/
def Lane.selected (x : Lane) (ready inRun : Bool) : Lane :=
  { x with yielded := false, pass := if ready && !inRun then x.pass + 1 else 0 }

/-- The group after a selection at a moment. -/
def Group.select (g : Group) (run : List Nat) (tick : Nat) : Group :=
  let ready := g.ready
  { g with lanes := g.lanes.zipIdx.map fun p => p.1.selected (ready.contains p.2) (run.contains p.2),
           reissue := g.reissue.filter fun i => !run.contains i, lastIssue := tick }

/-! ### The walk scheduler (R291) -/

/-- The quad whose walk scheduler serves a request. -/
def State.walkQuad (s : State) (r : Req) : Option Nat :=
  match r.owner with
  | .lane l => some (quadOfCore (s.coreOf l.cid l.team))
  | _ => none

/-- The walks in flight at a quad: the instruction and the region of each (R291). -/
def State.walksAt (s : State) (quad : Nat) : List (Nat × Nat) :=
  (s.reqs.filterMap fun r => match r.stage with
    | .walking region => if s.walkQuad r == some quad then some (r.issue, region) else none
    | _ => none).dedup

/-- How many walks of an instruction are in flight. -/
def walksOf (ws : List (Nat × Nat)) (issue : Nat) : Nat := (ws.filter fun w => w.1 == issue).length

/-- Whether a quad's scheduler takes a walk of an instruction that has none in flight and waits for none: a slot is free, and
no instruction that waits has as few walks in flight, each of them being older (R291, log 82). -/
def State.walkFree (s : State) (quad : Nat) : Bool :=
  let ws := s.walksAt quad
  decide (ws.length < 16) && s.reqs.all fun q =>
    !(q.stage == .walk && s.walkQuad q == some quad) || decide (0 < walksOf ws q.issue)

/-- Whether what a fetch of a core has done needs no walk slot, or finds one: it has missed in no cache, as TLBMISS shows
(R197, R291). -/
def State.fetchFree (s t : State) (core : Nat) : Bool :=
  (t.core core).counters.get 0 3 == (s.core core).counters.get 0 3 || s.walkFree (quadOfCore core)

/-! ### Readiness (R66, R243, R245, R260, R269) -/

/-- Whether a request of a lane may still set its flags (R66). -/
def ReqKind.setsFlags : ReqKind → Bool
  | .atomic _ ty _ _ _ => decide (2 ≤ ty)
  | .comb .. | .hgld .. | .hgscat .. => true
  | _ => false

/-- Whether an instruction reads or writes memory within its issue, so that it waits for its lanes' acquires; and whether
it reads global memory, so that it also waits for their earlier accesses (R267). -/
def accessesNow : Instr → Bool × Bool
  | .lds .. | .sts .. | .ldc .. | .stc .. | .atoms .. => (true, false)
  | .ldgu .. | .hgcfg .. | .cpy .. | .cpyb .. | .cpyt .. => (true, true)
  | _ => (false, false)

/-- Whether an instruction may walk within its issue, so that it waits for a walk slot (R137, R141, R142, R143, R157, R165, R195,
R291). -/
def walksNow : Instr → Bool
  | .ldgu .. | .hgcfg .. | .cpy .. | .cpyb .. | .cpyt .. | .pref .. | .touch .. | .cctl .. | .rte _ => true
  | _ => false

/-- Whether an SREAD reads LSW or GSW. -/
def readsFlags : Instr → Bool
  | .sread _ _ _ n => n == 0x09 || n == 0x0A
  | _ => false

/-- Whether an SREAD reads the flags of every lane of its group. -/
def readsGsw : Instr → Bool
  | .sread _ _ _ n => n == 0x0A
  | _ => false

/-- Whether a request may still set the flags that an SREAD of a lane returns: its own requests, and for GSW those of every
lane of the group, so that what it shows of each lane is a prefix (R66); that it is always the longest is the model's choice
(log 86). -/
def Req.mayFlag (r : Req) (l : LaneRef) (i : Instr) : Bool :=
  readsFlags i && r.kind.setsFlags && (match r.owner with
    | .lane k => k == l || (readsGsw i && k.gr == l.gr)
    | _ => false)

/-- Whether an instruction reads or replaces its group's hashed-grid state (R157 to R161, R192). -/
def usesHg : Instr → Bool
  | .hgcfg .. | .hgld .. | .hgscat .. | .hgidx .. => true
  | .sread _ _ _ n => decide (0x1C ≤ n.toNat) && decide (n.toNat ≤ 0x1F)
  | _ => false

/-- Whether a descriptor for a lane's group is on its way from a peer (R157, R354). -/
def State.configComes (s : State) (l : LaneRef) : Bool :=
  s.reqs.any fun r => r.feeds l && (match r.kind with
    | .config _ => true
    | _ => false)

/-- Whether a member lane has what an instruction needs: no operand is pending, and what it must wait for has performed. -/
def State.laneAvailable (s : State) (l : LaneRef) (i : Instr) (os : List Opnd) : Bool :=
  (os.all fun o => (List.range o.n).all fun j => !s.isPending l (o.code + BitVec.ofNat 8 j))
    && (!usesHg i || !s.configComes l)
    && (!(accessesNow i).1 || s.reqs.all fun r => !(r.ofLane l && r.acq))
    && (!(accessesNow i).2 || (s.unsplit && s.reqs.all fun r => !r.ofLane l || r.performedAt 2 (s.fused l.cid)))
    && s.reqs.all fun r => !r.mayFlag l i

/-- Whether a member's access of a window, or its use of the hashed-grid state, fails, so that it writes no register (R138,
R140, R161). -/
def State.writesNothing (s : State) (g : GroupRef) (i : Instr) (k : Nat) : Bool :=
  let off (core : Option Nat) (o : Int) (n : Nat) : Bool := (s.winFault g.cid core o n).isSome
  match i with
  | .lds _ v _ _ a imm => off none (scratchOff a imm s (.lane (g.at k))) (widthBytes v)
  | .ldc _ v _ _ a core imm => off (some core.toNat) (clusterOff a imm s (.lane (g.at k))) (widthBytes v)
  | .atoms _ _ md _ a _ _ imm => off none (scratchOff a imm s (.lane (g.at k))) (atomicBytes (slice md 2 2).toNat)
  | .hgidx .. => (s.hgOf (.lane g)).isNone
  | _ => false

/-- Whether an instruction accesses its destination lines as it issues: not one whose requests write them later, which wait
for the lines then, and not one whose every member fails (R244, R245, R260). -/
def State.writesAtIssue (s : State) (g : GroupRef) (i : Instr) (ms : List Nat) : Bool :=
  match i with
  | .ldg .. | .ldgRc .. | .promote .. | .atom .. | .comb .. | .hgld .. | .dgst .. => false
  | _ => !ms.all (s.writesNothing g i)

/-- The register lines that an instruction's members access and that are not cached: the live ones wait for a fill, the dead
ones need room (R244, R245). An instruction that traps UNDEF or PRIV accesses none (R33). -/
def State.wants (s : State) (g : GroupRef) (x : Group) (i : Instr) (ms : List Nat) : BitVec 48 :=
  if !legalFor (.lane g) x.hg x.handler.isSome i || !s.capable (.lane g) i then 0
  else linesOf ((operandsOf x.hg i).filter fun o => !o.dest || s.writesAtIssue g i ms) false &&& ~~~x.cached

/-- Whether an instruction is available to a run: its members' operands, the register lines that it touches, room for
the dead ones among them, and a walk slot where it may walk. -/
def State.available (s : State) (g : GroupRef) (u : Issue) (i : Instr) : Bool :=
  match s.group g with
  | none => false
  | some x =>
    let ms := u.members s i
    ms.isEmpty || (s.linesReady g (s.wants g x i ms) && (!walksNow i || s.walkFree (quadOfCore (s.coreOf g.cid g.team)))
      && ms.all fun k => s.laneAvailable (g.at k) i (operandsOf x.hg i))

/-! ### The instruction at a PC (R33, R35, R36) -/

/-- What a fetch and its decoding give: the instruction; the cause, address and TAUX of a trap; or nothing yet, while a peer
owes the word at an address. -/
inductive Decoded where
  | instr (i : Instr)
  | trap (cause addr aux : Nat)
  | owed (target va : Nat)
  deriving DecidableEq, Repr

/-- The instruction at a PC, as a block's fetch gives it. -/
def State.fetchDecode (s : State) (x : Fetcher) (pc : BitVec 56) : State × Decoded :=
  match s.fetch x pc with
  | (s, .fault va cause aux) => (s, .trap cause va aux)
  | (s, .owed target va) => (s, .owed target va)
  | (s, .words ws) =>
    match decodeWords ws with
    | .ok i => (s, .instr i)
    | .error _ => (s, .trap causeUNDEF 0 0)

/-- The word at a PC that a handler returns to, which RTE needs and a peer owes (R195). -/
def State.owedReturn (s : State) (x : Fetcher) (t : TrapRegs) (i : Instr) : Option (Nat × Nat) :=
  match i with
  | .rte _ =>
    if t.done = 0 then none
    else
      match (s.fetchWord x (alignPc (t.pc.truncate 56)).toNat).2 with
      | .owed target va => some (target, va)
      | _ => none
  | _ => none

/-- The instruction that an engine issues at a PC, with the word that a peer owes before it can. -/
def State.engineDecode (s : State) (x : Fetcher) (t : TrapRegs) (pc : BitVec 56) : State × Decoded :=
  match s.fetchDecode x pc with
  | (s', .instr i) =>
    match s.owedReturn x t i with
    | some (target, va) => (s', .owed target va)
    | none => (s', .instr i)
  | r => r

/-- Whether a group is ready for its port: it has a run, and what the run's instruction needs is there (R243). -/
def State.groupReady (s : State) (g : GroupRef) (x : Group) : Bool :=
  match x.selection with
  | none => false
  | some (pc, run) =>
    let r := s.engineDecode (s.fetchCore g.cid g.team) x.trap pc
    s.fetchFree r.1 (s.coreOf g.cid g.team) && (match r.2 with
      | .trap .. => true
      | .owed _ _ => false
      | .instr i => s.available g ⟨.lane g, run, pc⟩ i)

/-- The register lines that wait for a fill: those that the instruction of the selected run touches, and those that the
group's requests in flight and waiting DGSTs are to write (R245). -/
def State.wantedLines (s : State) (g : GroupRef) (x : Group) : BitVec 48 :=
  let now := match x.selection with
    | none => 0
    | some (pc, run) =>
      match (s.engineDecode (s.fetchCore g.cid g.team) x.trap pc).2 with
      | .instr i =>
        let ms := Issue.members ⟨.lane g, run, pc⟩ s i
        if ms.isEmpty then 0 else s.wants g x i ms
      | _ => 0
  let coming := s.reqs.foldl (fun m r => match r.owner with
    | .lane l => if l.gr = g then r.kind.dests.foldl (fun m d => m ||| lineMask d.1 d.2) m else m
    | _ => m) (0 : BitVec 48)
  let digests := x.lanes.foldl (fun m y => match y.wait with
    | .digest d _ => m ||| lineMask d 2
    | _ => m) (0 : BitVec 48)
  (now ||| coming ||| digests) &&& x.live &&& ~~~x.cached

end Sys2Proof.Machine
end

