-- ==== Sys2Proof/Machine/Control.lean ====
section
/-! DEFINITION. Control transfer, yield and pause, barriers, tokens, register liveness and software traps (R93 to
R104). -/

namespace Sys2Proof.Machine

open Sys2Proof

/-- A number of 4-byte words from a PC (R93). -/
def branchTarget (pc : BitVec 56) (disp : BitVec 32) : BitVec 56 := pc + (disp.signExtend 56 <<< 2)

/-- The PC of each thread of a run: members go to their target, the others past the instruction (R27, R93). -/
def State.goTo (s : State) (u : Issue) (i : Instr) (ms : List Nat) (target : Nat → BitVec 56) : State :=
  u.run.foldl (fun s n => s.setPc (u.engine.thread n) (if ms.contains n then target n else u.next i)) s

/-- BRA (R93). A wave whose branch leaves its method's code and end address aborts. -/
def execBra (h : Hd) (disp : BitVec 32) (s : State) : Result :=
  issued (.bra h disp) s fun u ms s =>
    let pc := branchTarget u.pc disp
    match u.engine with
    | .method n =>
      let outside (w : Wave) : Bool :=
        decide (pc.toNat < w.entry.toNat) || decide (w.entry.toNat + w.code.length < pc.toNat)
      if !ms.isEmpty && ((s.sliceAt n).wave.map outside).getD false then
        s.modWave n fun w => { w with stop := some .target }
      else s.goTo u (.bra h disp) ms fun _ => pc
    | _ => s.goTo u (.bra h disp) ms fun _ => pc

/-- CALL: LINK := next, then as BRA (R93). -/
def execCall (h : Hd) (disp : BitVec 32) (s : State) : Result :=
  issued (.call h disp) s fun u ms s =>
    let s := ms.foldl (fun s n => s.setLink (u.engine.thread n) ((u.next (.call h disp)).zeroExtend 64)) s
    s.goTo u (.call h disp) ms fun _ => branchTarget u.pc disp

/-- A transfer through a register (R94): members with a misaligned target trap ALIGN and leave LINK as it was; the
members beside them stay on the instruction, to be reissued. -/
def jumpTo (i : Instr) (link : Bool) (target : State → Thread → DWord) (s : State) : Result :=
  issued i s fun u ms s =>
    let dest (n : Nat) : BitVec 56 := (target s (u.engine.thread n)).truncate 56
    let bad := ms.filter fun n => slice (dest n) 0 2 != 0
    if bad.isEmpty then
      let pcs := ms.map fun n => (n, dest n)
      let s := if link then ms.foldl (fun s n => s.setLink (u.engine.thread n) ((u.next i).zeroExtend 64)) s else s
      s.goTo u i ms fun n => ((pcs.find? fun p => p.1 == n).map (·.2)).getD 0
    else s.trapMembers u i ms (bad.map fun n => (n, causeALIGN, (dest n).zeroExtend 64, 0)) []

/-- JMP (R94). -/
def execJmp (h : Hd) (a : Code) (s : State) : Result := jumpTo (.jmp h a) false (fun s t => s.reg64 t a) s

/-- CALLR (R94). -/
def execCallr (h : Hd) (a : Code) (s : State) : Result := jumpTo (.callr h a) true (fun s t => s.reg64 t a) s

/-- RET (R94). -/
def execRet (h : Hd) (s : State) : Result := jumpTo (.ret h) false (fun s t => s.link t) s

/-- EXIT ends the members (R96); a handler whose lanes have all exited ends (R296). -/
def execExit (h : Hd) (s : State) : Result :=
  issued (.exit h) s fun u ms s =>
    let s := s.goTo u (.exit h) ms fun _ => u.pc
    match u.engine with
    | .lane g => (ms.foldl (fun (s : State) n => s.modLane (g.at n) fun x => { x with wait := .exited }) s).endHandlerByExit g
    | .control q => if ms.isEmpty then s else s.modControl q fun c => { c with wait := .exited }
    | .method _ => s

/-- YIELD marks the members for the next selection (R97). -/
def execYield (h : Hd) (s : State) : Result :=
  issued (.yield h) s fun u ms s =>
    let s := match u.engine with
      | .lane g => ms.foldl (fun (s : State) n => s.modLane (g.at n) fun x => { x with yielded := true }) s
      | _ => s
    s.setPcs u.threads (u.next (.yield h))

/-- PAUSE: the members wait for at least n cycles of their core; n = 0 does not wait (R98). -/
def execPause (h : Hd) (v : BitVec 4) (a : Code) (n : BitVec 32) (s : State) : Result :=
  issued (.pause h v a n) s fun u ms s =>
    let next := u.next (.pause h v a n)
    let count (k : Nat) : Nat := if v = 0 then (s.reg32 (u.engine.thread k) a).toNat else n.toNat
    let waits := (ms.filter fun k => count k != 0).map fun k => (k, count k)
    let s := s.setPcs ((u.run.filter fun k => !(waits.map (·.1)).contains k).map u.engine.thread) next
    match u.engine with
    | .lane g => waits.foldl (fun (s : State) w => s.hold (g.at w.1) (.paused w.2) next) s
    | _ => s

/-! ### Barriers (R99 to R101) -/

/-- An arrival counts (R99): it joins the phase that is open now, which the lane remembers; a sync then waits for it,
an arrive goes on. -/
def State.countArrival (s : State) (l : LaneRef) (cluster : Bool) (b n : Nat) (cd : Option CBit) : State :=
  let p := (s.barrier l cluster b).phase
  let s := s.modLane l fun x =>
    if cluster then { x with lastCluster := x.lastCluster.set b p } else { x with lastTeam := x.lastTeam.set b p }
  let s := match cd with
    | none => s.wake l
    | some c => s.modLane l fun x => { x with wait := .barrier cluster b p c }
  if cluster then s.arriveCluster l.cid b n else s.arriveTeam l.cid l.team b n false

/-- The scope at which a lane's earlier accesses must have performed before its arrival counts (R99, R101). -/
def arrivalScope (cluster : Bool) : BitVec 3 := if cluster then 3 else 2

/-- BAR and BARC: every member is held; a waiter waits for the phase it last arrived at, or the open one; an arrival
counts in lane order where the lane's earlier accesses have performed, and otherwise when they have
(BARRIER_ARRIVAL). -/
def barrierOp (i : Instr) (cluster : Bool) (v : BitVec 4) (cd : CBit) (b n : Nat) (s : State) : Result :=
  issued i s fun u ms s =>
    let next := u.next i
    let s := s.setPcs ((u.run.filter fun k => !ms.contains k).map u.engine.thread) next
    match u.engine with
    | .lane g =>
      if v = 1 then
        ms.foldl (fun s k =>
          let l := g.at k
          let open' := (s.barrier l cluster b).phase
          let p := ((s.lane l).map fun x : Lane => (if cluster then x.lastCluster else x.lastTeam).get open' b).getD open'
          (s.hold l (.barrier cluster b p cd) next).poke l) s
      else
        let cd' := if v = 0 then none else some cd
        let s := ms.foldl (fun s k => s.hold (g.at k) (.arriving cluster b n cd') next) s
        ms.foldl (fun s k =>
          if s.performed (g.at k) (arrivalScope cluster) then s.countArrival (g.at k) cluster b n cd' else s) s
    | _ => s

/-- BAR (R99). -/
def execBar (h : Hd) (v : BitVec 4) (cd : CBit) (b : BitVec 4) (n : BitVec 14) (s : State) : Result :=
  barrierOp (.bar h v cd b n) false v cd b.toNat n.toNat s

/-- BARC (R101). -/
def execBarc (h : Hd) (v : BitVec 4) (cd : CBit) (b : BitVec 4) (n : BitVec 14) (s : State) : Result :=
  barrierOp (.barc h v cd b n) true v cd b.toNat n.toNat s

/-! ### Tokens (R102) -/

/-- The quad that holds a team's core, by its number in the cluster (R102, R240). -/
def State.ownQuad (s : State) (cid team : Nat) : Nat :=
  let qc := ((s.gridOf cid).map (·.launch.qc)).getD 1
  team / (2 * qc) / 2 * qc + team % (2 * qc) / 2

/-- The quad that a token operand selects; none when it is not below the cluster's quad count. -/
def State.tokenQuad (s : State) (cid team : Nat) (tok : BitVec 9) : Option Nat :=
  if tok.getLsbD 8 then
    let q := (slice tok 6 2).toNat
    if q < ((s.cluster cid).map (·.quads.length)).getD 0 then some q else none
  else some (s.ownQuad cid team)

/-- The trap SPACE of a quad index outside the cluster: every member, TDONE empty, TAUX the index (R102, R194); TADDR, for
which these instructions have no offset, is 0 (log 57). -/
def State.trapQuad (s : State) (u : Issue) (i : Instr) (ms : List Nat) (tok : BitVec 9) : State :=
  if ms.isEmpty then s.setPcs u.threads (u.next i)
  else s.trapMembers u i ms (ms.map fun n => (n, causeSPACE, 0, (slice tok 6 2).zeroExtend 64)) []

/-- TWAIT: each member waits until the token has reached its value (R102). -/
def execTwait (h : Hd) (a : Code) (tok : BitVec 9) (s : State) : Result :=
  issued (.twait h a tok) s fun u ms s =>
    match u.engine with
    | .lane g =>
      match s.tokenQuad g.cid g.team tok with
      | none => s.trapQuad u (.twait h a tok) ms tok
      | some q =>
        let next := u.next (.twait h a tok)
        let s := s.setPcs ((u.run.filter fun n => !ms.contains n).map u.engine.thread) next
        ms.foldl (fun s n =>
          let l := g.at n
          (s.hold l (.token q (slice tok 0 6).toNat (s.reg32 (.lane l) a)) next).poke l) s
    | _ => s

/-- The requests that the release of lanes to their cluster and its tile engine waits for: their own that have not
performed at the home slices, where the tile engine acts, and the stores that their L1 still holds (R102, R269, R277). -/
def State.unperformed (s : State) (ls : List LaneRef) : List Nat :=
  (s.reqs.filter fun r => ls.any fun l =>
    (r.ofLane l && !r.performedAt 4 false)
      || (match r.stage with
        | .inL1 c => (s.l1sOf l.cid l.team).contains c
        | _ => false)).map (·.id)

/-- TSIGNAL: each member adds its a, or with .one the lowest member adds once; the add, a release at cluster scope, is
made when the earlier accesses that it covers have performed, and its lane is held until then (R102, R266). -/
def execTsignal (h : Hd) (v : BitVec 4) (a : Code) (tok : BitVec 9) (s : State) : Result :=
  issued (.tsignal h v a tok) s fun u ms s =>
    match u.engine with
    | .lane g =>
      match s.tokenQuad g.cid g.team tok with
      | none => s.trapQuad u (.tsignal h v a tok) ms tok
      | some q =>
        let next := u.next (.tsignal h v a tok)
        let adders := if v = 0 then ms else ms.take 1
        let s := s.setPcs ((u.run.filter fun n => !adders.contains n).map u.engine.thread) next
        adders.foldl (fun s n =>
          let l := g.at n
          let after := s.unperformed (if v = 0 then [l] else ms.map g.at)
          (s.hold l (.signal q (slice tok 0 6).toNat (s.reg32 (.lane l) a) after) next).advanceLane l) s
    | _ => s

/-! ### Liveness and traps (R103, R104) -/

/-- The registers of dead lines discarded: an unlisted register reads 0 (R244). -/
def dropDead (live : BitVec 48) : Table Word → Table Word
  | [] => []
  | (j, x) :: t => if live.getLsbD (j / 4) then (j, x) :: dropDead live t else dropDead live t

/-- LIVE: the lines whose mask bit is 0 die, in every lane of the group (R103). -/
def execLive (h : Hd) (mask : BitVec 48) (s : State) : Result :=
  issued (.live h mask) s fun u ms s =>
    let s := match u.engine with
      | .lane g =>
        if ms.isEmpty then s
        else s.modGroup g fun x : Group =>
          { x with live := x.live &&& mask, cached := x.cached &&& mask, dirty := x.dirty &&& mask,
                   lanes := x.lanes.map fun y : Lane => { y with v := dropDead mask y.v } }
      | _ => s
    s.setPcs u.threads (u.next (.live h mask))

/-- A trap from software: TMASK and TDONE are the members, TAUX is k; no members, no trap (R104). -/
def softTrap (i : Instr) (cause : Nat) (k : BitVec 32) (s : State) : Result :=
  issued i s fun u ms s =>
    if ms.isEmpty then s.setPcs u.threads (u.next i)
    else s.trapMembers u i ms (ms.map fun n => (n, cause, 0, k.zeroExtend 64)) ms

/-- TRAP (R104). -/
def execTrap (h : Hd) (k : BitVec 32) (s : State) : Result := softTrap (.trap h k) causeSWTRAP k s

/-- BRK (R104). -/
def execBrk (h : Hd) (k : BitVec 32) (s : State) : Result := softTrap (.brk h k) causeBRK k s

end Sys2Proof.Machine
end

