-- ==== Sys2Proof/Machine/LogArith.lean ====
section
/-! DEFINITION. The log-arithmetic instructions (R105 to R118). -/

namespace Sys2Proof.Machine

open Sys2Proof

/-! ### One value -/

/-- The largest finite magnitude, or Inf, of a sign: what an overflow by a zero divisor gives, with OF (R106, R108). -/
def LogFmt.blowUp (m : LogFmt) (fin s : Bool) : LogVal × Word :=
  (if fin then .fin s (m.top - 1) else .inf s, flagOF)

/-- LMUL (R108). -/
def logMulV (m : LogFmt) (fin : Bool) (a b : LogVal) : LogVal × Word :=
  let (p, fl) := logMul a b
  let (r, g) := p.finish m fin
  (r, fl ||| g)

/-- LDIV (R108). -/
def logDivV (m : LogFmt) (fin : Bool) (a b : LogVal) : LogVal × Word :=
  match a, b with
  | .nan, _ => (.nan, 0)
  | _, .nan => (.nan, 0)
  | .zero, .zero => (.nan, flagNV)
  | .inf _, .inf _ => (.nan, flagNV)
  | .zero, _ => (.zero, 0)
  | _, .inf _ => (.zero, 0)
  | .inf s, .zero => (.inf s, 0)
  | .inf s, .fin t _ => (.inf (s != t), 0)
  | .fin s _, .zero => m.blowUp fin s
  | .fin s e, .fin t f => finishLog m fin (s != t) (e - f)

/-- LMAD: the exact product and c, one rounding (R113); a NaN operand gives NaN with no flag (R106). -/
def logMadV (m : LogFmt) (fin : Bool) (a b c : LogVal) : LogVal × Word :=
  if c = .nan then (.nan, 0)
  else
    let (p, fl) := logMul a b
    let (r, g) := logAdd m fin p c
    (r, fl ||| g)

/-- x / 2^k rounded to nearest, ties to even. -/
def rneHalf (x : Int) : Int := rneShift x 1

/-- LSQRT (R109). -/
def logSqrtV (a : LogVal) : LogVal × Word :=
  match a with
  | .nan => (.nan, 0)
  | .zero => (.zero, 0)
  | .inf false => (.inf false, 0)
  | .inf true => (.nan, flagNV)
  | .fin true _ => (.nan, flagNV)
  | .fin false e => (.fin false (rneHalf e), 0)

/-- LRSQRT (R109). -/
def logRsqrtV (m : LogFmt) (fin : Bool) (a : LogVal) : LogVal × Word :=
  match a with
  | .nan => (.nan, 0)
  | .zero => m.blowUp fin false
  | .inf false => (.zero, 0)
  | .inf true => (.nan, flagNV)
  | .fin true _ => (.nan, flagNV)
  | .fin false e => finishLog m fin false (rneHalf (-e))

/-- LSQR (R109). -/
def logSqrV (m : LogFmt) (fin : Bool) (a : LogVal) : LogVal × Word :=
  match a with
  | .nan => (.nan, 0)
  | .zero => (.zero, 0)
  | .inf _ => (.inf false, 0)
  | .fin _ e => finishLog m fin false (2 * e)

/-- LRCP (R109). -/
def logRcpV (m : LogFmt) (fin : Bool) (a : LogVal) : LogVal × Word :=
  match a with
  | .nan => (.nan, 0)
  | .zero => m.blowUp fin false
  | .inf _ => (.zero, 0)
  | .fin s e => finishLog m fin s (-e)

/-- LPOWI and LPOWF: the power p / 2^k (R110). -/
def logPowV (m : LogFmt) (fin : Bool) (k : Nat) (p : Int) (a : LogVal) : LogVal × Word :=
  let whole := p % 2 ^ k = 0
  let odd := decide (whole ∧ p / 2 ^ k % 2 = 1)
  match a with
  | .nan => (.nan, 0)
  | .zero => if p = 0 then (.fin false 0, 0) else if 0 < p then (.zero, 0) else m.blowUp fin false
  | .inf s =>
    if p = 0 then (.fin false 0, 0)
    else if s ∧ ¬whole then (.nan, flagNV)
    else if 0 < p then (.inf (s && odd), 0) else (.zero, 0)
  | .fin s e =>
    if p = 0 then (.fin false 0, 0)
    else if s ∧ ¬whole then (.nan, flagNV)
    else finishLog m fin (s && odd) (rneShift (e * p) k)

/-- LSCALE: an offset to the field (R111). -/
def logScaleV (m : LogFmt) (fin : Bool) (k : Int) (a : LogVal) : LogVal × Word :=
  match a with
  | .fin s e => finishLog m fin s (e + k)
  | a => (a, 0)

/-- The order of R115 as an integer key: −Inf, negative finite values, zero, positive finite values, +Inf; none for
NaN. -/
def LogFmt.key (m : LogFmt) (a : LogVal) : Option Int :=
  match a with
  | .nan => none
  | .zero => some 0
  | .inf s => some (if s then m.bot * 4 else -(m.bot * 4))
  | .fin s e => some (if s then m.bot * 2 - e else e - m.bot * 2)

/-- LMIN and LMAX (R115): larger says which; num is the form that passes over a NaN. -/
def logPickV (m : LogFmt) (larger num : Bool) (a b : LogVal) : LogVal :=
  match m.key a, m.key b with
  | some x, some y => if larger then (if x < y then b else a) else (if y < x then b else a)
  | none, some _ => if num then b else .nan
  | some _, none => if num then a else .nan
  | none, none => .nan

/-- LCMP (R116). -/
def logCompare (m : LogFmt) (md : Nat) (a b : LogVal) : Bool :=
  match m.key a, m.key b with
  | some x, some y =>
    match md with
    | 0 => decide (x = y)
    | 1 => decide (x ≠ y)
    | 2 => decide (x < y)
    | 3 => decide (x ≤ y)
    | 4 => decide (y < x)
    | 5 => decide (y ≤ x)
    | 6 => false
    | _ => true
  | _, _ => md == 1 || md == 6

end Sys2Proof.Machine

namespace Sys2Proof

open Machine

/-- The bit of a class in the mask of LCLASS (R117). -/
def LogVal.classBit : LogVal → Nat
  | .nan => 0
  | .inf true => 1
  | .fin true _ => 2
  | .zero => 3
  | .fin false _ => 4
  | .inf false => 5

end Sys2Proof

namespace Sys2Proof.Machine

open Sys2Proof

/-- LEXP2 (R118): the value as a fixed-point number of F fraction bits becomes the field. -/
def logExp2V (m : LogFmt) (fin : Bool) (a : LogVal) : LogVal × Word :=
  match a with
  | .nan => (.nan, 0)
  | .zero => (.fin false 0, 0)
  | .inf false => (.inf false, 0)
  | .inf true => (.zero, 0)
  | .fin s e =>
    let x := magOf m e 0
    let n : Int := Mag.round { x with e := x.e + m.f } 0 s
    finishLog m fin false (if s then -n else n)

/-- LLOG2 (R118): the field as a fixed-point number of F fraction bits becomes a log value. -/
def logLog2V (m : LogFmt) (fin : Bool) (a : LogVal) : LogVal × Word :=
  match a with
  | .nan => (.nan, 0)
  | .zero => m.blowUp fin true
  | .inf false => (.inf false, 0)
  | .inf true => (.nan, flagNV)
  | .fin true _ => (.nan, flagNV)
  | .fin false e =>
    if e = 0 then (.zero, 0) else finishLog m fin (decide (e < 0)) (fieldOf m e.natAbs (-(m.f : Int)) 0)

/-- LCLAMP: the magnitude of a limited to that of b (R114). -/
def logClampV (a b : LogVal) : LogVal :=
  match a, b with
  | .nan, _ => .nan
  | _, .nan => .nan
  | _, .zero => .zero
  | a, .inf _ => a
  | .zero, .fin _ _ => .zero
  | .inf s, .fin _ f => .fin s f
  | .fin s e, .fin _ f => .fin s (if f < e then f else e)

/-! ### The three placements (R29, R60, R105) -/

/-- A function of log values carried out on registers of a form: .32, .16 or .x2. xs are the source registers. -/
def onForm (v : BitVec 4) (f : LogFmt → List LogVal → LogVal × Word) (xs : List Word) : Word × Word :=
  let one (m : LogFmt) (lo : Nat) : Nat × Word :=
    let r := f m (xs.map fun x => m.decode (bitsAt x.toNat lo m.w))
    (m.encode r.1, r.2)
  match (slice v 0 2).toNat with
  | 0 => let r := one l32 0; (BitVec.ofNat 32 r.1, r.2)
  | 1 => let r := one l16 0; (BitVec.ofNat 32 r.1, r.2)
  | _ =>
    let lo := one l16 0
    let hi := one l16 16
    (BitVec.ofNat 32 (lo.1 + 2 ^ 16 * hi.1), lo.2 ||| hi.2)

/-- The effect of a log instruction with destination d on the sources xs. -/
def logEff (v : BitVec 4) (d : Code) (f : LogFmt → List LogVal → LogVal × Word) (xs : List Word) : Eff :=
  let r := onForm v f xs
  { regs := [.r32 d r.1], flags := r.2 }

/-- One source. -/
def log1 (v : BitVec 4) (d a : Code) (f : LogFmt → LogVal → LogVal × Word) (s : State) (t : Thread) : Eff :=
  logEff v d (fun m xs => match xs with | x :: _ => f m x | [] => (.zero, 0)) [s.reg32 t a]

/-- Two sources. -/
def log2 (v : BitVec 4) (d a : Code) (b : SrcB) (f : LogFmt → LogVal → LogVal → LogVal × Word) (s : State)
    (t : Thread) : Eff :=
  logEff v d (fun m xs => match xs with | x :: y :: _ => f m x y | _ => (.zero, 0)) [s.reg32 t a, s.b32 t b]

/-- Three sources. -/
def log3 (v : BitVec 4) (d a : Code) (b : SrcB) (c : Code) (f : LogFmt → LogVal → LogVal → LogVal → LogVal × Word)
    (s : State) (t : Thread) : Eff :=
  logEff v d (fun m xs => match xs with | x :: y :: z :: _ => f m x y z | _ => (.zero, 0))
    [s.reg32 t a, s.b32 t b, s.reg32 t c]

/-! ### The instructions -/

/-- LMUL (R108). -/
def execLmul (h : Hd) (v md : BitVec 4) (d a : Code) (b : SrcB) (s : State) : Result :=
  alu (.lmul h v md d a b) (log2 v d a b fun m => logMulV m (md == 1)) s

/-- LDIV (R108). -/
def execLdiv (h : Hd) (v md : BitVec 4) (d a : Code) (b : SrcB) (s : State) : Result :=
  alu (.ldiv h v md d a b) (log2 v d a b fun m => logDivV m (md == 1)) s

/-- LADD (R112). -/
def execLadd (h : Hd) (v md : BitVec 4) (d a : Code) (b : SrcB) (s : State) : Result :=
  alu (.ladd h v md d a b) (log2 v d a b fun m => logAdd m (md == 1)) s

/-- LSUB: a + (−b) (R112). -/
def execLsub (h : Hd) (v md : BitVec 4) (d a : Code) (b : SrcB) (s : State) : Result :=
  alu (.lsub h v md d a b) (log2 v d a b fun m x y => logAdd m (md == 1) x y.neg) s

/-- LMAD: a · b + c, one rounding (R113). -/
def execLmad (h : Hd) (v md : BitVec 4) (d a : Code) (b : SrcB) (c : Code) (s : State) : Result :=
  alu (.lmad h v md d a b c) (log3 v d a b c fun m => logMadV m (md == 1)) s

/-- LMSB: a · b − c, one rounding (R113). -/
def execLmsb (h : Hd) (v md : BitVec 4) (d a : Code) (b : SrcB) (c : Code) (s : State) : Result :=
  alu (.lmsb h v md d a b c) (log3 v d a b c fun m x y z => logMadV m (md == 1) x y z.neg) s

/-- LSQRT (R109). -/
def execLsqrt (h : Hd) (v : BitVec 4) (d a : Code) (s : State) : Result :=
  alu (.lsqrt h v d a) (log1 v d a fun _ => logSqrtV) s

/-- LRSQRT (R109). -/
def execLrsqrt (h : Hd) (v md : BitVec 4) (d a : Code) (s : State) : Result :=
  alu (.lrsqrt h v md d a) (log1 v d a fun m => logRsqrtV m (md == 1)) s

/-- LSQR (R109). -/
def execLsqr (h : Hd) (v md : BitVec 4) (d a : Code) (s : State) : Result :=
  alu (.lsqr h v md d a) (log1 v d a fun m => logSqrV m (md == 1)) s

/-- LRCP (R109). -/
def execLrcp (h : Hd) (v md : BitVec 4) (d a : Code) (s : State) : Result :=
  alu (.lrcp h v md d a) (log1 v d a fun m => logRcpV m (md == 1)) s

/-- LPOWI: an integer power, read once for the register (R110). -/
def execLpowi (h : Hd) (v md : BitVec 4) (d a : Code) (b : SrcB) (s : State) : Result :=
  alu (.lpowi h v md d a b)
    (fun s t => log1 v d a (fun m => logPowV m (md == 1) 0 (s.b32 t b).toInt) s t) s

/-- LPOWF: a Q15.16 power (R110). -/
def execLpowf (h : Hd) (v md : BitVec 4) (d a : Code) (b : SrcB) (s : State) : Result :=
  alu (.lpowf h v md d a b)
    (fun s t => log1 v d a (fun m => logPowV m (md == 1) 16 (s.b32 t b).toInt) s t) s

/-- LSCALE: an offset in field units, or with .p2 in powers of two (R111). -/
def execLscale (h : Hd) (v md : BitVec 4) (d a : Code) (b : SrcB) (s : State) : Result :=
  alu (.lscale h v md d a b)
    (fun s t => log1 v d a
      (fun m => logScaleV m (md == 1) ((s.b32 t b).toInt * (if v.getLsbD 2 then 2 ^ m.f else 1))) s t) s

/-- LABS (R114). -/
def execLabs (h : Hd) (v : BitVec 4) (d a : Code) (s : State) : Result :=
  alu (.labs h v d a) (log1 v d a fun _ x => (x.abs, 0)) s

/-- LNEG (R114). -/
def execLneg (h : Hd) (v : BitVec 4) (d a : Code) (s : State) : Result :=
  alu (.lneg h v d a) (log1 v d a fun _ x => (x.neg, 0)) s

/-- LMIN (R115). -/
def execLmin (h : Hd) (v : BitVec 4) (d a : Code) (b : SrcB) (s : State) : Result :=
  alu (.lmin h v d a b) (log2 v d a b fun m x y => (logPickV m false (v.getLsbD 2) x y, 0)) s

/-- LMAX (R115). -/
def execLmax (h : Hd) (v : BitVec 4) (d a : Code) (b : SrcB) (s : State) : Result :=
  alu (.lmax h v d a b) (log2 v d a b fun m x y => (logPickV m true (v.getLsbD 2) x y, 0)) s

/-- The format of LCMP and LCLASS: .32 or .16. -/
def cmpFmt (v : BitVec 4) : LogFmt := if slice v 0 2 = 0 then l32 else l16

/-- A register read in the format of LCMP and LCLASS. -/
def cmpVal (v : BitVec 4) (x : Word) : LogVal := (cmpFmt v).decode (bitsAt x.toNat 0 (cmpFmt v).w)

/-- LCMP writes the comparison into c[cd] (R116). -/
def execLcmp (h : Hd) (v md : BitVec 4) (cd : CBit) (a : Code) (b : SrcB) (s : State) : Result :=
  alu (.lcmp h v md cd a b)
    (fun s t => { conds := [(cd, logCompare (cmpFmt v) md.toNat (cmpVal v (s.reg32 t a)) (cmpVal v (s.b32 t b)))] }) s

/-- LCLASS tells whether the class of a is in the mask (R117). -/
def execLclass (h : Hd) (v : BitVec 4) (cd : CBit) (a : Code) (mask : BitVec 6) (s : State) : Result :=
  alu (.lclass h v cd a mask) (fun s t => { conds := [(cd, mask.getLsbD (cmpVal v (s.reg32 t a)).classBit)] }) s

/-- LEXP2 (R118). -/
def execLexp2 (h : Hd) (v md : BitVec 4) (d a : Code) (s : State) : Result :=
  alu (.lexp2 h v md d a) (log1 v d a fun m => logExp2V m (md == 1)) s

/-- LLOG2 (R118). -/
def execLlog2 (h : Hd) (v md : BitVec 4) (d a : Code) (s : State) : Result :=
  alu (.llog2 h v md d a) (log1 v d a fun m => logLog2V m (md == 1)) s

/-- LCLAMP (R114). -/
def execLclamp (h : Hd) (v : BitVec 4) (d a : Code) (b : SrcB) (s : State) : Result :=
  alu (.lclamp h v d a b) (log2 v d a b fun _ x y => (logClampV x y, 0)) s

end Sys2Proof.Machine
end

