-- ==== Sys2Proof/Machine/Convert.lean ====
section
/-! DEFINITION. The conversions between log, IEEE, integer and fixed-point values (R119 to R125). -/

namespace Sys2Proof.Machine

open Sys2Proof

/-- An IEEE value into a log format, with a log offset of S / 512 (R120, R213, R214). -/
def ieeeToLog (t : Ieee) (m : LogFmt) (S : Int) (code : Nat) : LogVal × Word :=
  match t.decode code with
  | .zero => (.zero, 0)
  | .nan => (.nan, 0)
  | .inf s => (.inf s, 0)
  | .fin s x e => finishLog m false s (fieldOf m x e S)

/-- A log value into an IEEE format (R121). -/
def logToIeee (m : LogFmt) (t : Ieee) (S : Int) (a : LogVal) : Nat × Word :=
  match a with
  | .zero => (0, 0)
  | .nan => (t.nan, 0)
  | .inf s => (t.inf s, 0)
  | .fin s e => t.round s (magOf m e S)

/-- An exact integer scaled by 2^−q into a log format (R122). -/
def intToLog (m : LogFmt) (q : Nat) (x : Int) : LogVal × Word :=
  if x = 0 then (.zero, 0) else finishLog m false (decide (x < 0)) (fieldOf m x.natAbs (-(q : Int)) 0)

/-- A log value scaled by 2^q into an integer of w bits (R123): the integer and its flags. -/
def logToInt (m : LogFmt) (signed : Bool) (w q mode : Nat) (wrap : Bool) (a : LogVal) : Int × Word :=
  let lo : Int := if signed then -(2 ^ (w - 1)) else 0
  let hi : Int := if signed then 2 ^ (w - 1) - 1 else 2 ^ w - 1
  match a with
  | .nan => (0, flagNV)
  | .inf s => if wrap then (0, flagNV) else (if s then lo else hi, flagSAT)
  | .zero => (0, 0)
  | .fin s e =>
    let x := magOf m e 0
    let n : Int := Mag.round { x with e := x.e + q } mode s
    let n := if s then -n else n
    if lo ≤ n ∧ n ≤ hi then (n, 0) else if wrap then (n, 0) else (clampInt lo hi n, flagSAT)

/-- The IEEE format that SUB names as source or destination: 0 FP32, 1 FP16, 2 BF16. -/
def ieeeOf (n : Nat) : Ieee := if n = 0 then fp32 else if n = 1 then fp16 else bf16

/-- CVTFL (R120). -/
def execCvtfl (h : Hd) (v md : BitVec 4) (d a b : Code) (s : State) : Result :=
  alu (.cvtfl h v md d a b)
    (fun s t =>
      let src := ieeeOf (slice v 2 2).toNat
      let S : Int := if md = 1 then (s.reg32 t b).toInt else 0
      let x := (s.reg32 t a).toNat
      let one (m : LogFmt) (lo : Nat) : Nat × Word :=
        let r := ieeeToLog src m S (bitsAt x lo src.width)
        (m.encode r.1, r.2)
      let r : Nat × Word := match (slice v 0 2).toNat with
        | 0 => one l32 0
        | 1 => one l16 0
        | _ => ((one l16 0).1 + 2 ^ 16 * (one l16 16).1, (one l16 0).2 ||| (one l16 16).2)
      { regs := [.r32 d (BitVec.ofNat 32 r.1)], flags := r.2 }) s

/-- CVTLF (R121). -/
def execCvtlf (h : Hd) (v : BitVec 4) (d a : Code) (s : State) : Result :=
  alu (.cvtlf h v d a)
    (fun s t =>
      let dst := ieeeOf (slice v 0 2).toNat
      let x := (s.reg32 t a).toNat
      let one (m : LogFmt) (lo : Nat) : Nat × Word := logToIeee m dst 0 (m.decode (bitsAt x lo m.w))
      let r : Nat × Word := match (slice v 2 2).toNat with
        | 0 => one l32 0
        | 1 => one l16 0
        | _ => ((one l16 0).1 + 2 ^ 16 * (one l16 16).1, (one l16 0).2 ||| (one l16 16).2)
      { regs := [.r32 d (BitVec.ofNat 32 r.1)], flags := r.2 }) s

/-- The log format of CVTIL, CVTXL, CVTLI and CVTLX. -/
def cvtFmt (v : BitVec 4) : LogFmt := if slice v 0 2 = 0 then l32 else l16

/-- The integer source of SUB[3:2]: i32, n32, i64, n64. -/
def State.cvtInt (s : State) (t : Thread) (v : BitVec 4) (a : Code) : Int :=
  match (slice v 2 2).toNat with
  | 0 => (s.reg32 t a).toInt
  | 1 => (s.reg32 t a).toNat
  | 2 => (s.reg64 t a).toInt
  | _ => (s.reg64 t a).toNat

/-- CVTIL (R122). -/
def execCvtil (h : Hd) (v : BitVec 4) (d a : Code) (s : State) : Result :=
  alu (.cvtil h v d a)
    (fun s t =>
      let r := intToLog (cvtFmt v) 0 (s.cvtInt t v a)
      { regs := [.r32 d (BitVec.ofNat 32 ((cvtFmt v).encode r.1))], flags := r.2 }) s

/-- CVTXL (R122). -/
def execCvtxl (h : Hd) (v : BitVec 4) (d a : Code) (q : BitVec 6) (s : State) : Result :=
  alu (.cvtxl h v d a q)
    (fun s t =>
      let r := intToLog (cvtFmt v) q.toNat (s.cvtInt t v a)
      { regs := [.r32 d (BitVec.ofNat 32 ((cvtFmt v).encode r.1))], flags := r.2 }) s

/-- The result of CVTLI and CVTLX (R123). -/
def cvtToInt (v md : BitVec 4) (d a : Code) (q : Nat) (s : State) (t : Thread) : Eff :=
  let m := cvtFmt v
  let wide := v.getLsbD 3
  let r := logToInt m (!v.getLsbD 2) (if wide then 64 else 32) q (slice md 0 2).toNat (md.getLsbD 2)
    (m.decode (bitsAt (s.reg32 t a).toNat 0 m.w))
  { regs := [if wide then .r64 d (BitVec.ofInt 64 r.1) else .r32 d (BitVec.ofInt 32 r.1)], flags := r.2 }

/-- CVTLI (R123). -/
def execCvtli (h : Hd) (v md : BitVec 4) (d a : Code) (s : State) : Result :=
  alu (.cvtli h v md d a) (cvtToInt v md d a 0) s

/-- CVTLX (R123). -/
def execCvtlx (h : Hd) (v md : BitVec 4) (d a : Code) (q : BitVec 6) (s : State) : Result :=
  alu (.cvtlx h v md d a q) (cvtToInt v md d a q.toNat) s

/-- narrow: L32 to L16 (R124). -/
def narrowLog (x : Word) : Half × Word :=
  let r : LogVal × Word := match l32.decode x.toNat with
    | .fin s e => finishLog l16 false s (rneShift e 14)
    | a => (a, 0)
  (BitVec.ofNat 16 (l16.encode r.1), r.2)

/-- widen: L16 to L32 (R124). -/
def widenLog (x : Half) : Word :=
  BitVec.ofNat 32 (l32.encode (match l16.decode x.toNat with
    | .fin s e => .fin s (e * 2 ^ 14)
    | a => a))

/-- CVTLL (R124). -/
def execCvtll (h : Hd) (v : BitVec 4) (d a b : Code) (s : State) : Result :=
  alu (.cvtll h v d a b)
    (fun s t =>
      let x := s.reg32 t a
      match v.toNat with
      | 0 => { regs := [.r32 d ((narrowLog x).1.zeroExtend 32)], flags := (narrowLog x).2 }
      | 1 => { regs := [.r32 d (widenLog (slice x 0 16))] }
      | 2 =>
        let y := narrowLog (s.reg32 t b)
        { regs := [.r32 d (y.1 ++ (narrowLog x).1)], flags := (narrowLog x).2 ||| y.2 }
      | _ => { regs := [.r32 d (widenLog (slice x 16 16))] }) s

/-- LFLD extracts or inserts a log field (R125). -/
def execLfld (h : Hd) (v : BitVec 4) (d a b : Code) (s : State) : Result :=
  alu (.lfld h v d a b)
    (fun s t =>
      let x := s.reg32 t a
      let y := s.reg32 t b
      let r : Word := match v.toNat with
        | 0 => (slice x 0 31).signExtend 32
        | 1 => (slice x 0 15).signExtend 32
        | 2 => slice x 31 1 ++ slice y 0 31
        | _ => (slice x 15 1 ++ slice y 0 15 : BitVec 16).zeroExtend 32
      { regs := [.r32 d r] }) s

end Sys2Proof.Machine
end

