-- ==== Sys2Proof/Machine/CopyQueue.lean ====
section
/-! DEFINITION. The copy queues (R163 to R176, R276): descriptors and their limits, the conversions, footprints, the
moves of a command, acceptance, and the seven instructions. -/

namespace Sys2Proof.Machine

open Sys2Proof

/-! ### The descriptor (R166) -/

/-- One side of a command: its space, the team whose window it names, its swizzle, its base, its scale-array base, and
its format code. -/
structure CopySide where
  space : Nat
  team : Nat
  swz : Nat
  base : Nat
  scales : Nat
  fmt : Nat
  deriving DecidableEq, Repr

/-- A descriptor read for a team: both sides, mode, extra value, offset, the flags SSE, DSE, NANX, and the dimensions
with extent and strides. reserved holds the fields that are 0 in a legal descriptor. -/
structure CopyDesc where
  src : CopySide
  dst : CopySide
  ndim : Nat
  mode : Nat
  x : Half
  scl : Half
  sse : Bool
  dse : Bool
  nanx : Bool
  dims : List (Nat × Int × Int)
  reserved : Nat
  deriving DecidableEq, Repr

/-- The descriptor in 256 bytes, for a command of a team; a global base is a 56-bit address. -/
def CopyDesc.parse (bs : List Byte) (team : Nat) : CopyDesc :=
  let n := ofBytesLE bs
  let fld (off bytes : Nat) : Nat := bitsAt n (8 * off) (8 * bytes)
  let ctrl := fld 0x10 4
  let cores := fld 0x28 4
  let bit (i : Nat) : Bool := ctrl.testBit i
  let side (space core swz base scales fmt : Nat) : CopySide :=
    ⟨space, if space = 2 then core else team, swz, if space = 0 then base % 2 ^ 56 else base,
      if space = 0 then scales % 2 ^ 56 else scales, fmt⟩
  { src := side (bitsAt ctrl 16 2) (bitsAt cores 0 4) (bitsAt ctrl 20 3) (fld 0 8) (fld 0x18 8) (bitsAt ctrl 4 4)
    dst := side (bitsAt ctrl 18 2) (bitsAt cores 4 4) (bitsAt ctrl 23 3) (fld 8 8) (fld 0x20 8) (bitsAt ctrl 8 4)
    ndim := bitsAt ctrl 0 4
    mode := bitsAt ctrl 12 4
    x := BitVec.ofNat 16 (fld 0x14 2)
    scl := BitVec.ofNat 16 (fld 0x16 2)
    sse := bit 27
    dse := bit 28
    nanx := bit 26
    dims := (List.range (bitsAt ctrl 0 4)).map fun k =>
      (fld (0x60 + 16 * k) 4, sextNat 48 (fld (0x64 + 16 * k) 6), sextNat 48 (fld (0x6A + 16 * k) 6))
    reserved := bitsAt ctrl 29 3 + cores / 2 ^ 8 + fld 0x2C 52 }

/-- Bits of an element of a format code (R166). -/
def copyBits (fmt : Nat) : Nat := [32, 16, 16, 32, 16, 8, 4, 1, 8, 16, 32, 64].getD fmt 8

/-- Whether MODE, the formats and the scale arrays are a row of R167. -/
def copyModeOk (mode sf df : Nat) (sse dse : Bool) : Bool :=
  let ieee (f : Nat) : Bool := decide (f ≤ 2)
  let log (f : Nat) : Bool := decide (3 ≤ f) && decide (f ≤ 6)
  match mode with
  | 0 => sf == df && !sse && !dse
  | 1 => ieee sf && log df && !sse && !dse
  | 2 => ieee sf && (df == 5 || df == 6) && !sse && dse
  | 3 => log sf && ieee df && (!sse || sf == 5 || sf == 6) && !dse
  | 4 => (sf == 3 || sf == 4) && df == 6 && !sse && dse
  | 5 => decide (sf ≤ 4) && df == 7 && !sse && !dse
  | 6 => sf == 6 && (df == 3 || df == 4) && !dse
  | 7 => sf == 7 && (df == 3 || df == 4) && !sse && !dse
  | _ => false

/-- The elements of a command. -/
def CopyDesc.total (d : CopyDesc) : Nat := d.dims.foldl (fun n k => n * k.1) 1

/-- Whether a descriptor is legal in a cluster of a number of cores (R167, R169); the core index of a side counts only where
that side is cluster scratch (log 61). -/
def CopyDesc.ok (d : CopyDesc) (cores : Nat) : Bool :=
  let side (x : CopySide) : Bool :=
    decide (x.fmt ≤ 11) && x.space != 3 && (x.space != 2 || decide (x.team < cores))
      && x.base % ((copyBits x.fmt + 7) / 8) == 0
  d.reserved == 0 && decide (1 ≤ d.ndim) && decide (d.ndim ≤ 10) && d.scl != 0x8000
    && side d.src && side d.dst && copyModeOk d.mode d.src.fmt d.dst.fmt d.sse d.dse
    && d.dims.all (fun k => k.1 != 0) && decide (d.total < 2 ^ 40)

/-- EXT of dimension 0. -/
def CopyDesc.ext0 (d : CopyDesc) : Nat := (d.dims.head?.map (·.1)).getD 1
/-- Blocks of a row (R58). -/
def CopyDesc.rowBlocks (d : CopyDesc) : Nat := (d.ext0 + 31) / 32
/-- Rows: index tuples over the dimensions above 0. -/
def CopyDesc.rows (d : CopyDesc) : Nat := d.total / d.ext0

/-! ### Footprints (R170) -/

/-- The lowest and the highest byte of a side's elements, as logical offsets: before any swizzle (R170, log 59). -/
def elementSpan (x : CopySide) (steps : List (Nat × Int)) : Int × Int :=
  let w : Int := copyBits x.fmt
  let lo := steps.foldl (fun (n : Int) k => n + min 0 (((k.1 : Int) - 1) * k.2)) 0
  let hi := steps.foldl (fun (n : Int) k => n + max 0 (((k.1 : Int) - 1) * k.2)) 0
  ((8 * (x.base : Int) + lo * w) / 8, (8 * (x.base : Int) + hi * w + w - 1) / 8)

/-- The footprints of a side: its elements, and its scale array where one is in use. -/
def CopyDesc.spans (d : CopyDesc) (x : CopySide) (steps : List (Nat × Int)) (array : Bool) : List (Int × Int) :=
  elementSpan x steps ::
    (if array then [((x.scales : Int), (x.scales : Int) + 2 * (d.rows * d.rowBlocks) - 1)] else [])

/-- Whether a command's footprints forbid it (R170). Cluster scratch of two different cores is two spaces (log 59). -/
def CopyDesc.overlaps (d : CopyDesc) : Bool :=
  let same := (d.src.space == 0 && d.dst.space == 0)
    || (d.src.space != 0 && d.dst.space != 0 && d.src.team == d.dst.team)
  let inPlace := d.mode == 0 && d.src.base == d.dst.base && d.dims.all fun k => k.2.1 == k.2.2
  let a := d.spans d.src (d.dims.map fun k => (k.1, k.2.1)) d.sse
  let b := d.spans d.dst (d.dims.map fun k => (k.1, k.2.2)) d.dse
  same && !inPlace && a.any fun p => b.any fun q => decide (p.1 ≤ q.2) && decide (q.1 ≤ p.2)

/-! ### Reading and writing elements (R169, R171) -/

/-- n bytes that a copy of a lane's team reads at a virtual address. -/
def State.copyReadGlobal (s : State) (l : LaneRef) (va n : Nat) : State × Except Fail (List Byte) :=
  match s.translateCore (s.coreOf l.cid l.team) anyPage va false with
  | (s, .error f) => (s, .error (f.cause false, va, 0))
  | (s, .ok p) => s.readNow p va n (if p.noL1 then [] else [s.l1Of l.cid l.team (lineOf (p.pa va))])

/-- Masked bytes that an engine writes at a page; a write to a combining page fails as a lane's does (R129). -/
def State.writeNow (s : State) (p : Page) (va : Nat) (bs : List MByte) : State × Except Fail Unit :=
  if p.cls = .combining then (s, .error (causePROT, va, 0))
  else
    match p.peer with
    | some dev =>
      match s.peerFault dev va with
      | some c => (s, .error (c, va, dev))
      | none => (s, .ok ())
    | none => (s.homeWrite (p.pa va) bs, .ok ())

/-- Masked bytes that a copy of a lane's team writes at a virtual address. -/
def State.copyWriteGlobal (s : State) (l : LaneRef) (va : Nat) (bs : List MByte) : State × Except Fail Unit :=
  match s.translateCore (s.coreOf l.cid l.team) storePage va true with
  | (s, .error f) => (s, .error (f.cause true, va, 0))
  | (s, .ok p) => s.writeNow p va bs

/-- The addresses of an access: one of n bytes where it is aligned, else byte by byte. -/
def accessParts (a n : Nat) : List (Nat × Nat) := if a % n = 0 then [(a, n)] else (List.range n).map fun i => (a + i, 1)

/-- The value of n bytes of a side at a byte position. -/
def State.sideRead (s : State) (l : LaneRef) (x : CopySide) (pos : Int) (n : Nat) : State × Except Fail Nat :=
  if x.space = 0 then
    let va := (pos % (2 ^ 56 : Int)).toNat
    let r := (accessParts va n).foldl (fun (acc : State × Except Fail (List Byte)) p =>
      match acc.2 with
      | .error c => (acc.1, .error c)
      | .ok bs =>
        match acc.1.copyReadGlobal l (p.1 % 2 ^ 56) p.2 with
        | (s, .error c) => (s, .error c)
        | (s, .ok more) => (s, .ok (bs ++ more))) (s, .ok [])
    (r.1, r.2.map ofBytesLE)
  else if pos < 0 ∨ (s.winSize l.cid : Int) < pos + n then (s, .error (causeSPACE, 0, 0))
  else (s, .ok (ofBytesLE (s.winRead l.cid x.team x.swz pos.toNat n)))

/-- Masked bytes written to a side at a byte position, with the store records that they make (R338). -/
def State.sideWrite (s : State) (l : LaneRef) (x : CopySide) (pos : Int) (bs : List MByte) :
    State × Except Fail (List StoreRecord) :=
  if x.space = 0 then
    let va := (pos % (2 ^ 56 : Int)).toNat
    let r := (accessParts va bs.length).foldl (fun (acc : State × Except Fail Unit) p =>
      match acc.2 with
      | .error c => (acc.1, .error c)
      | .ok _ => acc.1.copyWriteGlobal l (p.1 % 2 ^ 56) ((bs.drop (p.1 - va)).take p.2)) (s, .ok ())
    (r.1, r.2.map fun _ => storeRecords va bs)
  else if pos < 0 ∨ (s.winSize l.cid : Int) < pos + bs.length then (s, .error (causeSPACE, 0, 0))
  else (s.winWrite l.cid x.team x.swz pos.toNat bs, .ok [])

/-- An element of a side at a bit position. -/
def State.readElem (s : State) (l : LaneRef) (x : CopySide) (bit : Int) : State × Except Fail Nat :=
  let w := copyBits x.fmt
  let r := s.sideRead l x (bit / 8) ((w + 7) / 8)
  (r.1, r.2.map fun v => bitsAt v (bit % 8).toNat w)

/-- An element written at a bit position, with a mask of its own bits (R169). -/
def State.writeElem (s : State) (l : LaneRef) (x : CopySide) (bit : Int) (v : Nat) :
    State × Except Fail (List StoreRecord) :=
  s.sideWrite l x (bit / 8) (maskedOfBits (bit % 8).toNat (copyBits x.fmt) v).2

/-- Block scale k of a side; the side's swizzle applies to its scale array in scratch, too (R169, log 58). -/
def State.readScale (s : State) (l : LaneRef) (x : CopySide) (k : Nat) : State × Except Fail Nat :=
  s.sideRead l x ((x.scales : Int) + 2 * k) 2

/-- Block scale k of a side written, under the same swizzle (log 58). -/
def State.writeScale (s : State) (l : LaneRef) (x : CopySide) (k v : Nat) : State × Except Fail (List StoreRecord) :=
  s.sideWrite l x ((x.scales : Int) + 2 * k) ((toBytesLE 2 v).map MByte.whole)

/-- Whether block scale k of a side could be written: a write of no bits, before the block's last element is delivered; a
scale that fails stops the command there, and that element is the failing one (R169, log 62). -/
def State.probeScale (s : State) (l : LaneRef) (x : CopySide) (k : Nat) : State × Except Fail (List StoreRecord) :=
  s.sideWrite l x ((x.scales : Int) + 2 * k) [⟨0, 0⟩, ⟨0, 0⟩]

/-! ### Conversions (R167, R168) -/

/-- The exact value of a source element: a class, a number m · 2^e, or a log field with its fraction bits. plain marks
the extra value, to which neither block scale nor SCL applies. -/
inductive CopyVal where
  | zero
  | nan
  | inf (s : Bool)
  | num (s : Bool) (m : Nat) (e : Int)
  | log (s : Bool) (f : Int) (frac : Nat) (plain : Bool)
  deriving DecidableEq, Repr

/-- The log format of a format code. -/
def copyLog (fmt : Nat) : LogFmt := if fmt = 3 then l32 else if fmt = 4 then l16 else if fmt = 5 then l8 else l4

/-- The extra value X (R55). -/
def extraVal (x : Half) : CopyVal :=
  match l16.decode x.toNat with
  | .zero => .zero
  | .nan => .nan
  | .inf s => .inf s
  | .fin s e => .log s e 9 true

/-- The exact value of a source code under its block scale (R57, R59). -/
def CopyDesc.value (d : CopyDesc) (code : Nat) (scale : Option Nat) : CopyVal :=
  let f := d.src.fmt
  if f ≤ 2 then
    match (ieeeOf f).decode code with
    | .zero => .zero
    | .nan => .nan
    | .inf s => .inf s
    | .fin s m e => .num s m e
  else if f = 7 then (if code = 1 then extraVal d.x else .zero)
  else if scale = some 0x8000 then .zero
  else if f = 6 ∧ code = 0xC then extraVal d.x
  else
    match (copyLog f).decode code with
    | .zero => .zero
    | .nan => .nan
    | .inf s => .inf s
    | .fin s e =>
      if f = 3 then .log s e 23 false
      else .log s (e * 2 ^ (9 - (copyLog f).f) + ((scale.map fun x : Nat => (BitVec.ofNat 16 x).toInt).getD 0)) 9 false

/-- A log field of frac bits with an offset S / 512, as a field of F bits, rounded to nearest, ties to even. -/
def relogField (f : Int) (frac : Nat) (S : Int) (F : Nat) : Int :=
  let x := f + S * 2 ^ (frac - 9)
  if frac ≤ F then x * 2 ^ (F - frac) else rneShift x (frac - F)

/-- A value into a log format with the offset S / 512; every log destination saturates (R167). nanx writes 0xC for a
NaN into L4. -/
def intoLog (m : LogFmt) (isL4 nanx : Bool) (S : Int) (v : CopyVal) : Nat × Word :=
  let done (r : LogVal × Word) : Nat × Word := (m.encode r.1, r.2)
  match v with
  | .zero => (m.encode .zero, 0)
  | .nan => if !isL4 then (m.encode .nan, 0) else if nanx then (0xC, 0) else (m.encode .zero, flagNV)
  | .inf s => if m.hasInf then (m.encode (.inf s), 0) else (m.encode (.fin s m.maxFin), flagOF)
  | .num s x e => done (finishSat m s (fieldOf m x e S))
  | .log s f frac plain => done (finishSat m s (relogField f frac (if plain then 0 else S) m.f))

/-- A value into an IEEE format with the offset S / 512 (R121, R167, R215). -/
def intoIeee (t : Ieee) (S : Int) (v : CopyVal) : Nat × Word :=
  match v with
  | .zero => (0, 0)
  | .nan => (t.nan, 0)
  | .inf s => (t.inf s, 0)
  | .num s m e => t.round s ⟨m, e, false⟩
  | .log s f frac plain =>
    let S := if plain then 0 else S
    t.round s (if frac = 23 then magOfL32 (f + S * 2 ^ 14) else magOf512 (f + S))

/-- Whether a value is above zero (SGN). -/
def CopyVal.positive : CopyVal → Bool
  | .inf s => !s
  | .num s _ _ => !s
  | .log s _ _ _ => !s
  | _ => false

/-- The destination code of a source value and its flags; S is SCL, less the block scale that the copy chose (R167). -/
def CopyDesc.convert (d : CopyDesc) (S : Int) (v : CopyVal) : Nat × Word :=
  if d.dst.fmt = 7 then (if v.positive then 1 else 0, 0)
  else if d.dst.fmt ≤ 2 then intoIeee (ieeeOf d.dst.fmt) S v
  else intoLog (copyLog d.dst.fmt) (d.dst.fmt == 6) (d.nanx && (d.mode == 2 || d.mode == 4)) S v

/-- ceil(512 · log2) of a number m · 2^e. -/
def ceilLog512 (m : Nat) (e : Int) : Int := (Nat.log2 (m ^ 512) : Int) + (if isPow2 m then 0 else 1) + 512 * e

/-- ceil(512 · log2 |v|) of a finite non-zero element, the extra value included. -/
def CopyVal.ceil512 : CopyVal → Option Int
  | .num _ m e => some (ceilLog512 m e)
  | .log _ f frac _ => some (-((-f) / 2 ^ (frac - 9)))
  | _ => none

/-- The block scale that a block's exact logarithms choose for a destination whose top code has the log T / 512
(R168); none of them gives 0x8000. -/
def blockScale (T : Int) (logs : List Int) : Int :=
  match logs with
  | [] => -32768
  | m :: ms => clampInt (-32767) 32767 (ms.foldl max m - T)

/-- 512 times the logarithm of the top code of L8 or L4 (R168). -/
def topLog512 (isL4 : Bool) : Int := if isL4 then 768 else 4032

/-! ### The moves of a command (R169, R171) -/

/-- A command under way: what it has delivered, and the cause that stopped it. -/
structure CopyMove where
  s : State
  elems : Nat
  flags : Word
  records : List StoreRecord
  cause : Option Fail

/-- Stop with a cause. -/
def CopyMove.stop (m : CopyMove) (s : State) (c : Fail) : CopyMove := { m with s := s, cause := some c }

/-- The element offsets of a row, source and destination (R169). -/
def CopyDesc.rowOffset (d : CopyDesc) (row : Nat) : Int × Int :=
  let r := (d.dims.drop 1).foldl (fun (acc : Nat × Int × Int) k =>
    let i : Int := (acc.1 % k.1 : Nat)
    (acc.1 / k.1, acc.2.1 + i * k.2.1, acc.2.2 + i * k.2.2)) (row, 0, 0)
  r.2

/-- The bit positions of an element: row, and index in dimension 0. -/
def CopyDesc.positions (d : CopyDesc) (row i : Nat) : Int × Int :=
  let o := d.rowOffset row
  let st := (d.dims.head?.map (·.2)).getD (1, 1)
  (8 * (d.src.base : Int) + (o.1 + i * st.1) * copyBits d.src.fmt,
   8 * (d.dst.base : Int) + (o.2 + i * st.2) * copyBits d.dst.fmt)

/-- An element delivered: its destination code and flags. -/
def CopyMove.deliver (m : CopyMove) (l : LaneRef) (d : CopyDesc) (bit : Int) (out : Nat × Word) : CopyMove :=
  match m.s.writeElem l d.dst bit out.1 with
  | (s, .error c) => m.stop s c
  | (s, .ok rs) =>
    { m with s := s, elems := m.elems + 1, flags := m.flags ||| out.2, records := m.records ++ rs }

/-- One element of a command that chooses no block scale. -/
def CopyMove.element (m : CopyMove) (l : LaneRef) (d : CopyDesc) (row i : Nat) (scale : Option Nat) : CopyMove :=
  if m.cause.isSome then m
  else
    let pos := d.positions row i
    match m.s.readElem l d.src pos.1 with
    | (s, .error c) => m.stop s c
    | (s, .ok code) =>
      { m with s := s }.deliver l d pos.2
        (if d.mode = 0 then (code, 0) else d.convert d.scl.toInt (d.value code scale))

/-- The elements of a block read in order, before any is written. -/
def CopyMove.readBlock (m : CopyMove) (l : LaneRef) (d : CopyDesc) (row : Nat) (is : List Nat) :
    State × Except Fail (List CopyVal) :=
  is.foldl (fun (acc : State × Except Fail (List CopyVal)) i =>
    match acc.2 with
    | .error c => (acc.1, .error c)
    | .ok vs =>
      match acc.1.readElem l d.src (d.positions row i).1 with
      | (s, .error c) => (s, .error c)
      | (s, .ok code) => (s, .ok (vs ++ [d.value code none]))) (m.s, .ok [])

/-- One block of a command: in modes 2 and 4 the block's scale is chosen from all of its elements and written with the
last one (R168, R169). -/
def CopyMove.block (m : CopyMove) (l : LaneRef) (d : CopyDesc) (k : Nat) : CopyMove :=
  if m.cause.isSome then m
  else
    let row := k / d.rowBlocks
    let first := 32 * (k % d.rowBlocks)
    let is := (List.range (min 32 (d.ext0 - first))).map fun j => first + j
    if d.mode = 2 ∨ d.mode = 4 then
      match m.readBlock l d row is with
      | (s, .error c) => m.stop s c
      | (s, .ok vs) =>
        let logs := (vs.filterMap (·.ceil512)).map fun x => x + d.scl.toInt
        let sc := blockScale (topLog512 (d.dst.fmt == 6)) logs
        let S := d.scl.toInt - (if logs.isEmpty then 0 else sc)
        let m := (List.zip is vs).foldl (fun (m : CopyMove) p =>
          if m.cause.isSome then m
          else
            let bit := (d.positions row p.1).2
            if p.1 + 1 = first + is.length then
              match m.s.probeScale l d.dst k with
              | (s, .error c) => m.stop s c
              | (s, .ok _) => { m with s := s }.deliver l d bit (d.convert S p.2)
            else m.deliver l d bit (d.convert S p.2)) { m with s := s }
        if m.cause.isSome then m
        else
          match m.s.writeScale l d.dst k (sc % 2 ^ 16).toNat with
          | (s, .error c) => m.stop s c
          | (s, .ok rs) => { m with s := s, records := m.records ++ rs }
    else
      let r := if d.sse then m.s.readScale l d.src k else (m.s, .ok 0)
      match r with
      | (s, .error c) => m.stop s c
      | (s, .ok sc) =>
        is.foldl (fun (m : CopyMove) i => m.element l d row i (if d.sse then some sc else none)) { m with s := s }

/-- A command of a lane performed: the checks, then every element in order (R167 to R171). -/
def State.runCopy (s : State) (l : LaneRef) (bytes : List Byte) : State × CopyRun :=
  let d := CopyDesc.parse bytes l.team
  if !d.ok (((s.cluster l.cid).map (·.teams.length)).getD 0) then (s, ⟨.desc, 0, 0, [], none, 0⟩)
  else if d.overlaps then (s, ⟨.overlap, 0, 0, [], none, 0⟩)
  else
    let m := (List.range (d.rows * d.rowBlocks)).foldl (fun (m : CopyMove) k => m.block l d k)
      { s := s, elems := 0, flags := 0, records := [], cause := none }
    (m.s, ⟨match m.cause with
      | none => .done
      | some c => .fault c.1, m.elems, m.flags, m.records, m.cause.bind Fail.owed, 0⟩)

/-! ### Queues (R164, R173, R175) -/

/-- The copy stream of a lane folds the ended commands at the head of its list (R340). -/
def Lane.foldCopies (digest : Bool) (x : Lane) : Lane :=
  let ended := x.copies.takeWhile fun c => c.2.isSome
  { x with copies := x.copies.drop ended.length,
           cp := if digest then (ended.flatMap fun c => c.2.getD []).foldl foldRecord x.cp else x.cp }

/-- A copy command of a lane has ended, or was discarded, with the records of what it delivered (R338, R340). -/
def State.endCopy (s : State) (l : LaneRef) (id : Nat) (rs : List StoreRecord) : State :=
  let digest := s.digestOn l.cid
  s.modLane l fun x =>
    Lane.foldCopies digest { x with copies := x.copies.map fun c => if c.1 = id then (id, some rs) else c }

/-- What a command's ending signals (R172). -/
def State.signalCopy (s : State) (l : LaneRef) (e : CopyEnding) (ok : Bool) : State :=
  match e with
  | .cpy => s
  | .cpyb b n => s.arriveTeam l.cid l.team b n (!ok)
  | .cpyt q t inc => if ok then s.addToken ⟨l.cid, q⟩ t inc else s

/-- The depth of a queue (R164). -/
def queueDepth : Nat := 16

/-- An entry accepted into a queue. -/
def State.pushEntry (s : State) (q : QueueRef) (e : QueueEntry) : State :=
  s.modQueue q fun x => { x with entries := x.entries ++ [e], accepted := x.accepted + 1 }

/-- Whether a lane of the same instruction below this one still waits, for its descriptor or for the queue: members enter in lane
order (R165). -/
def Group.lowerWaits (g : Group) (op lane : Nat) : Bool :=
  ((g.openOf op).map fun o : Open => o.parts.any fun p => decide (p.lane < lane) && p.st == .waiting).getD false

/-- A lane whose command or fence its queue can take enters it (R165, R173); another lane stays as it is. -/
def State.tryEnter (s : State) (l : LaneRef) : State :=
  match s.group l.gr, (s.lane l).map fun x : Lane => x.wait with
  | some g, some (.enqueue op q desc e) =>
    let ref : QueueRef := ⟨l.cid, l.team, q⟩
    let room := ((s.queue ref).map fun x : CopyQueue => decide (x.entries.length < queueDepth)).getD false
    if room && !g.lowerWaits op l.lane then
      let (id, s) := s.fresh
      let s := s.pushEntry ref (.command id l desc e none)
      let s := s.modLane l fun x => { x with wait := .held op, copies := x.copies ++ [(id, none)] }
      (s.setPart l.gr op l.lane .performed).settle l.gr op
    else s
  | some g, some (.enqueueFence op q mask stores) =>
    let ref : QueueRef := ⟨l.cid, l.team, q⟩
    let room := ((s.queue ref).map fun x : CopyQueue => decide (x.entries.length < queueDepth)).getD false
    if room then
      let triples := ((List.range 4).filter fun k => mask.testBit k).filterMap fun k =>
        (s.queue ⟨l.cid, l.team, k⟩).map fun x : CopyQueue => (k, x.accepted, x.epoch)
      let s := s.pushEntry ref (.fence triples stores)
      let s := s.modLane l fun x => { x with wait := .held op }
      let members := ((g.openOf op).map fun o : Open => o.parts.map (·.lane)).getD []
      (members.foldl (fun s k => s.setPart l.gr op k .performed) s).settle l.gr op
    else s
  | _, _ => s

/-- Whether a queue is held (R164). -/
def CopyQueue.held (x : CopyQueue) : Bool := x.state != 0

/-- The status word of R175. -/
def CopyQueue.status (x : CopyQueue) : DWord :=
  let elem : BitVec 40 := if x.held then x.elem else
    match x.entries.head? with
    | some (.command _ _ _ _ (some r)) => BitVec.ofNat 40 r.elems
    | _ => 0
  let state : BitVec 3 := if x.held then x.state else if x.entries.isEmpty then 0 else 1
  elem ++ x.done ++ BitVec.ofNat 5 x.entries.length ++ x.flags ++ x.cause ++ state

/-! ### CPY, CPYB, CPYT (R165, R172) -/

/-- The four aligned parts of a descriptor. -/
def descParts (va : Nat) : List Nat := (List.range 4).map fun k => (va + 64 * k) % 2 ^ 56

/-- The pages of a descriptor's parts, or the first failure: cause and address (R165). -/
def State.descPages (s : State) (l : LaneRef) : List Nat → State × Except (Nat × Nat) (List Page)
  | [] => (s, .ok [])
  | a :: as =>
    match s.translateNow l anyPage a false with
    | (s, .error f) => (s, .error (f.cause false, a))
    | (s, .ok p) =>
      match s.descPages l as with
      | (s, .error e) => (s, .error e)
      | (s, .ok ps) => (s, .ok (p :: ps))

/-- The bytes of a descriptor whose parts lie in this device's reach. -/
def State.descBytes (s : State) (l : LaneRef) : List (Page × Nat) → State × List Byte
  | [] => (s, [])
  | (p, a) :: rest =>
    let (s, bs) := s.readThrough l p a 64
    let (s, more) := s.descBytes l rest
    (s, bs ++ more)

/-- What a member finds when it reads its descriptor at issue: its bytes, a failure with cause and address, or the pages of a
descriptor that lies in part at a peer. -/
inductive DescRead where
  | bytes (bs : List Byte)
  | failed (cause addr : Nat)
  | remote (ps : List Page)
  deriving DecidableEq, Repr

/-- A 256-byte descriptor read at issue as four aligned parts of 64 bytes (R165). -/
def State.readDesc (s : State) (l : LaneRef) (va : Nat) : State × DescRead :=
  if va % 64 ≠ 0 then (s, .failed causeALIGN va)
  else
    match s.descPages l (descParts va) with
    | (s, .error e) => (s, .failed e.1 e.2)
    | (s, .ok ps) =>
      if ps.any fun p => p.peer.isSome then (s, .remote ps)
      else
        let r := s.descBytes l (List.zip ps (descParts va))
        (r.1, .bytes r.2)

/-- The request of a member for a descriptor that lies in part at a peer (R299). -/
def State.askDesc (s : State) (g : GroupRef) (op k q va : Nat) (e : CopyEnding) (ps : List Page) : State :=
  let (id, s) := s.fresh
  let r : Req := { Req.make id (.lane (g.at k)) op op (.descriptor q e) { sc := 4 } (descParts va) 0 with
    pas := List.zipWith Page.target ps (descParts va), stage := .ready, peer := ps.findSome? (·.peer),
    noL1 := ps.any (·.noL1), left := 4 }
  ({ s with reqs := s.reqs ++ [r] }).sendParts r

/-- The issue of a copy instruction: each member reads its descriptor in lane order and enters its command where the
queue has room, else it waits (R165). -/
def copyIssue (i : Instr) (q : BitVec 2) (ea : State → Thread → Nat) (ending : State → GroupRef → Nat → Option CopyEnding)
    (tok : BitVec 9) (s : State) : Result :=
  issued i s fun u ms s =>
    match u.engine with
    | .lane g =>
      match ms.mapM fun k => ending s g k with
      | none => s.trapQuad u i ms tok
      | some ends =>
        let next := u.next i
        let s := s.setPcs ((u.run.filter fun n => !ms.contains n).map u.engine.thread) next
        if ms.isEmpty then s
        else
          let (op, s) := s.fresh
          let vas := ms.map fun k => ea s (.lane (g.at k))
          let (s, reads) := (List.zip ms (List.zip vas ends)).foldl
            (fun (acc : State × List (Nat × DescRead × Nat × CopyEnding)) p =>
              let r := acc.1.readDesc (g.at p.1) p.2.1
              (r.1, acc.2 ++ [(p.1, r.2, p.2)])) (s, [])
          let parts := reads.map fun p => Part.mk p.1 (match p.2.1 with
            | .failed c a => .failed c (BitVec.ofNat 64 a) 0
            | _ => .waiting)
          let s := s.openParts g u op false parts next
          let s := reads.foldl (fun (s : State) p =>
            match p.2.1 with
            | .bytes d => s.modLane (g.at p.1) fun x => { x with wait := .enqueue op q.toNat d p.2.2.2 }
            | .remote ps => s.askDesc g op p.1 q.toNat p.2.2.1 p.2.2.2 ps
            | .failed _ _ => s) s
          reads.foldl (fun (s : State) p => s.tryEnter (g.at p.1)) s
    | _ => s

/-- CPY (R165). -/
def execCpy (h : Hd) (q : BitVec 2) (a : Code) (imm : BitVec 32) (s : State) : Result :=
  copyIssue (.cpy h q a imm) q (fun s t => s.globalVa t a imm) (fun _ _ _ => some .cpy) 0 s

/-- CPYB (R165, R172). -/
def execCpyb (h : Hd) (q : BitVec 2) (a : Code) (b : BitVec 4) (n : BitVec 14) (s : State) : Result :=
  copyIssue (.cpyb h q a b n) q (fun s t => s.globalVa t a 0) (fun _ _ _ => some (.cpyb b.toNat n.toNat)) 0 s

/-- CPYT (R165, R172): a token of a quad outside the cluster traps SPACE. -/
def execCpyt (h : Hd) (q : BitVec 2) (a b : Code) (tok : BitVec 9) (s : State) : Result :=
  copyIssue (.cpyt h q a b tok) q (fun s t => s.globalVa t a 0)
    (fun s g k => (s.tokenQuad g.cid g.team tok).map fun n =>
      .cpyt n (slice tok 0 6).toNat (s.reg32 (.lane (g.at k)) b)) tok s

/-! ### QFENCE, QWAIT, QSTAT, QRESET (R173 to R176) -/

/-- The stores, STNs, atomics and REDs of lanes that have not performed at device scope, with the stores that their L1
holds (R173). -/
def State.pendingWrites (s : State) (ls : List LaneRef) : List Nat :=
  (s.reqs.filter fun r => ls.any fun l =>
    (r.ofLane l && (match r.kind with
        | .store _ | .atomic .. => true
        | _ => false))
      || (match r.stage with
        | .inL1 c => (s.l1sOf l.cid l.team).contains c
        | _ => false)).map (·.id)

/-- QFENCE: one entry per issue; a full queue holds the members (R173). -/
def execQfence (h : Hd) (q : BitVec 2) (md mask : BitVec 4) (s : State) : Result :=
  issued (.qfence h q md mask) s fun u ms s =>
    match u.engine, ms with
    | .lane g, m :: _ =>
      let i : Instr := .qfence h q md mask
      let next := u.next i
      let s := s.setPcs ((u.run.filter fun n => !ms.contains n).map u.engine.thread) next
      let stores := if md = 1 then s.pendingWrites (ms.map g.at) else []
      let (op, s) := s.fresh
      let s := s.openParts g u op false (ms.map fun k => ⟨k, .waiting⟩) next
      let s := s.modLane (g.at m) fun x => { x with wait := .enqueueFence op q.toNat mask.toNat stores }
      s.tryEnter (g.at m)
    | _, _ => s.setPcs u.threads (u.next (.qfence h q md mask))

/-- QWAIT: each member waits for the entries accepted before it; on a held queue it writes 0 at once. It acquires the
copied data whatever it writes (R174, R266). -/
def execQwait (h : Hd) (q : BitVec 2) (cd : CBit) (s : State) : Result :=
  issued (.qwait h q cd) s fun u ms s =>
    let next := u.next (.qwait h q cd)
    match u.engine with
    | .lane g =>
      match s.queue ⟨g.cid, g.team, q.toNat⟩ with
      | none => s
      | some x =>
        if x.held then
          (ms.foldl (fun (s : State) k => (s.setCond (.lane (g.at k)) cd false).acquire (g.at k) 2) s).setPcs u.threads next
        else
          let s := s.setPcs ((u.run.filter fun n => !ms.contains n).map u.engine.thread) next
          ms.foldl (fun s k =>
            (s.hold (g.at k) (.queue q.toNat x.accepted x.epoch cd) next).poke (g.at k)) s
    | _ => s

/-- QSTAT (R175). -/
def execQstat (h : Hd) (q : BitVec 2) (d : Code) (s : State) : Result :=
  alu (.qstat h q d)
    (fun s t =>
      match t with
      | .lane l => { regs := [.r64 d (((s.queue ⟨l.cid, l.team, q.toNat⟩).map (·.status)).getD 0)] }
      | _ => {}) s

/-- A queue reset: each command that it discards signals as R172 says, the digest folds what was delivered, and the
queue starts a new epoch (R176). -/
def State.resetQueue (s : State) (q : QueueRef) : State :=
  match s.queue q with
  | none => s
  | some x =>
    let s := s.modQueue q fun y =>
      { y with entries := [], state := 0, cause := 0, flags := 0, elem := 0, accepted := 0, performed := 0,
               epoch := y.epoch + 1 }
    let s := x.entries.foldl (fun (s : State) e =>
      match e with
      | .command id l _ e r => (s.endCopy l id ((r.map fun y : CopyRun => y.records).getD [])).signalCopy l e false
      | .fence _ _ => s) s
    s.advance q.cid

/-- QRESET: once per issue (R176). -/
def execQreset (h : Hd) (q : BitVec 2) (s : State) : Result :=
  issued (.qreset h q) s fun u ms s =>
    match u.engine with
    | .lane g =>
      let s := s.setPcs u.threads (u.next (.qreset h q))
      if ms.isEmpty then s else s.resetQueue ⟨g.cid, g.team, q.toNat⟩
    | _ => s

end Sys2Proof.Machine
end

