-- ==== Sys2Proof/Machine/Tile.lean ====
section
/-! DEFINITION. Tile tasks: operand fetch and its limits, passes, drains, weight updates, the dependency table, tokens
and the event queue, and the instructions of the control core that command them (R177 to R189, R218 to R237). -/

namespace Sys2Proof.Machine

open Sys2Proof

/-! ### How a task ends (R187) -/

/-- STATUS of a task. -/
inductive TaskStatus where
  | ok
  | opfmt
  | fault (cause : Nat)
  deriving DecidableEq, Repr

/-- KIND of R187. -/
def TaskKind.code : TaskKind → Nat
  | .tmma => 0
  | .tmmas => 1
  | .tzero => 2
  | .tdrain => 3
  | .tdapply => 4
  | .tloadacc => 5
  | .tfence => 6

/-- Whether the drain unit runs a kind of task; TFENCE runs in neither unit (R231). -/
def TaskKind.drains : TaskKind → Bool
  | .tdrain | .tdapply => true
  | _ => false

/-- The event record of a task (R187). sk is the Sieve's mark; a task that ends OPFMT carries no flags. -/
def taskRecord (t : Task) (st : TaskStatus) (flags : Word) (sk : Bool) : DWord :=
  let (code, cause, flags, sk) := match st with
    | .ok => (0, 0, flags, sk)
    | .opfmt => (1, 0, 0, false)
    | .fault c => (2, c, flags, sk)
  BitVec.ofNat 64 (cause * 2 ^ 40 + (slice flags 3 1).toNat * 2 ^ 36 + sk.toNat * 2 ^ 35 + (slice flags 0 3).toNat * 2 ^ 32
    + t.field.tag.toNat * 2 ^ 16 + code * 2 ^ 12 + t.kind.code * 2 ^ 8 + t.field.tile.toNat)

/-- What a task has done; owed is the address and the device of a peer that does not answer it (R299). -/
structure TaskRun where
  s : State
  status : TaskStatus
  flags : Word
  sk : Bool
  records : List StoreRecord
  owed : Option (Nat × Nat)

/-- A task that ends OPFMT changes nothing. -/
def TaskRun.bad (s : State) : TaskRun := ⟨s, .opfmt, 0, false, [], none⟩

/-! ### Accumulators -/

/-- The key of an accumulator element. -/
def accKey (tile row col : Nat) : Nat := 1024 * tile + 32 * row + col

/-- An accumulator element; one that was never written is the zero code (R219). -/
def Quad.accAt (x : Quad) (tile row col : Nat) : Word := x.acc.get 0x40000000 (accKey tile row col)

/-- The row and column pairs of a tile, row-major. -/
def tileCells : List (Nat × Nat) := (List.range 32).flatMap fun i => (List.range 32).map fun j => (i, j)

/-- A whole tile written. -/
def State.setTile (s : State) (q : QuadRef) (tile : Nat) (f : Nat → Nat → Word) : State :=
  s.modQuad q fun x => { x with acc := tileCells.foldl (fun t p => t.set (accKey tile p.1 p.2) (f p.1 p.2)) x.acc }

/-! ### Operand words and fetch (R179, R180, R218, R223, R224) -/

/-- K of a format: L16, L8, L4. -/
def tileK (fmt : Nat) : Nat := if fmt = 0 then 8 else if fmt = 1 then 32 else 64
/-- Bits of an element of a format. -/
def tileBits (fmt : Nat) : Nat := if fmt = 0 then 16 else if fmt = 1 then 8 else 4
/-- The log format of a format. -/
def tileFmt (fmt : Nat) : LogFmt := if fmt = 0 then l16 else if fmt = 1 then l8 else l4

/-- An operand word as it is used: the fields of R179, and the shape of what is stored. -/
structure TileOp where
  fmt : Nat
  core : Nat
  base : Nat
  swz : Nat
  ord : Bool
  sce : Bool
  scales : Nat
  bitmap : Nat
  pitch : Nat
  /-- stored rows run along K -/
  along : Bool
  rows : Nat
  rowLen : Nat
  deriving DecidableEq, Repr

/-- An operand word of A (isA) or of B. -/
def TileOp.parse (w : DWord) (isA : Bool) : TileOp :=
  let fld (lo n : Nat) : Nat := bitsAt w.toNat lo n
  let fmt := fld 18 2
  let ord := w.getLsbD 20
  let along := !ord == isA
  let rel := if along then tileK fmt else 32
  let natural := rel * tileBits fmt / 8
  { fmt := fmt, core := fld 14 4, base := 32 * fld 0 14, swz := fld 21 3, ord := ord, sce := w.getLsbD 46,
    scales := 32 * fld 32 14, bitmap := 32 * fld 47 14, pitch := if fld 24 8 = 0 then natural else 32 * fld 24 8,
    along := along, rows := if along then 32 else tileK fmt, rowLen := rel }

/-- The bytes of a stored row. -/
def TileOp.rowBytes (o : TileOp) : Nat := o.rowLen * tileBits o.fmt / 8
/-- Scales of a stored row. -/
def TileOp.rowScales (o : TileOp) : Nat := (o.rowLen + 31) / 32

/-- The bitmap of stored row q (R180). -/
def State.tileBitmap (s : State) (cid : Nat) (o : TileOp) (q : Nat) : Nat :=
  let n := tileK o.fmt / 8
  ofBytesLE (s.winRead cid o.core 0 (o.bitmap + q * n) n)

/-- The bytes of a stored row that a task reads: for TMMAS its packed values. -/
def State.tileUsed (s : State) (cid : Nat) (o : TileOp) (sparse : Bool) (q : Nat) : Nat :=
  if sparse then (popCount (s.tileBitmap cid o q) (tileK o.fmt) * tileBits o.fmt + 7) / 8 else o.rowBytes

/-- The limits of R180 on one operand word. -/
def State.tileOk (s : State) (cid : Nat) (o : TileOp) (isA sparse : Bool) : Bool :=
  let win := s.winSize cid
  let cores := ((s.cluster cid).map (·.teams.length)).getD 0
  let used (q : Nat) : Nat := s.tileUsed cid o sparse q
  o.fmt != 3 && !(o.sce && o.fmt == 0) && decide (o.core < cores)
    && (if sparse then o.ord != isA
        else !o.ord || (o.fmt != 2 && o.rowBytes % 32 == 0 && o.pitch % 32 == 0))
    && (!sparse || decide (o.bitmap + o.rows * (tileK o.fmt / 8) ≤ win))
    && ((List.range o.rows).all fun q =>
        (!sparse || decide (used q ≤ o.pitch)) && (used q == 0 || decide (o.base + q * o.pitch + used q ≤ win)))
    && (!o.sce || decide (o.scales + 2 * (o.rows * o.rowScales) ≤ win))

/-- operand(): a code under its block scale, in node units (R224). -/
def nodeOperand (fmt : Nat) (x : Half) (scale : Option Half) (code : Nat) : LogVal :=
  let S : Int := match scale with
    | some v => v.toInt
    | none => 0
  if scale = some 0x8000 then .zero
  else if fmt = 2 ∧ code = 0xC then toNode (l16.decode x.toNat)
  else
    match (tileFmt fmt).decode code with
    | .fin s e => .fin s (e * 2 ^ (12 - (tileFmt fmt).f) + S * 8)
    | v => v

/-- The operand in stored row q whose value stands at position p of the row and has logical position k along the row. -/
def State.tileElem (s : State) (cid : Nat) (o : TileOp) (x : Half) (q p k : Nat) : LogVal :=
  let scale : Option Half :=
    if o.sce then
      some (BitVec.ofNat 16 (ofBytesLE (s.winRead cid o.core 0 (o.scales + 2 * (q * o.rowScales + k / 32)) 2)))
    else none
  let w := tileBits o.fmt
  let at' := o.base + q * o.pitch + p * w / 8
  let code := bitsAt (ofBytesLE (s.winRead cid o.core o.swz at' ((w + 7) / 8))) (p * w % 8) w
  nodeOperand o.fmt x scale code

/-- Element k of row or column r of an operand; none where TMMAS has it absent. -/
def State.tileAt (s : State) (cid : Nat) (o : TileOp) (sparse : Bool) (x : Half) (r k : Nat) : Option LogVal :=
  if sparse then
    let m := s.tileBitmap cid o r
    if m.testBit k then some (s.tileElem cid o x r (popCount m k) k) else none
  else if o.along then some (s.tileElem cid o x r k k)
  else some (s.tileElem cid o x k r r)

/-- An operand fetched: 32 rows or columns of K elements. -/
def State.fetchTile (s : State) (cid : Nat) (o : TileOp) (sparse : Bool) (x : Half) : List (List (Option LogVal)) :=
  (List.range 32).map fun r => (List.range (tileK o.fmt)).map fun k => s.tileAt cid o sparse x r k

/-! ### TMMA and TMMAS (R181, R226 to R230) -/

end Sys2Proof.Machine

namespace Sys2Proof

open Machine

/-- Whether a value is NaN or Inf. -/
def LogVal.special : LogVal → Bool
  | .nan => true
  | .inf _ => true
  | _ => false

end Sys2Proof

namespace Sys2Proof.Machine

open Sys2Proof

/-- One element: its tree result, flags, and the Sieve's mark. -/
def passElem (levels : Nat) (row col : List (Option LogVal)) : LogVal × Word × Bool :=
  let pairs := List.zip row col
  let t := tree12 levels (pairs.map fun p =>
    match p with
    | (some a, some b) => nodeProduct a b
    | _ => (.zero, 0))
  (t.1, t.2, pairs.any fun p =>
    match p with
    | (some a, none) => a.special
    | (none, some b) => b.special
    | _ => false)

/-- The tree levels of a format (R226). -/
def tileLevels (fmt : Nat) : Nat := if fmt = 0 then 3 else if fmt = 1 then 5 else 6

/-- One pass (R181): the accumulator elements, the flags and SK. -/
def State.runPass (s : State) (q : QuadRef) (t : Task) : TaskRun :=
  let sparse := t.kind == .tmmas
  let a := TileOp.parse t.a true
  let b := TileOp.parse t.b false
  if bitsAt t.a.toNat 61 3 ≠ 0 ∨ bitsAt t.b.toNat 61 3 ≠ 0 ∨ bitsAt t.c.toNat 32 32 ≠ 0 ∨ a.fmt ≠ b.fmt
      ∨ !s.tileOk q.cid a true sparse ∨ !s.tileOk q.cid b false sparse then .bad s
  else
    let ra := s.fetchTile q.cid a sparse (slice t.c 0 16)
    let rb := s.fetchTile q.cid b sparse (slice t.c 16 16)
    let tile := t.field.tile.toNat
    let old : Quad := (s.quad q).getD default
    let cells := tileCells.map fun p =>
      let (r, f, sk) := passElem (tileLevels a.fmt) (ra.getD p.1 []) (rb.getD p.2 [])
      let (v, g) := if t.z then (extend23 r, 0) else logAdd l32 false (l32.decode (old.accAt tile p.1 p.2).toNat) (extend23 r)
      (accKey tile p.1 p.2, BitVec.ofNat 32 (l32.encode v), f ||| g, sk)
    let present := tileCells.foldl (fun n p =>
      n + ((List.zip (ra.getD p.1 []) (rb.getD p.2 [])).filter fun e => e.1.isSome && e.2.isSome).length) 0
    let clocks := if sparse && decide (2 * present ≤ 1024 * tileK a.fmt) then 1 else 2
    let s := s.countQuad (s.quadOf q) 8 clocks
    ⟨s.modQuad q fun x => { x with acc := cells.foldl (fun m c => m.set c.1 c.2.1) x.acc }, .ok,
      cells.foldl (fun f c => f ||| c.2.2.1) 0, sparse && cells.any (fun c => c.2.2.2), [], none⟩

/-! ### TZERO and TLOADACC (R182) -/

/-- TLOADACC: 4 KiB of L32 codes from scratch, as written. -/
def State.runLoadAcc (s : State) (q : QuadRef) (t : Task) : TaskRun :=
  let core := bitsAt t.a.toNat 14 4
  let base := 32 * bitsAt t.a.toNat 0 14
  let swz := bitsAt t.a.toNat 21 3
  let cores := ((s.cluster q.cid).map (·.teams.length)).getD 0
  if bitsAt t.a.toNat 18 3 ≠ 0 ∨ bitsAt t.a.toNat 24 40 ≠ 0 ∨ bitsAt t.a.toNat 0 2 ≠ 0 ∨ cores ≤ core
      ∨ s.winSize q.cid < base + 4096 then .bad s
  else
    ⟨s.setTile q t.field.tile.toNat fun i j =>
      BitVec.ofNat 32 (ofBytesLE (s.winRead q.cid core swz (base + 128 * i + 4 * j) 4)), .ok, 0, false, [], none⟩

/-! ### The drain queue's writes (R169, R171, R183, R235) -/

/-- Where a drain writes: the window of a core under a swizzle, or global memory. -/
inductive DrainTo where
  | scratch (core swz : Nat)
  | global
  deriving DecidableEq, Repr

/-- Masked bytes that a quad writes at a virtual address; a combining page refuses them as it does a store (R129). -/
def State.quadWriteGlobal (s : State) (quad va : Nat) (bs : List MByte) : State × Except Fail Unit :=
  match s.translateQuad quad storePage va true with
  | (s, .error f) => (s, .error (f.cause true, va, 0))
  | (s, .ok p) => s.writeNow p va bs

/-- Masked bytes written by a drain at an address or offset, with the store records that they make (R338). The swizzle of a
scratch destination applies to everything that the drain writes there, its scale array as well (log 58). -/
def State.drainWrite (s : State) (q : QuadRef) (dest : DrainTo) (pos : Nat) (bs : List MByte) :
    State × Except Fail (List StoreRecord) :=
  match dest with
  | .scratch core swz => (s.winWrite q.cid core swz pos bs, .ok [])
  | .global =>
    let va := pos % 2 ^ 56
    let r := (accessParts va bs.length).foldl (fun (acc : State × Except Fail Unit) p =>
      match acc.2 with
      | .error c => (acc.1, .error c)
      | .ok _ => acc.1.quadWriteGlobal (s.quadOf q) (p.1 % 2 ^ 56) ((bs.drop (p.1 - va)).take p.2)) (s, .ok ())
    (r.1, r.2.map fun _ => storeRecords va bs)

/-- A task's writes under way. -/
structure TaskMove where
  s : State
  flags : Word
  records : List StoreRecord
  cause : Option Fail

/-- One write of a task: where it fails the task stops with the cause. -/
def TaskMove.put (m : TaskMove) (q : QuadRef) (dest : DrainTo) (pos : Nat) (bs : List MByte) (flags : Word) : TaskMove :=
  if m.cause.isSome then m
  else
    match m.s.drainWrite q dest pos bs with
    | (s, .error c) => { m with s := s, cause := some c }
    | (s, .ok rs) => { m with s := s, flags := m.flags ||| flags, records := m.records ++ rs }

/-- A task whose writes are over. -/
def TaskMove.done (m : TaskMove) : TaskRun :=
  ⟨m.s, match m.cause with
    | none => .ok
    | some c => .fault c.1, m.flags, false, m.records, m.cause.bind Fail.owed⟩

/-! ### TDRAIN (R183, R235, R236) -/

/-- The destination format's element bits by DFMT. -/
def drainBits (dfmt : Nat) : Nat := [32, 16, 8, 4, 32, 16, 16].getD dfmt 8

/-- The one rounding of a drain: an exact value whose field counts 2^−23 into DFMT (R235). -/
def drainConvert (dfmt : Nat) (v : LogVal) : Nat × Word :=
  let exact : CopyVal := match v with
    | .zero => .zero
    | .nan => .nan
    | .inf s => .inf s
    | .fin s e => .log s e 23 false
  match dfmt with
  | 0 => let r := v.finish l32 false; (l32.encode r.1, r.2)
  | 1 =>
    let r := (match v with
      | .fin s e => LogVal.fin s (rneShift e 14)
      | v => v).finish l16 false
    (l16.encode r.1, r.2)
  | 2 => intoLog l8 false false 0 exact
  | 3 => intoLog l4 true false 0 exact
  | n => intoIeee (ieeeOf (n - 4)) 0 exact

/-- A value times 2^(S / 512), exactly. -/
def scaleExact (S : Int) : LogVal → LogVal
  | .fin s e => .fin s (e + S * 2 ^ 14)
  | v => v

end Sys2Proof.Machine

namespace Sys2Proof

open Machine

/-- The order of magnitudes: zero, finite by field, Inf; NaN is ignored. -/
def LogVal.magKey : LogVal → Option (Nat × Int)
  | .nan => none
  | .zero => some (0, 0)
  | .fin _ e => some (1, e)
  | .inf _ => some (2, 0)

end Sys2Proof

namespace Sys2Proof.Machine

open Sys2Proof

/-- Whether a magnitude key is below another. -/
def keyBelow (a b : Nat × Int) : Bool := decide (a.1 < b.1) || (a.1 == b.1 && decide (a.2 < b.2))

/-- roundup16 of the largest magnitude of a row (R183, R236). -/
def rowAmax (vs : List LogVal) : Half :=
  let best := (vs.filterMap (·.magKey)).foldl (fun m k => if keyBelow m k then k else m) (0, 0)
  match best with
  | (0, _) => 0x4000
  | (1, e) =>
    let f := -((-e) / 2 ^ 14)
    BitVec.ofNat 16 (l16.encode (if 16382 < f then .inf false else .fin false (max f (-16383))))
  | _ => BitVec.ofNat 16 (l16.encode (.inf false))

/-- An amax register raised to a code where that is larger (R236). -/
def State.raiseAmax (s : State) (q : QuadRef) (n : Nat) (c : Half) : State :=
  s.modQuad q fun x =>
    let old := x.amax.get 0x4000 n
    match (l16.decode old.toNat).magKey, (l16.decode c.toNat).magKey with
    | some a, some b => if keyBelow a b then { x with amax := x.amax.set n c } else x
    | _, _ => x

/-- A drain word with its destination and scale-and-clip words. -/
structure Drain where
  dfmt : Nat
  dest : DrainTo
  tr : Bool
  scl : Option Int
  bound : Option LogVal
  bs : Bool
  amx : Option Nat
  pitch : Nat
  soff : Nat
  base : Nat
  deriving DecidableEq, Repr

/-- The words of a TDRAIN, where they keep R183's limits. -/
def State.parseDrain (s : State) (q : QuadRef) (t : Task) : Option Drain :=
  let fld (lo n : Nat) : Nat := bitsAt t.a.toNat lo n
  let bit (i : Nat) : Bool := t.a.getLsbD i
  let dfmt := fld 0 3
  let S : Half := slice t.c 0 16
  let row := 32 * drainBits dfmt / 8
  let pitch := if fld 24 16 = 0 then row else fld 24 16
  let soff := fld 40 24
  let base := t.b.toNat
  let cores := ((s.cluster q.cid).map (·.teams.length)).getD 0
  let win := s.winSize q.cid
  let scratch := !bit 3
  if dfmt = 7 ∨ fld 20 4 ≠ 0 ∨ bitsAt t.c.toNat 16 16 ≠ 0 ∨ (bit 12 ∧ S = 0x8000)
      ∨ (bit 14 ∧ (¬(dfmt = 2 ∨ dfmt = 3) ∨ soff % 2 = 1))
      ∨ (scratch ∧ (2 ^ 19 ≤ base ∨ cores ≤ fld 4 4 ∨ win < base + 31 * pitch + row ∨ (bit 14 ∧ win < base + soff + 64)))
  then none
  else some
    { dfmt := dfmt, dest := if scratch then .scratch (fld 4 4) (fld 8 3) else .global, tr := bit 11,
      scl := if bit 12 then some S.toInt else none,
      bound := if bit 13 then some (l32.decode (bitsAt t.c.toNat 32 31)) else none,
      bs := bit 14, amx := if bit 15 then some (fld 16 4) else none, pitch := pitch, soff := soff,
      base := if scratch then base else base % 2 ^ 56 }

/-- DRAIN_PASS: one destination row scaled, clipped, entered into its amax register, block-scaled and written (R183). -/
def TaskMove.drainRow (m : TaskMove) (q : QuadRef) (d : Drain) (tile r : Nat) : TaskMove :=
  if m.cause.isSome then m
  else
    let x : Quad := (m.s.quad q).getD default
    let vs := (List.range 32).map fun c => l32.decode (if d.tr then x.accAt tile c r else x.accAt tile r c).toNat
    let vs := match d.scl with
      | some S => vs.map (scaleExact S)
      | none => vs
    let vs := match d.bound with
      | some b => vs.map fun v => logClampV v b
      | none => vs
    let m := match d.amx with
      | some n => { m with s := m.s.raiseAmax q n (rowAmax vs) }
      | none => m
    let logs := vs.filterMap fun v =>
      match v with
      | .fin _ e => some (-((-e) / (2 ^ 14 : Int)))
      | _ => none
    let sb := blockScale (topLog512 (d.dfmt == 3)) logs
    let m := if d.bs then
        m.put q d.dest (d.base + d.soff + 2 * r) ((toBytesLE 2 (sb % 2 ^ 16).toNat).map MByte.whole) 0
      else m
    let vs := if d.bs && !logs.isEmpty then vs.map (scaleExact (-sb)) else vs
    let w := drainBits d.dfmt
    vs.zipIdx.foldl (fun (m : TaskMove) p =>
      let (code, f) := drainConvert d.dfmt p.1
      let bit := p.2 * w
      m.put q d.dest (d.base + r * d.pitch + bit / 8) (maskedOfBits (bit % 8) w code).2 f) m

/-- TDRAIN: 32 passes (R183). -/
def State.runDrain (s : State) (q : QuadRef) (t : Task) : TaskRun :=
  match s.parseDrain q t with
  | none => .bad s
  | some d =>
    ((List.range 32).foldl (fun (m : TaskMove) r => m.drainRow q d t.field.tile.toNat r)
      { s := s, flags := 0, records := [], cause := none }).done

/-! ### TDAPPLY (R184, R237) -/

/-- w + p into L16, rounded once: w has an L16 field, p one that counts 2^−23 and may lie outside every format (R112,
R184). -/
def sumInto16 (w p : LogVal) : LogVal × Word :=
  let fine (f : Int) (sticky : Bool) (s : Bool) : LogVal × Word := finishLog l16 false s (rneSticky f sticky 55)
  match w, p with
  | .nan, _ => (.nan, 0)
  | _, .nan => (.nan, 0)
  | .inf s, .inf t => if s = t then (.inf s, 0) else (.nan, flagNV)
  | .inf s, _ => (.inf s, 0)
  | _, .inf t => (.inf t, 0)
  | .zero, .zero => (.zero, 0)
  | .zero, .fin s e => finishLog l16 false s (rneShift e 14)
  | .fin s e, .zero => (.fin s e, 0)
  | .fin sa e, .fin sb eb =>
    let ea := e * 2 ^ 14
    let (s1, e1, e2) := if ea < eb then (sb, eb, ea) else (sa, ea, eb)
    let d := e2 - e1
    if sa = sb then
      if d = 0 then fine ((e1 + 2 ^ 23) * 2 ^ 41) false s1 else fine (e1 * 2 ^ 41 + sbFix 23 d) true s1
    else if d = 0 then (.zero, 0)
    else if d = -(2 ^ 23) then fine ((e1 - 2 ^ 23) * 2 ^ 41) false s1
    else fine (e1 * 2 ^ 41 + (if exp2Neg 23 d = 0 then -1 else dbFix 23 d)) true s1

/-- The exact product s · G: s an L16 value, G an L32 value, the field counting 2^−23 (R184). -/
def weightProduct (s g : LogVal) : LogVal × Word :=
  logMul (match s with
    | .fin t e => .fin t (e * 2 ^ 14)
    | v => v) g

/-- The version of a region, by its entry as its home holds it: none for one without a twin (R237, R285). -/
def State.versionOf (s : State) (va : Nat) : State × Option Bool :=
  let w := s.freshWalk va
  (s.walked w, if regionOk w.region && isTwin w.region then some (regionVer w.region) else none)

/-- The version of every region that a list of addresses lies in, read once each (R237). -/
def State.versions (s : State) (vas : List Nat) : State × Table (Option Bool) :=
  (vas.map (· / 2 ^ 23)).dedup.foldl (fun (acc : State × Table (Option Bool)) r =>
    let x := acc.1.versionOf (r * 2 ^ 23)
    (x.1, acc.2.set r x.2)) (s, [])

/-- The page of a weight in a region whose version was ver: in a twin region a read takes that version's page, and a write
the other's; elsewhere both take the same page (R184, R237, R289). -/
def State.weightPage (s : State) (quad : Nat) (ver : Option Bool) (va : Nat) (write : Bool) :
    State × Except TransFault Page :=
  match ver with
  | none => s.translateQuad quad (if write then storePage else anyPage) va write
  | some v =>
    if write then s.walkForQuad quad (some !v) storePage va true
    else
      match cachedFor (s.quadHw quad).tlb (fun p => p.ver == v) va false with
      | some p => (s, .ok p)
      | none => s.walkForQuad quad (some v) anyPage va false

/-- A weight read (R184). -/
def State.readWeight (s : State) (quad : Nat) (ver : Option Bool) (va n : Nat) : State × Except Fail (List Byte) :=
  match s.weightPage quad ver va false with
  | (s, .error f) => (s, .error (f.cause false, va, 0))
  | (s, .ok p) => s.readNow p va n []

/-- A weight written (R184). -/
def State.writeWeight (s : State) (quad : Nat) (ver : Option Bool) (va : Nat) (bs : List MByte) : State × Except Fail Unit :=
  match s.weightPage quad ver va true with
  | (s, .error f) => (s, .error (f.cause true, va, 0))
  | (s, .ok p) => s.writeNow p va bs

/-- w + s · G, with its code and flags (R184). -/
def weightSum (wide : Bool) (factor : LogVal) (w : Nat) (g : Word) : Nat × Word :=
  let (prod, f) := weightProduct factor (l32.decode g.toNat)
  if wide then let r := logAdd l32 false (l32.decode w) prod; (l32.encode r.1, f ||| r.2)
  else let r := sumInto16 (l16.decode w) prod; (l16.encode r.1, f ||| r.2)

/-- One weight updated (R184); vers holds the versions that the task's regions had when it started (R237). -/
def TaskMove.weight (m : TaskMove) (quad : Nat) (vers : Table (Option Bool)) (wide : Bool) (factor : LogVal) (va : Nat)
    (g : Word) : TaskMove :=
  if m.cause.isSome then m
  else
    let ver := vers.get none (va / 2 ^ 23)
    let n := if wide then 4 else 2
    match m.s.readWeight quad ver va n with
    | (s, .error c) => { m with s := s, cause := some c }
    | (s, .ok bs) =>
      let (code, f) := weightSum wide factor (ofBytesLE bs) g
      let out := (toBytesLE n code).map MByte.whole
      match s.writeWeight quad ver va out with
      | (s, .error c) => { m with s := s, cause := some c }
      | (s, .ok _) => { m with s := s, flags := m.flags ||| f, records := m.records ++ storeRecords va out }

/-- TDAPPLY: W := W + s · G for a 32 by 32 block, by the versions that its regions have at its start (R184, R237). -/
def State.runApply (s : State) (q : QuadRef) (t : Task) : TaskRun :=
  let wide := t.a.getLsbD 56
  let n := if wide then 4 else 2
  let base := bitsAt t.a.toNat 0 56
  let pitch := bitsAt t.b.toNat 0 32
  if bitsAt t.a.toNat 57 7 ≠ 0 ∨ bitsAt t.b.toNat 32 32 ≠ 0 ∨ bitsAt t.c.toNat 16 48 ≠ 0 then .bad s
  else if base % n ≠ 0 ∨ pitch % n ≠ 0 then ⟨s, .fault causeALIGN, 0, false, [], none⟩
  else
    let factor := l16.decode (bitsAt t.c.toNat 0 16)
    let x : Quad := (s.quad q).getD default
    let at' (p : Nat × Nat) : Nat := (base + p.1 * pitch + p.2 * n) % 2 ^ 56
    let (s, vers) := s.versions (tileCells.map at')
    (tileCells.foldl (fun (m : TaskMove) p =>
      m.weight (s.quadOf q) vers wide factor (at' p) (x.accAt t.field.tile.toNat p.1 p.2))
      { s := s, flags := 0, records := [], cause := none }).done

/-! ### The dependency table (R177, R186, R231) -/

/-- The whole effect of a task from its start to its finish. -/
def State.runTask (s : State) (q : QuadRef) (t : Task) : TaskRun :=
  match t.kind with
  | .tmma => s.runPass q t
  | .tmmas => s.runPass q t
  | .tzero => ⟨s.setTile q t.field.tile.toNat fun _ _ => 0x40000000, .ok, 0, false, [], none⟩
  | .tdrain => s.runDrain q t
  | .tdapply => s.runApply q t
  | .tloadacc => s.runLoadAcc q t
  | .tfence => ⟨s, .ok, 0, false, [], none⟩

/-- Whether a wait slot holds: disabled, or its token reached (R177). -/
def Quad.slotHolds (x : Quad) : Option (Nat × Word) → Bool
  | none => true
  | some (t, v) => tokenReached (x.tokens.get 0 t) v

/-- Whether a task of the table is ready: its waits hold and no older task names its tile; TFENCE names none and waits
for every older task (R177, R186). -/
def Quad.taskReady (x : Quad) (t : Task) : Bool :=
  let older := x.tasks.takeWhile fun o => o.id != t.id
  x.slotHolds t.w0 && x.slotHolds t.w1
    && (if t.kind == .tfence then older.isEmpty
        else older.all fun o => o.kind == .tfence || o.field.tile != t.field.tile)

/-- The entries of the dependency table. -/
def tableSize : Nat := 32
/-- The entries of the event queue. -/
def eventQueueSize : Nat := 64

/-- A task enters the table (R177). -/
def State.enterTask (s : State) (q : QuadRef) (t : Task) : State :=
  (s.countQuad (s.quadOf q) 0 1).modQuad q fun x =>
    { x with tasks := x.tasks ++ [t], folds := if t.kind.drains then x.folds ++ [(t.id, none)] else x.folds }

/-- The task stream folds the performed tasks at the head of its list (R340). -/
def Quad.foldTasks (digest : Bool) (x : Quad) : Quad :=
  let ended := x.folds.takeWhile fun c => c.2.isSome
  { x with folds := x.folds.drop ended.length,
           tk := if digest then (ended.flatMap fun c => c.2.getD []).foldl foldRecord x.tk else x.tk }

/-- An instruction of the control core with its member. -/
def controlOp (i : Instr) (k : Issue → QuadRef → Thread → State → State) (s : State) : Result :=
  issued i s fun u ms s =>
    match u.engine with
    | .control q => if ms.isEmpty then s.setPcs u.threads (u.next i) else k u q (.control q) s
    | _ => s.setPcs u.threads (u.next i)

/-- A tile task enters the table, or stalls the control core while the table is full (R177). -/
def taskIssue (i : Instr) (kind : TaskKind) (z : Bool) (a b c : DWord → DWord) (regs : Code × Code × Code) (f : TaskField)
    (s : State) : Result :=
  controlOp i (fun u q t s =>
    let (id, s) := s.fresh
    let tm := ((s.quad q).map (·.template)).getD ⟨none, none, none⟩
    let task : Task := ⟨id, kind, z, a (s.reg t regs.1), b (s.reg t regs.2.1), c (s.reg t regs.2.2), f, tm.w0, tm.w1,
      tm.sig, .waiting, 0, none, 0⟩
    let full := ((s.quad q).map fun x : Quad => decide (tableSize ≤ x.tasks.length)).getD true
    if full then s.modControl q fun c => { c with wait := .entering task, next := u.next i }
    else (s.enterTask q task).setPc t (u.next i)) s

/-- TMMA (R181). -/
def execTmma (h : Hd) (v : BitVec 4) (a b c : Code) (t : TaskField) (s : State) : Result :=
  taskIssue (.tmma h v a b c t) .tmma (v == 1) id id id (a, b, c) t s

/-- TMMAS (R181). -/
def execTmmas (h : Hd) (v : BitVec 4) (a b c : Code) (t : TaskField) (s : State) : Result :=
  taskIssue (.tmmas h v a b c t) .tmmas (v == 1) id id id (a, b, c) t s

/-- TZERO (R182). -/
def execTzero (h : Hd) (t : TaskField) (s : State) : Result :=
  taskIssue (.tzero h t) .tzero false (fun _ => 0) (fun _ => 0) (fun _ => 0) (0, 0, 0) t s

/-- TDRAIN (R183). -/
def execTdrain (h : Hd) (a b c : Code) (t : TaskField) (s : State) : Result :=
  taskIssue (.tdrain h a b c t) .tdrain false id id id (a, b, c) t s

/-- TDAPPLY (R184). -/
def execTdapply (h : Hd) (a b c : Code) (t : TaskField) (s : State) : Result :=
  taskIssue (.tdapply h a b c t) .tdapply false id id id (a, b, c) t s

/-- TLOADACC (R182). -/
def execTloadacc (h : Hd) (a : Code) (t : TaskField) (s : State) : Result :=
  taskIssue (.tloadacc h a t) .tloadacc false id (fun _ => 0) (fun _ => 0) (a, 0, 0) t s

/-- TFENCE (R186). -/
def execTfence (h : Hd) (t : TaskField) (s : State) : Result :=
  taskIssue (.tfence h t) .tfence false (fun _ => 0) (fun _ => 0) (fun _ => 0) (0, 0, 0) t s

/-- Whether a task has finished, or is a TFENCE, which neither reads nor writes, whose waits hold (R177, R186, log 76). -/
def Quad.hasFinished (x : Quad) (t : Task) : Bool :=
  t.stage == .finished || (t.kind == .tfence && x.slotHolds t.w0 && x.slotHolds t.w1)

/-- Whether every task in the table has finished (R186). -/
def Quad.allFinished (x : Quad) : Bool := x.tasks.all x.hasFinished

/-- TFENCE.W stalls the control core, which stays on the instruction, until every task has finished (R186). -/
def execTfenceW (h : Hd) (s : State) : Result :=
  controlOp (.tfenceW h) (fun u q t s =>
    if ((s.quad q).map (·.allFinished)).getD true then s.setPc t (u.next (.tfenceW h)) else s) s

/-! ### TAMAX, tokens and the event queue (R178, R185, R188) -/

/-- TAMAX, with .rst in the same step (R185). -/
def execTamax (h : Hd) (v : BitVec 4) (d : Code) (n : BitVec 4) (s : State) : Result :=
  controlOp (.tamax h v d n) (fun u q t s =>
    let x := ((s.quad q).map fun x : Quad => x.amax.get 0x4000 n.toNat).getD 0x4000
    let s := s.setReg64 t d (x.zeroExtend 64)
    let s := if v = 1 then s.modQuad q fun y => { y with amax := y.amax.set n.toNat 0x4000 } else s
    s.setPc t (u.next (.tamax h v d n))) s

/-- A pop of the oldest record into d; a record whose STATUS is OPFMT then traps, after the pop (R188). -/
def State.popEvent (s : State) (u : Issue) (i : Instr) (q : QuadRef) (d : Code) (r : DWord) : State :=
  let s := (s.modQuad q fun x => { x with events := x.events.drop 1 }).setReg64 (.control q) d r
  if bitsAt r.toNat 12 4 = 1 then s.takeControlTrap q u.pc causeOPFMT 0 r true
  else s.setPc (.control q) (u.next i)

/-- EVPOP (R188). -/
def execEvpop (h : Hd) (d : Code) (cc : CBit) (s : State) : Result :=
  controlOp (.evpop h d cc) (fun u q t s =>
    match (s.quad q).bind fun x : Quad => x.events.head? with
    | none => (s.setCond t cc false).setPc t (u.next (.evpop h d cc))
    | some r => (s.setCond t cc true).popEvent u (.evpop h d cc) q d r) s

/-- EVWAIT: the control core stays on the instruction while the queue is empty (R188). -/
def execEvwait (h : Hd) (d : Code) (s : State) : Result :=
  controlOp (.evwait h d) (fun u q _ s =>
    match (s.quad q).bind fun x : Quad => x.events.head? with
    | none => s
    | some r => s.popEvent u (.evwait h d) q d r) s

/-- TTOK: a token read or added to, or a slot of the template set (R178). -/
def execTtok (h : Hd) (v : BitVec 4) (d a : Code) (tok : BitVec 6) (s : State) : Result :=
  controlOp (.ttok h v d a tok) (fun u q t s =>
    let n := tok.toNat
    let x := s.reg32 t a
    let set (f : Template → Template) : State := s.modQuad q fun y => { y with template := f y.template }
    let s := match v.toNat with
      | 0 => s.setReg64 t d ((s.token q n).zeroExtend 64)
      | 1 => s.addToken q n x
      | 2 => set fun m => { m with w0 := some (n, x) }
      | 3 => set fun m => { m with w1 := some (n, x) }
      | _ => set fun m => { m with sig := some (n, x) }
    s.setPc t (u.next (.ttok h v d a tok))) s

/-- TTOK.CLR (R178). -/
def execTtokClr (h : Hd) (s : State) : Result :=
  controlOp (.ttokClr h) (fun u q t s =>
    (s.modQuad q fun y => { y with template := ⟨none, none, none⟩ }).setPc t (u.next (.ttokClr h))) s

end Sys2Proof.Machine
end

