-- ==== Sys2Proof/Machine/System.lean ====
section
/-! DEFINITION. Determinism and system instructions: digests and results, special registers, returning from a handler,
version flips and invalidation, counters, halt and events (R65, R66, R189 to R199). -/

namespace Sys2Proof.Machine

open Sys2Proof

/-! ### DGST and POSTR (R190, R191) -/

/-- DGST: each member waits until the members' stores and copy commands are folded (R190, R340); a control core has
none. -/
def execDgst (h : Hd) (d : Code) (s : State) : Result :=
  issued (.dgst h d) s fun u ms s =>
    let next := u.next (.dgst h d)
    match u.engine with
    | .lane g =>
      let s := s.setPcs ((u.run.filter fun n => !ms.contains n).map u.engine.thread) next
      ms.foldl (fun s k => (s.hold (g.at k) (.digest d ms) next).poke (g.at k)) s
    | .control q =>
      let x := if s.digestOn q.cid then ((s.cluster q.cid).map (·.taskDigest)).getD 0 else 0
      (if ms.isEmpty then s else s.setReg64 (.control q) d x).setPcs u.threads next
    | .method _ => s

/-- POSTR: the cluster's result word, once per issue, from the lowest member (R191). -/
def execPostr (h : Hd) (a : Code) (s : State) : Result :=
  issued (.postr h a) s fun u ms s =>
    let s := match ms with
      | [] => s
      | m :: _ =>
        let x := s.reg64 (u.engine.thread m) a
        s.modCluster u.engine.cid fun c => { c with result := some x }
    s.setPcs u.threads (u.next (.postr h a))

/-! ### Special registers (R192, R193) -/

/-- A logical index or extent in the layout of CLUSTERID (R192). -/
def packXyz (x y z : Nat) : Nat := x + 2 ^ 21 * y + 2 ^ 42 * z

/-- CLUSTERID of a cluster. -/
def clusterId (l : Launch) (index : Nat) : Nat :=
  packXyz (index % l.gx) (index / l.gx % l.gy) (index / (l.gx * l.gy))

/-- GSW: the OR of every lane's flags, exited lanes included (R65). -/
def Group.gsw (g : Group) : Word := g.lanes.foldl (fun f x => f ||| (x.lsw &&& 0x3F)) 0

/-- The mesh quad on which a thread of a cluster runs. -/
def State.quadHere (s : State) : Thread → Nat
  | .lane l => quadOfCore (s.coreOf l.cid l.team)
  | .control q => s.quadOf q
  | .wave n _ => n

/-- A trap register of an engine, in the order TCAUSE, TPC, TMASK, TDONE, TAUX. -/
def State.trapRegs (s : State) : Thread → TrapRegs
  | .lane l => ((s.group l.gr).map fun g : Group => g.trap).getD ⟨0, 0, 0, 0, 0⟩
  | .control q => ((s.quad q).map fun x : Quad => x.control.trap).getD ⟨0, 0, 0, 0, 0⟩
  | .wave _ _ => ⟨0, 0, 0, 0, 0⟩

/-- TADDR of a thread. -/
def State.taddrOf (s : State) : Thread → DWord
  | .lane l => ((s.lane l).map fun x : Lane => x.taddr).getD 0
  | .control q => ((s.quad q).map fun x : Quad => x.control.taddr).getD 0
  | .wave _ _ => 0

/-- The cluster of a thread. -/
def Thread.cid : Thread → Nat
  | .lane l => l.cid
  | .control q => q.cid
  | .wave _ _ => 0

/-- DGCTL (R346). -/
def Grid.dgctl (g : Grid) : Nat :=
  g.launch.digest.toNat + 2 * (((g.launch.det.map (·.recv)).getD false).toNat) + 4 * g.reex.toNat

/-- The value of a special register as a thread reads it (R192). -/
def State.specialValue (s : State) (t : Thread) (n : Nat) : Nat :=
  let grid := s.gridOf t.cid
  let launch (f : Launch → Nat) : Nat := (grid.map fun g => f g.launch).getD 0
  let quad := s.quadHere t
  match t, n with
  | .lane l, 0x00 => l.lane
  | .lane l, 0x01 => l.group
  | .lane l, 0x02 => l.team
  | _, 0x03 => ((s.cluster t.cid).map fun c : Cluster => launch fun l => clusterId l c.index).getD 0
  | _, 0x04 => launch fun l => (slice l.shape 0 24).toNat
  | _, 0x05 => launch fun l => packXyz l.gx l.gy l.gz
  | .lane l, 0x06 => let c := s.coreOf l.cid l.team; c / 48 + 32 * (c % 48)
  | _, 0x07 => quad / 24 + 16 * (quad % 24)
  | .lane l, 0x08 => (s.core (s.coreOf l.cid l.team)).cycle.toNat
  | _, 0x08 => (s.quadHw quad).cycle.toNat
  | .lane l, 0x09 => ((s.lane l).map fun x : Lane => (x.lsw &&& 0x3F).toNat).getD 0
  | .lane l, 0x0A => ((s.group l.gr).map fun g : Group => g.gsw.toNat).getD 0
  | _, 0x0B => (s.link t).toNat
  | _, 0x10 => (s.trapRegs t).cause.toNat
  | _, 0x11 => (s.trapRegs t).pc.toNat
  | _, 0x12 => (s.trapRegs t).mask.toNat
  | _, 0x13 => (s.trapRegs t).done.toNat
  | _, 0x14 => (s.taddrOf t).toNat
  | _, 0x15 => (s.trapRegs t).aux.toNat
  | _, 0x18 => launch (·.rrmode)
  | _, 0x19 => (grid.map fun g => g.rrstat.toNat).getD 0
  | _, 0x1A => (grid.map (·.dgctl)).getD 0
  | .lane l, n =>
    if 0x1C ≤ n ∧ n ≤ 0x1F then
      ((s.group l.gr).map fun g : Group => bitsAt (g.hg.getD 0).toNat (128 * (n - 0x1C)) 128).getD 0
    else 0
  | _, _ => 0

/-- A value written to the registers of a special register's operand. -/
def State.putSpecial (s : State) (t : Thread) (d : Code) (regs x : Nat) : State :=
  match regs with
  | 1 => s.setReg32 t d (BitVec.ofNat 32 x)
  | 2 => s.setReg64 t d (BitVec.ofNat 64 x)
  | n => s.setRegs t d ((List.range n).map fun i => BitVec.ofNat 32 (x / 2 ^ (32 * i)))

/-- SREAD; .clr clears LSW of each member, or for GSW of every lane of the group (R65, R193). -/
def execSread (h : Hd) (v : BitVec 4) (d : Code) (n : BitVec 8) (s : State) : Result :=
  issued (.sread h v d n) s fun u ms s =>
    let vals := ms.map fun k => (u.engine.thread k, s.specialValue (u.engine.thread k) n.toNat)
    let s := vals.foldl (fun (s : State) p => s.putSpecial p.1 d (specialRegs n) p.2) s
    let s := match u.engine with
      | .lane g =>
        if v = 1 && !ms.isEmpty then
          let clear (p : Lane × Nat) : Lane :=
            if n == 0x0A || ms.contains p.2 then { p.1 with lsw := p.1.lsw &&& ~~~0x3F#32 } else p.1
          s.modGroup g fun x => { x with lanes := x.lanes.zipIdx.map clear }
        else s
      | _ => s
    s.setPcs u.threads (u.next (.sread h v d n))

/-- A trap register replaced; the reserved bits of TCAUSE read 0 (R193, R194). -/
def TrapRegs.put (r : TrapRegs) (n : Nat) (x : DWord) : TrapRegs :=
  match n with
  | 0x10 => { r with cause := x.truncate 32 &&& 0xFF }
  | 0x11 => { r with pc := x }
  | 0x12 => { r with mask := x.truncate 32 }
  | 0x13 => { r with done := x.truncate 32 }
  | 0x15 => { r with aux := x }
  | _ => r

/-- A special register of a thread replaced (R193). -/
def State.writeSpecial (s : State) (t : Thread) (n : Nat) (x : DWord) : State :=
  match n, t with
  | 0x09, .lane l => s.modLane l fun y => { y with lsw := x.truncate 32 &&& 0x3F }
  | 0x0B, _ => s.setLink t x
  | 0x14, .lane l => s.modLane l fun y => { y with taddr := x }
  | 0x14, .control q => s.modControl q fun y => { y with taddr := x }
  | n, .lane l => s.modGroup l.gr fun g => { g with trap := g.trap.put n x }
  | n, .control q => s.modControl q fun y => { y with trap := y.trap.put n x }
  | _, _ => s

/-- SWRITE: members in lane order, so that the highest member's value stands in a register that the group shares (R193, log
64). -/
def execSwrite (h : Hd) (a : Code) (n : BitVec 8) (s : State) : Result :=
  issued (.swrite h a n) s fun u ms s =>
    let vals := ms.map fun k =>
      let t := u.engine.thread k
      (t, if specialRegs n = 2 then s.reg64 t a else (s.reg32 t a).zeroExtend 64)
    (vals.foldl (fun (s : State) p => s.writeSpecial p.1 n.toNat p.2) s).setPcs u.threads (u.next (.swrite h a n))

/-! ### RTE (R195, R296) -/

/-- Whether serials count an opcode: ATOM, RED, COMB, COMBR, HGSCAT (R331). -/
def countsSerial (op : BitVec 8) : Bool := op == 0x80 || op == 0x81 || op == 0x83 || op == 0x84 || op == 0x92

/-- The trap registers that RTE goes by: its group's or its control core's. -/
def State.trapOf (s : State) (e : Engine) : TrapRegs := s.trapRegs (e.thread 0)

/-- RTE ends the handler; where TDONE holds a lane it fetches word 0 at TPC, and a fetch fault there is a trap in the
handler (R195). RTE does not issue while a peer owes that word. -/
def execRte (h : Hd) (s : State) : Result :=
  issued (.rte h) s fun u ms s =>
    if ms.isEmpty then s.setPcs u.threads (u.next (.rte h))
    else
      let trap := s.trapOf u.engine
      let va := (alignPc (trap.pc.truncate 56)).toNat
      let head (ws : List Word) : Word := ws.headD 0
      let lenOf (w : Word) : Nat := 4 * (Len.ofBits (slice w 0 2)).words
      match u.engine with
      | .lane g =>
        if trap.done = 0 then s.returnFromTrap g 0 false
        else
          match s.fetchWord (s.fetchCore g.cid g.team) va with
          | (s, .words ws) => s.returnFromTrap g (lenOf (head ws)) (countsSerial (slice (head ws) 2 8))
          | (s, .fault va cause aux) =>
            s.enterTrap g u.pc ms (ms.map fun k => (k, cause, BitVec.ofNat 64 va, BitVec.ofNat 64 aux)) 0
          | (s, .owed _ _) => s
      | .control q =>
        if trap.done.getLsbD 0 then
          match s.fetchWord (s.fetchQuad q) va with
          | (s, .words ws) => s.returnFromControlTrap q (lenOf (head ws))
          | (s, .fault va cause aux) =>
            s.takeControlTrap q u.pc cause (BitVec.ofNat 64 va) (BitVec.ofNat 64 aux) false
          | (s, .owed _ _) => s
        else s.returnFromControlTrap q 0
      | .method _ => s

/-! ### FLIPV and TLBINV (R189, R196) -/

/-- The version bit of the region at an address toggled in its entry at the entry's home, where it is a mapped twin region
(R189, R280, R285). -/
def State.flipRegion (s : State) (va : Nat) : State :=
  let w := s.freshWalk va
  if va < 2 ^ 56 ∧ regionOk w.region ∧ field w.region 3 3 = 1 then
    let pa := field w.level1 47 20 * 2 ^ 20 + 8 * bitsAt va 23 17
    let s := s.recall (lineOf pa)
    { s with mem := Mem.write s.mem pa (Mem.read s.mem pa ^^^ 0x04) }
  else s

/-- Version bits toggled: every mapped twin region that starts at one of n regions from number r up (R189, R285). -/
def State.flipRegions (s : State) (r n : Nat) : State :=
  (List.range n).foldl (fun (s : State) i => s.flipRegion ((r + i) * 2 ^ 23)) s

/-- The version bits of a range toggled. -/
def State.flipRange (s : State) (lo hi : Nat) : State := s.flipRegions (lo / 2 ^ 23) ((hi - lo) / 2 ^ 23)

/-- The requests of lanes, and the stores that their L1 holds, that a release at device scope waits for (R189). -/
def State.releases (s : State) (ls : List LaneRef) : List Nat :=
  (s.reqs.filter fun r => ls.any fun l =>
    (r.ofLane l && !r.performedAt 4 false)
      || (match r.stage with
        | .inL1 c => (s.l1sOf l.cid l.team).contains c
        | _ => false)).map (·.id)

/-- A sweep of a range begins; its number, and the state that holds it. A flip toggles when its sweep completes, so that no
cache serves the old version beside the new one (R189, R237). -/
def State.beginSweep (s : State) (lo hi : Nat) (host flip : Bool) (after : List Nat) : Nat × State :=
  let (id, s) := s.fresh
  (id, { s with invalidations := s.invalidations ++ [⟨id, lo, hi, host, flip, after⟩] })

/-- FLIPV and TLBINV: the lowest member's operands, once per issue; misaligned operands trap ALIGN for every member; the
members wait for the sweep. -/
def sweepIssue (i : Instr) (unit : Nat) (flip : Bool) (a b : Code) (s : State) : Result :=
  issued i s fun u ms s =>
    match ms with
    | [] => s.setPcs u.threads (u.next i)
    | m :: _ =>
      let t := u.engine.thread m
      let lo := s.reg64 t a
      let len := s.reg64 t b
      if lo.toNat % unit ≠ 0 ∨ len.toNat % unit ≠ 0 then
        s.trapMembers u i ms
          (ms.map fun k => (k, causeALIGN, if lo.toNat % unit ≠ 0 then lo else len, 0)) []
      else
        let start := va56 lo
        let next := u.next i
        match u.engine with
        | .lane g =>
          let after := if flip then s.releases (ms.map g.at) else []
          let (id, s) := s.beginSweep start (start + len.toNat) false flip after
          let s := s.setPcs ((u.run.filter fun n => !ms.contains n).map u.engine.thread) next
          ms.foldl (fun s k => s.hold (g.at k) (.sweep id) next) s
        | .control q =>
          let s := if flip then s.pushStaged (s.fusedCores q.cid) else s
          let (id, s) := s.beginSweep start (start + len.toNat) false flip []
          s.modControl q fun c => { c with wait := .sweep id, next := next }
        | .method _ => s

/-- FLIPV (R189). -/
def execFlipv (h : Hd) (a b : Code) (s : State) : Result := sweepIssue (.flipv h a b) (2 ^ 23) true a b s

/-- TLBINV (R196). -/
def execTlbinv (h : Hd) (a b : Code) (s : State) : Result := sweepIssue (.tlbinv h a b) (2 ^ 14) false a b s

/-! ### Counters, halt, events (R197 to R199) -/

/-- A counter as a thread reads it: COMBRLOST is the slice's of the quad (R197). -/
def State.counter (s : State) (t : Thread) (n : Nat) : DWord :=
  if n = 5 then (s.sliceAt (s.quadHere t)).lost
  else
    match t with
    | .lane l => (s.core (s.coreOf l.cid l.team)).counters.get 0 n
    | _ => (s.quadHw (s.quadHere t)).counters.get 0 n

/-- A counter zeroed. -/
def State.clearCounter (s : State) (t : Thread) (n : Nat) : State :=
  if n = 5 then s.setSlice (s.quadHere t) { s.sliceAt (s.quadHere t) with lost := 0 }
  else
    match t with
    | .lane l =>
      let c := s.core (s.coreOf l.cid l.team)
      s.setCore (s.coreOf l.cid l.team) { c with counters := c.counters.erase n }
    | _ =>
      let c := s.quadHw (s.quadHere t)
      s.setQuadHw (s.quadHere t) { c with counters := c.counters.erase n }

/-- PCNT; .clr zeroes in the same step (R197): every member of one issue reads the value before the clear, the model's choice
(log 87). -/
def execPcnt (h : Hd) (v : BitVec 4) (d : Code) (n : BitVec 8) (s : State) : Result :=
  issued (.pcnt h v d n) s fun u ms s =>
    let s := match ms with
      | [] => s
      | m :: _ =>
        let x := s.counter (u.engine.thread m) n.toNat
        let s := ms.foldl (fun (s : State) k => s.setReg64 (u.engine.thread k) d x) s
        if v = 1 then s.clearCounter (u.engine.thread m) n.toNat else s
    s.setPcs u.threads (u.next (.pcnt h v d n))

/-- HALT does not stop where a record is queued (R198). -/
def execHalt (h : Hd) (s : State) : Result :=
  controlOp (.halt h) (fun u q t s =>
    if ((s.quad q).map fun x : Quad => x.events.isEmpty).getD false then
      s.modControl q fun c => { c with wait := .halted, next := u.next (.halt h) }
    else s.setPc t (u.next (.halt h))) s

/-- INFO of an EVSEND entry (R352). -/
def eventInfo (code : Byte) : Word := 0x100 ||| code.zeroExtend 32

/-- EVSEND: one event per member in lane order; the sender is held until the event is sent, which is after its earlier
stores have performed; what the fused L1s of a control core's cluster still hold goes home first (R199, R266). -/
def execEvsend (h : Hd) (v : BitVec 4) (a : Code) (code : BitVec 8) (s : State) : Result :=
  issued (.evsend h v a code) s fun u ms s =>
    let i : Instr := .evsend h v a code
    let next := u.next i
    let host := v == 1
    match u.engine with
    | .lane g =>
      let s := s.setPcs ((u.run.filter fun n => !ms.contains n).map u.engine.thread) next
      let s := ms.foldl (fun (s : State) k =>
        let x := s.reg64 (.lane (g.at k)) a
        let s := s.hold (g.at k) (.event host x code) next
        if host then s.postEvent ⟨x, eventInfo code, s.laneSource (g.at k), some (.lane (g.at k))⟩ else s) s
      ms.foldl (fun (s : State) k => s.poke (g.at k)) s
    | .control q =>
      if ms.isEmpty then s.setPcs u.threads next
      else
        let x := s.reg64 (.control q) a
        let s := s.pushStaged (s.fusedCores q.cid)
        if host then
          (s.modControl q fun c => { c with wait := .event true x code, next := next }).postEvent
            ⟨x, eventInfo code, s.controlSource q, some (.control q)⟩
        else
          (s.record 9 0 (1536 + s.quadOf q) (eventDetail x code (s.controlSource q))).setPcs u.threads next
    | .method _ => s

end Sys2Proof.Machine
end

