-- ==== Sys2Proof/Machine/MemEvents.lean ====
section
/-! DEFINITION. The steps by which requests in flight go on and the waits of lanes end: loads, stores and atomics in an
L1, register-line fills, pauses, barrier arrivals, trap entries, walks, invalidations, promotions, recalls and peers
(R98, R99, R132, R133, R135, R145, R245, R262 to R299). Each step acts where it is due and otherwise changes nothing. -/

namespace Sys2Proof.Machine

open Sys2Proof

/-- A step of the device where it is due; elsewhere nothing happens. -/
def due (b : Bool) (s t : State) : Host.Outcome State Fault Refusal := .next (if b then t else s)

/-! ### Loads (R133, R147, R159, R265) -/

/-- A byte of an L1 line. -/
def L1Line.byteAt (x : L1Line) (a : Nat) : Byte := x.bytes.getD (a % 128) 0

/-- The L1 line that may serve a lane's load at its address: the scope lies within the L1, no newer acquire of the lane
forbids the copy, and the page allows the L1 (R129, R133, R265). -/
def State.l1Hit (s : State) (r : Req) (l : LaneRef) (pa : Nat) (strm : Bool) : Option L1Line :=
  if servedByL1 r.scope (s.fused l.cid) && !r.noL1 && !strm then
    ((s.core (s.l1Of l.cid l.team (lineOf pa))).l1.find (lineOf pa)).filter fun x =>
      x.owned || decide (((s.lane l).map fun y : Lane => y.acqAt).getD 0 ≤ x.filledAt)
  else none

/-- The bytes of a lane's request at the home, under the stores of its L1 and its own (R265, R267). -/
def State.homeSeen (s : State) (r : Req) (l : LaneRef) (pa n : Nat) : List Byte :=
  s.seen r (s.l1Of l.cid l.team (lineOf pa)) (Mem.read s.mem) pa n

/-- A load returns: its registers hold the bytes, and it has performed. -/
def State.endLoad (s : State) (r : Req) (l : LaneRef) (d : Code) (bs : List Byte) (sx : Bool) : State :=
  (s.putRegs l d (regsOfBytes bs sx)).complete r

/-- A home read of a line fills or refreshes the L1 of the reader (R133, R265). -/
def State.fillFor (s : State) (l : LaneRef) (pa : Nat) (fill : Bool) : State :=
  s.refresh (s.l1Of l.cid l.team (lineOf pa)) (lineOf pa) fill

/-- A load of a lane read at a place. -/
def State.loadReturn (s : State) (r : Req) (l : LaneRef) (place : LoadPlace) (d : Code) (w : Nat) (sx strm : Bool)
    (pa : Nat) : State :=
  match place with
  | .l1 =>
    match s.l1Hit r l pa strm with
    | none => s
    | some x => s.endLoad r l d (s.seen r (s.l1Of l.cid l.team (lineOf pa)) x.byteAt pa w) sx
  | .home fill =>
    if s.lineBusy (lineOf pa) then s
    else
      let bs := s.homeSeen r l pa w
      let s := if servedByL1 r.scope (s.fused l.cid) && !r.noL1 then s.countCore (s.coreOf l.cid l.team) 2 1 else s
      (s.fillFor l pa (fill && !strm && !r.noL1)).endLoad r l d bs sx

/-- Whether every address of a request can be read: a local one at its home, and one of a peer because its data has
come. -/
def State.allThere (s : State) (r : Req) : Bool :=
  r.pas.zipIdx.all fun p =>
    if (peerOf p.1).isNone then !s.lineBusy (lineOf p.1) else r.got.any fun g => g.1 == p.2

/-- The bytes at each address of a request: those of its home, or those that a peer has returned (R159, R165). -/
def State.gathered (s : State) (r : Req) (l : LaneRef) (n : Nat) : List (List Byte) :=
  r.pas.zipIdx.map fun p =>
    if (peerOf p.1).isNone then s.homeSeen r l p.1 n else ((r.got.find? fun g => g.1 == p.2).map (·.2)).getD []

/-- A home read of every local address of a request refreshes the copies that it finds (R265). -/
def State.refreshAll (s : State) (r : Req) (l : LaneRef) : State :=
  r.pas.foldl (fun (s : State) pa => if (peerOf pa).isNone && !r.noL1 then s.fillFor l pa false else s) s

/-- An HGLD of a lane read at the home: the entries of every corner, interpolated (R159, R329). -/
def State.hgldReturn (s : State) (r : Req) (l : LaneRef) (d : Code) (desc : BitVec 512) (xs : List Word) : State :=
  if !s.allThere r then s
  else
    let (ws, f) := hgResults desc xs (s.gathered r l (2 * hgF desc))
    (((s.refreshAll r l).putRegs l d ws).setFlags (.lane l) f).complete r

/-- A descriptor of a lane's copy command whose parts have all come: the command enters its queue where there is room, else
it waits (R165). -/
def State.descReturn (s : State) (r : Req) (l : LaneRef) (q : Nat) (e : CopyEnding) : State :=
  if !s.allThere r then s
  else
    let desc := (s.gathered r l 64).flatten
    let s := (s.refreshAll r l).dropReq r.id
    if r.op = 0 then s
    else (s.modLane l fun x => { x with wait := .enqueue r.op q desc e }).tryEnter l

/-- LOAD_DATA_RETURN: a load reads in the L1 or at the home, or an atomic's old value reaches its registers, once the
register cache can take them (R133, R147, R159, R244, R245). -/
def execLoadDataReturn (req : Nat) (place : LoadPlace) (s : State) : Host.Outcome State Fault Refusal :=
  .next (match s.req req with
    | none => s
    | some r =>
      if !s.canDeliver r then s
      else
        match r.owner, r.stage, r.kind, r.pas with
        | .lane l, .replied x f, .atomic _ ty (some d) _ _, _ =>
          ((s.putRegs l d (wordsOfBytes (toBytesLE (atomicBytes ty) x.toNat))).setFlags (.lane l) f).complete r
        | .lane l, .ready, .load d w sx strm _, pa :: _ =>
          if r.peer.isSome || !s.mayPerform r then s else s.loadReturn r l place d w sx strm pa
        | .lane l, .ready, .hgld d desc xs, _ => if s.mayPerform r then s.hgldReturn r l d desc xs else s
        | .lane l, .ready, .descriptor q e, _ => s.descReturn r l q e
        | _, _, _, _ => s)

/-! ### Stores (R135, R265, R273) -/

/-- A store that an L1 takes: an owned line takes it for good; otherwise the copy is updated, and the L1 holds the store
until it reaches its home (R135, R262, R280). -/
def State.storeInL1 (s : State) (r : Req) (l : LaneRef) (pa : Nat) (data : List MByte) : State :=
  let core := s.l1Of l.cid l.team (lineOf pa)
  if s.ownerOf (lineOf pa) = some core then
    if s.relDrained r then (s.updateL1 core pa data).complete r else s
  else
    let s := s.updateL1 core pa data
    let s := { s with reqs := (s.reqs.filter fun q : Req => q.id != r.id) ++ [{ r with stage := .inL1 core }] }
    s.advance l.cid

/-- The stores that the L1s of a list took before a request. -/
def State.stagedBefore (s : State) (cores : List Nat) (r : Req) : List Req :=
  (s.reqs.filter fun q => cores.any fun c => q.stage == .inL1 c).takeWhile fun q => q.id != r.id

/-- Whether a store may reach its home now: nothing it must follow is left, no earlier store of its L1 meets it, a release
follows every store that its core's L1s took before it, and no other access has the line (R131, R267, R269, R274, R280). -/
def State.storeReachesHome (s : State) (r : Req) (pa : Nat) : Bool :=
  !s.lineBusy (lineOf pa) &&
    (match r.stage, r.owner with
      | .ready, .lane l =>
        s.mayPerform r && s.relDrained r
          && (s.stagedIn (s.l1Of l.cid l.team (lineOf pa))).all fun q => !r.meets q
      | .inL1 c, .lane l =>
        if r.rel then (s.stagedBefore (c :: s.l1sOf l.cid l.team) r).isEmpty
        else (s.stagedBefore [c] r).all fun q => !r.meets q
      | _, _ => false)

/-- STORE_PERFORM: a store reaches its L1, or its home (R135, R265). -/
def execStorePerform (req : Nat) (place : StorePlace) (s : State) : Host.Outcome State Fault Refusal :=
  .next (match s.req req with
    | none => s
    | some r =>
      match r.kind, r.pas with
      | .store data, pa :: _ =>
        if r.peer.isSome then s
        else
          match place, r.owner with
          | .l1, .lane l =>
            if r.stage == .ready && inDevice pa && !r.noL1 && s.mayPerform r then s.storeInL1 r l pa data else s
          | .home, _ => if s.storeReachesHome r pa then s.storeAtHome r pa data else s
          | _, _ => s
      | _, _ => s)

/-! ### Atomics in an owned line (R146 to R148, R280 to R282) -/

/-- The requests of one issue to one line. -/
def State.issueOn (s : State) (r : Req) : List Req :=
  s.reqs.filter fun q => q.issue == r.issue && (q.pas.head?.map lineOf) == (r.pas.head?.map lineOf)

/-- Whether an L1 may hold a line for atomics: it owns it, or it has room and shows few recalls and the home can grant it
(R5, R280, R281). -/
def State.mayOwn (s : State) (core line : Nat) : Bool :=
  s.ownerOf line == some core
    || (Config.fewRecalls ((s.core core).predictor.get 0 (predictorIndex line)) && !s.lineBusy line
        && (((s.core core).l1.find line).isSome || decide ((s.core core).l1.length < l1Lines))
        && (s.stagedIn core).all fun q => (q.pas.head?.map lineOf) != some line)

/-- Whether no earlier write of a request's lane to its bytes is still to perform: one that is queued at the home would
come after what the L1 does now (R267, R268). -/
def State.ownWritesDone (s : State) (r : Req) : Bool :=
  (s.before r).all fun q => !(q.kind.writes && r.meets q) || q.performedAt 4 false

/-- The home grants a line: every other copy goes, and the L1 holds the bytes (R262). -/
def State.grantLine (s : State) (core line : Nat) : State :=
  if s.ownerOf line = some core then s
  else
    let bytes := Mem.readBytes s.mem (128 * line) 128
    let s := (s.cores.map (·.1)).foldl (fun (s : State) n => s.dropCopy n line) s
    let c := s.core core
    s.setCore core { c with l1 := c.l1.set line ⟨true, bytes, s.tick⟩ }

/-- One atomic in an owned line: the line is updated; ATOM's old value is on its way, RED has performed (R147, R148). -/
def State.atomicInL1 (s : State) (core : Nat) (r : Req) : State :=
  match r.kind, r.pas with
  | .atomic op ty d b c, pa :: _ =>
    match (s.core core).l1.find (lineOf pa) with
    | none => s
    | some x =>
      let n := atomicBytes ty
      let old : DWord := BitVec.ofNat 64 (ofBytesLE ((List.range n).map fun i => x.byteAt (pa + i)))
      let new := atomicNew op ty old b c
      let s := s.updateL1 core pa ((toBytesLE n new.1.toNat).map MByte.whole)
      match d, r.owner with
      | some _, _ => s.modReq r.id fun q => { q with stage := .replied old new.2 }
      | none, .lane l => (s.setFlags (.lane l) new.2).complete r
      | none, _ => s
  | _, _ => s

/-- An atomic that its core's L1 may perform, with every request of its issue to the line, in lane order (R131, R280,
R282). -/
def State.atomicsInL1 (s : State) (req : Nat) : State :=
  match s.req req with
  | none => s
  | some r =>
    match r.owner, r.kind, r.pas with
    | .lane l, .atomic .., pa :: _ =>
      let core := s.l1Of l.cid l.team (lineOf pa)
      let rs := s.issueOn r
      if inDevice pa && r.peer.isNone && r.cls == .normal && !r.noL1
          && ((s.gridOf l.cid).map (·.launch.rrmode)).getD 0 == 0
          && !s.issueWalks r.issue && s.mayOwn core (lineOf pa)
          && rs.all fun q => q.stage == .ready && s.mayPerform q && s.relDrained q && s.ownWritesDone q then
        rs.foldl (fun (s : State) q => s.atomicInL1 core q) (s.grantLine core (lineOf pa))
      else s
    | _, _, _ => s

/-! ### Register lines, pauses, barriers (R98, R99, R245) -/

/-- A register line leaves the cache; its values stay in the group's context (R244, R245). -/
def State.dropRegLine (s : State) (v : VictimLine) : State :=
  s.modGroup v.g fun x =>
    { x with cached := x.cached &&& ~~~(1#48 <<< v.line), dirty := x.dirty &&& ~~~(1#48 <<< v.line) }

/-- Whether a group's lines can be filled: its cluster is resident. -/
def State.resident (s : State) (cid : Nat) : Bool := ((s.cluster cid).map fun c : Cluster => c.place.isSome).getD false

/-- Whether a fill finds a place: one that is free, or that of a cached line of the same core. -/
def State.fillPlace (s : State) (g : GroupRef) (victim : Option VictimLine) : Bool :=
  match victim with
  | none => decide (s.cachedLines g.cid g.team < 512)
  | some v => v.g.cid == g.cid && v.g.team == g.team
      && ((s.group v.g).map fun x : Group => x.cached.getLsbD v.line).getD false

/-- REGISTER_LINE_FILL: a live line of a resident group that an access waits for is filled, and the victim, if one is named,
goes; RCMISS counts (R245). -/
def execRegisterLineFill (g : GroupRef) (line : Nat) (victim : Option VictimLine) (s : State) :
    Host.Outcome State Fault Refusal :=
  let wanted := ((s.group g).map fun x : Group => (s.wantedLines g x).getLsbD line).getD false
  let s' := match victim with
    | none => s
    | some v => s.dropRegLine v
  due (s.resident g.cid && wanted && s.fillPlace g victim) s
    ((s'.modGroup g fun x => { x with cached := x.cached ||| (1#48 <<< line) }).countCore (s.coreOf g.cid g.team) 1 1)

/-- PAUSE_EXPIRY: a pause whose count has run out ends (R98). -/
def execPauseExpiry (l : LaneRef) (s : State) : Host.Outcome State Fault Refusal :=
  due ((s.lane l).map (fun x : Lane => x.wait) == some (.paused 0)) s (s.wake l)

/-- Whether a lower lane of a group waits to arrive by the same instruction and could: the arrivals of a run count in lane
order (R99). -/
def State.lowerArrives (s : State) (l : LaneRef) : Bool :=
  match s.lane l with
  | none => false
  | some x => (List.range l.lane).any fun k =>
      ((s.lane (l.gr.at k)).map fun y : Lane => y.wait == x.wait && y.next == x.next).getD false
        && (match x.wait with
          | .arriving cl _ _ _ => s.performed (l.gr.at k) (arrivalScope cl)
          | _ => false)

/-- BARRIER_ARRIVAL: an arrival counts once the lane's earlier accesses have performed at the barrier's scope (R99 to
R101). -/
def execBarrierArrival (l : LaneRef) (s : State) : Host.Outcome State Fault Refusal :=
  .next (match (s.lane l).map fun x : Lane => x.wait with
    | some (.arriving cl b n cd) =>
      if s.performed l (arrivalScope cl) && !s.lowerArrives l then s.countArrival l cl b n cd else s
    | _ => s)

/-! ### Traps (R295 to R297) -/

/-- The open instruction whose trap is taken now: outside a handler the first that is ready, inside one an instruction
of the handler lanes; a fault of another instruction waits (R296). -/
def Group.trapDue (g : Group) : Option Open :=
  g.opens.find? fun o => o.trapReady && (g.handler.isNone || o.inHandler)

/-- TRAP_ENTRY (R295). -/
def execTrapEntry (g : GroupRef) (s : State) : Host.Outcome State Fault Refusal :=
  .next (match (s.group g).bind (·.trapDue) with
    | none => s
    | some o => s.takeTrap g o)

/-- CONTROL_CORE_TRAP_ENTRY (R297). -/
def execControlCoreTrapEntry (q : QuadRef) (s : State) : Host.Outcome State Fault Refusal :=
  .next (match (s.quad q).map fun x : Quad => x.control with
    | some c =>
      match c.wait with
      | .trapping cause addr aux done => s.takeControlTrap q c.pc cause addr aux done
      | _ => s
    | none => s)

/-! ### Walks and invalidations (R196, R287 to R291, R350) -/

/-- The region of the first address of a lane's request that no cached page serves (R291). -/
def State.walkRegion (s : State) (r : Req) (l : LaneRef) : Nat :=
  let good (va : Nat) (p : Page) : Bool := (s.classFault l r.kind p va).isNone
  let lpr := (((s.lane l).bind fun x : Lane => x.lpr).toList)
  let ps := lpr ++ (s.core (s.coreOf l.cid l.team)).tlb
  ((r.vas.find? fun va => (cachedFor ps (good va) va r.kind.writes).isNone).getD (r.vas.headD 0)) / 2 ^ 23

/-- Whether a waiting request is the one that a free walk slot takes: its instruction has the fewest walks in flight, and of
those it is the oldest (R291). -/
def State.walkNext (s : State) (r : Req) (quad : Nat) : Bool :=
  let ws := s.walksAt quad
  decide (ws.length < 16) && s.reqs.all fun q =>
    !(q.stage == .walk && s.walkQuad q == some quad)
      || decide (walksOf ws r.issue < walksOf ws q.issue)
      || (walksOf ws r.issue == walksOf ws q.issue && decide (r.id ≤ q.id))

/-- A walk begins for every waiting request of an instruction that shares a region (R291). -/
def State.beginWalk (s : State) (issue region : Nat) : State :=
  let f (q : Req) : Req :=
    match q.owner with
    | .lane l => if q.stage == .walk && q.issue == issue && s.walkRegion q l == region then { q with stage := .walking region }
        else q
    | _ => q
  { s with reqs := s.reqs.map f }

/-- Whether a request's walk may end with it: a residency-tolerant load, which may write its register there, waits for the
register's line (R134, R244). -/
def State.walkEnds (s : State) (r : Req) : Bool :=
  match r.kind with
  | .load _ _ _ _ (some _) => s.canDeliver r
  | _ => true

/-- A walk ends: the requests that it serves translate (R288, R291), every entry read at this moment, the model's choice
(log 93). -/
def State.endWalk (s : State) (issue region : Nat) : State :=
  ((s.reqs.filter fun q => q.issue == issue && q.stage == .walking region && s.walkEnds q).map (·.id)).foldl
    (fun (s : State) id =>
      match s.req id with
      | none => s
      | some q => (s.translateReq id true).settleOf q) s

/-- PAGE_WALK: a walk slot takes a waiting request's walk, or the walk in flight for it ends (R287, R288, R291). -/
def execPageWalk (req : Nat) (s : State) : Host.Outcome State Fault Refusal :=
  .next (match s.req req with
    | none => s
    | some r =>
      match r.stage, r.owner, s.walkQuad r with
      | .walk, .lane l, some quad => if s.walkNext r quad then s.beginWalk r.issue (s.walkRegion r l) else s
      | .walking region, _, _ => s.endWalk r.issue region
      | _, _, _ => s)

/-- Whether two address ranges [a, b) and [c, d) meet. -/
def spansMeet (a b c d : Nat) : Bool := decide (a < d) && decide (c < b)

/-- Cached pages without those that meet a range. -/
def dropPages (ps : List Page) (lo hi : Nat) : List Page :=
  ps.filter fun p => !spansMeet p.base (p.base + p.size) lo hi

/-- Cached upper entries without those that cover a part of a range. -/
def WalkCache.drop (c : WalkCache) (lo hi : Nat) : WalkCache :=
  ⟨c.level1.filter fun p => !spansMeet (p.1 * 2 ^ 40) ((p.1 + 1) * 2 ^ 40) lo hi,
   c.region.filter fun p => !spansMeet (p.1 * 2 ^ 23) ((p.1 + 1) * 2 ^ 23) lo hi⟩

/-- Every lane of a team without a last page in a range. -/
def Team.dropLpr (t : Team) (lo hi : Nat) : Team :=
  { t with groups := t.groups.map fun g => { g with lanes := g.lanes.map fun x =>
      { x with lpr := x.lpr.filter fun p => !spansMeet p.base (p.base + p.size) lo hi } } }

/-- A range swept from every translation cache of the device (R196, R289). -/
def State.sweepCaches (s : State) (lo hi : Nat) : State :=
  { s with
    cores := s.cores.map fun p => (p.1, { p.2 with tlb := dropPages p.2.tlb lo hi })
    quads := s.quads.map fun p => (p.1, { p.2 with tlb := dropPages p.2.tlb lo hi, walk := p.2.walk.drop lo hi })
    clusters := s.clusters.map fun p => (p.1, { p.2 with teams := p.2.teams.map fun t => t.dropLpr lo hi }) }

/-- Whether a request is a store that has translated an address in a range and has not reached its home, here or at a peer
(R294). -/
def Req.storesIn (r : Req) (lo hi : Nat) : Bool :=
  (match r.kind with
    | .store _ => true
    | _ => false) && !r.stage.walks
    && r.vas.any fun va => spansMeet va (va + r.kind.bytes) lo hi

/-- Whether an invalidation may complete: the releases that a flip waits for have performed at device scope, the stores
that translated in the range stand in the old frames, and the write of a flip comes between no two requests of one batch
(R131, R189, R290, R294). -/
def State.sweepReady (s : State) (v : Invalidation) : Bool :=
  (!v.flip || s.unsplit)
    && s.reqs.all fun r => (!v.after.contains r.id || r.performedAt 4 false) && !r.storesIn v.lo v.hi

/-- The control cores of a cluster that waited for a sweep go on. -/
def State.wakeSweep (s : State) (cid id : Nat) : State :=
  (List.range (((s.cluster cid).map fun c : Cluster => c.quads.length).getD 0)).foldl (fun (s : State) k =>
    match (s.quad ⟨cid, k⟩).map fun x : Quad => x.control.wait with
    | some (.sweep v) => if v = id then s.wakeControl ⟨cid, k⟩ else s
    | _ => s) s

/-- The FLIP nodes that waited for a sweep end DONE (R250). -/
def Slot.endSweep (id : Nat) (x : Slot) : Slot :=
  { x with nodes := x.nodes.map fun n =>
      if n.stage == .running && n.image.head? == some 3 && n.waited == id then { n with stage := .ending 0x02 none }
      else n }

/-- INVALIDATION_COMPLETE: a flip toggles, every cache lets the range go, and the senders go on (R189,
R196, R290, R350). -/
def execInvalidationComplete (id : Nat) (s : State) : Host.Outcome State Fault Refusal :=
  .next (match s.invalidations.find? fun v => v.id == id with
    | none => s
    | some v =>
      if !s.sweepReady v then s
      else
        let s := if v.flip then s.flipRange v.lo v.hi else s
        let s := s.sweepCaches v.lo v.hi
        let left := s.invalidations.filter fun w => w.id != id
        let s := { s with invalidations := left, slots := s.slots.map (Slot.endSweep id) }
        let s := if v.host && !left.any (·.host) then { s with bar0 := { s.bar0 with invstat := s.bar0.invstat &&& 2 } }
          else s
        (s.clusters.map (·.1)).foldl (fun (s : State) cid => (s.advance cid).wakeSweep cid id) s)

/-! ### Promotion and recalls (R145, R274, R275, R280, R281) -/

/-- Whether an L1 holds a line, or a store to it. -/
def State.holdsLine (s : State) (core line : Nat) : Bool :=
  ((s.core core).l1.find line).isSome || (s.stagedIn core).any fun q => (q.pas.head?.map lineOf) == some line

/-- The cores whose L1 holds stores and that a promotion of a line must hear from: the holders of the line, with the
whole cluster of a fused one, or every core for a line of host memory (R275). -/
def State.pushTargets (s : State) (pa : Nat) : List Nat :=
  let busy := (s.reqs.filterMap fun q => match q.stage with
    | .inL1 c => some c
    | _ => none).dedup
  if !inDevice pa then busy
  else
    let line := lineOf pa
    busy.filter fun n =>
      s.holdsLine n line
        || s.clusters.any fun p => s.fused p.1 && (s.coresOf p.1).contains n
            && (s.coresOf p.1).any fun m => s.holdsLine m line

/-- The cores whose L1s write through with one core's: those of its cluster where they are fused, else itself (R262, R275). -/
def State.pushGroup (s : State) (core : Nat) : List Nat :=
  ((s.clusters.find? fun p => (s.fusedCores p.1).contains core).map fun p => s.fusedCores p.1).getD [core]

/-- PUSH_TO_HOME: a core, and with it every core of a fused cluster, writes every store that its L1 holds through to its home, in
order, and acknowledges (R145, R268, R275). -/
def execPushToHome (req core : Nat) (s : State) : Host.Outcome State Fault Refusal :=
  .next (match s.req req with
    | none => s
    | some r =>
      match r.kind with
      | .promote .. =>
        let cores := s.pushGroup core
        if r.stage == .ready && s.mayPerform r && s.mayPush cores then
          (s.pushStaged cores).modReq req fun q => { q with acks := q.acks ++ cores.filter fun n => !q.acks.contains n }
        else s
      | _ => s)

/-- PROMOTE_RETURN: when every core has acknowledged and the lane's own earlier writes to the bytes have performed, the home
reads the value and the acquire completes (R145, R267, R274, R275). -/
def execPromoteReturn (req : Nat) (s : State) : Host.Outcome State Fault Refusal :=
  .next (match s.req req with
    | none => s
    | some r =>
      match r.kind, r.owner, r.pas with
      | .promote d w, .lane l, pa :: _ =>
        if r.stage == .ready && r.peer.isNone && s.mayPerform r && s.ownWritesDone r && !s.lineBusy (lineOf pa)
            && (s.pushTargets pa).all r.acks.contains && s.canDeliver r then
          let bs := s.homeBytes pa w
          (s.fillFor l pa false).endLoad r l d bs false
        else s
      | _, _, _ => s)

/-- LINE_RECALL: the home takes an owned line back, and the core's predictor counts it (R280, R281). -/
def execLineRecall (line : Nat) (s : State) : Host.Outcome State Fault Refusal := .next (s.recall line)

/-! ### Built-in methods (R147, R308) -/

/-- The operation and the type of a built-in method. -/
def builtinOf (m : Nat) : Nat × Nat :=
  if m < 12 then (m, 0) else if m = 12 then (0, 1) else if m = 13 then (7, 1) else if m = 14 then (0, 2) else (0, 3)

/-- The operands of a built-in method: a 64-bit one takes its low half from operand 1, its high half from operand 2. -/
def builtinOperands (m : Nat) (b c : Word) : DWord × DWord :=
  if m = 12 ∨ m = 13 then (c ++ b, 0) else (b.zeroExtend 64, c.zeroExtend 64)

/-! ### Peers (R132, R298, R299, R322, R353, R354) -/

/-- The block that counts the cycles for which a request waits for a peer: that of its asker (R3, R299). -/
def State.clockOf (s : State) (r : Req) : ClockUnit :=
  match r.owner, r.kind with
  | .lane l, _ => .core (s.coreOf l.cid l.team)
  | .control q, _ => .quad (s.quadOf q)
  | .cluster _, .fetch (.core n) => .core n
  | .cluster _, .fetch (.quad n) => .quad n
  | .cluster _, .fetch (.slice n) => .slice n
  | _, _ => .cp

/-- The value that one load of a peer returns reaches the uniform register, and it has performed for every member that it
serves (R137). -/
def State.uniformDone (s : State) (r : Req) (d : Code) (n : Nat) (ls : List Nat) (data : List Byte) : State :=
  match r.owner with
  | .lane l =>
    let s := (s.dropReq r.id).putUniform (.lane l) d n data
    let s := if r.acq then ls.foldl (fun (s : State) k => s.acquire (l.gr.at k) r.scope) s else s
    (s.markAll l.gr r.op .performed).settleOf r
  | .control q =>
    let s := if r.acq && !servedByL1 r.scope (s.fused q.cid) then s.modControl q fun c => { c with acqAt := s.tick } else s
    ((s.dropReq r.id).putUniform (.control q) d n data).wakeControl q
  | _ => s.dropReq r.id

/-- The descriptor that a peer returns becomes the group's, or traps HGDESC (R157, R325). -/
def State.configDone (s : State) (r : Req) (data : List Byte) : State :=
  match r.owner with
  | .lane l =>
    if descOk data (r.vas.headD 0) then
      (((s.dropReq r.id).putDesc l.gr (r.vas.headD 0) data).markAll l.gr r.op .performed).settleOf r
    else s.failReq r causeHGDESC r.addr 0
  | _ => s.dropReq r.id

/-- The flags that a combining request sets in its lane, given the word that stood before it (R146, R308). -/
def combFlags (m : Nat) (b c : Word) (old : DWord) : Word :=
  let k := builtinOf m
  let o := builtinOperands m b c
  (atomicNew k.1 k.2 old o.1 o.2).2

/-- What a completion from a peer does to the asker (R132, R298). An update's completion carries what stood at its place
before it. -/
def State.peerDone (s : State) (r : Req) (data : List Byte) : State :=
  let old : DWord := BitVec.ofNat 64 (ofBytesLE (data.take 8))
  let bytes (n : Nat) : List Byte := (data ++ List.replicate n 0).take n
  match r.kind, r.owner with
  | .load d w sx _ _, .lane l => s.endLoad r l d (bytes w) sx
  | .promote d w, .lane l => s.endLoad r l d (bytes w) false
  | .store _, _ => ((s.foldReq r).complete r).localPart r
  | .atomic op ty d b c, .lane l =>
    let s := match d with
      | some d => s.putRegs l d (wordsOfBytes (toBytesLE (atomicBytes ty) old.toNat))
      | none => s
    (s.setFlags (.lane l) (atomicNew op ty old b c).2).complete r
  | .comb m d b c, .lane l =>
    let s := match d with
      | some d => s.putRegs l d (wordsOfBytes (toBytesLE 8 old.toNat))
      | none => s
    (s.setFlags (.lane l) (combFlags m b c old)).complete r
  | .uniform d n _ ls, _ => s.uniformDone r d n ls (bytes n)
  | .config _, _ => s.configDone r (bytes 64)
  | .corner p idx n, _ => (s.dropReq r.id).modReq p fun q => { q with got := (idx, bytes n) :: q.got }
  | .scatterPart p _ v, _ => (s.dropReq r.id).scatterDone p (addWord (old.truncate 32) v).2 none
  | .fetch u, _ =>
    (s.dropReq r.id).keepWord u (r.pas.headD 0) ⟨some (BitVec.ofNat 32 (ofBytesLE (bytes 4))), 0, 0, s.tick⟩
  | _, _ => s

/-- A late completion counts in PEERLATE of its asker's block (R197, R299). -/
def State.countLate (s : State) : ClockUnit → State
  | .core n => s.countCore n 7 1
  | .quad n => s.countQuad n 7 1
  | .slice _ | .cp => s

/-- PEER_COMPLETION: data completes the request, an error traps PEER, and what arrives after its lane has taken PEERTO is
discarded and counted; a request on a link that has retrained gets none (R132, R299, R358). -/
def execPeerCompletion (req : Nat) (ok : Bool) (data : List Byte) (s : State) : Host.Outcome State Fault Refusal :=
  .next (match s.req req with
    | none => s
    | some r =>
      match r.stage with
      | .timedOut u => (s.dropReq req).countLate u
      | .atPeer =>
        if r.retrained || !s.canDeliver r then s
        else if ok then s.peerDone r data
        else s.failReq r causePEER r.addr r.dev
      | _ => s)

/-- The other parts of a read that a timeout has failed find no asker either. -/
def State.orphan (s : State) (r : Req) (u : ClockUnit) : State :=
  match r.kind with
  | .corner p _ _ =>
    let late (q : Req) : Req := match q.kind with
      | .corner p' _ _ => if p' = p then { q with stage := .timedOut u, owner := .peer (q.peer.getD 0) q.id } else q
      | _ => q
    { s with reqs := s.reqs.map late }
  | _ => s

/-- PEER_TIMEOUT: a request that has waited PEERTO cycles of its asker's block fails with PEERTO; what comes back later finds
no asker (R299). -/
def execPeerTimeout (req : Nat) (s : State) : Host.Outcome State Fault Refusal :=
  .next (match s.req req with
    | none => s
    | some r =>
      if r.stage == .atPeer && decide (s.bar0.peerto.toNat ≤ r.waited) then
        let u := s.clockOf r
        ((s.peerTimedOut u r.addr.toNat (r.peer.getD 0)).failReq r causePEERTO r.addr r.dev).orphan r u
      else s)

/-- Whether a device may send requests here: peer traffic is enabled and its bit of the inbound bitmap is set (R298,
R353). That a request is rejected with its record while peer traffic is disabled is the model's choice (log 95). -/
def State.inboundFrom (s : State) (dev : Nat) : Bool :=
  s.bar0.devnum.getLsbD 31 && decide (dev < 2 ^ 14)
    && (s.homeByte (s.bar0.inbound.toNat + dev / 8)).getLsbD (dev % 8)

/-- The bytes that a peer's request touches. -/
def peerBytes : PeerKind → Nat
  | .read n => n
  | .write d => d.length
  | .atomic _ ty _ _ => atomicBytes ty
  | .comb .. => 128
  | .scatter .. => 4

/-- An entry of the management log: UEC counts, LASTERR holds the detail (R298, R350). -/
def State.logError (s : State) (detail : BitVec 128) : State :=
  { s with bar0 := { s.bar0 with uec := s.bar0.uec + 1, lasterr := toBytesLE 16 detail.toNat } }

/-- A rejected peer request: an error completion, the management log and the black box (R298). -/
def State.rejectPeer (s : State) (r : PeerAccess) : State :=
  let detail : BitVec 128 := BitVec.ofNat 128 (r.pa + 2 ^ 64 * r.src)
  let s := (s.logError detail).record 3 0 0 detail
  { s with peerReplies := s.peerReplies ++ [⟨r.src, r.seq, false, []⟩] }

/-- The number of a combining request's method. -/
def peerMethod : PeerKind → Nat
  | .comb m _ _ => m
  | _ => 0

/-- Whether a peer's request is performed here: its device may send, its bytes lie in device memory and no error meets them,
and its method is built in (R298, R307, log 48). -/
def State.acceptsPeer (s : State) (r : PeerAccess) : Bool :=
  s.inboundFrom r.src && !r.bad && decide (r.pa + peerBytes r.kind ≤ deviceBytes) && decide (peerMethod r.kind < 16)

/-- A peer's atomic, combining or scatter request joins the queues of its home slice (R322). -/
def State.queuePeer (s : State) (r : PeerAccess) (kind : ReqKind) : State :=
  let (id, s) := s.fresh
  { s with reqs := s.reqs ++ [{ Req.make id (.peer r.src r.seq) id 0 kind { sc := 5 } [r.pa] 0 with
      pas := [r.pa], noL1 := true, stage := .ready, left := 1 }] }

/-- PEER_REQUEST: a peer's load or store performs at the home slice; its atomic, combining or scatter request joins the
queues (R298, R322, R354). A load or a store comes between no two requests of one batch (R131, log 69). -/
def execPeerRequest (r : PeerAccess) (s : State) : Host.Outcome State Fault Refusal :=
  .next (if !s.acceptsPeer r then s.rejectPeer r
    else
      match r.kind with
      | .read k =>
        if !s.unsplit then s
        else
          let s := s.recallRange r.pa k
          { s with peerReplies := s.peerReplies ++ [⟨r.src, r.seq, true, s.homeBytes r.pa k⟩] }
      | .write d =>
        if !s.unsplit then s
        else
          let s := s.homeWrite r.pa (d.map fun b => ⟨b.1, b.2⟩)
          { s with peerReplies := s.peerReplies ++ [⟨r.src, r.seq, true, []⟩] }
      | .atomic op ty b c => s.queuePeer r (.atomic op ty (some 0) b c)
      | .comb m b c => s.queuePeer r (.comb m (some 0) b c)
      | .scatter lo hi => s.queuePeer r (.hgscat [(lo, hi)] 0))

end Sys2Proof.Machine
end

