-- ==== Sys2Proof/Machine/EngineEvents.lean ====
section
/-! DEFINITION. The steps of the copy queues (R164 to R174) and of the tile tasks (R177, R186, R187, R231). -/

namespace Sys2Proof.Machine

open Sys2Proof

/-! ### Copy queues -/

/-- Whether a co-resident grid is split: FREEZE 2 has saved some of its clusters and found no room for the others, which wait
for them (R254, R259, R357, log 84). -/
def State.splitGrid (s : State) (gid : Nat) : Bool :=
  ((s.grid gid).map fun g : Grid => g.launch.cores && g.abort.isNone).getD false
    && (s.clusters.any fun p => p.2.grid == gid && p.2.place.isSome)
    && s.clusters.any fun p => p.2.grid == gid && p.2.place.isNone

/-- Whether a cluster is resident and its agents may go on: it has a place, the whole of a co-resident grid has, its grid has
not aborted, and the device is not frozen (R254, R256, R299, R357). -/
def State.running (s : State) (cid : Nat) : Bool :=
  s.powered && !s.frozen && ((s.cluster cid).map fun c : Cluster => c.place.isSome && !s.splitGrid c.grid).getD false
    && ((s.gridOf cid).map (·.abort.isNone)).getD false

/-- Whether what a cluster's engines have begun may end: a freeze stops no ending (R257, R300, R357). -/
def State.mayEnd (s : State) (cid : Nat) : Bool :=
  s.powered && ((s.cluster cid).map (·.place.isSome)).getD false && ((s.gridOf cid).map (·.abort.isNone)).getD false

/-- QUEUE_ENTRY_ACCEPT: a held command or fence enters its queue once there is room (R165, R173). -/
def execQueueEntryAccept (l : LaneRef) (s : State) : Host.Outcome State Fault Refusal :=
  due (s.running l.cid) s ((s.tryEnter l).advance l.cid)

/-- The head entry of a queue replaced. -/
def CopyQueue.setHead (x : CopyQueue) (e : QueueEntry) : CopyQueue := { x with entries := e :: x.entries.drop 1 }

/-- COPY_COMMAND_START: the command at the head of a queue that is not held is checked and moves its elements (R164,
R167 to R171). No element of it comes between the requests of one batch (R131, log 69), and its walks find a slot (R291, log
82). -/
def execCopyCommandStart (q : QueueRef) (s : State) : Host.Outcome State Fault Refusal :=
  .next (match s.queue q with
    | none => s
    | some x =>
      match x.entries.head? with
      | some (.command id l d e none) =>
        if x.held || !s.running q.cid || !s.unsplit || !s.walkFree (quadOfCore (s.coreOf q.cid q.team)) then s
        else
          let r := s.runCopy l d
          r.1.modQueue q fun y => { y.setHead (.command id l d e (some r.2)) with doneAt := s.tick }
      | _ => s)

/-- The cause code that QSTAT shows. -/
def CopyStatus.cause : CopyStatus → Nat
  | .fault c => c
  | _ => 0

/-- The STATE that QSTAT shows for an ending; 0 for done (R175). -/
def CopyStatus.held : CopyStatus → BitVec 3
  | .done => 0
  | .fault _ => 2
  | .overlap => 3
  | .desc => 4

/-- A queue whose head command has ended (R171, R175). A command that has failed leaves the queue, which it holds: it counts
neither as pending nor towards the depth (log 63). -/
def CopyQueue.ended (x : CopyQueue) (r : CopyRun) : CopyQueue :=
  let ok := r.status == .done
  { x with entries := x.entries.drop 1, state := r.status.held, cause := BitVec.ofNat 5 r.status.cause,
           flags := x.flags ||| r.flags.truncate 3, done := if ok then x.done + 1 else x.done,
           elem := if ok then 0 else BitVec.ofNat 40 r.elems,
           performed := if ok then x.performed + 1 else x.performed }

/-- Whether what a peer does not answer has been waited for: PEERTO cycles (R299). -/
def State.waitedFor (s : State) (owed : Option (Nat × Nat)) (waited : Nat) : Bool :=
  owed.isNone || decide (s.bar0.peerto.toNat ≤ waited)

/-- An engine's access that a peer has not answered: its record, and the completion that may still come (R299, R356). -/
def State.owedOut (s : State) (u : ClockUnit) : Option (Nat × Nat) → State
  | none => s
  | some (va, dev) => s.peerTimedOut u va dev

/-- COPY_COMMAND_END: the flags reach the lane and the queue, the digest folds what was delivered, the ending signals,
and waiting lanes go on (R171, R172, R174, R340). -/
def execCopyCommandEnd (q : QueueRef) (s : State) : Host.Outcome State Fault Refusal :=
  .next (match s.queue q with
    | none => s
    | some x =>
      match x.entries.head? with
      | some (.command id l _ e (some r)) =>
        if x.held || !s.mayEnd q.cid || !s.waitedFor r.owed r.waited then s
        else
          let s := s.owedOut (.core (s.coreOf q.cid q.team)) r.owed
          let s := s.modQueue q fun y => y.ended r
          let s := s.setFlags (.lane l) r.flags
          ((s.endCopy l id r.records).signalCopy l e (r.status == .done)).advance q.cid
      | _ => s)

/-- Whether what a fence waits for has come about: the entries accepted before it into the queues it names have performed
or were discarded, and the stores have performed at device scope (R173). -/
def State.fenceEntryDone (s : State) (q : QueueRef) (queues : List (Nat × Nat × Nat)) (stores : List Nat) : Bool :=
  queues.all (fun t =>
      ((s.queue ⟨q.cid, q.team, t.1⟩).map fun y : CopyQueue =>
        y.epoch != t.2.2 || decide (t.2.1 ≤ y.performed)).getD true)
    && s.reqs.all fun r => !stores.contains r.id || r.performedAt 4 false

/-- QFENCE_COMPLETE (R173). -/
def execQfenceComplete (q : QueueRef) (s : State) : Host.Outcome State Fault Refusal :=
  .next (match s.queue q with
    | none => s
    | some x =>
      match x.entries.head? with
      | some (.fence queues stores) =>
        if x.held || !s.running q.cid || !s.fenceEntryDone q queues stores then s
        else (s.modQueue q fun y => { y with entries := y.entries.drop 1, performed := y.performed + 1 }).advance q.cid
      | _ => s)

/-! ### Tile tasks -/

/-- TASK_TABLE_ENTRY: the stalled control core's task enters the table once it has room (R177). -/
def execTaskTableEntry (q : QuadRef) (s : State) : Host.Outcome State Fault Refusal :=
  .next (match s.quad q with
    | none => s
    | some x =>
      match x.control.wait with
      | .entering t => if x.tasks.length < tableSize && s.running q.cid then (s.enterTask q t).wakeControl q else s
      | _ => s)

/-- Whether a kind runs in the drain unit, or in the matrix unit; TFENCE runs in neither (R231). -/
def TaskKind.inUnit (k : TaskKind) (drain : Bool) : Bool := k != .tfence && k.drains == drain

/-- The oldest ready task of a unit that is free (R177, R231). -/
def Quad.startable (x : Quad) (drain : Bool) : Option Task :=
  if x.tasks.any fun t => t.kind.inUnit drain && t.stage == .running then none
  else x.tasks.find? fun t => t.kind.inUnit drain && t.stage == .waiting && x.taskReady t

/-- A task of the table changed. -/
def Quad.modTask (x : Quad) (id : Nat) (f : Task → Task) : Quad :=
  { x with tasks := x.tasks.map fun t => if t.id = id then f t else t }

/-- TASK_START: a free unit starts the oldest ready task that it can run; its reads, sums and writes are made (R177, R181
to R184, R231). None of its accesses comes between the requests of one batch (R131, log 69). It acts at the homes, which what
the fused L1s of its cluster hold has reached before (R269, R277). -/
def execTaskStart (q : QuadRef) (drain : Bool) (s : State) : Host.Outcome State Fault Refusal :=
  .next (match (s.quad q).bind fun x : Quad => x.startable drain with
    | none => s
    | some t =>
      if !s.running q.cid || !s.unsplit then s
      else
        let r := (s.pushStaged (s.fusedCores q.cid)).runTask q t
        let digest := s.digestOn q.cid
        r.s.modQuad q fun x =>
          Quad.foldTasks digest
            { x.modTask t.id (fun t =>
                { t with stage := .running, record := taskRecord t r.status r.flags r.sk, owed := r.owed, waited := 0 }) with
              folds := x.folds.map fun c => if c.1 = t.id then (c.1, some r.records) else c, doneAt := s.tick })

/-- TASK_FINISH: every read and write of a running task has performed (R177). -/
def execTaskFinish (q : QuadRef) (task : Nat) (s : State) : Host.Outcome State Fault Refusal :=
  .next (match (s.quad q).bind fun x : Quad => x.tasks.find? fun t => t.id == task && t.stage == .running with
    | none => s
    | some t =>
      if !s.waitedFor t.owed t.waited then s
      else
        (s.owedOut (.quad (s.quadOf q)) t.owed).modQuad q fun x =>
          x.modTask task fun t => { t with stage := .finished, owed := none })

/-- A task that completes: its record is posted, its signal added, its entry freed, and what waited goes on (R177, R186,
R198). -/
def State.completeTask (s : State) (q : QuadRef) (t : Task) (record : DWord) (post : Bool) : State :=
  let s := s.modQuad q fun x =>
    { x with tasks := x.tasks.filter (fun y => y.id != t.id), events := if post then x.events ++ [record] else x.events }
  let s := match (s.quad q).map (·.control.wait) with
    | some .halted => if post then s.wakeControl q else s
    | _ => s
  match t.sig with
  | none => s
  | some (tok, inc) => s.addToken q tok inc

/-- TASK_COMPLETE: a finished task, or a TFENCE that is ready, completes when its record, if it posts one, has room (R177,
R186, R232). -/
def execTaskComplete (q : QuadRef) (task : Nat) (s : State) : Host.Outcome State Fault Refusal :=
  .next (match s.quad q with
    | none => s
    | some x =>
      match x.tasks.find? fun t => t.id == task with
      | none => s
      | some t =>
        let fence := t.kind == .tfence && x.taskReady t
        let record := if t.kind == .tfence then taskRecord t .ok 0 false else t.record
        let post := !t.field.quiet || bitsAt record.toNat 12 4 != 0
        if s.mayEnd q.cid && (t.stage == .finished || fence) && (!post || decide (x.events.length < eventQueueSize)) then
          s.completeTask q t record post
        else s)

end Sys2Proof.Machine
end

