-- ==== Sys2Proof/Machine/Crucible.lean ====
section
/-! DEFINITION. The home slices: batches and queues, order logs and the gate, waves and what they commit (R147, R152,
R153, R304 to R323, R331, R332, R342 to R345). -/

namespace Sys2Proof.Machine

open Sys2Proof

/-! ### Batches (R303, R312) -/

/-- The grid that a lane's request belongs to. -/
def State.gridIdOf (s : State) (r : Req) : Option Nat :=
  match r.owner with
  | .lane l => (s.cluster l.cid).map (·.grid)
  | _ => none

/-- The grid of a request. -/
def State.gridOfReq (s : State) (r : Req) : Option Grid := (s.gridIdOf r).bind s.grid

/-- Whether a kind is served at the home as a request of a method. -/
def ReqKind.queued : ReqKind → Bool
  | .atomic .. | .comb .. | .hgscat .. => true
  | _ => false

/-- The indices of a request's addresses that lie in a line of this device or the host and have not been sent; acks lists
those of a scatter that have. -/
def Req.unsentOn (r : Req) (line : Nat) : List Nat :=
  ((List.range r.pas.length).filter fun i => !r.acks.contains i).filter fun i =>
    (r.pas[i]?.map fun pa => (lineOf pa, (peerOf pa).isNone)) == some (line, true)

/-- Whether a request may still send to a home slice: it is in its core, or a scatter. -/
def Req.sends (r : Req) : Bool :=
  r.kind.queued && (r.peer.isNone || r.kind.isScatter)
    && (r.stage == .ready || (r.stage == .atHome && r.kind.isScatter))

/-- The requests of an issue to one line that have not been sent, in lane order and within a lane in the order of its
instruction (R131, R160, R303, R312). -/
def State.unsentBatch (s : State) (issue line : Nat) : List (Nat × Nat) :=
  (s.reqs.filter fun r => r.issue == issue && r.sends).flatMap fun r => (r.unsentOn line).map fun i => (r.id, i)

/-- What a batch is named by: its first request and which of its addresses. -/
def batchId (req idx : Nat) : Nat := 65536 * req + idx

/-- Whether what the requests of a batch must follow has performed: their own lanes' order, and the stores to the line
that their L1 holds (R131, R267, R269). -/
def State.batchFree (s : State) (line : Nat) (r : Req) : Bool :=
  s.mayPerform r && s.relDrained r &&
    (match r.owner with
      | .lane l => (s.stagedIn (s.l1Of l.cid l.team line)).all fun q => (q.pas.head?.map lineOf) != some line
      | _ => true)

/-- The batch that a number names, as it leaves its core now; the batches of scatters leave in the order of their adds (R160). -/
def State.leavingBatch (s : State) (batch : Nat) : Option Batch :=
  match s.req (batch / 65536) with
  | none => none
  | some r =>
    match r.pas[batch % 65536]? with
    | none => none
    | some pa =>
      let line := lineOf pa
      let rs := s.unsentBatch r.issue line
      let turn := !r.kind.isScatter || s.scatterHead r.issue == some (batch / 65536, batch % 65536)
      if rs.head? == some (batch / 65536, batch % 65536) && turn && !s.issueWalks r.issue
          && rs.all fun p => ((s.req p.1).map (s.batchFree line)).getD false then
        some ⟨batch, line, homeSlice pa, rs, s.tick, false⟩
      else none

/-- A batch has left its core. -/
def State.markSent (s : State) (b : Batch) : State :=
  b.reqs.foldl (fun (s : State) p => s.modReq p.1 fun r => { r with stage := .atHome, acks := r.acks ++ [p.2] }) s

/-! ### Record and replay (R331, R332, R342, R343) -/

/-- Whether a grid's requests are logged (1) or gated (2): a re-execution under RRMODE 1 does neither, and after a
divergence nothing is gated (R333, R345). -/
def Grid.logMode (g : Grid) : Nat :=
  if g.launch.rrmode = 1 ∧ g.reex then 0 else if g.launch.rrmode = 2 ∧ g.rrstat.getLsbD 0 then 0 else g.launch.rrmode

/-- Whether the gate holds a request. -/
def State.gated (s : State) (req : Nat) : Bool :=
  (((s.req req).bind s.gridOfReq).map fun g : Grid => g.logMode == 2).getD false

/-- Who made a request (R331). -/
def State.requester (s : State) (r : Req) : Option Requester :=
  match r.owner with
  | .lane l => (s.cluster l.cid).map fun c : Cluster => ⟨c.index, l.team, l.group, l.lane, r.serial⟩
  | _ => none

/-- Bytes stored where a translation of their address has ended, on a page that takes them. -/
def State.logStore (va : Nat) (bs : List Byte) : State × Except TransFault Page → State
  | (s, .ok p) => if p.peer.isNone && p.cls != .combining then s.homeWrite (p.pa va) (bs.map MByte.whole) else s
  | (s, .error _) => s

/-- Bytes written to a log: a plain store at device scope (R343). One that does not translate is dropped (log 37). -/
def State.logWrite (s : State) (va : Nat) (bs : List Byte) : State := State.logStore va bs (s.translateNode va true)

/-- A 64-bit word of a log, as a plain load at device scope reads it at its home (R280, R343). -/
def State.logWord (s : State) (va : Nat) : DWord :=
  match (s.freshWalk va).out with
  | .mapped p => if p.peer.isNone then s.tableEntry (p.pa va) else 0
  | _ => 0

/-- What reading n chunks of a log from an address leaves: the accessed bits of its pages, and no owned line (R280, R288). -/
def State.logRead (s : State) (va : Nat) : Nat → State
  | 0 => s
  | n + 1 =>
    match s.translateNode va false with
    | (s, .ok p) => ((if p.peer.isNone then s.recall (lineOf (p.pa va)) else s)).logRead (va + 16) n
    | (s, .error _) => s.logRead (va + 16) n

/-- The bytes of a slice's log area (R343). -/
def DetBlock.area (d : DetBlock) : Nat := 16 * (d.logSize / 6144)

/-- The two words of a chunk (R332). -/
def Chunk.words (c : Chunk) : DWord × DWord :=
  (BitVec.ofNat 64 (c.line % 2 ^ 41 + c.count * 2 ^ 48 + c.who.lane * 2 ^ 56 + c.same.toNat * 2 ^ 61),
   BitVec.ofNat 64 (c.who.serial.toNat + c.who.group * 2 ^ 32 + c.who.team * 2 ^ 37 + c.who.cluster % 2 ^ 23 * 2 ^ 41))

/-- A chunk or a terminator at position k of a slice's area. -/
def State.putChunk (s : State) (d : DetBlock) (slice k : Nat) (ws : DWord × DWord) : State :=
  s.logWrite (d.logBase + d.area * slice + 16 * k) (toBytesLE 8 ws.1.toNat ++ toBytesLE 8 ws.2.toNat)

/-- A slice's log of a grid. -/
def Slice.log (x : Slice) (gid : Nat) : SliceLog := x.logs.get ⟨0, [], false, []⟩ gid

/-- A slice's log of a grid changed. -/
def State.modLog (s : State) (slice gid : Nat) (f : SliceLog → SliceLog) : State :=
  let x := s.sliceAt slice
  s.setSlice slice { x with logs := x.logs.set gid (f (x.log gid)) }

/-- A closed chunk is written, or, where the area has no room, the overflow terminator, after which the slice logs nothing
more (R342, R343). -/
def State.closeChunk (s : State) (d : DetBlock) (slice gid : Nat) (c : Chunk) : State :=
  let log := (s.sliceAt slice).log gid
  if log.full then s
  else if 16 * log.written + 32 ≤ d.area then
    (s.putChunk d slice log.written c.words).modLog slice gid fun l => { l with written := l.written + 1 }
  else
    let s := s.putChunk d slice log.written (0, 0xFFFFFFFFFFFFFFFF)
    let s := s.modLog slice gid fun l => { l with full := true, opened := [] }
    s.modGrid gid fun g => { g with rrstat := g.rrstat ||| 2, overflowed := if g.overflowed.contains slice then g.overflowed
      else slice :: g.overflowed }

/-- Whether a request goes on in an open chunk of its object (R342). -/
def Chunk.extends (c : Chunk) (who : Requester) (same : Bool) : Bool :=
  c.same == same && c.count < 255 && c.who.cluster == who.cluster && c.who.team == who.team && c.who.group == who.group
    && c.who.lane == who.lane && (if same then c.who.serial == who.serial else c.who.serial + BitVec.ofNat 32 c.count == who.serial)

/-- An object's open chunk of a grid closed (R342). -/
def State.closeOpen (s : State) (d : DetBlock) (slice gid line : Nat) : State :=
  match ((s.sliceAt slice).log gid).opened.find? fun c => c.line == line with
  | none => s
  | some c =>
    (s.modLog slice gid fun l => { l with opened := l.opened.filter fun c => c.line != line }).closeChunk d slice gid c

/-- The open chunks of an object of every grid but one closed: a request of another grid, of a peer or of a node stands in
the object's queue (R332, R342). -/
def State.closeOthers (s : State) (slice line : Nat) (keep : Option Nat) : State :=
  ((s.sliceAt slice).logs.map (·.1)).foldl (fun (s : State) gid =>
    if some gid = keep then s
    else
      match (s.grid gid).bind fun g : Grid => g.launch.det with
      | none => s
      | some d => s.closeOpen d slice gid line) s

/-- One admitted request enters the log: it extends its object's open chunk, or closes it and opens another; a chunk of 255
closes (R342). -/
def State.logRequest (s : State) (d : DetBlock) (slice gid line : Nat) (who : Requester) (same : Bool) : State :=
  let log := (s.sliceAt slice).log gid
  if log.full then s
  else
    match (log.opened.find? fun c => c.line == line).filter fun c => c.extends who same with
    | some c =>
      let s := s.modLog slice gid fun l =>
        { l with opened := l.opened.map fun c => if c.line == line then { c with count := c.count + 1 } else c }
      if c.count + 1 = 255 then s.closeOpen d slice gid line else s
    | none =>
      (s.closeOpen d slice gid line).modLog slice gid fun l =>
        if l.full then l else { l with opened := l.opened ++ [⟨line, who, 1, same⟩] }

/-- The requests of a batch enter the log in queue order; two or more of one issue of a lane form chunks with SAME (R342). -/
def State.logBatch (s : State) (slice line : Nat) (rs : List (Nat × Nat)) : State :=
  rs.foldl (fun (s : State) p =>
    match s.req p.1 with
    | none => s
    | some r =>
      let s := s.closeOthers slice line (s.gridIdOf r)
      match s.gridIdOf r, s.gridOfReq r, s.requester r with
      | some gid, some g, some who =>
        match g.logMode, g.launch.det with
        | 1, some d => s.logRequest d slice gid line who (decide (2 ≤ (rs.filter fun q => q.1 == p.1).length))
        | _, _ => s
      | _, _, _ => s) s

/-- The first chunk of a log area at or after an offset that is the object's, past skip of them: its offset with its words;
or the terminator's offset, with whether it marks overflow (R342, R343). -/
def State.scanLog (s : State) (area line : Nat) : Nat → Nat → Nat → Nat × Option (DWord × DWord) × Bool
  | 0, off, _ => (off, none, false)
  | fuel + 1, off, skip =>
    let w0 := s.logWord (area + off)
    let w1 := s.logWord (area + off + 8)
    if field w0 55 48 = 0 then (off, none, w1 == 0xFFFFFFFFFFFFFFFF)
    else if field w0 40 0 = line % 2 ^ 41 then
      match skip with
      | 0 => (off, some (w0, w1), false)
      | n + 1 => s.scanLog area line fuel (off + 16) n
    else s.scanLog area line fuel (off + 16) skip

/-- The head of an object's log: its offset from LOGBASE, its words, and whether it is an overflow terminator. -/
def State.gateHead (s : State) (gid : Nat) (d : DetBlock) (slice line : Nat) : Nat × Option (DWord × DWord) × Bool :=
  let gate := ((s.sliceAt slice).log gid).gates.get ⟨0, 0, 0⟩ line
  let r := s.scanLog (d.logBase + d.area * slice) line (d.area / 16) 0 gate.chunks
  (d.area * slice + r.1, r.2)

/-- Whether a request is the one that the head of its object's log expects (R342). -/
def matchesHead (ws : DWord × DWord) (admitted : Nat) (who : Requester) : Bool :=
  field ws.1 60 56 == who.lane && field ws.2 36 32 == who.group && field ws.2 40 37 == who.team
    && field ws.2 63 41 == who.cluster % 2 ^ 23
    && ws.2.truncate 32 + (if ws.1.getLsbD 61 then 0 else BitVec.ofNat 32 admitted) == who.serial

/-! ### Acceptance (R313, R314, R342) -/

/-- The entries of a slice's object table. -/
def objectTable : Nat := 64

/-- Whether a slice has room for a batch to a line behind batches that arrived earlier: an entry with fewer than 32 requests, or
a free entry (R313). -/
def Slice.canTake (x : Slice) (earlier : List Batch) (line : Nat) : Bool :=
  match x.queues.find line with
  | some q => decide (q.length < 32) && earlier.all fun b => b.line != line
  | none => decide (x.queues.length < objectTable) && earlier.all fun b => (x.queues.find b.line).isSome

/-- Whether a batch to a line waits for one that arrived earlier and that the gate has admitted in part: nothing comes between
its requests (R303, R312). -/
def Slice.behindBegun (x : Slice) (batch line : Nat) : Bool :=
  (x.waiting.takeWhile fun b => b.id != batch).any fun b => b.begun && b.line == line

/-- Requests of a batch enter their object's queue: they are logged, and a request with nothing to return lets its lane go
on (R148, R153, R312, R342). -/
def State.enqueue (s : State) (b : Batch) (rs : List (Nat × Nat)) : State :=
  let s := s.logBatch b.slice b.line rs
  let x := s.sliceAt b.slice
  let q := (x.queues.get [] b.line) ++ rs.map fun p => ⟨p.1, p.2, b.id, b.arrived⟩
  let s := s.setSlice b.slice { x with queues := x.queues.set b.line q }
  rs.foldl (fun (s : State) p =>
    match s.req p.1 with
    | none => s
    | some r =>
      match r.kind with
      | .atomic _ _ none _ _ | .comb _ none _ _ => (s.markPart r .performed).settleOf r
      | _ => s) s

/-- The batches at a slice that arrived before one and that the gate does not hold. -/
def State.earlierBatches (s : State) (x : Slice) (batch : Nat) : List Batch :=
  (x.waiting.takeWhile fun b => b.id != batch).filter fun b => !(b.reqs.head?.map fun p => s.gated p.1).getD false

/-- The slice at which a batch waits. -/
def State.waitingAt (s : State) (batch : Nat) : Option (Nat × Batch) :=
  (s.slices.filterMap fun p => (p.2.waiting.find? fun b => b.id == batch).map fun b => (p.1, b)).head?

/-- A batch no longer waits. -/
def State.unwait (s : State) (slice batch : Nat) : State :=
  let x := s.sliceAt slice
  s.setSlice slice { x with waiting := x.waiting.filter fun b => b.id != batch }

/-- BATCH_ACCEPT: a batch leaves its core, and the slice accepts it whole where entry and room allow, or lets it wait; a
batch that waits and that the gate does not hold is accepted in its turn (R312 to R314, R322). -/
def execBatchAccept (batch : Nat) (s : State) : Host.Outcome State Fault Refusal :=
  .next (match s.waitingAt batch with
    | some (slice, b) =>
      let x := s.sliceAt slice
      if !(b.reqs.head?.map fun p => s.gated p.1).getD false && !x.behindBegun batch b.line
          && x.canTake (s.earlierBatches x batch) b.line then
        (s.unwait slice batch).enqueue b b.reqs
      else s
    | none =>
      match s.leavingBatch batch with
      | none => s
      | some b =>
        let gated := (b.reqs.head?.map fun p => s.gated p.1).getD false
        let s := s.markSent b
        let x := s.sliceAt b.slice
        if !gated && !x.behindBegun batch b.line && x.canTake (s.earlierBatches x batch) b.line then s.enqueue b b.reqs
        else s.setSlice b.slice { x with waiting := x.waiting ++ [b] })

/-- A request of a waiting batch admitted: it enters the queue, the others wait on. -/
def State.admitOne (s : State) (slice : Nat) (b : Batch) (p : Nat × Nat) : State :=
  let x := s.sliceAt slice
  let left := b.reqs.filter fun q => q != p
  let waiting := if left.isEmpty then x.waiting.filter fun y => y.id != b.id
    else x.waiting.map fun y => if y.id == b.id then { y with reqs := left, begun := true } else y
  (s.setSlice slice { x with waiting := waiting }).enqueue b [p]

/-- The gate's position after an admission (R342, R345). -/
def Gate.advance (g : Gate) (count : Nat) : Gate :=
  if g.admitted + 1 = count then ⟨g.chunks + 1, 0, 0⟩ else ⟨g.chunks, g.admitted + 1, 0⟩

/-- Reading an object's log as far as an offset leaves the marks of plain loads (R280, R288, R343). -/
def State.logSeen (s : State) (d : DetBlock) (slice off : Nat) : State :=
  s.logRead (d.logBase + d.area * slice) ((off - d.area * slice) / 16 + 1)

/-- A grid whose replay has reached a slice's overflow terminator (R343, R344). -/
def Grid.overflow (g : Grid) (slice : Nat) : Grid :=
  { g with rrstat := g.rrstat ||| 6,
           overflowed := if g.overflowed.contains slice then g.overflowed else slice :: g.overflowed }

/-- The gate admits the requests of a waiting batch that its object's log names next, one after the other, as far as it does:
a batch that has room is accepted whole (R312, R313, R323, R342). -/
def State.gateBatch (s : State) (gid : Nat) (d : DetBlock) (slice : Nat) (b : Batch) : Nat → State
  | 0 => s
  | n + 1 =>
    let gate := ((s.sliceAt slice).log gid).gates.get ⟨0, 0, 0⟩ b.line
    match s.gateHead gid d slice b.line with
    | (off, none, _) => s.logSeen d slice off
    | (off, some ws, _) =>
      let s := s.logSeen d slice off
      match b.reqs.find? fun p =>
          (((s.req p.1).bind fun r => s.requester r).map fun who => matchesHead ws gate.admitted who).getD false with
      | none => s
      | some p =>
        let s := (s.admitOne slice b p).modLog slice gid fun l =>
          { l with gates := l.gates.set b.line (gate.advance (field ws.1 55 48)) }
        s.gateBatch gid d slice { b with reqs := b.reqs.filter fun q => q != p } n

/-- GATE_ADMIT: the gate admits the requests of a waiting batch that its object's log names next; behind an overflow
terminator it admits in arrival order. A batch that has been admitted in part goes on, and one that has not finds room behind
those that arrived earlier (R313, R342, R343). -/
def execGateAdmit (batch : Nat) (s : State) : Host.Outcome State Fault Refusal :=
  .next (match s.waitingAt batch with
    | none => s
    | some (slice, b) =>
      match (b.reqs.head?.bind fun p => s.req p.1).bind fun r => s.gridIdOf r with
      | none => s
      | some gid =>
        match (s.grid gid).bind fun g : Grid => if g.logMode = 2 then g.launch.det else none with
        | none => s
        | some d =>
          let x := s.sliceAt slice
          let room := b.begun || x.canTake (s.earlierBatches x batch) b.line
          let first := (x.waiting.find? fun y => y.line == b.line).map (·.id) == some batch
          match s.gateHead gid d slice b.line with
          | (off, none, true) =>
            let s := s.logSeen d slice off
            if room && first then ((s.unwait slice batch).enqueue b b.reqs).modGrid gid fun g => g.overflow slice else s
          | (off, _) => if room then s.gateBatch gid d slice b b.reqs.length else s.logSeen d slice off)

/-- Whether no cluster of a grid is saved; a grid that aborts counts as running (R345). -/
def State.gateRuns (s : State) (gid : Nat) : Bool :=
  ((s.grid gid).map fun g : Grid => g.abort.isSome).getD false
    || s.clusters.all fun c => c.2.grid != gid || c.2.place.isSome

/-- Whether the gate holds requests of a grid for an object, and its log's head names none of them (R345). -/
def State.gateUnmatched (s : State) (slice gid line : Nat) : Bool :=
  match (s.grid gid).bind fun g : Grid => if g.logMode = 2 then g.launch.det else none with
  | none => false
  | some d =>
    let held := ((s.sliceAt slice).waiting.filter fun b => b.line == line).flatMap fun b => b.reqs.filterMap fun p =>
      (s.req p.1).bind fun r => if s.gridIdOf r == some gid then s.requester r else none
    let gate := ((s.sliceAt slice).log gid).gates.get ⟨0, 0, 0⟩ line
    !held.isEmpty &&
      (match s.gateHead gid d slice line with
        | (_, none, overflow) => !overflow
        | (_, some ws, _) => held.all fun who => !matchesHead ws gate.admitted who)

/-- Whether the gate's timer of an object runs: the grid has requests of it that wait, its clusters are resident, and its
log's head names none of them (R345). -/
def State.gateStuck (s : State) (slice gid line : Nat) : Bool := s.gateUnmatched slice gid line && s.gateRuns gid

/-- The wait limit of the gate (R344). -/
def DetBlock.limit (d : DetBlock) : Nat := if d.gateLimit = 0 then 1300000 else d.gateLimit

/-- One request that the gate rejects: its lane traps DIVERGE with the address that it used; a scatter, whose other requests
go on, when all of them are over (R345). -/
def State.rejectOne (s : State) (p : Nat × Nat) (aux : DWord) : State :=
  match s.req p.1 with
  | none => s
  | some r =>
    let addr : DWord := BitVec.ofNat 64 (r.vas.getD p.2 0)
    if r.kind.isScatter then s.scatterDone r.id 0 (some (causeDIVERGE, addr, aux)) else s.failReq r causeDIVERGE addr aux

/-- Whether a request of a batch is still to come to a line. -/
def Slice.more (x : Slice) (line batch : Nat) : Bool :=
  (x.queues.get [] line).any (fun q => q.batch == batch) || x.waiting.any fun b => b.id == batch && b.begun

/-- The lines between whose requests no access may come, once a part of a batch is over or gone (R131). -/
def Slice.settleSplit (x : Slice) : Slice := { x with split := x.split.filter fun p => x.more p.1 p.2 }

/-- GATE_DIVERGENCE: the gate's timer of an object has reached GATELIM: its held requests are rejected, and from then on
nothing of the grid is gated (R345, R347, R356). -/
def execGateDivergence (slice line : Nat) (s : State) : Host.Outcome State Fault Refusal :=
  let stuck := s.grids.find? fun p =>
    s.gateStuck slice p.1 line
      && ((p.2.launch.det.map fun d : DetBlock =>
          decide (d.limit ≤ (((s.sliceAt slice).log p.1).gates.get ⟨0, 0, 0⟩ line).waited)).getD false)
  .next (match stuck with
    | none => s
    | some (gid, g) =>
      match g.launch.det with
      | none => s
      | some d =>
        let x := s.sliceAt slice
        let gate := (x.log gid).gates.get ⟨0, 0, 0⟩ line
        let (off, head, _) := s.gateHead gid d slice line
        let aux : DWord := BitVec.ofNat 64 (off + (if head.isSome then gate.admitted else 0) * 2 ^ 48)
        let mine (b : Batch) : Bool :=
          b.line == line && ((b.reqs.head?.bind fun p => s.req p.1).bind fun r => s.gridIdOf r) == some gid
        let held := (x.waiting.filter mine).flatMap (·.reqs)
        let s := (s.setSlice slice (Slice.settleSplit { x with waiting := x.waiting.filter fun b => !mine b })).logSeen d slice off
        let s := s.modGrid gid fun g => { g with rrstat := g.rrstat ||| 5 }
        let s := s.record 8 causeDIVERGE slice (BitVec.ofNat 128 off)
        held.foldl (fun (s : State) p => s.rejectOne p aux) s)

/-! ### Waves (R308 to R310, R315) -/

/-- What all requests of a wave must share with a request. -/
def State.waveKey (s : State) (r : Req) : WaveKey :=
  match r.kind with
  | .atomic op ty _ _ _ => .builtin op ty
  | .comb m _ _ _ =>
    if m < 16 then .builtin (builtinOf m).1 (builtinOf m).2 else .user m ((s.gridIdOf r).getD 0)
  | _ => .builtin 0 3

/-- Whether a user wave of a grid takes the requests of one batch only (R315). -/
def State.oneBatch (s : State) : WaveKey → Bool
  | .user _ g => ((s.grid g).map fun x : Grid => x.launch.rrmode != 0).getD false
  | .builtin _ _ => false

/-- The longest run at the head of a queue that one wave takes, of what has come (R315). -/
def State.waveRun (s : State) (q : List QueuedReq) : Option (WaveKey × List QueuedReq) :=
  match q with
  | [] => none
  | h :: _ =>
    match (s.req h.req).map s.waveKey with
    | none => none
    | some key =>
      some (key, (q.takeWhile fun x =>
        (s.req x.req).map s.waveKey == some key && (!s.oneBatch key || x.batch == h.batch)).take 32)

/-- The object whose queue head arrived earliest, ties to the lower line (R315). -/
def oldestQueue : Table (List QueuedReq) → Option (Nat × List QueuedReq)
  | [] => none
  | (line, q) :: t =>
    match oldestQueue t with
    | none => if q.isEmpty then none else some (line, q)
    | some (line', q') =>
      match q.head?, q'.head? with
      | some a, some b => if a.arrived ≤ b.arrived then some (line, q) else some (line', q')
      | _, _ => some (line', q')

/-- What a user wave's lane starts with (R309). -/
def State.waveLane (s : State) (entry : BitVec 56) (r : Req) : WaveLane :=
  let (b, c) := match r.kind with
    | .comb _ _ b c => (b, c)
    | _ => (0, 0)
  let (who, dev) : Word × Word := match r.owner with
    | .lane l => (BitVec.ofNat 32 (l.lane + 32 * l.group + 1024 * s.coreOf l.cid l.team), 0)
    | .peer d _ => (0x80000000, BitVec.ofNat 32 (d % 2 ^ 14))
    | .node _ | .control _ | .cluster _ => (0, 0)
  { pc := entry, v := [(0, b), (1, c), (2, who), (3, dev)], cond := 0, lsw := 0, pass := 0, yielded := false, reply := 0,
    stored := false, removed := false, ended := false }

/-- The fetcher of a slice's crucible for a grid's methods (R306). -/
def State.fetchSlice (s : State) (slice gid : Nat) : Fetcher :=
  ⟨.slice slice, ((s.grid gid).map (·.began)).getD 0, fun s va => s.translateNode va false⟩

/-- The code of a user method, read through the page table when its wave forms (R306, R38). -/
def State.methodCode (s : State) (slice gid entry len : Nat) : State × Fetched :=
  s.fetchMore (s.fetchSlice slice gid) entry (len / 4) []

/-- A wave as it begins on its line's bytes (R154, R309); g0:g1 is the line's byte address, the model's choice (log 92). -/
def State.beginWave (s : State) (line : Nat) (key : WaveKey) (rs : List QueuedReq) (entry : BitVec 56) (code : List Byte)
    (stop : Option WaveStop) : Wave :=
  let pa := 128 * line
  let (m, lanes) := match key with
    | .builtin _ _ => (0, [])
    | .user m _ => (m, rs.filterMap fun q => (s.req q.req).map (s.waveLane entry))
  { line := line, key := key, reqs := rs, entry := entry, code := code, lanes := lanes,
    g := [(0, BitVec.ofNat 32 pa), (1, BitVec.ofNat 32 (pa / 2 ^ 32)), (2, BitVec.ofNat 32 rs.length), (3, BitVec.ofNat 32 m)],
    object := s.homeBytes pa 128, buffer := [], issues := 0, stop := stop }

/-- A wave taken from the head of its line's queue, on the line as its home holds it (R309, R315, R316). -/
def State.formWave (s : State) (slice line : Nat) (key : WaveKey) (rs : List QueuedReq) (entry : BitVec 56)
    (code : List Byte) (stop : Option WaveStop) : State :=
  let s := s.recall line
  let x := s.sliceAt slice
  let left := (x.queues.get [] line).drop rs.length
  s.setSlice slice
    { x with queues := if left.isEmpty then x.queues.erase line else x.queues.set line left,
             wave := some (s.beginWave line key rs entry code stop) }

/-- The cluster whose request heads a wave; one that is gone leaves its number. -/
def State.waveCluster (s : State) (rs : List QueuedReq) : Nat :=
  ((rs.head?.bind fun q => s.req q.req).bind fun r => r.owner.cid).getD 0

/-- WAVE_FORM: a free crucible takes the oldest queue's head run; an owned line is recalled first. A user wave reads its code,
and waits for a word of it that a peer owes (R306, R308, R309, R315, R316). -/
def execWaveForm (slice : Nat) (s : State) : Host.Outcome State Fault Refusal :=
  .next (let x := s.sliceAt slice
    if x.wave.isSome then s
    else
      match oldestQueue x.queues with
      | none => s
      | some (line, q) =>
        match s.waveRun q with
        | none => s
        | some (.builtin op ty, rs) => s.formWave slice line (.builtin op ty) rs 0 [] none
        | some (.user m g, rs) =>
          let (entry, len) := (((s.grid g).bind fun x : Grid => x.launch.method m)).getD (0, 0)
          let start := BitVec.ofNat 56 entry
          match s.methodCode slice g entry len with
          | (s, .words ws) => s.formWave slice line (.user m g) rs start (bytesOfWords ws) none
          | (s, .fault _ _ _) => s.formWave slice line (.user m g) rs start [] (some .fetch)
          | (s, .owed target va) => s.askWord (.cluster (s.waveCluster rs)) (.slice slice) target va)

/-- The issues that a wave may make (R310). -/
def waveBudget : Nat := 256

/-- WAVE_BUDGET_EXCEEDED: the 257th issue is not made, and the wave faults (R310, R320). -/
def execWaveBudgetExceeded (slice : Nat) (s : State) : Host.Outcome State Fault Refusal :=
  due ((((s.sliceAt slice).wave.map fun w : Wave =>
      w.stop.isNone && decide (waveBudget ≤ w.issues) && w.lanes.any fun l => !l.ended && !l.removed)).getD false) s
    (s.modWave slice fun w => { w with stop := some .budget })

/-! ### Commits and replies (R152, R153, R317 to R322) -/

/-- A reply to a peer device. -/
def State.replyPeer (s : State) (dev seq : Nat) (ok : Bool) (data : List Byte) : State :=
  { s with peerReplies := s.peerReplies ++ [⟨dev, seq, ok, data⟩] }

/-- The copy of a line that a requester's core holds is dropped when the line's home has changed it (R265, R268). -/
def State.dropCopyOf (s : State) (r : Req) (line : Nat) : State :=
  match r.owner with
  | .lane l => s.dropCopy (s.l1Of l.cid l.team line) line
  | _ => s

/-- The SIGNAL node whose add has performed ends (R250). -/
def State.endSignal (s : State) (n : NodeRef) : State :=
  { s with slots := modAt s.slots n.slot.val fun x : Slot => { x with nodes := x.nodes.map fun y =>
      if y.addr = n.addr ∧ y.stage = .running then { y with stage := .ending 0x02 none } else y } }

/-- A request that the home has performed, with its reply and flags (R147, R148, R152, R153, R319). -/
def State.homeDone (s : State) (r : Req) (reply : DWord) (flags : Word) : State :=
  match r.owner, r.kind with
  | .peer dev seq, _ => (s.dropReq r.id).replyPeer dev seq true (toBytesLE 8 reply.toNat)
  | .node n, _ => (s.dropReq r.id).endSignal n
  | .lane l, .atomic _ _ none _ _ | .lane l, .comb _ none _ _ => (s.setFlags (.lane l) flags).complete r
  | .lane _, _ => s.modReq r.id fun q => { q with stage := .replied reply flags }
  | .control _, _ | .cluster _, _ => s.dropReq r.id

/-- One lane of a built-in wave: the read-modify-write of R146 on its word (R147, R308). -/
def State.builtinOne (s : State) (line : Nat) (q : QueuedReq) : State :=
  match s.req q.req with
  | none => s
  | some r =>
    match r.pas[q.idx]? with
    | none => s
    | some pa =>
      let s := s.dropCopyOf r line
      let rmw (op ty : Nat) (b c : DWord) : State :=
        let n := atomicBytes ty
        let old : DWord := BitVec.ofNat 64 (s.homeNat pa n)
        let new := atomicNew op ty old b c
        ({ s with mem := Mem.writeBytes s.mem pa (toBytesLE n new.1.toNat) }).homeDone r old new.2
      match r.kind, r.owner with
      | .atomic op ty _ b c, _ => rmw op ty b c
      | .comb m _ b c, _ =>
        let k := builtinOf m
        let o := builtinOperands m b c
        rmw k.1 k.2 o.1 o.2
      | .hgscat ps _, o =>
        let m : Word := BitVec.ofNat 32 (s.homeNat pa 4)
        let new := addWord m (ps.getD q.idx (.zero, .zero))
        let s := { s with mem := Mem.writeBytes s.mem pa (toBytesLE 4 new.1.toNat) }
        match o with
        | .lane _ => s.scatterDone r.id new.2 none
        | _ => s.homeDone r (m.zeroExtend 64) new.2
      | _, _ => s

/-- A slice whose wave is over; where its last batch has more requests to come, nothing comes between (R131). -/
def State.endWave (s : State) (slice : Nat) : State :=
  let x := s.sliceAt slice
  let x := match x.wave.bind fun w => w.reqs.getLast?.map fun q => (w.line, q.batch) with
    | some (line, batch) => { x with split := x.split.set line batch }
    | none => x
  s.setSlice slice (Slice.settleSplit { x with wave := none })

/-- HOME_ATOMIC_PERFORM: an atomic performs in an owned line of its L1; or a built-in wave performs, one request at a time
in queue order (R147, R148, R280, R282, R308, R317). -/
def execHomeAtomicPerform (place : AtomPlace) (s : State) : Host.Outcome State Fault Refusal :=
  .next (match place with
    | .l1 req => s.atomicsInL1 req
    | .home slice =>
      match (s.sliceAt slice).wave with
      | none => s
      | some w =>
        match w.key with
        | .user _ _ => s
        | .builtin _ _ =>
          (w.reqs.foldl (fun (s : State) q => s.builtinOne w.line q) (s.recall w.line)).endWave slice)

/-- A lost lane: COMB learns of it by its reply, COMBR is counted and recorded (R152, R153, R156). -/
def State.loseLane (s : State) (slice : Nat) (m : Nat) (line : Nat) (q : QueuedReq) (wave : Bool) : State :=
  match s.req q.req with
  | none => s
  | some r =>
    match r.owner, r.kind with
    | .lane _, .comb _ (some _) _ _ => s.modReq r.id fun x => { x with stage := .lost wave }
    | .lane _, .comb _ none _ _ =>
      let x := s.sliceAt slice
      let s := s.setSlice slice { x with lost := x.lost + 1 }
      let cause := if wave then causeCOMBWAVE else causeCOMBLANE
      (s.record 7 cause slice (BitVec.ofNat 128 (128 * line + 2 ^ 64 * m))).complete r
    | .peer dev seq, _ => (s.dropReq r.id).replyPeer dev seq false []
    | _, _ => s

/-- The method of a user wave. -/
def Wave.method (w : Wave) : Nat :=
  match w.key with
  | .user m _ => m
  | .builtin _ _ => 0

/-- Whether every lane of a user wave has ended or was removed (R310). -/
def Wave.over (w : Wave) : Bool := w.lanes.all fun l => l.ended || l.removed

/-- The buffered object writes reach the object. -/
def State.commitBuffer (s : State) (line : Nat) : Table Byte → State
  | [] => s
  | (o, b) :: t => ({ s with mem := Mem.write s.mem (128 * line + o) b }).commitBuffer line t

/-- The buffer and the replies of a user wave whose lanes have ended (R317 to R319). -/
def State.commitWave (s : State) (slice : Nat) (w : Wave) : State :=
  let s := s.commitBuffer w.line w.buffer
  let s := (List.zip w.reqs w.lanes).foldl (fun (s : State) p =>
    match s.req p.1.req with
    | none => s
    | some r =>
      let s := s.dropCopyOf r w.line
      if p.2.removed then s.loseLane slice w.method w.line p.1 false else s.homeDone r p.2.reply p.2.lsw) s
  s.endWave slice

/-- WAVE_COMMIT: the buffer and the replies of a user wave commit as one step, on the object that its lanes have read. Where
another access has changed the object since the wave began, the wave begins again on what stands there, so that its reads and
its commit are one step of the object's order (R154, R278, R316 to R319, R321, log 68). -/
def execWaveCommit (slice : Nat) (s : State) : Host.Outcome State Fault Refusal :=
  .next (match (s.sliceAt slice).wave with
    | none => s
    | some w =>
      match w.key with
      | .builtin _ _ => s
      | .user m g =>
        if w.stop.isSome || !w.over then s
        else
          let s := s.recall w.line
          if s.homeBytes (128 * w.line) 128 = w.object then s.commitWave slice w
          else s.modWave slice fun w => s.beginWave w.line (.user m g) w.reqs w.entry w.code none)

/-- The code of a wave's cause in the black box: 1 to 6 in the order of R320's table. -/
def WaveStop.code : WaveStop → Nat
  | .undefined => 1
  | .target => 2
  | .objectBounds => 3
  | .abortAfterStore => 4
  | .budget => 5
  | .fetch => 6

/-- WAVE_FAULT: the buffer and the replies are discarded, every COMB lane traps COMBWAVE, every COMBR lane is counted, and
the black box records it (R152, R153, R320, R322); the places of DETAIL's parts are the model's choice (log 91). -/
def execWaveFault (slice : Nat) (s : State) : Host.Outcome State Fault Refusal :=
  .next (match (s.sliceAt slice).wave with
    | none => s
    | some w =>
      match w.stop with
      | none => s
      | some why =>
        let s := s.record 7 causeCOMBWAVE slice
          (BitVec.ofNat 128 (128 * w.line + 2 ^ 64 * w.method + 2 ^ 96 * why.code))
        (w.reqs.foldl (fun (s : State) q => s.loseLane slice w.method w.line q true) s).endWave slice)

/-- COMB_REPLY: a reply reaches its pair, where their lines can be written, and the lane has performed, or the lane learns that
it was removed or that its wave faulted (R152, R244, R318, R319). -/
def execCombReply (req : Nat) (s : State) : Host.Outcome State Fault Refusal :=
  .next (match s.req req with
    | none => s
    | some r =>
      match r.owner, r.kind, r.stage with
      | .lane l, .comb _ (some d) _ _, .replied x f =>
        if s.canDeliver r then ((s.putRegs l d (wordsOfBytes (toBytesLE 8 x.toNat))).setFlags (.lane l) f).complete r else s
      | .lane _, .comb _ (some _) _ _, .lost wave =>
        s.failReq r (if wave then causeCOMBWAVE else causeCOMBLANE) r.addr 0
      | _, _, _ => s)

end Sys2Proof.Machine
end

