-- ==== Sys2Proof/Machine/Graphs.lean ====
section
/-! DEFINITION. The event ring's writer (R199, R352), and task graphs: submission, nodes of every kind and their endings
(R247 to R251, R305, R334, R344, R351). -/

namespace Sys2Proof.Machine

open Sys2Proof

/-! ### The event ring -/

/-- The group of a sender. -/
def Sender.group : Sender → Option GroupRef
  | .lane l => some l.gr
  | .control _ => none

/-- Whether an event may be written now: a graph event always, a lane's once its earlier stores have performed at system
scope and no event of its group waits before it (R199). -/
def State.eventDue (s : State) (before : List HostEvent) (e : HostEvent) : Bool :=
  match e.sender with
  | none => true
  | some (.lane l) => s.performed l 5 && before.all fun b => (b.sender.bind Sender.group) != some l.gr
  | some (.control _) => true

/-- The first event that may be written, with those before and after it. -/
def State.dueEvent (s : State) (before : List HostEvent) : List HostEvent → Option (List HostEvent × HostEvent × List HostEvent)
  | [] => none
  | e :: es => if s.eventDue before e then some (before, e, es) else s.dueEvent (before ++ [e]) es

/-- The record that the command processor keeps of an event that a program has sent to the host (R199, log 67). -/
def State.recordSent (s : State) (e : HostEvent) (source : Word) : State :=
  if e.sender.isSome then s.record 9 0 (source.toNat % 2048) (eventDetail e.payload (e.info.truncate 8) source) else s

/-- EVENT_RING_WRITE: an event is written to the ring where it has room, and its sender goes on (R199, R352). -/
def execEventRingWrite (s : State) : Host.Outcome State Fault Refusal :=
  .next (if !s.powered || !s.ringRoom then s
    else
      match s.dueEvent [] s.hostEvents with
      | none => s
      | some (before, e, after) =>
        let source := match e.sender with
          | some (.lane l) => s.laneSource l
          | some (.control q) => s.controlSource q
          | none => e.source
        let s := { s with hostEvents := before ++ after }
        let s := (s.ringWrite e.payload e.info source).recordSent e source
        match e.sender with
        | some (.lane l) => s.wake l
        | some (.control q) => s.wakeControl q
        | none => s)

/-! ### What the command processor reads and writes (R247, R279, R283) -/

/-- Whether the command processor runs: the firmware does, and the device has power and is not frozen (R301, R355). -/
def State.cpRuns (s : State) : Bool := s.powered && !s.frozen && slice s.bar0.fwstat 0 2 == 1

/-- n parts of 64 bytes from an address in device or host memory; none where one does not translate to a valid, resident
page. -/
def State.nodeBytes (s : State) (va : Nat) : Nat → State × Option (List Byte)
  | 0 => (s, some [])
  | n + 1 =>
    match s.translateNode (va % 2 ^ 56) false with
    | (s, .error _) => (s, none)
    | (s, .ok p) =>
      if p.peer.isSome then (s, none)
      else
        let s := s.recallRange (p.pa (va % 2 ^ 56)) 64
        let bs := s.homeBytes (p.pa (va % 2 ^ 56)) 64
        match s.nodeBytes (va + 64) n with
        | (s, none) => (s, none)
        | (s, some more) => (s, some (bs ++ more))

/-- Bytes stored where the command processor's translation of their address has ended. -/
def State.nodeStore (va : Nat) (bs : List Byte) : State × Except TransFault Page → State
  | (s, .error _) => s
  | (s, .ok p) => if p.peer.isSome then s else s.homeWrite (p.pa va) (bs.map MByte.whole)

/-- Bytes that the command processor stores within one page; where the page does not take them, nothing. -/
def State.nodeWrite (s : State) (va : Nat) (bs : List Byte) : State :=
  State.nodeStore (va % 2 ^ 56) bs (s.translateNode (va % 2 ^ 56) true)

/-- A field of n bytes of a node, a table or a block. -/
def bytesField (bs : List Byte) (off n : Nat) : Nat := ofBytesLE ((bs.drop off).take n)

/-- KIND, NSUCC and NPRED of a node. -/
def nodeKind (bs : List Byte) : Nat := bytesField bs 0 1
/-- NSUCC. -/
def nodeSuccs (bs : List Byte) : Nat := bytesField bs 2 1
/-- NPRED. -/
def nodePreds (bs : List Byte) : Nat := bytesField bs 3 1
/-- SUCC entry i. -/
def nodeSucc (bs : List Byte) (i : Nat) : Nat := bytesField bs (8 + 8 * i) 8
/-- The addresses of a node's successors; bits [63:56] are ignored (R284). -/
def nodeNext (bs : List Byte) : List Nat := (List.range (min (nodeSuccs bs) 4)).map fun i => nodeSucc bs i % 2 ^ 56

/-- STATUS codes of R248. -/
def statusRUNNING : Nat := 0x01
/-- DONE. -/
def statusDONE : Nat := 0x02
/-- SKIPPED. -/
def statusSKIPPED : Nat := 0x03
/-- DIVERGED. -/
def statusDIVERGED : Nat := 0x04
/-- BADNODE. -/
def statusBADNODE : Nat := 0x10
/-- NOFIT. -/
def statusNOFIT : Nat := 0x11
/-- ABORTED. -/
def statusABORTED : Nat := 0x12
/-- FAULT. -/
def statusFAULT : Nat := 0x13
/-- OVERLAP. -/
def statusOVERLAP : Nat := 0x14
/-- TIMEOUT. -/
def statusTIMEOUT : Nat := 0x15

/-- STATUS of a node written. -/
def State.putStatus (s : State) (addr status : Nat) : State := s.nodeWrite (addr + 4) (toBytesLE 4 status)

/-- A record of a graph node's transition (R356). -/
def State.recordNode (s : State) (status addr : Nat) : State := s.record 5 status 0 (BitVec.ofNat 128 addr)

/-! ### Submission (R249, R351) -/

/-- How a walk over a graph ends. -/
inductive GraphWalk where
  | nodes (seen : List (Nat × List Byte))
  | bad (addr : Nat)
  | shared
  deriving DecidableEq, Repr

/-- The walk from the addresses of todo through the SUCC entries, each node once; one whose STATUS is RUNNING ends it
(R249). -/
def State.walkGraph (s : State) : Nat → List Nat → List (Nat × List Byte) → State × GraphWalk
  | 0, _, seen => (s, .nodes seen)
  | _, [], seen => (s, .nodes seen)
  | fuel + 1, a :: todo, seen =>
    if seen.any fun p => p.1 = a then s.walkGraph fuel todo seen
    else if a % 64 ≠ 0 then (s, .bad a)
    else
      match s.nodeBytes a 2 with
      | (s, none) => (s, .bad a)
      | (s, some bs) =>
        if bytesField bs 4 4 = statusRUNNING then (s, .shared)
        else s.walkGraph fuel (todo ++ nodeNext bs) (seen ++ [(a, bs)])

/-- More addresses than a graph of distinct nodes can give. -/
def walkFuel : Nat := 2 ^ 53

/-- The nodes of a graph reset: STATUS PENDING, and RESULT 0 in every LAUNCH node (R249). -/
def State.resetNodes (s : State) (seen : List (Nat × List Byte)) : State :=
  seen.foldl (fun (s : State) p =>
    let s := s.putStatus p.1 0
    if nodeKind p.2 = 1 then s.nodeWrite (p.1 + 0x70) (toBytesLE 8 0) else s) s

/-- SLOTSTAT of a slot. -/
def State.setSlotStat (s : State) (slot : Nat) (x : BitVec 4) : State :=
  { s with bar0 := { s.bar0 with slotstat := modAt s.bar0.slotstat slot fun _ => x } }

/-- A graph submitted: it is walked and checked, reset, and set running; busy says that a further doorbell has come meanwhile,
after which the slot reads rejected until the graph ends (R249, R351). -/
def State.submitGraph (s : State) (slot root : Nat) (busy : Bool) : State :=
  match s.walkGraph walkFuel [root % 2 ^ 56] [] with
  | (s, .bad a) => (s.recordNode 0 a).setSlotStat slot 4
  | (s, .shared) => s.setSlotStat slot 4
  | (s, .nodes seen) =>
    let s := (s.resetNodes seen).setSlotStat slot (if busy then 4 else 1)
    { s with slots := modAt s.slots slot fun _ =>
        { root := root, running := true, failed := false, preempt := false, rung := false,
          nodes := seen.map fun p => ⟨p.1, 0, false, .pending, p.2, 0, none⟩, reports := [] } }

/-- A doorbell latches its slot's root; where the command processor does not run, the graph waits for it (R249, R351, log
72). -/
def State.ringDoorbell (s : State) (slot : Nat) : State :=
  if ((s.slots[slot]?).map fun x : Slot => x.running || x.rung).getD false then s.setSlotStat slot 4
  else
    let root := ((s.bar0.slots[slot]?).map (·.toNat)).getD 0
    if s.cpRuns then s.submitGraph slot root false
    else
      ({ s with slots := modAt s.slots slot fun x : Slot => { x with root := root, rung := true } }).setSlotStat slot 1

/-- A doorbell that has waited for the command processor is taken (log 72). -/
def State.submitTurn (s : State) (slot : Nat) : State :=
  match s.slots[slot]? with
  | none => s
  | some x =>
    if s.cpRuns && x.rung then
      ({ s with slots := modAt s.slots slot fun x : Slot => { x with rung := false } }).submitGraph slot x.root
        (s.bar0.slotstat[slot]? == some 4)
    else s

/-- DOORBELL (R351). -/
def execDoorbell (slot : Fin 8) (s : State) : Host.Outcome State Fault Refusal := .next (s.ringDoorbell slot.val)

/-! ### Nodes (R247, R248) -/

/-- A node of a slot's graph. -/
def State.node (s : State) (n : NodeRef) : Option Node :=
  (s.slots[n.slot.val]?).bind fun x : Slot => x.nodes.find? fun y => y.addr == n.addr

/-- A slot changed. -/
def State.modSlot (s : State) (slot : Nat) (f : Slot → Slot) : State := { s with slots := modAt s.slots slot f }

/-- A node changed. -/
def State.modNode (s : State) (n : NodeRef) (f : Node → Node) : State :=
  s.modSlot n.slot.val fun x => { x with nodes := x.nodes.map fun y => if y.addr = n.addr then f y else y }

/-- A node is about to end. -/
def State.finishNode (s : State) (n : NodeRef) (status : Nat) (chosen : Option Nat) : State :=
  s.modNode n fun y => { y with stage := .ending status chosen }

/-- The header keeps its limits (R247). -/
def headerOk (bs : List Byte) (root : Bool) : Bool :=
  decide (1 ≤ nodeKind bs) && decide (nodeKind bs ≤ 6) && bytesField bs 1 1 / 2 == 0 && decide (nodeSuccs bs ≤ 4)
    && ((List.range 4).all fun i => decide (i < nodeSuccs bs) || nodeSucc bs i == 0)
    && (!root || nodePreds bs == 0)

/-- A graph event for the host (R247, R351, R352). -/
def State.graphEvent (s : State) (slot payload code : Nat) (node : Bool) : State :=
  s.postEvent ⟨BitVec.ofNat 64 payload, BitVec.ofNat 32 (code + 0x200 + node.toNat * 2 ^ 13 + slot * 2 ^ 16), 0, none⟩

/-- An arrival at a node; a node that has already gone on has too many (R247, R248). -/
def State.arriveNode (s : State) (n : NodeRef) (normal : Bool) : State :=
  match s.node n with
  | none => s
  | some y =>
    let s := s.modNode n fun y => { y with arrivals := y.arrivals + 1, normal := y.normal || normal }
    if y.stage = .ended then
      ((s.putStatus n.addr statusBADNODE).recordNode statusBADNODE n.addr).modSlot n.slot.val fun x => { x with failed := true }
    else s

/-- A graph whose every node has ended, or that has failed and runs none, is over (R248, R351). -/
def State.endGraph (s : State) (slot : Nat) : State :=
  match s.slots[slot]? with
  | none => s
  | some x =>
    let active := x.nodes.any fun y => y.stage != .ended && y.stage != .pending
    let waiting := x.nodes.any fun y => y.stage == .pending
    if !x.running || active || (waiting && !x.failed) then s
    else
      let code := if x.failed then 3 else 2
      let s := s.setSlotStat slot (BitVec.ofNat 4 code)
      (s.modSlot slot fun x => { x with running := false, preempt := false, nodes := [] }).graphEvent slot x.root code false

/-- What a graph's report to the host says (R248, R299, R333). -/
def State.report (s : State) (slot : Nat) (x : GraphReport) : State :=
  s.modSlot slot fun y => { y with reports := y.reports ++ [x] }

/-- A node that does not translate as it becomes eligible: its graph stops as a failure, the black box and the report name
its address, and where nothing runs the graph ends (R248). -/
def State.unreadable (s : State) (n : NodeRef) : State :=
  (((s.modNode n fun y => { y with stage := .ended }).modSlot n.slot.val fun x => { x with failed := true }).recordNode
    statusFAULT n.addr |>.report n.slot.val (.unreadable n.addr)).endGraph n.slot.val

/-- A node that is eligible acts, is skipped or ends BADNODE; one that does not translate stops its graph (R247, R248). -/
def State.startNode (s : State) (n : NodeRef) (y : Node) (root : Bool) : State :=
  let first := root && y.arrivals == 0
  match s.nodeBytes n.addr 2 with
  | (s, none) => if !first && decide (y.arrivals < nodePreds y.image) then s else s.unreadable n
  | (s, some bs) =>
    if !first && decide (y.arrivals < nodePreds bs) then s
    else
      let s := s.modNode n fun y => { y with image := bs }
      if !first && !y.normal && y.arrivals == nodePreds bs then s.finishNode n statusSKIPPED none
      else if !headerOk bs first || (!first && nodePreds bs != y.arrivals) then s.finishNode n statusBADNODE none
      else ((s.putStatus n.addr statusRUNNING).recordNode statusRUNNING n.addr).modNode n fun y => { y with stage := .running }

/-- NODE_START (R247, R248). -/
def execNodeStart (n : NodeRef) (s : State) : Host.Outcome State Fault Refusal :=
  .next (match s.slots[n.slot.val]?, s.node n with
    | some x, some y =>
      let root := x.root % 2 ^ 56 == n.addr
      if s.cpRuns && x.running && !x.failed && y.stage == .pending && (root || y.arrivals != 0) then s.startNode n y root
      else s
    | _, _ => s)

/-- Whether a running node has met more arrivals than its NPRED (R247). -/
def Node.overrun (y : Node) : Bool := y.stage != .pending && decide (nodePreds y.image < y.arrivals)

/-- NODE_END: STATUS is written, the event posted, successors receive their arrivals, and the graph may end (R247,
R248). -/
def execNodeEnd (n : NodeRef) (s : State) : Host.Outcome State Fault Refusal :=
  .next (match s.node n with
    | none => s
    | some y =>
      match y.stage with
      | .ending st chosen =>
        if !s.cpRuns then s
        else
          let status := if y.overrun then statusBADNODE else st
          let s := ((s.putStatus n.addr status).recordNode status n.addr).modNode n fun y => { y with stage := .ended }
          let s := if (y.image.getD 1 0).getLsbD 0 then s.graphEvent n.slot.val n.addr status true else s
          let s := if 0x10 ≤ status then s.modSlot n.slot.val fun x => { x with failed := true }
            else (nodeNext y.image).zipIdx.foldl (fun (s : State) p =>
              s.arriveNode ⟨n.slot, p.1⟩
                (status != statusSKIPPED && (match chosen with
                  | none => true
                  | some c => p.2 == c))) s
          s.endGraph n.slot.val
      | _ => s)

/-- A running node of a kind, which may act now: no access of it comes between the requests of one batch (R131, log 69). -/
def State.runningNode (s : State) (n : NodeRef) (kind : Nat) : Option Node :=
  (s.node n).filter fun y => s.cpRuns && s.unsplit && y.stage == .running && nodeKind y.image == kind

/-- Whether every byte of a node from an offset on is 0. -/
def zeroFrom (bs : List Byte) (off : Nat) : Bool := (bs.drop off).all fun b => b == 0

/-! ### BULK, FLIP, SIGNAL (R250) -/

/-- One byte copied by the command processor: what it reads, or why it fails. -/
def State.bulkByte (s : State) (src dst : Nat) : State × Option Fail :=
  match s.translateNode src false with
  | (s, .error f) => (s, some (f.cause false, src, 0))
  | (s, .ok p) =>
    match s.readNow p src 1 [] with
    | (s, .error c) => (s, some c)
    | (s, .ok bs) =>
      match s.translateNode dst true with
      | (s, .error f) => (s, some (f.cause true, dst, 0))
      | (s, .ok q) =>
        match s.writeNow q dst (bs.map MByte.whole) with
        | (s, .error c) => (s, some c)
        | (s, .ok _) => (s, none)

/-- Bytes copied in ascending order until one faults. -/
def State.bulkCopy (s : State) (src dst : Nat) : Nat → State × Option Fail
  | 0 => (s, none)
  | n + 1 =>
    match s.bulkByte (src % 2 ^ 56) (dst % 2 ^ 56) with
    | (s, some c) => (s, some c)
    | (s, none) => s.bulkCopy (src + 1) (dst + 1) n

/-- A node that ends FAULT, with the cause in the black box. -/
def State.faultNode (s : State) (n : NodeRef) (cause : Nat) : State :=
  (s.record 5 statusFAULT 0 (BitVec.ofNat 128 (n.addr + 2 ^ 64 * cause))).finishNode n statusFAULT none

/-- A node whose access fails ends FAULT: at once, or, where a peer does not answer, when PEERTO cycles of the command
processor have passed (R3, R248, R299). -/
def State.failNode (s : State) (n : NodeRef) (f : Fail) : State :=
  match f.owed with
  | none => s.faultNode n f.1
  | some (va, dev) => s.modNode n fun y => { y with owed := some (va, dev, 0) }

/-- A node that waits for a peer: where PEERTO cycles have passed, the peer has timed out (R299, R356). -/
def State.nodeOwed (s : State) (n : NodeRef) (o : Nat × Nat × Nat) (k : State → State) : State :=
  if s.bar0.peerto.toNat ≤ o.2.2 then k ((s.peerTimedOut .cp o.1 o.2.1).modNode n fun y => { y with owed := none }) else s

/-- BULK (R250). -/
def execBulk (n : NodeRef) (s : State) : Host.Outcome State Fault Refusal :=
  .next (match s.runningNode n 2 with
    | none => s
    | some y =>
      let src := bytesField y.image 0x28 8 % 2 ^ 56
      let dst := bytesField y.image 0x30 8 % 2 ^ 56
      let len := bytesField y.image 0x38 8
      match y.owed with
      | some o => s.nodeOwed n o fun s => s.faultNode n causePEERTO
      | none =>
        if len = 0 ∨ 2 ^ 40 < len ∨ !zeroFrom y.image 0x40 then s.finishNode n statusBADNODE none
        else if rangesMeet src len dst len then s.finishNode n statusOVERLAP none
        else
          match s.bulkCopy src dst len with
          | (s, some f) => s.failNode n f
          | (s, none) => s.finishNode n statusDONE none)

/-- FLIP: as FLIPV; it ends when the sweep has completed (R189, R250). -/
def execFlip (n : NodeRef) (s : State) : Host.Outcome State Fault Refusal :=
  .next (match s.runningNode n 3 with
    | none => s
    | some y =>
      let lo := bytesField y.image 0x28 8
      let len := bytesField y.image 0x30 8
      if y.waited ≠ 0 then s
      else if lo % 2 ^ 23 ≠ 0 ∨ len % 2 ^ 23 ≠ 0 ∨ !zeroFrom y.image 0x38 then s.finishNode n statusBADNODE none
      else
        let (id, s) := s.beginSweep (lo % 2 ^ 56) (lo % 2 ^ 56 + len) false true []
        s.modNode n fun y => { y with waited := id })

/-- A SIGNAL's store or add at a page that takes it; an add is served at the home as a lane of a built-in wave, which ends
the node (R250). -/
def State.signalAt (s : State) (n : NodeRef) (p : Page) (va value : Nat) (wide add : Bool) : State :=
  let w := if wide then 8 else 4
  if add && p.peer.isNone then
    let (id, s) := s.fresh
    let kind : ReqKind := .atomic 0 (if wide then 1 else 0) none (BitVec.ofNat 64 value) 0
    let r : Req := { Req.make id (.node n) id 0 kind { sc := 5 } [va] 0 with
      pas := [p.pa va], cls := p.cls, noL1 := true, stage := .ready, left := 1 }
    ({ s with reqs := s.reqs ++ [r] }).modNode n fun y => { y with waited := id }
  else
    let page := if add then { p with cls := .normal } else p
    match s.writeNow page va ((toBytesLE w value).map MByte.whole) with
    | (s, .error f) => s.failNode n f
    | (s, .ok _) => s.finishNode n statusDONE none

/-- SIGNAL (R250). -/
def execSignal (n : NodeRef) (s : State) : Host.Outcome State Fault Refusal :=
  .next (match s.runningNode n 4 with
    | none => s
    | some y =>
      let addr := bytesField y.image 0x28 8
      let mode := bytesField y.image 0x38 8
      let wide := mode % 2 == 1
      if y.waited ≠ 0 then s
      else
        match y.owed with
        | some o => s.nodeOwed n o fun s => s.faultNode n causePEERTO
        | none =>
          if 4 ≤ mode ∨ !zeroFrom y.image 0x40 ∨ addr % (if wide then 8 else 4) ≠ 0 then s.finishNode n statusBADNODE none
          else
            match s.translateNode (addr % 2 ^ 56) true with
            | (s, .error f) => s.faultNode n (f.cause true)
            | (s, .ok p) => s.signalAt n p (addr % 2 ^ 56) (bytesField y.image 0x30 8) wide (mode / 2 == 1))

/-! ### WAITW and BRANCH (R250) -/

/-- The word that a WAITW reads, or why it cannot. -/
def State.waitWord (s : State) (va : Nat) : State × Except Fail Nat :=
  match s.translateNode va false with
  | (s, .error f) => (s, .error (f.cause false, va, 0))
  | (s, .ok p) =>
    match s.readNow p va 8 [] with
    | (s, .error f) => (s, .error f)
    | (s, .ok bs) => (s, .ok (ofBytesLE bs))

/-- Whether a word satisfies a WAITW's condition. -/
def waitHolds (cond value mask x : Nat) : Bool := if cond = 0 then x &&& mask == value else decide (value ≤ x &&& mask)

/-- WAITW: the node ends DONE when the word satisfies its condition; otherwise, and where the word cannot be read, it reads
again later (R250, log 39). -/
def execWaitw (n : NodeRef) (s : State) : Host.Outcome State Fault Refusal :=
  .next (match s.runningNode n 5 with
    | none => s
    | some y =>
      let addr := bytesField y.image 0x28 8
      let value := bytesField y.image 0x30 8
      let mask := bytesField y.image 0x38 8
      let cond := bytesField y.image 0x40 4
      match y.owed with
      | some o => s.nodeOwed n o id
      | none =>
        if 2 ≤ cond ∨ addr % 8 ≠ 0 ∨ !zeroFrom y.image 0x48 then s.finishNode n statusBADNODE none
        else
          match s.waitWord (addr % 2 ^ 56) with
          | (s, .error f) => if f.owed.isSome then s.failNode n f else s
          | (s, .ok x) => if waitHolds cond value mask x then s.finishNode n statusDONE none else s)

/-- WAITW_TIMEOUT: LIMIT cycles of the command processor have passed (R250). -/
def execWaitwTimeout (n : NodeRef) (s : State) : Host.Outcome State Fault Refusal :=
  .next (match s.runningNode n 5 with
    | none => s
    | some y =>
      let limit := bytesField y.image 0x44 4
      if limit ≠ 0 ∧ limit ≤ y.waited then s.finishNode n statusTIMEOUT none else s)

/-- The addresses reached from some in at most n more steps along the SUCC edges of a submitted graph. -/
def Slot.reach (x : Slot) : Nat → List Nat → List Nat
  | 0, as => as
  | n + 1, as =>
    x.reach n (as ++ (x.nodes.filter fun y => as.contains y.addr).flatMap fun y => nodeNext y.image).dedup

/-- Whether a node of a submitted graph is a LAUNCH node from which another is reached through SUCC edges (R250). -/
def Slot.reaches (x : Slot) (src dest : Nat) : Bool :=
  x.nodes.any fun y => y.addr == src && nodeKind y.image == 1 && (x.reach x.nodes.length (nodeNext y.image)).contains dest

/-- BRANCH: the successor whose key RESULT equals, or else the last. A SRCN that no longer translates has no STATUS DONE or
DIVERGED to be read (R250, log 83). -/
def execBranch (n : NodeRef) (s : State) : Host.Outcome State Fault Refusal :=
  .next (match s.runningNode n 6, s.slots[n.slot.val]? with
    | some y, some x =>
      let src := bytesField y.image 0x28 8 % 2 ^ 56
      let k := nodeSuccs y.image
      let ended := ((s.node ⟨n.slot, src⟩).map fun z : Node => z.stage == .ended).getD false
      if k = 0 ∨ !zeroFrom y.image 0x48 ∨ !ended ∨ !x.reaches src n.addr then s.finishNode n statusBADNODE none
      else
        match s.nodeBytes src 2 with
        | (s, none) => s.finishNode n statusBADNODE none
        | (s, some bs) =>
          let st := bytesField bs 4 4
          if st ≠ statusDONE ∧ st ≠ statusDIVERGED then s.finishNode n statusBADNODE none
          else
            let result := bytesField bs 0x70 8
            let chosen := ((List.range (k - 1)).find? fun i => bytesField y.image (0x30 + 8 * i) 8 == result).getD (k - 1)
            s.finishNode n statusDONE (some chosen)
    | _, _ => s)

/-! ### LAUNCH (R251, R252, R305, R334, R335, R344) -/

/-- The slots of a shape (R252). -/
def slotCount (qr qc : Nat) : Nat := 16 / qr * (24 / qc)

/-- The launch fields of a node; the method table and the determinism block are read afterwards. -/
def Launch.parse (bs : List Byte) : Launch where
  entry := BitVec.ofNat 56 (bytesField bs 0x28 8)
  tentry := BitVec.ofNat 56 (bytesField bs 0x30 8)
  param := BitVec.ofNat 64 (bytesField bs 0x38 8 % 2 ^ 56)
  tvec := BitVec.ofNat 56 (bytesField bs 0x40 8)
  gx := bytesField bs 0x48 4
  gy := bytesField bs 0x4C 4
  gz := bytesField bs 0x50 4
  shape := BitVec.ofNat 32 (bytesField bs 0x54 4)
  flags := BitVec.ofNat 32 (bytesField bs 0x58 4)
  quantum := if bytesField bs 0x5C 4 = 0 then 13000000 else bytesField bs 0x5C 4
  methods := []
  det := none

/-- Whether the fields of a launch keep their limits (R251). -/
def Launch.ok (l : Launch) (mtab detb : Nat) : Bool :=
  l.entry.toNat % 4 == 0
    && ([l.gx, l.gy, l.gz].all fun g => decide (1 ≤ g) && decide (g ≤ 2097151))
    && slice l.shape 24 8 == 0 && decide (1 ≤ l.window) && decide (l.window ≤ 4096 * 128)
    && decide (1 ≤ l.gpt) && decide (l.gpt ≤ 32) && decide (1 ≤ l.lpg) && decide (l.lpg ≤ 32)
    && decide (1 ≤ l.qr) && decide (1 ≤ l.qc) && decide (l.qr * l.qc ≤ 3) && min l.qr l.qc == 1
    && l.flags &&& 0xFFF8FCC0 == 0 && l.rrmode != 3 && !(l.rrmode != 0 && detb == 0)
    && mtab % 256 == 0 && detb % 64 == 0

/-- Entry i of a method table: ENTRY and LENGTH, where it keeps its limits (R305). -/
def methodEntry (bs : List Byte) (i : Nat) : Option (Nat × Nat) :=
  let e := bytesField bs (16 * i) 8
  let n := bytesField bs (16 * i + 8) 4
  if bytesField bs (16 * i + 12) 4 = 0 ∧ e % 4 = 0
      ∧ (if e = 0 then n = 0 else n % 4 = 0 ∧ 4 ≤ n ∧ n ≤ 1024) then some (e, n)
  else none

/-- The determinism block, where it keeps its limits (R334, R344). -/
def DetBlock.parse (bs : List Byte) (base : Nat) (l : Launch) : Option DetBlock :=
  let flags := bytesField bs 0x14 4
  let d : DetBlock := ⟨base, bytesField bs 0 8, bytesField bs 8 8, bytesField bs 0x10 4, flags == 1, BitVec.ofNat 64 (bytesField bs 0x18 8)⟩
  if d.logBase % 4096 = 0 ∧ flags < 2 ∧ bytesField bs 0x38 8 = 0 ∧ (l.rrmode = 0 ∨ 12288 ≤ d.logSize)
      ∧ (flags = 0 ∨ l.digest) then some d
  else none

/-- The method table of a launch read, or the STATUS with which the node ends (R251, R305). -/
def State.readMethods (s : State) (mtab : Nat) : State × Except Nat (List (Nat × Nat)) :=
  if mtab = 0 then (s, .ok [])
  else
    match s.nodeBytes mtab 4 with
    | (s, none) => (s, .error statusFAULT)
    | (s, some bs) =>
      match (List.range 16).mapM (methodEntry bs) with
      | none => (s, .error statusBADNODE)
      | some ms => (s, .ok ms)

/-- The determinism block of a launch read, or the STATUS with which the node ends (R251, R344). -/
def State.readDet (s : State) (detb : Nat) (l : Launch) : State × Except Nat (Option DetBlock) :=
  if detb = 0 then (s, .ok none)
  else
    match s.nodeBytes detb 1 with
    | (s, none) => (s, .error statusFAULT)
    | (s, some bs) =>
      match DetBlock.parse bs detb l with
      | none => (s, .error statusBADNODE)
      | some d => (s, .ok (some d))

/-- A grid that starts (R251). -/
def Grid.start (n : NodeRef) (l : Launch) (since began : Nat) : Grid :=
  { node := n, launch := l, next := 0, retired := 0, ended := [], digest := digestIV, result := none, rrstat := 0,
    overflowed := [], reex := false, firstDigest := 0, rrsum := 0, ovfsl := 0, held := 0, preempt := 0, abort := none,
    since := since, began := began }

/-- LAUNCH: the node is checked whole before any cluster starts, and its grid begins (R251, R252, R305, R334, R335,
R344). -/
def execLaunch (n : NodeRef) (s : State) : Host.Outcome State Fault Refusal :=
  .next (match s.runningNode n 1 with
    | none => s
    | some y =>
      if s.grids.any fun p => p.2.node == n then s
      else
        let bs := y.image
        let mtab := bytesField bs 0x60 8
        let detb := bytesField bs 0x68 8
        let l := Launch.parse bs
        if !l.ok mtab detb || bytesField bs 0x78 8 != 0 then s.finishNode n statusBADNODE none
        else
          match s.readMethods mtab with
          | (s, .error st) => s.finishNode n st none
          | (s, .ok ms) =>
            match s.readDet detb l with
            | (s, .error st) => s.finishNode n st none
            | (s, .ok det) =>
              if l.cores && decide (slotCount l.qr l.qc < l.count) then s.finishNode n statusNOFIT none
              else
                let (id, s) := s.fresh
                { s with grids := s.grids.set id (Grid.start n { l with methods := ms, det := det } s.cpCycle.toNat s.tick) })

end Sys2Proof.Machine
end

