-- ==== Sys2Proof/Machine/Clusters.lean ====
section
/-! DEFINITION. Clusters and grids: placement, start, end and retirement, the end of a grid and its re-execution, aborts,
pre-emption and resumption, machine checks and freezing (R219, R234, R240, R252 to R259, R299 to R301, R333, R335, R341,
R344, R357). -/

namespace Sys2Proof.Machine

open Sys2Proof

/-! ### Slots and the placement curve (R252, R253) -/

/-- One round of the curve over 8 by 8 quads, at size 2^q. -/
def hilStep (q : Nat) (p : Nat × Nat × Nat) : Nat × Nat × Nat :=
  let (x, y, t) := p
  let n := 2 ^ q
  let rx := t / 2 % 2
  let ry := (t + rx) % 2
  let (x, y) := if ry = 0 then
      let (x, y) := if rx = 1 then (n - 1 - x, n - 1 - y) else (x, y)
      (y, x)
    else (x, y)
  (x + n * rx, y + n * ry, t / 4)

/-- The place of position h in a block of the curve. -/
def hil8 (h : Nat) : Nat × Nat :=
  let r := hilStep 2 (hilStep 1 (hilStep 0 (0, 0, h)))
  (r.1, r.2.1)

/-- The quad at a position of the curve: row and column. -/
def quadOfPos (p : Nat) : Nat × Nat :=
  let (x, y) := hil8 (p % 64)
  let b := p / 64
  if b < 3 then (y, 8 * b + x) else (15 - y, 8 * (5 - b) + 7 - x)

/-- Whether a quad anchors a slot of a shape (R252). -/
def isAnchor (qr qc : Nat) (a : Nat × Nat) : Bool :=
  a.1 % qr == 0 && a.2 % qc == 0 && decide (a.1 + qr ≤ 16) && decide (a.2 + qc ≤ 24)

/-- The anchors of a shape in row-major order. -/
def anchors (qr qc : Nat) : List (Nat × Nat) :=
  ((List.range 384).map fun n => (n / 24, n % 24)).filter (isAnchor qr qc)

/-- The anchors of a shape in the order of the curve (R253). -/
def detAnchors (qr qc : Nat) : List (Nat × Nat) := ((List.range 384).map quadOfPos).filter (isAnchor qr qc)

/-- The anchor at which cluster n starts and resumes under DET (R253, R258). -/
def detAnchor (l : Launch) (n : Nat) : Nat × Nat := (detAnchors l.qr l.qc).getD (n % slotCount l.qr l.qc) (0, 0)

/-- Whether every quad of a slot is free (R252). -/
def State.slotFree (s : State) (l : Launch) (a : Nat × Nat) : Bool :=
  isAnchor l.qr l.qc a && s.clusters.all fun p =>
    match p.2.place, s.grid p.2.grid with
    | some b, some g =>
      !(rangesMeet a.1 l.qr b.1 g.launch.qr && rangesMeet a.2 l.qc b.2 g.launch.qc)
    | _, _ => true

/-- The clusters of a grid that have started and not ended, with their numbers. -/
def State.clustersOf (s : State) (gid : Nat) : List (Nat × Cluster) := s.clusters.filter fun p => p.2.grid == gid

/-! ### The start of a cluster (R219, R240, R346) -/

/-- A lane at cluster start. -/
def Lane.start (entry : BitVec 56) (tick : Nat) : Lane :=
  { pc := entry, next := entry, v := [], cond := 0, link := 0, lsw := 0, taddr := 0, pass := 0, yielded := false,
    wait := .ready, lastTeam := [], lastCluster := [], serial := 0, again := none, st := digestIV, cp := digestIV, copies := [],
    lpr := none, acqAt := tick }

/-- Trap registers at cluster start. -/
def TrapRegs.start : TrapRegs := ⟨0, 0, 0, 0, 0⟩

/-- A group at cluster start. -/
def Group.start (l : Launch) (tick : Nat) : Group :=
  { lanes := List.replicate l.lpg (Lane.start l.entry tick),
    g := [(0, l.param.truncate 32), (1, l.param.extractLsb' 32 32)], live := 0, cached := 0, dirty := 0,
    trap := TrapRegs.start, handler := none, hg := none, hgAt := 0, opens := [], reissue := [], lastIssue := tick }

/-- A copy queue at a team's start (R175). -/
def CopyQueue.start : CopyQueue := ⟨[], 0, 0, 0, 0, 0, 0, 0, 0, 0⟩

/-- A team at cluster start. -/
def Team.start (l : Launch) (tick : Nat) : Team :=
  { groups := List.replicate l.gpt (Group.start l tick), window := [], bars := [],
    queues := List.replicate 4 CopyQueue.start }

/-- A quad at cluster start; without a tile program its control core is absent (R219, R240). Bits [1:0] of TENTRY are ignored
(R17, log 65). -/
def Quad.start (l : Launch) : Quad :=
  { control := { pc := alignPc l.tentry, next := alignPc l.tentry, k := [(0, l.param)], cond := 0, link := 0, trap := TrapRegs.start, taddr := 0,
                 inHandler := false, wait := if l.tentry = 0 then .absent else .run, acqAt := 0 },
    tokens := [], acc := [], amax := [], tasks := [], template := ⟨none, none, none⟩, events := [], tk := digestIV,
    folds := [], doneAt := 0 }

/-- A cluster at its start. -/
def Cluster.start (gid index : Nat) (l : Launch) (a : Nat × Nat) (tick : Nat) : Cluster :=
  { grid := gid, index := index, place := some a, home := a, saved := 0, spared := false,
    teams := List.replicate (4 * l.qr * l.qc) (Team.start l tick), quads := List.replicate (l.qr * l.qc) (Quad.start l),
    bars := [], result := none }

/-- Cluster n of a grid starts at an anchor. -/
def State.startCluster (s : State) (gid : Nat) (l : Launch) (n : Nat) (a : Nat × Nat) : State :=
  let (id, s) := s.fresh
  let s := { s with clusters := s.clusters.set id (Cluster.start gid n l a s.tick) }
  s.modGrid gid fun g => { g with next := n + 1, held := 0, preempt := 0 }

/-- The anchors at which every cluster of a co-resident grid starts, a first one given; none where they are not all free
(R254, R335). -/
def State.coresAnchors (s : State) (l : Launch) (a : Nat × Nat) : Option (List (Nat × Nat)) :=
  let free := if l.detPlace then (List.range l.count).map (detAnchor l)
    else (a :: (anchors l.qr l.qc).filter fun b => b != a && s.slotFree l b).take l.count
  if decide (free.length = l.count) && free.all (s.slotFree l) then some free else none

/-- Whether a grid's clusters run one at a time: a re-execution under RRMODE 0 and 1 (R333). -/
def Grid.oneByOne (g : Grid) : Bool := g.reex && g.launch.rrmode != 2

/-- The resident clusters of a grid. -/
def State.residents (s : State) (gid : Nat) : List (Nat × Cluster) :=
  (s.clustersOf gid).filter fun p => p.2.place.isSome

/-- Whether the host has asked for the pre-emption of a grid's graph, and clusters of it are still to go (R256, R351). -/
def State.hostPreempts (s : State) (g : Grid) : Bool := ((s.slots[g.node.slot.val]?).map (·.preempt)).getD false

/-- Whether some co-resident grid is split: until it is whole again, nothing else takes a slot (R254, log 84). -/
def State.anySplit (s : State) : Bool := s.grids.any fun p => s.splitGrid p.1

/-- CLUSTER_START: the grid's next cluster starts on a free slot; a co-resident grid starts whole. While a request of the host
is carried out, none of the graph's starts (R252 to R254, R335, R346, log 75). -/
def execClusterStart (grid row col : Nat) (s : State) : Host.Outcome State Fault Refusal :=
  .next (match s.grid grid with
    | none => s
    | some g =>
      let l := g.launch
      if !s.cpRuns || g.abort.isSome || s.hostPreempts g || s.anySplit || decide (l.count ≤ g.next) then s
      else if l.cores && !g.oneByOne then
        match s.coresAnchors l (row, col) with
        | none => s
        | some as => (as.zipIdx).foldl (fun (s : State) p => s.startCluster grid l p.2 p.1) s
      else if s.slotFree l (row, col) && (!l.detPlace || (row, col) == detAnchor l g.next)
          && (!g.oneByOne || (s.clustersOf grid).isEmpty) then
        s.startCluster grid l g.next (row, col)
      else s)

/-! ### The end of a grid (R255, R333, R341 to R344) -/

/-- The chunks of a log area before its terminator. -/
def State.countChunks (s : State) (area : Nat) : Nat → Nat → Nat
  | 0, _ => 0
  | fuel + 1, off => if field (s.logWord (area + off)) 55 48 = 0 then 0 else s.countChunks area fuel (off + 16) + 1

/-- Whether a replay leaves entries of its log unconsumed (R344). -/
def State.logLeft (s : State) (gid : Nat) (d : DetBlock) : Bool :=
  (List.range 384).any fun n =>
    let used := (((s.sliceAt n).log gid).gates.map fun p => p.2.chunks).foldl (· + ·) 0
    s.countChunks (d.logBase + d.area * n) (d.area / 16) 0 != used

/-- The log of a record run is closed: open chunks in the order they opened, then each area's terminator (R342, R343). -/
def State.closeLogs (s : State) (gid : Nat) (d : DetBlock) : State :=
  (List.range 384).foldl (fun (s : State) n =>
    let s := ((s.sliceAt n).log gid).opened.foldl (fun (s : State) c => s.closeChunk d n gid c) s
    let log := (s.sliceAt n).log gid
    if log.full then s else s.putChunk d n log.written (0, 0)) s

/-- The logs of a grid forgotten by every slice. -/
def State.dropLogs (s : State) (gid : Nat) : State :=
  { s with slices := s.slices.map fun p => (p.1, { p.2 with logs := p.2.logs.erase gid }) }

/-- RRSUM and OVFSL as the end of an execution leaves them; a re-execution under RRMODE 1 keeps the first's (R333,
R344). -/
def State.writeSums (s : State) (gid : Nat) (g : Grid) (d : DetBlock) : State :=
  if g.launch.rrmode = 1 ∧ g.reex then s
  else
    let s := if g.launch.rrmode = 1 then s.closeLogs gid d else s
    let g := (s.grid gid).getD g
    let left := g.launch.rrmode == 2 && s.logLeft gid d
    let sum := g.rrstat.toNat + 8 * left.toNat
    let ovf := if g.launch.rrmode = 0 then 0 else g.overflowed.length
    (s.nodeWrite (d.base + 0x30) (toBytesLE 4 sum)).nodeWrite (d.base + 0x34) (toBytesLE 4 ovf)

/-- A grid is over: RESULT is written, and its node is about to end with a status (R255). -/
def State.closeGrid (s : State) (gid : Nat) (g : Grid) (result : DWord) (status : Nat) : State :=
  let s := s.nodeWrite (g.node.addr + 0x70) (toBytesLE 8 result.toNat)
  (({ s with grids := s.grids.erase gid }).dropLogs gid).finishNode g.node status none

/-- The RESULT of a grid from the clusters that have posted. -/
def Grid.resultWord (g : Grid) : DWord := (g.result.map (·.2)).getD 0

/-- GRID_END, or GRID_REEXECUTION on a digest mismatch, once every cluster has ended and been folded (R255, R333, R341,
R344). -/
def State.endGrid (s : State) (gid : Nat) : State :=
  match s.grid gid with
  | none => s
  | some g =>
    if g.abort.isSome ∨ g.retired < g.launch.count then s
    else
      match g.launch.det with
      | none => s.closeGrid gid g g.resultWord statusDONE
      | some d =>
        let s := s.writeSums gid g d
        let s := s.nodeWrite (d.base + if g.reex then 0x28 else 0x20) (toBytesLE 8 g.digest.toNat)
        if d.recv ∧ g.digest ≠ d.recdig ∧ !g.reex then
          (s.modGrid gid fun h =>
            { h with next := 0, retired := 0, ended := [], digest := digestIV, result := none, rrstat := 0, overflowed := [],
                     reex := true, firstDigest := g.digest, held := 0 }).dropLogs gid
        else if g.reex then
          ((s.record 5 statusDIVERGED 0 (d.recdig ++ g.digest)).report g.node.slot.val
            (.diverged g.node.addr d.recdig g.digest)).closeGrid gid g g.resultWord statusDIVERGED
        else s.closeGrid gid g g.resultWord statusDONE

/-- The next cluster in index order folded into the grid digest, its POSTR value a candidate for RESULT, where it has ended
(R253, R341). -/
def Grid.foldNext (g : Grid) : Grid :=
  match g.ended.find? fun e => e.1 == g.retired with
  | none => g
  | some (n, task, post) =>
    { g with retired := n + 1, ended := g.ended.filter fun e => e.1 != n,
             digest := mix (mix (g.digest ^^^ BitVec.ofNat 64 n) ^^^ task),
             result := match post with
               | some x => some (n, x)
               | none => g.result }

/-- As many clusters folded as have ended in index order. -/
def Grid.foldAll (g : Grid) : Nat → Grid
  | 0 => g
  | n + 1 => g.foldNext.foldAll n

/-- CLUSTER_RETIRE: under DET the next ended cluster in index order is folded, and the last ends the grid (R253, R341). -/
def execClusterRetire (grid : Nat) (s : State) : Host.Outcome State Fault Refusal :=
  .next (match s.grid grid with
    | none => s
    | some g =>
      if g.launch.detPlace && g.ended.any fun e => e.1 == g.retired then (s.modGrid grid Grid.foldNext).endGrid grid else s)

/-! ### Requests of the host for a pre-emption (R256, R259, R351) -/

/-- A host request that has no cluster left to stop is over: every resident cluster of the graph is one that it has left
running for want of room (R256, R259, log 75). -/
def State.settlePreempt (s : State) (slot : Nat) : State :=
  let mine (c : Cluster) : Bool := ((s.grid c.grid).map fun g : Grid => g.node.slot.val == slot).getD false
  if !((s.slots[slot]?).map (·.preempt)).getD false then s
  else if s.clusters.any fun p => mine p.2 && p.2.place.isSome && !p.2.spared then s
  else
    let clear (c : Cluster) : Cluster := if mine c then { c with spared := false } else c
    ({ s with clusters := s.clusters.map fun (p : Nat × Cluster) => (p.1, clear p.2) }).modSlot slot fun x => { x with preempt := false }

/-! ### The end of a cluster (R255) -/

/-- Whether a request is one of a cluster's agents. -/
def Req.ofCluster (r : Req) (cid : Nat) : Bool := r.owner.cid == some cid

/-- Whether a group is done: every lane has exited, and nothing of it is open. -/
def Group.done (g : Group) : Bool := g.handler.isNone && g.opens.isEmpty && g.lanes.all fun x => x.wait == .exited

/-- Whether a cluster's lanes, control cores, tasks, queues and requests are done (R255). -/
def State.clusterDone (s : State) (cid : Nat) (c : Cluster) : Bool :=
  (c.teams.all fun t => (t.groups.all Group.done) && t.queues.all fun q => q.entries.isEmpty || q.held)
    && (c.quads.all fun q => (q.control.wait == .exited || q.control.wait == .absent) && q.tasks.isEmpty)
    && s.reqs.all fun r => !r.ofCluster cid

/-- The queues of a cluster reset: a held queue's remaining entries are discarded (R255). -/
def State.resetQueues (s : State) (cid teams : Nat) : State :=
  (List.range teams).foldl (fun (s : State) t =>
    (List.range 4).foldl (fun (s : State) q => s.resetQueue ⟨cid, t, q⟩) s) s

/-- CLUSTER_END: the cluster's task digest and result word go to its grid, its slot is freed, and the last cluster's end
is the grid's (R253, R255, R333, R341, R344). -/
def execClusterEnd (cid : Nat) (s : State) : Host.Outcome State Fault Refusal :=
  .next (match s.cluster cid with
    | none => s
    | some c =>
      if !s.running cid || !s.clusterDone cid c then s
      else
        let s := s.resetQueues cid c.teams.length
        let c := (s.cluster cid).getD c
        let s := { s with clusters := s.clusters.erase cid }
        let s := s.modGrid c.grid fun g => { g with ended := g.ended ++ [(c.index, c.taskDigest, c.result)] }
        let s := match s.grid c.grid with
          | none => s
          | some g => s.settlePreempt g.node.slot.val
        if ((s.grid c.grid).map (·.launch.detPlace)).getD false then s
        else (s.modGrid c.grid fun g => g.foldAll g.ended.length).endGrid c.grid)

/-! ### Aborts (R299, R300) -/

/-- Whether a request has left its core and has not performed. -/
def Req.underWay (r : Req) : Bool :=
  match r.stage with
  | .inL1 _ | .atPeer | .atHome => true
  | _ => false

/-- The last result posted in a grid, the clusters that have not ended included (R255). -/
def State.postedResult (s : State) (gid : Nat) (g : Grid) : DWord :=
  let posts := (g.result.toList.map fun p => (p.1, some p.2)) ++ (g.ended.map fun e => (e.1, e.2.2))
    ++ (s.clustersOf gid).map fun p => (p.2.index, p.2.result)
  (posts.foldl (fun (best : Option (Nat × DWord)) p =>
    match p.2 with
    | none => best
    | some x =>
      match best with
      | some b => if b.1 ≤ p.1 then some (p.1, x) else best
      | none => some (p.1, x)) none |>.map (·.2)).getD 0

/-- Whether an event's sender belongs to one of a list of clusters. -/
def HostEvent.fromAny (e : HostEvent) (cids : List Nat) : Bool :=
  match e.sender with
  | some (.lane l) => cids.contains l.cid
  | some (.control q) => cids.contains q.cid
  | none => false

/-- A record of an error, whose detail LASTERR holds (R350, R356). -/
def State.recordError (s : State) (kind cause unit : Nat) (detail : BitVec 128) : State :=
  let s := s.record kind cause unit detail
  { s with bar0 := { s.bar0 with lasterr := toBytesLE 16 detail.toNat } }

/-- One of the black box's records of an abort: a grid abort, or a machine check (R299, R301). -/
def State.abortRecord (s : State) (a : AbortInfo) (detail : BitVec 128) : State :=
  if a.machineCheck then s.recordError 2 a.cause a.core detail else s.record 1 a.cause a.core detail

/-- The black box's two records of an abort, TPC with TADDR, then TMASK, the group and the node; and the report to the host
(R299, R356, log 36, log 77). -/
def State.recordAbort (s : State) (g : Grid) (a : AbortInfo) : State :=
  ((s.abortRecord a (a.addr ++ a.pc)).abortRecord a
    (BitVec.ofNat 128 (a.mask.toNat + 2 ^ 32 * a.group + 2 ^ 64 * g.node.addr))).report g.node.slot.val (.aborted g.node.addr a)

/-- GRID_ABORT: once what has left its cores has performed, everything else of the grid is discarded, its save areas are
freed, and its node ends ABORTED (R299, R300). -/
def execGridAbort (grid : Nat) (s : State) : Host.Outcome State Fault Refusal :=
  .next (match s.grid grid with
    | none => s
    | some g =>
      match g.abort with
      | none => s
      | some a =>
        let cids := (s.clustersOf grid).map (·.1)
        let mine (r : Req) : Bool := cids.any r.ofCluster
        if !s.powered || s.reqs.any fun r => mine r && r.underWay then s
        else
          let result := s.postedResult grid g
          let s := match g.launch.det with
            | none => s
            | some d => s.writeSums grid g d
          let s := s.recordAbort g a
          let s := { s with
            reqs := s.reqs.filter fun r => !mine r
            hostEvents := s.hostEvents.filter fun e => !e.fromAny cids
            clusters := s.clusters.filter fun p => p.2.grid != grid }
          (s.closeGrid grid g result statusABORTED).settlePreempt g.node.slot.val)

/-! ### Pre-emption and resumption (R234, R256 to R259) -/

/-- The bytes that a cluster's save takes of the pool (R259). -/
def saveBytes (l : Launch) : Nat :=
  1024 * (4 * l.qr * l.qc * (32 * l.gpt + l.window / 1024 + 4) + l.qr * l.qc * 1040 + 4)

/-- The bytes of the pool that saves hold. -/
def State.poolUsed (s : State) : Nat := (s.clusters.map fun p => p.2.saved).foldl (· + ·) 0

/-- Whether the pool has room for a cluster's save. -/
def State.poolRoom (s : State) (l : Launch) : Bool := decide (s.poolUsed + saveBytes l ≤ s.bar0.ctxsize.toNat)

/-- The part of a request's lane in its open instruction. -/
def State.partOf (s : State) (r : Req) : Option PartState :=
  match r.owner with
  | .lane l => ((s.group l.gr).bind (·.openOf r.op)).bind fun o => (o.parts.find? fun p => p.lane == l.lane).map (·.st)
  | _ => none

/-- Whether the gate holds every request of a lane's instruction that is still to perform, with the place of the first
(R342, R345). -/
def State.heldAtGate (s : State) (r : Req) : Option (Nat × Nat) :=
  let at' := s.slices.flatMap fun p => p.2.waiting.flatMap fun b =>
    (b.reqs.filter fun q => q.1 == r.id).map fun _ => (p.1, b.line)
  if r.stage == .atHome && s.gated r.id && at'.length == r.left then at'.head? else none

/-- Whether the lane of a request has gone on past it (R354). -/
def State.wentOn (s : State) (r : Req) : Bool :=
  match r.owner with
  | .lane l => ((((s.group l.gr).bind (·.openOf r.op))).map (·.gone)).getD true
  | _ => true

/-- Whether some part of a request has left its core: one that asks for each of its addresses apart has asked for some. -/
def State.asked (s : State) (r : Req) : Bool :=
  r.hasLeft || !r.got.isEmpty || (!r.pas.isEmpty && decide (r.left < r.pas.length)) || s.reqs.any fun q => match q.kind with
    | .corner p _ _ | .scatterPart p _ _ => p == r.id && q.hasLeft
    | _ => false

/-- Whether a request does not hold up the save of its cluster: it is a part of one that has not left its core, or has not
left it and holds its lane; or the gate holds it and its log's head names another (R257, R345). -/
def State.mayStayBehind (s : State) (r : Req) : Bool :=
  (match r.kind with
    | .corner p _ _ | .scatterPart p _ _ => ((s.req p).map fun q => !s.asked q).getD false
    | _ => r.op != 0 && !s.wentOn r && !s.asked r && s.partOf r != some .performed)
    || (match s.heldAtGate r, s.gridIdOf r with
        | some (slice, line), some gid => s.gateUnmatched slice gid line
        | _, _ => false)

/-- Whether a lane waits for a queue that is full. -/
def Lane.enters (x : Lane) : Bool :=
  match x.wait with
  | .enqueue .. | .enqueueFence .. => true
  | _ => false

/-- Whether an open instruction of a group may be saved: no member of it has failed; or its trap waits for the end of a
handler, or for members that a full queue holds (R257, R296). -/
def Group.opensSaved (g : Group) (o : Open) : Bool :=
  !(o.parts.any fun p => p.st.isFailed)
    || (!(o.trapReady && (g.handler.isNone || o.inHandler)) && o.parts.all fun p =>
      (p.st != .waiting && p.st != .translated) || ((g.lanes[p.lane]?).map Lane.enters).getD false)

/-- Whether a task does not hold up the save of its quad: it has not started; or it is over, and its record finds the event
queue full (R177, R234). -/
def Quad.taskSaved (x : Quad) (t : Task) : Bool :=
  t.stage == .waiting
    || (t.stage == .finished && (!t.field.quiet || bitsAt t.record.toNat 12 4 != 0) && decide (eventQueueSize ≤ x.events.length))

/-- Whether a cluster stands where it can be saved: what has left its core or been accepted has performed, but for what
the gate holds; the trap of what has failed has been taken; no copy command has started, and every task that has started has
completed and posted (R234, R257). -/
def State.stoppable (s : State) (cid : Nat) (c : Cluster) : Bool :=
  (s.reqs.all fun r => !r.ofCluster cid || s.mayStayBehind r)
    && (c.teams.all fun t => (t.groups.all fun g => g.opens.all g.opensSaved) && t.queues.all fun q =>
      match q.entries.head? with
      | some (.command _ _ _ _ (some _)) => q.held
      | _ => true)
    && c.quads.all fun q => q.tasks.all q.taskSaved

/-- A lane that stands at its instruction, for the resumption to issue it first (R257, R258). -/
def Lane.notDone (x : Lane) : Lane := { x with wait := .ready, pass := 0 }

/-- An open instruction at the save of its group, no member of which has failed: its lanes that have performed wait for the
others, and so do those whose requests the gate keeps; these stand at it and issue it first on resumption (R152, R239, R257,
R258). -/
def Group.saveOpen (keeps : Nat → Nat → Bool) (g : Group) (o : Open) : Group :=
  if o.gone || o.parts.any fun p => p.st.isFailed then g
  else
    let back := (o.parts.filter fun p => p.st != .performed && !keeps o.id p.lane).map (·.lane)
    let left (y : Open) : Open := if y.id == o.id then
        { y with parts := y.parts.filter (fun p => !back.contains p.lane), rest := y.rest ++ back }
      else y
    { g with lanes := back.foldl (fun ls k => modAt ls k Lane.notDone) g.lanes, reissue := g.reissue ++ back,
             opens := (g.opens.map left).filter fun y => !y.parts.isEmpty }

/-- A group at its save: its open instructions, and every line uncached (R244, R257). -/
def Group.save (keeps : Nat → Nat → Bool) (g : Group) : Group :=
  let g := g.opens.foldl (fun (g : Group) o => g.saveOpen keeps o) g
  { g with cached := 0, dirty := 0, lanes := g.lanes.map fun x => { x with lpr := none } }

/-- A cluster saved: its requests that have not left are dropped, and its slot is freed (R257). -/
def State.saveCluster (s : State) (cid : Nat) (c : Cluster) (l : Launch) : State :=
  let kept := s.reqs.filter fun r => r.ofCluster cid && (s.heldAtGate r).isSome
  let keeps (op lane : Nat) : Bool := kept.any fun r =>
    r.op == op && (match r.owner with | .lane k => k.lane == lane | _ => false)
  let s := { s with reqs := s.reqs.filter fun r => !r.ofCluster cid || (s.heldAtGate r).isSome }
  let s := s.modCluster cid fun c =>
    { c with place := none, home := c.anchor, saved := saveBytes l, spared := false,
             teams := c.teams.map fun t => { t with groups := t.groups.map (Group.save keeps) } }
  s.record 6 0 (quadNum c.anchor) (BitVec.ofNat 128 (c.grid + 2 ^ 64 * c.index))

/-- A pre-emption refused for want of room (R259). -/
def State.refuseSave (s : State) (c : Cluster) : State :=
  s.record 6 1 (quadNum c.anchor) (BitVec.ofNat 128 (c.grid + 2 ^ 64 * c.index))

/-- The clusters of a grid that are to start or to resume next, lower indices first, a co-resident grid's all at once
(R252, R254, R333). A grid whose saved clusters are to resume needs slots as a starting launch does, the model's choice
(log 88). -/
def State.nextBatch (s : State) (gid : Nat) (g : Grid) : List Nat :=
  let saved := ((s.clustersOf gid).filter fun p => p.2.place.isNone).map (·.2.index)
  if g.oneByOne && !(s.residents gid).isEmpty then []
  else if g.launch.cores && !g.oneByOne then saved ++ (List.range (g.launch.count - g.next)).map (g.next + ·)
  else
    match saved with
    | n :: ns => [ns.foldl min n]
    | [] => if g.next < g.launch.count then [g.next] else []

/-- Whether clusters of a launch fit into free slots once those of some clusters are free, too (R252 to R254). -/
def State.fitsIn (s : State) (l : Launch) (batch freed : List Nat) : Bool :=
  let s := { s with clusters := s.clusters.filter fun p => !freed.contains p.1 }
  if l.detPlace then batch.all fun n => s.slotFree l (detAnchor l n)
  else decide (batch.length ≤ ((anchors l.qr l.qc).filter (s.slotFree l)).length)

/-- Whether a grid waits for slots: clusters of it are to start or resume, and they fit nowhere (R256). -/
def State.waitsForSlot (s : State) (gid : Nat) (g : Grid) : Bool :=
  g.abort.isNone && !s.hostPreempts g && !(s.nextBatch gid g).isEmpty && !s.fitsIn g.launch (s.nextBatch gid g) []

/-- Whether a grid gives way to a waiting one: its PRIO is lower, or it is the same and its quantum has expired (R256). -/
def Grid.yieldsTo (g h : Grid) : Bool :=
  g.abort.isNone && (decide (g.launch.prio < h.launch.prio) || (g.launch.prio == h.launch.prio && g.preempt != 0))

/-- Whether the clusters of a go before those of b: a lower PRIO first, then the later start (R256). -/
def Grid.before (a b : Nat × Grid) : Bool :=
  decide (a.2.launch.prio < b.2.launch.prio)
    || (a.2.launch.prio == b.2.launch.prio
        && (decide (b.2.since < a.2.since) || (a.2.since == b.2.since && decide (b.1 < a.1))))

/-- The resident clusters that may go for a waiting grid, each with its grid (R256). -/
def State.candidates (s : State) (hid : Nat) (h : Grid) : List ((Nat × Cluster) × (Nat × Grid)) :=
  s.clusters.filterMap fun p =>
    match s.grid p.2.grid with
    | some g => if p.2.place.isSome && p.2.grid != hid && g.yieldsTo h then some (p, (p.2.grid, g)) else none
    | none => none

/-- Whether a candidate goes before another: that of the grid that goes first, and within a grid the higher index; those of
a co-resident grid go together (R256). -/
def sooner (a b : (Nat × Cluster) × (Nat × Grid)) : Bool :=
  if a.2.1 = b.2.1 then !a.2.2.launch.cores && decide (b.1.2.index < a.1.2.index) else Grid.before a.2 b.2

/-- Whether a cluster goes for a waiting grid: with the candidates that go before it that grid does not fit yet, and
without it, or without its co-resident grid, it would not fit (R256). -/
def State.victimOf (s : State) (hid : Nat) (h : Grid) (cid : Nat) : Bool :=
  let all := s.candidates hid h
  let fits (xs : List ((Nat × Cluster) × (Nat × Grid))) : Bool :=
    s.fitsIn h.launch (s.nextBatch hid h) (xs.map fun x => x.1.1)
  let first := all.filter fun x => !fits (all.filter fun y => sooner y x)
  match first.find? fun x => x.1.1 == cid with
  | some x =>
    fits first && !fits (first.filter fun y =>
      if x.2.2.launch.cores then y.2.1 != x.2.1 else y.1.1 != cid)
  | none => false

/-- The resident clusters that a request of the host is still to stop, each with its grid (R256, R351). -/
def State.hostCandidates (s : State) : List ((Nat × Cluster) × (Nat × Grid)) :=
  s.clusters.filterMap fun p =>
    match s.grid p.2.grid with
    | some g => if p.2.place.isSome && !p.2.spared && g.abort.isNone && s.hostPreempts g then some (p, (p.2.grid, g)) else none
    | none => none

/-- Whether the host's request stops a cluster now: it goes before every other that the request names (R256). -/
def State.hostVictim (s : State) (cid : Nat) : Bool :=
  match s.hostCandidates.find? fun x => x.1.1 == cid with
  | some x => s.hostCandidates.all fun y => !sooner y x
  | none => false

/-- Whether some waiting grid needs the slot of a cluster (R256). -/
def State.outranked (s : State) (cid : Nat) : Bool :=
  s.grids.any fun h => s.waitsForSlot h.1 h.2 && s.victimOf h.1 h.2 cid

/-- CLUSTER_PREEMPTION: a victim of R256 that stands where it can be saved goes to the context pool, a co-resident grid
whole; without room it stays (R256, R257, R259). -/
def execClusterPreemption (cid : Nat) (s : State) : Host.Outcome State Fault Refusal :=
  .next (match s.cluster cid with
    | none => s
    | some c =>
      match s.grid c.grid with
      | none => s
      | some g =>
        let host := s.hostVictim cid
        let wanted := host || s.outranked cid
        let victims := if g.launch.cores then s.residents c.grid else [(cid, c)]
        if !s.cpRuns || !wanted || c.place.isNone || g.abort.isSome || victims.any fun p => !s.stoppable p.1 p.2 then s
        else
          let need := victims.length * saveBytes g.launch
          if s.bar0.ctxsize.toNat < s.poolUsed + need then
            let s := victims.foldl (fun (s : State) p => s.modCluster p.1 fun c => { c with spared := c.spared || host }) s
            ((s.modGrid c.grid fun g => { g with preempt := 0 }).refuseSave c).settlePreempt g.node.slot.val
          else
            let s := s.modGrid c.grid fun g => { g with preempt := if g.launch.cores then 0 else g.preempt - 1 }
            (victims.foldl (fun (s : State) p => s.saveCluster p.1 p.2 g.launch) s).settlePreempt g.node.slot.val)

/-- QUANTUM_EXPIRY: a grid that has held its slots for more than its quantum, while another of its priority waits, gives up
as many clusters as that one needs (R256, R259). -/
def execQuantumExpiry (grid : Nat) (s : State) : Host.Outcome State Fault Refusal :=
  .next (match s.grid grid with
    | none => s
    | some g =>
      match s.grids.find? fun h => h.1 != grid && h.2.launch.prio == g.launch.prio && s.waitsForSlot h.1 h.2 with
      | none => s
      | some h =>
        if decide (g.launch.quantum < g.held) && g.launch.prio != 7 then
          let need := h.2.launch.count - h.2.next + ((s.clustersOf h.1).filter fun p => p.2.place.isNone).length
          s.modGrid grid fun g => { g with held := 0, preempt := min need (s.residents grid).length }
        else s)

/-- A cluster placed again: no register line of it is in its core's cache, its lanes' last pages are empty, and no copy older
than this moment serves their loads (R238, R258). -/
def State.placeCluster (s : State) (cid : Nat) (a : Nat × Nat) : State :=
  let at' := s.tick
  s.modCluster cid fun c =>
    { c with place := some a, home := a, saved := 0, spared := false,
             teams := c.teams.map fun t => { t with groups := t.groups.map fun g =>
               { g with cached := 0, dirty := 0, lanes := g.lanes.map fun x => { x with acqAt := at', lpr := none } } } }

/-- The record of a resumption. -/
def State.recordResume (s : State) (c : Cluster) (a : Nat × Nat) : State :=
  s.record 6 0 (quadNum a) (BitVec.ofNat 128 (c.grid + 2 ^ 64 * c.index))

/-- The saved clusters of a co-resident grid with the anchors at which they go on; those of a split one go back to their own
slots (R254, log 84). -/
def State.coresResume (s : State) (l : Launch) (saved : List (Nat × Cluster)) (a : Nat × Nat) :
    Option (List ((Nat × Cluster) × (Nat × Nat))) :=
  let as := if saved.any (fun p => s.splitGrid p.2.grid) then saved.map fun p => p.2.home
    else if l.detPlace then saved.map fun p => detAnchor l p.2.index
    else (a :: (anchors l.qr l.qc).filter fun b => b != a && s.slotFree l b).take saved.length
  if decide (as.length = saved.length) && as.all (s.slotFree l) then some (List.zip saved as) else none

/-- CLUSTER_RESUME: a saved cluster goes on at a free slot, lower indices first, under DET at its own slot, a co-resident
grid whole (R253, R254, R258). -/
def execClusterResume (cid row col : Nat) (s : State) : Host.Outcome State Fault Refusal :=
  .next (match s.cluster cid with
    | none => s
    | some c =>
      match s.grid c.grid with
      | none => s
      | some g =>
        let l := g.launch
        let saved := (s.clustersOf c.grid).filter fun p => p.2.place.isNone
        if !s.cpRuns || c.place.isSome || g.abort.isSome || s.hostPreempts g || (s.anySplit && !s.splitGrid c.grid) then s
        else
          let fresh (s : State) : State := s.modGrid c.grid fun g => { g with held := 0, preempt := 0 }
          if l.cores && !g.oneByOne then
            match s.coresResume l saved (row, col) with
            | none => s
            | some ps => fresh (ps.foldl (fun (s : State) p => (s.placeCluster p.1.1 p.2).recordResume p.1.2 p.2) s)
          else if (saved.all fun p => decide (c.index ≤ p.2.index)) && s.slotFree l (row, col)
              && (!l.detPlace || (row, col) == detAnchor l c.index) then
            fresh ((s.placeCluster cid (row, col)).recordResume c (row, col))
          else s)

/-! ### Machine checks (R301) -/

/-- A machine check recorded: the management log counts it, and the black box keeps it. -/
def State.recordCheck (s : State) (kind : Nat) : State := (s.logError (BitVec.ofNat 128 kind)).record 2 0 0 (BitVec.ofNat 128 kind)

/-- A request that asks for nothing any more: it is gone from the slices at which it stood. -/
def State.purgeReq (s : State) (id : Nat) : State :=
  let clean (x : Slice) : Slice :=
    let waiting := (x.waiting.map fun b => { b with reqs := b.reqs.filter fun q => q.1 != id }).filter fun b => !b.reqs.isEmpty
    let queues := (x.queues.map fun q => (q.1, q.2.filter fun r => r.req != id)).filter fun q => !q.2.isEmpty
    Slice.settleSplit { x with waiting := waiting, queues := queues }
  let s := { s with slices := s.slices.map fun (p : Nat × Slice) => (p.1, clean p.2) }
  (s.dropReq id).dropParts id

/-- The end of a grid by a machine check that an agent of it has met. -/
def State.checkGrid (s : State) (gid : Nat) (addr : DWord) (core group : Nat) : State :=
  s.abortById gid ⟨0, 0, 0, addr, core, group, true⟩

/-- An agent's request that has met an error: it never gets the data, and its grid ends (R300, R301). -/
def State.checkReq (s : State) (r : Req) : State :=
  match r.owner, r.owner.cid.bind s.cluster with
  | .lane l, some c => (s.purgeReq r.id).checkGrid c.grid r.addr (s.coreOf l.cid l.team) l.group
  | _, some c => (s.purgeReq r.id).checkGrid c.grid r.addr 0 0
  | _, none => s

/-- One request of a wave that has met an error: a lane's ends its grid, a peer's is rejected (R298), and a node's ends FAULT. -/
def State.checkQueued (s : State) (pa : Nat) (q : QueuedReq) : State :=
  match s.req q.req with
  | none => s
  | some r =>
    match r.owner with
    | .peer dev seq =>
      let detail : BitVec 128 := BitVec.ofNat 128 (pa + 2 ^ 64 * dev)
      (((s.purgeReq r.id).logError detail).record 3 0 0 detail).replyPeer dev seq false []
    | .node n => (s.purgeReq r.id).faultNode n 0
    | _ => s.checkReq r

/-- Whether a request is in the wave of a slice. -/
def State.inWave (s : State) (id : Nat) : Bool :=
  s.slices.any fun p => (p.2.wave.map fun w : Wave => w.reqs.any fun q => q.req == id).getD false

/-- Whether a request comes from a peer device, whose error is handled here by its rejection alone (R298, R301). -/
def State.fromPeer (s : State) (id : Nat) : Bool :=
  ((s.req id).map fun r : Req => match r.owner with
    | .peer _ _ => true
    | _ => false).getD true

/-- The requests of a wave, or of one that is about to form, that have met an error: a machine check where one of them is not a
peer's (R298, R301). -/
def State.checkRun (s : State) (line : Nat) (rs : List QueuedReq) : State :=
  rs.foldl (fun (s : State) q => s.checkQueued (128 * line) q) (if rs.all fun q => s.fromPeer q.req then s else s.recordCheck 1)

/-- An agent that reads an uncorrectable error stops before it has used the data, and its grid ends (R301). -/
def State.checkReader (s : State) (r : Reader) : State :=
  match r with
  | .request id =>
    match s.req id with
    | none => s
    | some q => if q.owner.cid.isSome && !s.inWave id then (s.recordCheck 1).checkReq q else s
  | .wave slice =>
    match (s.sliceAt slice).wave with
    | none => s
    | some w => (s.endWave slice).checkRun w.line w.reqs
  | .engine cid =>
    match s.cluster cid with
    | none => s
    | some c => (s.recordCheck 1).checkGrid c.grid 0 0 0

/-- The addresses of a line's bytes. -/
def lineBytes (line : Nat) : List Nat := (List.range 128).map fun i => 128 * line + i

/-- A freeze (R301, R357). -/
def State.freeze (s : State) : State := { s with frozen := true, bar0 := { s.bar0 with frzstat := 1 } }

/-- MACHINE_CHECK: an error read by an agent of a grid, or met while a context is restored, ends that grid; one with no
reader is logged, and the next step that reads its line meets it again (State.guardedTurn); any other freezes the device
(R301). -/
def execMachineCheck (w : ErrorPlace) (s : State) : Host.Outcome State Fault Refusal :=
  .next (match w with
    | .readBy r => s.checkReader r
    | .restoring gid => if (s.grid gid).isSome then (s.recordCheck 2).checkGrid gid 0 0 0 else s
    | .noReader line => { s.recordCheck 3 with bad := s.bad ++ (lineBytes line).filter fun a => !s.bad.contains a }
    | .unattributed => (s.recordCheck 4).freeze)

/-! ### Freezing (R357) -/

/-- FREEZE 1: every core stops (R357). -/
def execFreeze (s : State) : Host.Outcome State Fault Refusal := .next s.freeze

/-- The resident clusters with the numbers of their anchor quads, in the order of these. -/
def State.residentOrder (s : State) : List (Nat × Nat) :=
  ((List.range 384).flatMap fun n => s.clusters.filterMap fun p =>
    if p.2.place.map quadNum = some n then some (n, p.1) else none)

/-- FREEZE 2 is over: every resident cluster is saved, or the pool has no room for the rest (R259, R357). -/
def State.saveEnds (s : State) (all : Bool) : State :=
  { s with saving := false, bar0 := { s.bar0 with frzstat := if all then 2 else 6 } }

/-- Resident clusters saved in ascending slot order: until one does not yet stand where it can be saved, or the pool is full
(R257, R259, R357, log 73). -/
def State.saveAll (s : State) : List (Nat × Nat) → State
  | [] => s.saveEnds true
  | (_, cid) :: rest =>
    match s.cluster cid, s.gridOf cid with
    | some c, some g =>
      if !s.poolRoom g.launch then (s.refuseSave c).saveEnds false
      else if !s.stoppable cid c then s
      else ((s.saveCluster cid c g.launch).settlePreempt g.node.slot.val).saveAll rest
    | _, _ => s.saveAll rest

/-- FREEZE 2: the device freezes, and its resident clusters are saved, each as soon as it stands where it can be (R357). -/
def State.freezeSave (s : State) : State :=
  let s := { s.freeze with saving := true }
  s.saveAll s.residentOrder

/-- FREEZE_SAVE_ALL: FREEZE 2, and each further part of it (R257, R259, R357). -/
def execFreezeSaveAll (s : State) : Host.Outcome State Fault Refusal := .next s.freezeSave

/-- FREEZE 3: the device goes on; saved clusters resume as CLUSTER_RESUME lets them (R357). -/
def State.thaw (s : State) : State := { s with frozen := false, saving := false, bar0 := { s.bar0 with frzstat := 0 } }

/-- FREEZE_RESUME (R357). -/
def execFreezeResume (s : State) : Host.Outcome State Fault Refusal := .next s.thaw

end Sys2Proof.Machine
end

