-- ==== Sys2Proof/Machine/Crypto.lean ====
section
/-! DEFINITION. What the boot ROM and the identity key compute: SHA-384 (FIPS 180-4), ECDSA over brainpoolP384r1 (RFC 5639,
FIPS 186-4), the firmware image in the flash (R1, R11, R355, log 71); and the packed table image with its digest (R211). -/

namespace Sys2Proof.Machine

open Sys2Proof

/-! ### SHA-384 -/

/-- n bytes of a number, the most significant first. -/
def toBytesBE (n x : Nat) : List Byte := (toBytesLE n x).reverse

/-- The number of bytes, the most significant first. -/
def ofBytesBE (bs : List Byte) : Nat := ofBytesLE bs.reverse

/-- Round constants 0 to 19. -/
def shaK0 : List DWord :=
  [0x428A2F98D728AE22, 0x7137449123EF65CD, 0xB5C0FBCFEC4D3B2F, 0xE9B5DBA58189DBBC, 0x3956C25BF348B538,
   0x59F111F1B605D019, 0x923F82A4AF194F9B, 0xAB1C5ED5DA6D8118, 0xD807AA98A3030242, 0x12835B0145706FBE,
   0x243185BE4EE4B28C, 0x550C7DC3D5FFB4E2, 0x72BE5D74F27B896F, 0x80DEB1FE3B1696B1, 0x9BDC06A725C71235,
   0xC19BF174CF692694, 0xE49B69C19EF14AD2, 0xEFBE4786384F25E3, 0x0FC19DC68B8CD5B5, 0x240CA1CC77AC9C65]

/-- Round constants 20 to 39. -/
def shaK1 : List DWord :=
  [0x2DE92C6F592B0275, 0x4A7484AA6EA6E483, 0x5CB0A9DCBD41FBD4, 0x76F988DA831153B5, 0x983E5152EE66DFAB,
   0xA831C66D2DB43210, 0xB00327C898FB213F, 0xBF597FC7BEEF0EE4, 0xC6E00BF33DA88FC2, 0xD5A79147930AA725,
   0x06CA6351E003826F, 0x142929670A0E6E70, 0x27B70A8546D22FFC, 0x2E1B21385C26C926, 0x4D2C6DFC5AC42AED,
   0x53380D139D95B3DF, 0x650A73548BAF63DE, 0x766A0ABB3C77B2A8, 0x81C2C92E47EDAEE6, 0x92722C851482353B]

/-- Round constants 40 to 59. -/
def shaK2 : List DWord :=
  [0xA2BFE8A14CF10364, 0xA81A664BBC423001, 0xC24B8B70D0F89791, 0xC76C51A30654BE30, 0xD192E819D6EF5218,
   0xD69906245565A910, 0xF40E35855771202A, 0x106AA07032BBD1B8, 0x19A4C116B8D2D0C8, 0x1E376C085141AB53,
   0x2748774CDF8EEB99, 0x34B0BCB5E19B48A8, 0x391C0CB3C5C95A63, 0x4ED8AA4AE3418ACB, 0x5B9CCA4F7763E373,
   0x682E6FF3D6B2B8A3, 0x748F82EE5DEFB2FC, 0x78A5636F43172F60, 0x84C87814A1F0AB72, 0x8CC702081A6439EC]

/-- Round constants 60 to 79. -/
def shaK3 : List DWord :=
  [0x90BEFFFA23631E28, 0xA4506CEBDE82BDE9, 0xBEF9A3F7B2C67915, 0xC67178F2E372532B, 0xCA273ECEEA26619C,
   0xD186B8C721C0C207, 0xEADA7DD6CDE0EB1E, 0xF57D4F7FEE6ED178, 0x06F067AA72176FBA, 0x0A637DC5A2C898A6,
   0x113F9804BEF90DAE, 0x1B710B35131C471B, 0x28DB77F523047D84, 0x32CAAB7B40C72493, 0x3C9EBE0A15C9BEBC,
   0x431D67C49C100D4C, 0x4CC5D4BECB3E42B6, 0x597F299CFC657E2A, 0x5FCB6FAB3AD6FAEC, 0x6C44198C4A475817]

/-- The round constants. -/
def shaK : List DWord := shaK0 ++ shaK1 ++ shaK2 ++ shaK3

/-- The initial hash value. -/
def shaInit : List DWord :=
  [0xCBBB9D5DC1059ED8, 0x629A292A367CD507, 0x9159015A3070DD17, 0x152FECD8F70E5939, 0x67332667FFC00B31,
   0x8EB44A8768581511, 0xDB0C2E0D64F98FA7, 0x47B5481DBEFA4FA4]

/-- A 64-bit word rotated right. -/
def rotr (x : DWord) (n : Nat) : DWord := (x >>> n) ||| (x <<< (64 - n))

/-- n further words of the message schedule, the words so far standing in reverse order. -/
def shaSchedule : Nat → List DWord → List DWord
  | 0, ws => ws
  | n + 1, ws =>
    let a := ws.getD 14 0
    let b := ws.getD 1 0
    let s0 := rotr a 1 ^^^ rotr a 8 ^^^ (a >>> 7)
    let s1 := rotr b 19 ^^^ rotr b 61 ^^^ (b >>> 6)
    shaSchedule n ((ws.getD 15 0 + s0 + ws.getD 6 0 + s1) :: ws)

/-- The eight working variables. -/
structure ShaVars where
  a : DWord
  b : DWord
  c : DWord
  d : DWord
  e : DWord
  f : DWord
  g : DWord
  h : DWord
  deriving DecidableEq, Repr

/-- One round with a schedule word and its constant. -/
def ShaVars.round (v : ShaVars) (w k : DWord) : ShaVars :=
  let s1 := rotr v.e 14 ^^^ rotr v.e 18 ^^^ rotr v.e 41
  let ch := (v.e &&& v.f) ^^^ (~~~v.e &&& v.g)
  let t1 := v.h + s1 + ch + k + w
  let s0 := rotr v.a 28 ^^^ rotr v.a 34 ^^^ rotr v.a 39
  let mj := (v.a &&& v.b) ^^^ (v.a &&& v.c) ^^^ (v.b &&& v.c)
  ⟨t1 + s0 + mj, v.a, v.b, v.c, v.d + t1, v.e, v.f, v.g⟩

/-- The variables of a hash value. -/
def shaVars (h : List DWord) : ShaVars :=
  ⟨h.getD 0 0, h.getD 1 0, h.getD 2 0, h.getD 3 0, h.getD 4 0, h.getD 5 0, h.getD 6 0, h.getD 7 0⟩

/-- One block of 16 words folded into a hash value. -/
def shaBlock (h ws : List DWord) : List DWord :=
  let v := ((shaSchedule 64 ws.reverse).reverse.zip shaK).foldl (fun v p => v.round p.1 p.2) (shaVars h)
  List.zipWith (fun x y => x + y) h [v.a, v.b, v.c, v.d, v.e, v.f, v.g, v.h]

/-- n words of 8 bytes. -/
def shaWords : Nat → List Byte → List DWord
  | 0, _ => []
  | n + 1, bs => BitVec.ofNat 64 (ofBytesBE (bs.take 8)) :: shaWords n (bs.drop 8)

/-- n blocks of 128 bytes folded into a hash value. -/
def shaBlocks (h : List DWord) : Nat → List Byte → List DWord
  | 0, _ => h
  | n + 1, bs => shaBlocks (shaBlock h (shaWords 16 bs)) n (bs.drop 128)

/-- A message with its padding: a bit 1, zeros, and its length in bits. -/
def shaPad (m : List Byte) : List Byte :=
  m ++ [0x80] ++ List.replicate ((239 - m.length % 128) % 128) 0 ++ toBytesBE 16 (8 * m.length)

/-- SHA-384. -/
def sha384 (m : List Byte) : List Byte :=
  let p := shaPad m
  ((shaBlocks shaInit (p.length / 128) p).take 6).flatMap fun w => toBytesBE 8 w.toNat

/-! ### brainpoolP384r1 -/

/-- The prime of the field. -/
def curveP : Nat :=
  0x8CB91E82A3386D280F5D6F7E50E641DF152F7109ED5456B412B1DA197FB71123ACD3A729901D1A71874700133107EC53

/-- Coefficient A. -/
def curveA : Nat :=
  0x7BC382C63D8C150C3C72080ACE05AFA0C2BEA28E4FB22787139165EFBA91F90F8AA5814A503AD4EB04A8C7DD22CE2826

/-- The generator, x. -/
def curveGx : Nat :=
  0x1D1C64F068CF45FFA2A63A81B7C13F6B8847A3E77EF14FE3DB7FCAFE0CBD10E8E826E03436D646AAEF87B2E247D4AF1E

/-- The generator, y. -/
def curveGy : Nat :=
  0x8ABE1D7520F9C2A45CB1EB8E95CFD55262B70B29FEEC5864E19C054FF99129280E4646217791811142820341263C5315

/-- The order of the group. -/
def curveQ : Nat :=
  0x8CB91E82A3386D280F5D6F7E50E641DF152F7109ED5456B31F166E6CAC0425A7CF3AB6AF6B7FC3103B883202E9046565

/-- x to the power of the low n bits of e, modulo m. -/
def powMod (m x e : Nat) : Nat → Nat
  | 0 => 1
  | n + 1 =>
    let r := powMod m (x * x % m) (e / 2) n
    if e % 2 = 1 then x * r % m else r

/-- The inverse modulo a prime of 384 bits. -/
def invMod (m x : Nat) : Nat := powMod m (x % m) (m - 2) 384

/-- x − y modulo m. -/
def subMod (m x y : Nat) : Nat := (x % m + (m - y % m)) % m

/-- A point of the curve; none is the point at infinity. -/
abbrev Point := Option (Nat × Nat)

/-- The third point of a line of slope l through a and b, mirrored. -/
def pointOn (l : Nat) (a b : Nat × Nat) : Point :=
  let x := subMod curveP (l * l) (a.1 + b.1)
  some (x, subMod curveP (l * subMod curveP a.1 x) a.2)

/-- The sum of two points. -/
def Point.add (a b : Point) : Point :=
  match a, b with
  | none, b => b
  | a, none => a
  | some a, some b =>
    if a.1 = b.1 then
      if (a.2 + b.2) % curveP = 0 then none
      else pointOn ((3 * a.1 * a.1 + curveA) * invMod curveP (2 * a.2) % curveP) a b
    else pointOn (subMod curveP b.2 a.2 * invMod curveP (subMod curveP b.1 a.1) % curveP) a b

/-- A point times the low n bits of k. -/
def Point.mul (a : Point) (k : Nat) : Nat → Point
  | 0 => none
  | n + 1 =>
    let r := (a.add a).mul (k / 2) n
    if k % 2 = 1 then a.add r else r

/-- The generator. -/
def generator : Point := some (curveGx, curveGy)

/-- Whether a pair (r, s) signs a digest under a public key. -/
def ecdsaVerify (key : Nat × Nat) (digest : List Byte) (r s : Nat) : Bool :=
  let w := invMod curveQ s
  let u := ofBytesBE digest * w % curveQ
  let v := r * w % curveQ
  decide (0 < r) && decide (r < curveQ) && decide (0 < s) && decide (s < curveQ)
    && (match (generator.mul u 384).add (Point.mul (some key) v 384) with
      | none => false
      | some x => x.1 % curveQ == r)

/-- The pair (r, s) with which a private key signs a digest, with an ephemeral number. -/
def ecdsaSign (key nonce : Nat) (digest : List Byte) : Nat × Nat :=
  let r := ((generator.mul nonce 384).map fun x => x.1 % curveQ).getD 0
  (r, invMod curveQ nonce * ((ofBytesBE digest + r * key) % curveQ) % curveQ)

/-! ### The firmware image (R1, R355) -/

/-- The bytes of the flash. -/
def flashBytes : Nat := 0x4000000

/-- n bytes of the flash from an offset; nothing lies beyond its end. -/
def flashRead (off n : Nat) : List Byte := (List.range (min n (flashBytes - off))).map fun i => Config.flash (off + i)

/-- The signed bytes of the image. -/
def firmwareImage : List Byte := flashRead Config.imageSpan.1 Config.imageSpan.2

/-- SHA-384 of the image. -/
def firmwareHash : List Byte := sha384 firmwareImage

/-- The version of the image. -/
def imageVersion : BitVec 16 := BitVec.ofNat 16 (ofBytesLE (flashRead Config.versionAt 2))

/-- The public firmware key that stands in the flash. -/
def firmwareKey : List Byte := flashRead Config.keyAt 96

/-- Whether the image's signature verifies against the firmware key whose SHA-384 is fused. -/
def signatureOk : Bool :=
  let sig := flashRead Config.signatureAt 96
  sha384 firmwareKey == Config.firmwareKeyHash
    && ecdsaVerify (ofBytesBE (firmwareKey.take 48), ofBytesBE (firmwareKey.drop 48)) firmwareHash
      (ofBytesBE (sig.take 48)) (ofBytesBE (sig.drop 48))

/-- SHA-384 of the configuration. -/
def configHash : List Byte := sha384 Config.configuration

/-- The signature of bytes with the identity key, at a moment: r, then s. -/
def identitySign (tick : Nat) (bs : List Byte) : List Byte :=
  let sig := ecdsaSign Config.identityKey (Config.signNonce tick) (sha384 bs)
  toBytesBE 48 sig.1 ++ toBytesBE 48 sig.2

/-! ### The packed table image (R211) -/

/-- A coefficient as a little-endian 64-bit two's-complement integer. -/
def coefBytes (x : Int) : List Byte := toBytesLE 8 (x % 2 ^ 64).toNat

/-- n rows of a table from row 0 up. -/
def rowBytes (t : Tab) (n : Nat) : List Byte :=
  (List.range n).flatMap fun j => coefBytes (tabRow t j).cf0 ++ coefBytes (tabRow t j).cf1 ++ coefBytes (tabRow t j).cf2

/-- The packed table image: SB, DB, LG, EX. -/
def tabImage : List Byte := rowBytes .sb 1536 ++ rowBytes .db 1536 ++ rowBytes .lg 64 ++ rowBytes .ex 64

/-- The digest of the packed table image. -/
def tabDigest : List Byte := sha384 tabImage

/-- The digest that R211 prints; the image that the rules of R207 and R208 give has another (log 10). -/
def printedDigest : List Byte :=
  toBytesBE 48 0x7A1C93E40B5D62F8C4E0197A3F82D6B19E47A05C12D8F3B66B0E4A97D35C81F248A9E60DF1B27C350C6D9A48E2573BF0

end Sys2Proof.Machine
end

