-- ==== Sys2Proof/Machine/HostPort.lean ====
section
/-! DEFINITION. The host's side: control registers, doorbell, pre-emption and invalidation requests, accesses to device
memory, attestation, resets, links, power, and prefetches of the hardware (R141, R292, R348 to R358). -/

namespace Sys2Proof.Machine

open Sys2Proof

/-! ### Requests of the host (R256, R350, R351) -/

/-- A pre-emption request for one slot's graph: it names the clusters of it that are resident; with none, there is nothing to
stop (R256, R351, log 75). -/
def State.preemptSlot (s : State) (slot : Nat) : State :=
  let mine (c : Cluster) : Bool :=
    c.place.isSome && ((s.grid c.grid).map fun g : Grid => g.node.slot.val == slot).getD false
  if s.clusters.any fun p => mine p.2 then
    let name (c : Cluster) : Cluster := if mine c then { c with spared := false } else c
    ({ s with clusters := s.clusters.map fun (p : Nat × Cluster) => (p.1, name p.2) }).modSlot slot fun x =>
      { x with preempt := true }
  else s

/-- A write of PREEMPT: one slot's graph, or all (R351). -/
def State.requestPreempt (s : State) (v : DWord) : State :=
  ((List.range 8).filter fun n => v.getLsbD 8 || n == (slice v 0 3).toNat).foldl (fun (s : State) n => s.preemptSlot n) s

/-- PREEMPT (R351). -/
def execPreempt (v : DWord) (s : State) : Host.Outcome State Fault Refusal := .next (s.requestPreempt v)

/-- The host's invalidation of [INVSTART, INVSTART + v): misaligned values are ignored (R350). -/
def State.hostInvalidate (s : State) (v : DWord) : State :=
  let lo := s.bar0.invstart.toNat
  if lo % 2 ^ 14 ≠ 0 ∨ v.toNat % 2 ^ 14 ≠ 0 then { s with bar0 := { s.bar0 with invstat := s.bar0.invstat ||| 2 } }
  else
    let (_, s) := s.beginSweep (lo % 2 ^ 56) (lo % 2 ^ 56 + v.toNat) true false []
    { s with bar0 := { s.bar0 with invstat := 1 } }

/-- INVLEN (R350). -/
def execInvlen (v : DWord) (s : State) : Host.Outcome State Fault Refusal := .next (s.hostInvalidate v)

/-! ### Boot, reset and power (R355, R357, R358) -/

/-- FIRMWARE_BOOT: the boot ROM verifies the image against its signature and the anti-rollback counter, and starts it or
rejects it (R355). -/
def State.boot (s : State) : State :=
  let ok := signatureOk && decide (Config.rollbackCounter.toNat ≤ imageVersion.toNat)
  let fw : DWord := (if ok then 1 else 2) ||| (imageVersion.zeroExtend 64 <<< 16)
  ({ s with bar0 := { s.bar0 with fwstat := fw } }).record 12 0 0 (fw.zeroExtend 128)

/-- The cells of host memory. -/
def hostCells (m : List Host.Cell) : List Host.Cell := m.filter fun c => decide (2 ^ 47 ≤ c.1)

/-- COLD_RESET: everything is reset, the black box is empty, and the firmware boots; host memory is the host's (R358). -/
def execColdReset (s : State) : Host.Outcome State Fault Refusal :=
  .next ({ State.reset with mem := hostCells s.mem, tick := s.tick, nextId := s.nextId, agenda := s.agenda }).boot

/-- Every owned line back at its home. -/
def State.recallAll (s : State) : State :=
  (s.cores.flatMap fun p => p.2.l1.map fun q => q.1).foldl (fun (s : State) line => s.recall line) s

/-- A warm reset: grids, slots, rings, counters and BAR0 registers are reset, the firmware is verified again; memory and
the black box stay (R358). -/
def State.warmReset (s : State) : State :=
  ({ State.reset with mem := s.recallAll.mem, bad := s.bad, blackbox := s.blackbox, bbSeq := s.bbSeq, throttled := s.throttled,
                      tick := s.tick, nextId := s.nextId, agenda := s.agenda }).boot

/-- WARM_RESET (R358). -/
def execWarmReset (s : State) : Host.Outcome State Fault Refusal := due s.powered s s.warmReset

/-- POWER_REMOVED: nothing of the device is left; host memory is the host's (R358). -/
def execPowerRemoved (s : State) : Host.Outcome State Fault Refusal :=
  .next { State.reset with powered := false, mem := hostCells s.mem, tick := s.tick, nextId := s.nextId, agenda := s.agenda }

/-- THROTTLE: an episode of issue bubbles starts or ends, and is recorded (R357). -/
def execThrottle (on : Bool) (s : State) : Host.Outcome State Fault Refusal :=
  due (s.powered && s.throttled != on) s (({ s with throttled := on }).record 10 0 0 (if on then 1 else 0))

/-- THERMAL_TRIP: the device freezes, and the regulators remove core power (R357). -/
def execThermalTrip (s : State) : Host.Outcome State Fault Refusal :=
  due s.powered s { (s.record 11 0 0 0).freeze with powered := false }

/-- The port through which a device's requests leave (R353). -/
def State.routePort (s : State) (dev : Nat) : Nat := field (s.tableEntry (s.bar0.peertab.toNat + 16 * dev + 8)) 2 0

/-- LINK_RETRAIN: no completion of what is in flight on a port will come, so that it times out; no state is lost (R299,
R358). -/
def execLinkRetrain (port : Fin 5) (s : State) : Host.Outcome State Fault Refusal :=
  let lost (r : Req) : Req :=
    if r.stage == .atPeer && s.routePort (r.peer.getD 0) == port.val then { r with retrained := true } else r
  .next { s with reqs := s.reqs.map lost }

/-! ### Attestation (R355) -/

/-- n bytes of a list, filled up with 0. -/
def fit (n : Nat) (bs : List Byte) : List Byte := (bs ++ List.replicate n 0).take n

/-- The signed part of a report: version and length, nonce, hashes, counter and firmware version. -/
def State.reportBody (s : State) : List Byte :=
  toBytesLE 8 (1 + 0x100 * 2 ^ 16) ++ fit 48 s.bar0.nonce ++ fit 48 firmwareHash ++ fit 48 configHash
    ++ toBytesLE 4 Config.rollbackCounter.toNat ++ toBytesLE 4 imageVersion.toNat

/-- A report with its signature, and the certificate behind it. -/
def State.attest (s : State) : State :=
  let body := s.reportBody
  let report := fit 0x100 (body ++ fit 96 (identitySign s.tick body)) ++ fit 0x300 Config.certificate
  { s with bar0 := { s.bar0 with attReady := true, attReport := report } }

/-- ATTREQ (R355); while the firmware is not running a write does nothing, the model's choice (log 96). -/
def execAttreq (s : State) : Host.Outcome State Fault Refusal := due (s.powered && slice s.bar0.fwstat 0 2 == 1) s s.attest

/-! ### Control registers (R350) -/

/-- Eight bytes of the nonce from an offset replaced. -/
def putNonce (nonce : List Byte) (off : Nat) (v : DWord) : List Byte :=
  let n := fit 48 nonce
  n.take off ++ toBytesLE 8 v.toNat ++ n.drop (off + 8)

/-- A register that holds what is written to it; the other offsets are ignored here (R350). -/
def Bar0.write (b : Bar0) (off : Nat) (v : DWord) : Bar0 :=
  if off = 0x0010 then { b with devnum := v &&& 0x80003FFF }
  else if off = 0x0018 then { b with ptroot := v }
  else if off = 0x0020 then { b with ctxbase := v }
  else if off = 0x0028 then { b with ctxsize := v }
  else if off = 0x0030 then { b with peertab := v }
  else if off = 0x0038 then { b with inbound := v }
  else if off = 0x0040 then { b with peerto := if v.toNat < 1300 then 1300 else v }
  else if off = 0x0048 then { b with evbase := v }
  else if off = 0x0050 then { b with evctl := v &&& 0x8000001F }
  else if off = 0x0058 then { b with evhead := v }
  else if 0x0100 ≤ off ∧ off < 0x0140 ∧ off % 8 = 0 then { b with slots := modAt b.slots ((off - 0x0100) / 8) fun _ => v }
  else if off = 0x0158 then { b with invstart := v }
  else if 0x0200 ≤ off ∧ off < 0x0230 ∧ off % 8 = 0 then { b with nonce := putNonce b.nonce (off - 0x0200) v }
  else b

/-- What a control register reads (R350); undefined offsets read 0. -/
def State.registerRead (s : State) (off : Nat) : DWord :=
  let b := s.bar0
  if off = 0x0000 then 0x00010009
  else if off = 0x0008 then b.fwstat
  else if off = 0x0010 then b.devnum
  else if off = 0x0018 then b.ptroot
  else if off = 0x0020 then b.ctxbase
  else if off = 0x0028 then b.ctxsize
  else if off = 0x0030 then b.peertab
  else if off = 0x0038 then b.inbound
  else if off = 0x0040 then b.peerto
  else if off = 0x0048 then b.evbase
  else if off = 0x0050 then b.evctl
  else if off = 0x0058 then b.evhead
  else if off = 0x0060 then b.evtail
  else if off = 0x0068 then b.evdrop
  else if 0x0100 ≤ off ∧ off < 0x0140 ∧ off % 8 = 0 then b.slots.getD ((off - 0x0100) / 8) 0
  else if off = 0x0148 then BitVec.ofNat 64 (b.slotstat.zipIdx.foldl (fun n p => n + p.1.toNat * 16 ^ p.2) 0)
  else if off = 0x0158 then b.invstart
  else if off = 0x0168 then b.invstat.zeroExtend 64
  else if off = 0x0188 then b.frzstat.zeroExtend 64
  else if off = 0x0238 then (if b.attReady then 1 else 0)
  else if off = 0x0300 then b.temp
  else if off = 0x0308 then b.current
  else if off = 0x0310 then b.cec
  else if off = 0x0318 then b.uec
  else if off = 0x0320 ∨ off = 0x0328 then BitVec.ofNat 64 (ofBytesLE ((b.lasterr.drop (off - 0x0320)).take 8))
  else if 0x1000 ≤ off ∧ off < 0x1400 ∧ off % 8 = 0 then
    BitVec.ofNat 64 (ofBytesLE ((b.attReport.drop (off - 0x1000)).take 8))
  else 0

/-- A host write of a control register: a command register acts, another holds the value (R350). -/
def State.registerWrite (s : State) (off : Nat) (v : DWord) : State :=
  if off = 0x0140 then s.ringDoorbell (slice v 0 3).toNat
  else if off = 0x0150 then s.requestPreempt v
  else if off = 0x0160 then s.hostInvalidate v
  else if off = 0x0180 then
    (match v.toNat with
      | 1 => s.freeze
      | 2 => s.freezeSave
      | 3 => s.thaw
      | _ => s)
  else if off = 0x0230 then (if slice s.bar0.fwstat 0 2 = 1 then s.attest else s)
  else if off = 0x0340 then (if v = 1 then s.warmReset else s)
  else { s with bar0 := s.bar0.write off v }

/-- REGISTER_WRITE (R350). -/
def execRegisterWrite (off : Nat) (v : DWord) (s : State) : Host.Outcome State Fault Refusal :=
  due s.powered s (s.registerWrite off v)

/-! ### Host accesses (R349) -/

/-- Whether a host access reaches memory: device memory through BAR2, or host memory, which the host's own processors
access. -/
def hostReaches (pa n : Nat) : Bool := decide (pa + n ≤ deviceBytes) || (decide (2 ^ 47 ≤ pa) && decide (pa + n ≤ 2 ^ 48))

/-- HOST_ACCESS: a plain access at the line's home, not translated; another offset completes with Unsupported Request
(R349). It comes between no two requests of one batch (R131, log 69). -/
def execHostAccess (a : HostMove) (s : State) : Host.Outcome State Fault Refusal :=
  .next (match a with
    | .read off n => if s.powered && s.unsplit && hostReaches off n then s.recallRange off n else s
    | .write off d => if s.powered && s.unsplit && hostReaches off d.length then s.homeWrite off (d.map MByte.whole) else s)

/-! ### The black-box window (R349, R356) -/

/-- The 32 bytes of a record. -/
def BlackRecord.bytes (r : BlackRecord) : List Byte :=
  toBytesLE 8 r.seq.toNat ++ [r.kind, r.cause] ++ toBytesLE 2 r.unit.toNat ++ toBytesLE 4 r.cycle.toNat
    ++ toBytesLE 16 r.detail.toNat

/-- The records of the ring. -/
def ringRecords : Nat := 2048

/-- The 32 bytes of a place of the ring: a record stands where its SEQ puts it, each new one over the oldest, and an empty
record holds SEQ 0 (log 74). -/
def State.ringPlace (s : State) (n : Nat) : List Byte :=
  ((s.blackbox.find? fun r => (r.seq.toNat + ringRecords - 1) % ringRecords == n).map BlackRecord.bytes).getD
    (List.replicate 32 0)

/-- What a read of n bytes of BAR4 from an offset returns; it changes nothing, and the device may be frozen (R349, R356). -/
def State.bar4 (s : State) (off n : Nat) : List Byte :=
  (List.range n).map fun i => (s.ringPlace ((off + i) / 32 % ringRecords)).getD ((off + i) % 32) 0

/-! ### Prefetches of the hardware (R141, R292) -/

/-- The L1 that serves a line for the team on a core. -/
def State.l1At (s : State) (core line : Nat) : Nat :=
  match s.clusters.find? fun p => (s.coresOf p.1).contains core with
  | some (cid, _) => if s.fused cid then (s.coresOf cid).getD (line % (s.coresOf cid).length) core else core
  | none => core

/-- HARDWARE_PREFETCH: a line is read ahead; a page that is unmapped, not resident or a peer's drops the read, counted
(R141, R292). -/
def execHardwarePrefetch (core va : Nat) (fill : Bool) (s : State) : Host.Outcome State Fault Refusal :=
  let w := s.freshWalk va
  let (s, page) := match cachedFor (s.core core).tlb anyPage va false with
    | some p => (s, some p)
    | none =>
      match w.out with
      | .mapped p => (s.walked w, some p)
      | _ => (s.walked w, none)
  .next (match page with
    | none => s.countCore core 4 1
    | some p =>
      if p.peer.isSome || (fill && s.lineSplit (lineOf (p.pa va))) then s.countCore core 4 1
      else if fill && !p.noL1 then (s.recall (lineOf (p.pa va))).refresh (s.l1At core (lineOf (p.pa va))) (lineOf (p.pa va)) true
      else s)

end Sys2Proof.Machine
end

