-- ==== Sys2Proof/Machine/Packed.lean ====
section
/-! DEFINITION. The packed-integer, byte and hashing instructions (R79 to R85). -/

namespace Sys2Proof.Machine

open Sys2Proof

/-- Element i of n-bit elements, as an integer. -/
def elem (n : Nat) (signed : Bool) (x : Word) (i : Nat) : Int :=
  if signed then sextNat n (bitsAt x.toNat (n * i) n) else bitsAt x.toNat (n * i) n

/-- A register from its elements, element 0 lowest, each wrapped to n bits. -/
def packElems (n : Nat) : List Int → Nat
  | [] => 0
  | x :: xs => (x % (2 ^ n : Int)).toNat + 2 ^ n * packElems n xs

/-- Elements finished as R79 says: wrapped, or clamped signed or unsigned with SAT set once. -/
def packedFinish (n : Nat) (v : BitVec 4) (xs : List Int) : Word × Word :=
  if v = 0 then (BitVec.ofNat 32 (packElems n xs), 0)
  else
    let ys := xs.map fun x => if v = 1 then satS n x else satU n x
    (BitVec.ofNat 32 (packElems n ys), if ys = xs then 0 else flagSAT)

/-- A packed operation of two operands on elements of n bits (R79). -/
def packed2 (n : Nat) (op : Int → Int → Int) (v : BitVec 4) (d a : Code) (b : SrcB) (s : State) (t : Thread) : Eff :=
  let x := s.reg32 t a
  let y := s.b32 t b
  let sg := v != 2
  let r := packedFinish n v ((List.range (32 / n)).map fun i => op (elem n sg x i) (elem n sg y i))
  { regs := [.r32 d r.1], flags := r.2 }

/-- PADD2 (R79). -/
def execPadd2 (h : Hd) (v : BitVec 4) (d a : Code) (b : SrcB) (s : State) : Result :=
  alu (.padd2 h v d a b) (packed2 16 (· + ·) v d a b) s

/-- PSUB2 (R79). -/
def execPsub2 (h : Hd) (v : BitVec 4) (d a : Code) (b : SrcB) (s : State) : Result :=
  alu (.psub2 h v d a b) (packed2 16 (· - ·) v d a b) s

/-- PMUL2 (R79). -/
def execPmul2 (h : Hd) (v : BitVec 4) (d a : Code) (b : SrcB) (s : State) : Result :=
  alu (.pmul2 h v d a b) (packed2 16 (· * ·) v d a b) s

/-- PADD4 (R79). -/
def execPadd4 (h : Hd) (v : BitVec 4) (d a : Code) (b : SrcB) (s : State) : Result :=
  alu (.padd4 h v d a b) (packed2 8 (· + ·) v d a b) s

/-- A selection between halves (R79). -/
def packedPick (op : Int → Int → Int) (v : BitVec 4) (d a : Code) (b : SrcB) (s : State) (t : Thread) : Eff :=
  let sg := v == 0
  { regs := [.r32 d (BitVec.ofNat 32 (packElems 16 ((List.range 2).map fun i =>
      op (elem 16 sg (s.reg32 t a) i) (elem 16 sg (s.b32 t b) i))))] }

/-- PMIN2 (R79). -/
def execPmin2 (h : Hd) (v : BitVec 4) (d a : Code) (b : SrcB) (s : State) : Result :=
  alu (.pmin2 h v d a b) (packedPick (fun x y => if y < x then y else x) v d a b) s

/-- PMAX2 (R79). -/
def execPmax2 (h : Hd) (v : BitVec 4) (d a : Code) (b : SrcB) (s : State) : Result :=
  alu (.pmax2 h v d a b) (packedPick (fun x y => if x < y then y else x) v d a b) s

/-- PCMP2: 0xFFFF where the comparison holds (R79). -/
def execPcmp2 (h : Hd) (v : BitVec 4) (d a : Code) (b : SrcB) (s : State) : Result :=
  alu (.pcmp2 h v d a b)
    (fun s t =>
      let sg := v != 3 && v != 4
      { regs := [.r32 d (BitVec.ofNat 32 (packElems 16 ((List.range 2).map fun i =>
          let x := elem 16 sg (s.reg32 t a) i
          let y := elem 16 sg (s.b32 t b) i
          if (match v.toNat with
              | 0 => x == y
              | 1 => decide (x < y)
              | 2 => decide (x ≤ y)
              | 3 => decide (x < y)
              | 4 => decide (x ≤ y)
              | _ => x != y) then 0xFFFF else 0)))] }) s

/-- PMAC2: one exact sum, saturated once (R80). -/
def execPmac2 (h : Hd) (d a : Code) (b : SrcB) (s : State) : Result :=
  alu (.pmac2 h d a b)
    (fun s t =>
      let x := s.reg32 t a
      let y := s.b32 t b
      let e := (s.reg32 t d).toInt + elem 16 true x 0 * elem 16 true y 0 + elem 16 true x 1 * elem 16 true y 1
      { regs := [.r32 d (BitVec.ofInt 32 (satS 32 e))], flags := if satS 32 e = e then 0 else flagSAT }) s

/-- PDOT4: one exact sum, saturated once (R80). -/
def execPdot4 (h : Hd) (v : BitVec 4) (d a : Code) (b : SrcB) (s : State) : Result :=
  alu (.pdot4 h v d a b)
    (fun s t =>
      let x := s.reg32 t a
      let y := s.b32 t b
      let acc := asInt (v != 1) (s.reg32 t d)
      let e := (List.range 4).foldl (fun n i => n + elem 8 (v == 0) x i * elem 8 (v != 1) y i) acc
      let r := if v = 1 then satU 32 e else satS 32 e
      { regs := [.r32 d (BitVec.ofInt 32 r)], flags := if r = e then 0 else flagSAT }) s

/-- A rounding arithmetic shift right (R81). -/
def roundShift (x : Int) (n : Nat) : Int := if n = 0 then x else (x + 2 ^ (n - 1)) / 2 ^ n

/-- PSHR2 (R81). -/
def execPshr2 (h : Hd) (v : BitVec 4) (d a : Code) (b : SrcB) (s : State) : Result :=
  alu (.pshr2 h v d a b)
    (fun s t =>
      let n := (s.b32 t b).toNat % 16
      { regs := [.r32 d (BitVec.ofNat 32 (packElems 16 ((List.range 2).map fun i =>
          let x := elem 16 true (s.reg32 t a) i
          if v = 0 then roundShift x n else x / 2 ^ n)))] }) s

/-- PNARROW (R81). -/
def execPnarrow (h : Hd) (v : BitVec 4) (d a : Code) (b : SrcB) (s : State) : Result :=
  alu (.pnarrow h v d a b)
    (fun s t =>
      let lo := roundShift (s.reg32 t a).toInt v.toNat
      let hi := roundShift (s.b32 t b).toInt v.toNat
      { regs := [.r32 d (BitVec.ofNat 32 (packElems 16 [satS 16 lo, satS 16 hi]))],
        flags := if satS 16 lo = lo ∧ satS 16 hi = hi then 0 else flagSAT }) s

/-- PUNPK (R82). -/
def execPunpk (h : Hd) (v : BitVec 4) (d a : Code) (s : State) : Result :=
  alu (.punpk h v d a)
    (fun s t =>
      let x := s.reg32 t a
      let n := v.toNat
      let e := if n < 2 then elem 16 true x n else if n < 4 then elem 16 false x (n - 2)
        else if n < 8 then elem 8 true x (n - 4) else elem 8 false x (n - 8)
      { regs := [.r32 d (BitVec.ofInt 32 e)] }) s

/-! ### Bytes and hashing (R83 to R85) -/

/-- Byte j of a register. -/
def byteAt (x : Word) (j : Nat) : Nat := bitsAt x.toNat (8 * j) 8

/-- A byte lies in the range that b[15:8] and b[7:0] bound (R83). -/
def inByteRange (b : Word) (x : Nat) : Bool := decide (byteAt b 0 ≤ x) && decide (x ≤ byteAt b 1)

/-- BCMP (R83). -/
def execBcmp (h : Hd) (v : BitVec 4) (d a : Code) (b : SrcB) (s : State) : Result :=
  alu (.bcmp h v d a b)
    (fun s t =>
      let x := s.reg32 t a
      let y := s.b32 t b
      let hit (j : Nat) : Bool :=
        if v = 0 then byteAt x j == byteAt y j else if v = 1 then byteAt x j == byteAt y 0 else inByteRange y (byteAt x j)
      { regs := [.r32 d (maskOf ((List.range 4).filter hit))] }) s

/-- BFIND (R83). -/
def execBfind (h : Hd) (v : BitVec 4) (d a : Code) (b : SrcB) (s : State) : Result :=
  alu (.bfind h v d a b)
    (fun s t =>
      let x := s.reg32 t a
      let y := s.b32 t b
      let hit (j : Nat) : Bool := if v = 0 then byteAt x j == byteAt y 0 else inByteRange y (byteAt x j)
      { regs := [.r32 d (BitVec.ofNat 32 (((List.range 4).find? hit).getD 4))] }) s

/-- One step, or the finish, of the string hash (R84). -/
def stringHash (fin : Bool) (d a : Word) : Word :=
  if fin then
    let h := d ^^^ a
    let h := (h ^^^ (h >>> 15)) * 0xA54FB2C3
    let h := (h ^^^ (h >>> 13)) * 0x3C6EF37B
    h ^^^ (h >>> 16)
  else
    let k := ((a * 0x9B1D34C7).rotateLeft 11) * 0x5F2AE1D3
    ((d ^^^ k).rotateLeft 17) * 9 + 0x6C3A92E1

/-- BHASH (R84). -/
def execBhash (h : Hd) (v : BitVec 4) (d a : Code) (s : State) : Result :=
  alu (.bhash h v d a)
    (fun s t => { regs := [.r32 d (stringHash (v == 1) (s.reg32 t d) (s.reg32 t a))] }) s

/-- n bit steps of the reflected CRC-32C. -/
def crcBits (x : Word) : Nat → Word
  | 0 => x
  | n + 1 => crcBits (if x.getLsbD 0 then (x >>> 1) ^^^ 0x82F63B78 else x >>> 1) n

/-- The CRC-32C remainder advanced by the n low bytes of a (R85). -/
def crcBytes (d a : Word) (n : Nat) : Word :=
  (List.range n).foldl (fun d j => crcBits (d ^^^ BitVec.ofNat 32 (byteAt a j)) 8) d

/-- BCRC (R85). -/
def execBcrc (h : Hd) (v : BitVec 4) (d a : Code) (s : State) : Result :=
  alu (.bcrc h v d a)
    (fun s t =>
      { regs := [.r32 d (crcBytes (s.reg32 t d) (s.reg32 t a) (if v = 0 then 4 else v.toNat))] }) s

end Sys2Proof.Machine
end

