-- ==== Sys2Proof/Machine/Dispatch.lean ====
section
/-! DEFINITION. The meaning of every instruction and device step, one arm per constructor of Instr. -/

namespace Sys2Proof.Machine

open Sys2Proof

/-- Executes an instruction, or makes a step of the device. -/
def exec (i : Instr) (s : State) : Host.Outcome State Fault Refusal :=
  match i with
  | .nop h => Sys2Proof.Machine.execNop h s
  | .iadd h v d a b => Sys2Proof.Machine.execIadd h v d a b s
  | .isub h v d a b => Sys2Proof.Machine.execIsub h v d a b s
  | .imul h v d a b => Sys2Proof.Machine.execImul h v d a b s
  | .imulh h v d a b => Sys2Proof.Machine.execImulh h v d a b s
  | .imad h v d a b c => Sys2Proof.Machine.execImad h v d a b c s
  | .imin h v d a b => Sys2Proof.Machine.execImin h v d a b s
  | .imax h v d a b => Sys2Proof.Machine.execImax h v d a b s
  | .iabs h v d a => Sys2Proof.Machine.execIabs h v d a s
  | .ineg h v d a => Sys2Proof.Machine.execIneg h v d a s
  | .icmp h v md cd a b => Sys2Proof.Machine.execIcmp h v md cd a b s
  | .iaddc h v d a b cc => Sys2Proof.Machine.execIaddc h v d a b cc s
  | .lea h v d a b => Sys2Proof.Machine.execLea h v d a b s
  | .and h v d a b => Sys2Proof.Machine.execAnd h v d a b s
  | .or h v d a b => Sys2Proof.Machine.execOr h v d a b s
  | .xor h v d a b => Sys2Proof.Machine.execXor h v d a b s
  | .andn h v d a b => Sys2Proof.Machine.execAndn h v d a b s
  | .not h v d a => Sys2Proof.Machine.execNot h v d a s
  | .shl h v d a b => Sys2Proof.Machine.execShl h v d a b s
  | .shr h v d a b => Sys2Proof.Machine.execShr h v d a b s
  | .sar h v d a b => Sys2Proof.Machine.execSar h v d a b s
  | .rotl h v d a b => Sys2Proof.Machine.execRotl h v d a b s
  | .bfx h v d a b => Sys2Proof.Machine.execBfx h v d a b s
  | .bfi h v d a b c => Sys2Proof.Machine.execBfi h v d a b c s
  | .popc h v d a => Sys2Proof.Machine.execPopc h v d a s
  | .clz h v d a => Sys2Proof.Machine.execClz h v d a s
  | .ctz h v d a => Sys2Proof.Machine.execCtz h v d a s
  | .brev h v d a => Sys2Proof.Machine.execBrev h v d a s
  | .sel h v d a b => Sys2Proof.Machine.execSel h v d a b s
  | .mov h v d a => Sys2Proof.Machine.execMov h v d a s
  | .movi h v d k => Sys2Proof.Machine.execMovi h v d k s
  | .cbit h v cd ca cb => Sys2Proof.Machine.execCbit h v cd ca cb s
  | .padd2 h v d a b => Sys2Proof.Machine.execPadd2 h v d a b s
  | .psub2 h v d a b => Sys2Proof.Machine.execPsub2 h v d a b s
  | .pmul2 h v d a b => Sys2Proof.Machine.execPmul2 h v d a b s
  | .pmac2 h d a b => Sys2Proof.Machine.execPmac2 h d a b s
  | .pmin2 h v d a b => Sys2Proof.Machine.execPmin2 h v d a b s
  | .pmax2 h v d a b => Sys2Proof.Machine.execPmax2 h v d a b s
  | .pshr2 h v d a b => Sys2Proof.Machine.execPshr2 h v d a b s
  | .pnarrow h v d a b => Sys2Proof.Machine.execPnarrow h v d a b s
  | .punpk h v d a => Sys2Proof.Machine.execPunpk h v d a s
  | .padd4 h v d a b => Sys2Proof.Machine.execPadd4 h v d a b s
  | .pdot4 h v d a b => Sys2Proof.Machine.execPdot4 h v d a b s
  | .pcmp2 h v d a b => Sys2Proof.Machine.execPcmp2 h v d a b s
  | .bcmp h v d a b => Sys2Proof.Machine.execBcmp h v d a b s
  | .bfind h v d a b => Sys2Proof.Machine.execBfind h v d a b s
  | .bhash h v d a => Sys2Proof.Machine.execBhash h v d a s
  | .bcrc h v d a => Sys2Proof.Machine.execBcrc h v d a s
  | .shfl h v d a b dist => Sys2Proof.Machine.execShfl h v d a b dist s
  | .slide h v d a b => Sys2Proof.Machine.execSlide h v d a b s
  | .vote h v d ca => Sys2Proof.Machine.execVote h v d ca s
  | .scan h v md d a => Sys2Proof.Machine.execScan h v md d a s
  | .redux h v d a => Sys2Proof.Machine.execRedux h v d a s
  | .matchLanes h v d a => Sys2Proof.Machine.execMatchLanes h v d a s
  | .bcast h v d a => Sys2Proof.Machine.execBcast h v d a s
  | .gmov h d b => Sys2Proof.Machine.execGmov h d b s
  | .lmul h v md d a b => Sys2Proof.Machine.execLmul h v md d a b s
  | .ldiv h v md d a b => Sys2Proof.Machine.execLdiv h v md d a b s
  | .ladd h v md d a b => Sys2Proof.Machine.execLadd h v md d a b s
  | .lsub h v md d a b => Sys2Proof.Machine.execLsub h v md d a b s
  | .lmad h v md d a b c => Sys2Proof.Machine.execLmad h v md d a b c s
  | .lmsb h v md d a b c => Sys2Proof.Machine.execLmsb h v md d a b c s
  | .lsqrt h v d a => Sys2Proof.Machine.execLsqrt h v d a s
  | .lrsqrt h v md d a => Sys2Proof.Machine.execLrsqrt h v md d a s
  | .lsqr h v md d a => Sys2Proof.Machine.execLsqr h v md d a s
  | .lrcp h v md d a => Sys2Proof.Machine.execLrcp h v md d a s
  | .lpowi h v md d a b => Sys2Proof.Machine.execLpowi h v md d a b s
  | .lpowf h v md d a b => Sys2Proof.Machine.execLpowf h v md d a b s
  | .lscale h v md d a b => Sys2Proof.Machine.execLscale h v md d a b s
  | .labs h v d a => Sys2Proof.Machine.execLabs h v d a s
  | .lneg h v d a => Sys2Proof.Machine.execLneg h v d a s
  | .lmin h v d a b => Sys2Proof.Machine.execLmin h v d a b s
  | .lmax h v d a b => Sys2Proof.Machine.execLmax h v d a b s
  | .lcmp h v md cd a b => Sys2Proof.Machine.execLcmp h v md cd a b s
  | .lclass h v cd a mask => Sys2Proof.Machine.execLclass h v cd a mask s
  | .lexp2 h v md d a => Sys2Proof.Machine.execLexp2 h v md d a s
  | .llog2 h v md d a => Sys2Proof.Machine.execLlog2 h v md d a s
  | .lclamp h v d a b => Sys2Proof.Machine.execLclamp h v d a b s
  | .cvtfl h v md d a b => Sys2Proof.Machine.execCvtfl h v md d a b s
  | .cvtlf h v d a => Sys2Proof.Machine.execCvtlf h v d a s
  | .cvtil h v d a => Sys2Proof.Machine.execCvtil h v d a s
  | .cvtli h v md d a => Sys2Proof.Machine.execCvtli h v md d a s
  | .cvtll h v d a b => Sys2Proof.Machine.execCvtll h v d a b s
  | .cvtxl h v d a q => Sys2Proof.Machine.execCvtxl h v d a q s
  | .cvtlx h v md d a q => Sys2Proof.Machine.execCvtlx h v md d a q s
  | .lfld h v d a b => Sys2Proof.Machine.execLfld h v d a b s
  | .bra h disp => Sys2Proof.Machine.execBra h disp s
  | .jmp h a => Sys2Proof.Machine.execJmp h a s
  | .call h disp => Sys2Proof.Machine.execCall h disp s
  | .callr h a => Sys2Proof.Machine.execCallr h a s
  | .ret h => Sys2Proof.Machine.execRet h s
  | .exit h => Sys2Proof.Machine.execExit h s
  | .yield h => Sys2Proof.Machine.execYield h s
  | .pause h v a n => Sys2Proof.Machine.execPause h v a n s
  | .bar h v cd bar n => Sys2Proof.Machine.execBar h v cd bar n s
  | .barc h v cd bar n => Sys2Proof.Machine.execBarc h v cd bar n s
  | .twait h a tok => Sys2Proof.Machine.execTwait h a tok s
  | .tsignal h v a tok => Sys2Proof.Machine.execTsignal h v a tok s
  | .live h mask => Sys2Proof.Machine.execLive h mask s
  | .trap h k => Sys2Proof.Machine.execTrap h k s
  | .brk h k => Sys2Proof.Machine.execBrk h k s
  | .ldg h v md sc d a imm => Sys2Proof.Machine.execLdg h v md sc d a imm s
  | .ldgRc h v md sc rc d a imm => Sys2Proof.Machine.execLdgRc h v md sc rc d a imm s
  | .stg h v md sc a b imm => Sys2Proof.Machine.execStg h v md sc a b imm s
  | .lds h v md d a imm => Sys2Proof.Machine.execLds h v md d a imm s
  | .sts h v md a b imm => Sys2Proof.Machine.execSts h v md a b imm s
  | .ldc h v md d a core off => Sys2Proof.Machine.execLdc h v md d a core off s
  | .stc h v md a b core off => Sys2Proof.Machine.execStc h v md a b core off s
  | .stn h v md sc a b c imm => Sys2Proof.Machine.execStn h v md sc a b c imm s
  | .ldgu h v md sc d a imm => Sys2Proof.Machine.execLdgu h v md sc d a imm s
  | .pref h v a imm => Sys2Proof.Machine.execPref h v a imm s
  | .touch h cd a imm => Sys2Proof.Machine.execTouch h cd a imm s
  | .cctl h v a imm => Sys2Proof.Machine.execCctl h v a imm s
  | .fence h md sc => Sys2Proof.Machine.execFence h md sc s
  | .promote h v sc d a imm => Sys2Proof.Machine.execPromote h v sc d a imm s
  | .atom h v md sc d a b c imm => Sys2Proof.Machine.execAtom h v md sc d a b c imm s
  | .red h v md sc a b imm => Sys2Proof.Machine.execRed h v md sc a b imm s
  | .atoms h v md d a b c imm => Sys2Proof.Machine.execAtoms h v md d a b c imm s
  | .comb h v md sc d a b c m => Sys2Proof.Machine.execComb h v md sc d a b c m s
  | .combr h v md sc a b c m => Sys2Proof.Machine.execCombr h v md sc a b c m s
  | .objld h v d a imm => Sys2Proof.Machine.execObjld h v d a imm s
  | .objst h v a b imm => Sys2Proof.Machine.execObjst h v a b imm s
  | .reply h a => Sys2Proof.Machine.execReply h a s
  | .mabort h => Sys2Proof.Machine.execMabort h s
  | .hgcfg h a imm => Sys2Proof.Machine.execHgcfg h a imm s
  | .hgld h d a => Sys2Proof.Machine.execHgld h d a s
  | .hgscat h a b => Sys2Proof.Machine.execHgscat h a b s
  | .hgidx h v d a level corner => Sys2Proof.Machine.execHgidx h v d a level corner s
  | .cpy h q a imm => Sys2Proof.Machine.execCpy h q a imm s
  | .cpyb h q a bar n => Sys2Proof.Machine.execCpyb h q a bar n s
  | .qfence h q md mask => Sys2Proof.Machine.execQfence h q md mask s
  | .qwait h q cd => Sys2Proof.Machine.execQwait h q cd s
  | .qstat h q d => Sys2Proof.Machine.execQstat h q d s
  | .qreset h q => Sys2Proof.Machine.execQreset h q s
  | .cpyt h q a b tok => Sys2Proof.Machine.execCpyt h q a b tok s
  | .tmma h v a b c t => Sys2Proof.Machine.execTmma h v a b c t s
  | .tmmas h v a b c t => Sys2Proof.Machine.execTmmas h v a b c t s
  | .tzero h t => Sys2Proof.Machine.execTzero h t s
  | .tdrain h a b c t => Sys2Proof.Machine.execTdrain h a b c t s
  | .tdapply h a b c t => Sys2Proof.Machine.execTdapply h a b c t s
  | .tloadacc h a t => Sys2Proof.Machine.execTloadacc h a t s
  | .tamax h v d n => Sys2Proof.Machine.execTamax h v d n s
  | .tfence h t => Sys2Proof.Machine.execTfence h t s
  | .tfenceW h => Sys2Proof.Machine.execTfenceW h s
  | .evpop h d cc => Sys2Proof.Machine.execEvpop h d cc s
  | .evwait h d => Sys2Proof.Machine.execEvwait h d s
  | .ttok h v d a tok => Sys2Proof.Machine.execTtok h v d a tok s
  | .ttokClr h => Sys2Proof.Machine.execTtokClr h s
  | .flipv h a b => Sys2Proof.Machine.execFlipv h a b s
  | .dgst h d => Sys2Proof.Machine.execDgst h d s
  | .postr h a => Sys2Proof.Machine.execPostr h a s
  | .sread h v d n => Sys2Proof.Machine.execSread h v d n s
  | .swrite h a n => Sys2Proof.Machine.execSwrite h a n s
  | .rte h => Sys2Proof.Machine.execRte h s
  | .tlbinv h a b => Sys2Proof.Machine.execTlbinv h a b s
  | .pcnt h v d n => Sys2Proof.Machine.execPcnt h v d n s
  | .halt h => Sys2Proof.Machine.execHalt h s
  | .evsend h v a code => Sys2Proof.Machine.execEvsend h v a code s
  | .loadDataReturn req place => Sys2Proof.Machine.execLoadDataReturn req place s
  | .storePerform req place => Sys2Proof.Machine.execStorePerform req place s
  | .homeAtomicPerform place => Sys2Proof.Machine.execHomeAtomicPerform place s
  | .registerLineFill g line victim => Sys2Proof.Machine.execRegisterLineFill g line victim s
  | .pauseExpiry l => Sys2Proof.Machine.execPauseExpiry l s
  | .barrierArrival l => Sys2Proof.Machine.execBarrierArrival l s
  | .trapEntry g => Sys2Proof.Machine.execTrapEntry g s
  | .controlCoreTrapEntry q => Sys2Proof.Machine.execControlCoreTrapEntry q s
  | .pageWalk req => Sys2Proof.Machine.execPageWalk req s
  | .invalidationComplete id => Sys2Proof.Machine.execInvalidationComplete id s
  | .pushToHome req core => Sys2Proof.Machine.execPushToHome req core s
  | .promoteReturn req => Sys2Proof.Machine.execPromoteReturn req s
  | .lineRecall line => Sys2Proof.Machine.execLineRecall line s
  | .peerCompletion req ok data => Sys2Proof.Machine.execPeerCompletion req ok data s
  | .peerTimeout req => Sys2Proof.Machine.execPeerTimeout req s
  | .peerRequest r => Sys2Proof.Machine.execPeerRequest r s
  | .queueEntryAccept l => Sys2Proof.Machine.execQueueEntryAccept l s
  | .copyCommandStart q => Sys2Proof.Machine.execCopyCommandStart q s
  | .copyCommandEnd q => Sys2Proof.Machine.execCopyCommandEnd q s
  | .qfenceComplete q => Sys2Proof.Machine.execQfenceComplete q s
  | .taskTableEntry q => Sys2Proof.Machine.execTaskTableEntry q s
  | .taskStart q drain => Sys2Proof.Machine.execTaskStart q drain s
  | .taskFinish q task => Sys2Proof.Machine.execTaskFinish q task s
  | .taskComplete q task => Sys2Proof.Machine.execTaskComplete q task s
  | .batchAccept batch => Sys2Proof.Machine.execBatchAccept batch s
  | .gateAdmit batch => Sys2Proof.Machine.execGateAdmit batch s
  | .gateDivergence slice line => Sys2Proof.Machine.execGateDivergence slice line s
  | .waveForm slice => Sys2Proof.Machine.execWaveForm slice s
  | .waveBudgetExceeded slice => Sys2Proof.Machine.execWaveBudgetExceeded slice s
  | .waveCommit slice => Sys2Proof.Machine.execWaveCommit slice s
  | .waveFault slice => Sys2Proof.Machine.execWaveFault slice s
  | .combReply req => Sys2Proof.Machine.execCombReply req s
  | .eventRingWrite => Sys2Proof.Machine.execEventRingWrite s
  | .doorbell slot => Sys2Proof.Machine.execDoorbell slot s
  | .preempt v => Sys2Proof.Machine.execPreempt v s
  | .nodeStart n => Sys2Proof.Machine.execNodeStart n s
  | .launch n => Sys2Proof.Machine.execLaunch n s
  | .bulk n => Sys2Proof.Machine.execBulk n s
  | .flip n => Sys2Proof.Machine.execFlip n s
  | .signal n => Sys2Proof.Machine.execSignal n s
  | .waitw n => Sys2Proof.Machine.execWaitw n s
  | .waitwTimeout n => Sys2Proof.Machine.execWaitwTimeout n s
  | .branch n => Sys2Proof.Machine.execBranch n s
  | .nodeEnd n => Sys2Proof.Machine.execNodeEnd n s
  | .clusterStart grid row col => Sys2Proof.Machine.execClusterStart grid row col s
  | .clusterEnd cid => Sys2Proof.Machine.execClusterEnd cid s
  | .clusterRetire grid => Sys2Proof.Machine.execClusterRetire grid s
  | .gridAbort grid => Sys2Proof.Machine.execGridAbort grid s
  | .quantumExpiry grid => Sys2Proof.Machine.execQuantumExpiry grid s
  | .clusterPreemption cid => Sys2Proof.Machine.execClusterPreemption cid s
  | .clusterResume cid row col => Sys2Proof.Machine.execClusterResume cid row col s
  | .machineCheck w => Sys2Proof.Machine.execMachineCheck w s
  | .throttle on => Sys2Proof.Machine.execThrottle on s
  | .thermalTrip => Sys2Proof.Machine.execThermalTrip s
  | .freeze => Sys2Proof.Machine.execFreeze s
  | .freezeSaveAll => Sys2Proof.Machine.execFreezeSaveAll s
  | .freezeResume => Sys2Proof.Machine.execFreezeResume s
  | .invlen v => Sys2Proof.Machine.execInvlen v s
  | .attreq => Sys2Proof.Machine.execAttreq s
  | .registerWrite off v => Sys2Proof.Machine.execRegisterWrite off v s
  | .hostAccess a => Sys2Proof.Machine.execHostAccess a s
  | .coldReset => Sys2Proof.Machine.execColdReset s
  | .warmReset => Sys2Proof.Machine.execWarmReset s
  | .linkRetrain port => Sys2Proof.Machine.execLinkRetrain port s
  | .hardwarePrefetch core va fill => Sys2Proof.Machine.execHardwarePrefetch core va fill s
  | .powerRemoved => Sys2Proof.Machine.execPowerRemoved s

end Sys2Proof.Machine
end

