-- ==== Sys2Proof/Machine/Turns.lean ====
section
/-! DEFINITION. How each part of the device moves: issue within a group and across groups (R241 to R243, R260), control cores
and waves (R297, R310), clocks, what is read ahead (R38, R292), and what policies that programs cannot see let go (R3, R245,
R281, R289). -/

namespace Sys2Proof.Machine

open Sys2Proof

/-- What a step answers. -/
abbrev Outcome := Host.Outcome State Fault Refusal

/-- AN ISSUE: the instruction acts on the state whose cur names the issue, and cur names none afterwards. -/
def State.issue (s : State) (u : Issue) (i : Instr) : Outcome :=
  match exec i { s with cur := some u } with
  | .next t => .next { t with cur := none }
  | .fault f => .fault f
  | .refused r => .refused r

/-! ### Lanes (R241 to R243) -/

/-- The oldest of the groups, ties to the lower number (R243). -/
def oldestGroup : List (Nat × Group) → Option (Nat × Group)
  | [] => none
  | p :: ps =>
    match oldestGroup ps with
    | none => some p
    | some q => some (if p.2.lastIssue ≤ q.2.lastIssue then p else q)

/-- The group that a port issues next. -/
def State.portGroup (s : State) (cid team port : Nat) : Option (GroupRef × Group) :=
  match s.team cid team with
  | none => none
  | some t =>
    let gs := (t.groups.zipIdx.map fun p => (p.2, p.1)).filter fun p =>
      decide (p.1 % 4 = port) && s.groupReady ⟨cid, team, p.1⟩ p.2
    (oldestGroup gs).map fun p => (⟨cid, team, p.1⟩, p.2)

/-- The groups of a port whose next run needs an instruction word that a peer owes: their core asks for it (R36, R299). -/
def State.askWords (s : State) (cid team port : Nat) : State :=
  match s.team cid team with
  | none => s
  | some t =>
    ((List.range t.groups.length).filter fun n => decide (n % 4 = port)).foldl (fun (s : State) n =>
      match (s.group ⟨cid, team, n⟩).bind fun x : Group => x.selection.map fun p => (x, p.1) with
      | none => s
      | some (x, pc) =>
        match (s.engineDecode (s.fetchCore cid team) x.trap pc).2 with
        | .owed target va => s.askWord (.cluster cid) (.core (s.coreOf cid team)) target va
        | _ => s) s

/-- A trap that belongs to the run as a whole is pending: every lane of it has faulted, and the group takes the trap in
TRAP_ENTRY (R33, R35, R36). -/
def State.pendTrap (s : State) (g : GroupRef) (run : List Nat) (pc : BitVec 56) (cause addr aux : Nat) : State :=
  let (id, s) := s.fresh
  s.openParts g ⟨.lane g, run, pc⟩ id false
    (run.map fun k => ⟨k, .failed cause (BitVec.ofNat 64 addr) (BitVec.ofNat 64 aux)⟩) pc

/-- A run issues: it is selected and counted, its instruction is fetched and decoded, and acts (R33, R197, R241, R242). -/
def State.issueRun (s : State) (g : GroupRef) (run : List Nat) (pc : BitVec 56) (t : TrapRegs) : Outcome :=
  let s := s.modGroup g fun x => x.select run s.tick
  let s := s.countCore (s.coreOf g.cid g.team) 0 1
  match s.engineDecode (s.fetchCore g.cid g.team) t pc with
  | (s, .trap cause addr aux) => .next (s.pendTrap g run pc cause addr aux)
  | (s, .owed _ _) => .next s
  | (s, .instr i) => s.issue ⟨.lane g, run, pc⟩ i

/-- A port's turn: the words that its groups lack are asked for, and its oldest ready group issues (R243). -/
def State.portTurn (s : State) (cid team port : Nat) : Outcome :=
  if !s.running cid then .next s
  else
    let s := s.askWords cid team port
    match s.portGroup cid team port with
    | none => .next s
    | some (g, x) =>
      match x.selection with
      | none => .next s
      | some (pc, run) => s.issueRun g run pc x.trap

/-! ### Control cores (R240, R297) -/

/-- Whether an instruction of a control core reads or writes at the homes, which it does between no two requests of one batch
(R131). -/
def actsAtHome : Instr → Bool
  | .ldgu .. | .flipv .. | .evsend .. => true
  | _ => false

/-- A control core's turn; a word that a peer owes is asked for (R36, R299). -/
def State.controlTurn (s : State) (q : QuadRef) : Outcome :=
  match (s.quad q).map (·.control) with
  | none => .next s
  | some c =>
    if !s.running q.cid || c.wait != .run then .next s
    else
      match s.engineDecode (s.fetchQuad q) c.trap c.pc with
      | (s, .trap cause addr aux) =>
        .next (s.modControl q fun c => { c with wait := .trapping cause (BitVec.ofNat 64 addr) (BitVec.ofNat 64 aux) false })
      | (s, .owed target va) => .next (s.askWord (.cluster q.cid) (.quad (s.quadOf q)) target va)
      | (s, .instr i) => if actsAtHome i && !s.unsplit then .next s else s.issue ⟨.control q, [0], c.pc⟩ i

/-! ### Waves (R310) -/

/-- The lanes of a wave that go on. -/
def Wave.ready (w : Wave) : List (Nat × WaveLane) :=
  (w.lanes.zipIdx.map fun p => (p.2, p.1)).filter fun p => !p.2.ended && !p.2.removed

/-- The run that a wave issues next (R242, R310). -/
def Wave.selection (w : Wave) : Option (BitVec 56 × List Nat) :=
  match selectPc (w.ready.map fun p => (p.2.pc, p.2.pass, p.2.yielded)) with
  | none => none
  | some pc => some (pc, (w.ready.filter fun p => p.2.pc == pc).map (·.1))

/-- A wave after a selection; the issue counts towards its budget. -/
def Wave.select (w : Wave) (run : List Nat) : Wave :=
  let ready := w.ready.map (·.1)
  { w with issues := w.issues + 1,
           lanes := w.lanes.zipIdx.map fun p =>
             { p.1 with yielded := false,
                        pass := if ready.contains p.2 && !run.contains p.2 then p.1.pass + 1 else 0 } }

/-- The words at a PC of a wave's code. -/
def Wave.wordsAt (w : Wave) (pc : BitVec 56) : List Word := wordsOfBytes (w.code.drop (pc - w.entry).toNat)

/-- A wave's turn: an undefined encoding stops it, and so does the end of its budget (R34, R35, R310, R320). A freeze stops the
cores and no wave, so that what has left its core performs (R257, R357). -/
def State.waveTurn (s : State) (slice : Nat) : Outcome :=
  match (s.sliceAt slice).wave with
  | none => .next s
  | some w =>
    if w.stop.isSome || decide (waveBudget ≤ w.issues) then .next s
    else
      match w.selection with
      | none => .next s
      | some (pc, run) =>
        let s := s.modWave slice fun w => w.select run
        match decodeWords (w.wordsAt pc) with
        | .error _ => .next (s.modWave slice fun w => { w with stop := some .undefined })
        | .ok i => s.issue ⟨.method slice, run, pc⟩ i

/-! ### Clocks (R3, R98, R197, R250, R256, R299, R345) -/

/-- The requests of a core's lanes whose turn to leave for their peer has come (R132, R353). -/
def State.sendPeers (s : State) (core : Nat) : State :=
  (s.reqs.map (·.id)).foldl (fun (s : State) id =>
    match s.req id with
    | none => s
    | some r =>
      match r.owner with
      | .lane l =>
        if r.peer.isSome && r.stage == .ready && !r.kind.apart && s.coreOf l.cid l.team == core && s.mayPerform r
            && s.relDrained r then s.leave r
        else s
      | _ => s) s

/-- n cycles more for the requests that wait for a peer and whose asker a block's cycles count (R3, R299). -/
def State.countWaits (s : State) (u : ClockUnit) (n : Nat) : State :=
  let f (r : Req) : Req := if r.stage == .atPeer && s.clockOf r == u then { r with waited := r.waited + n } else r
  { s with reqs := s.reqs.map f }

/-- A queue whose running command waits n cycles more for a peer that does not answer. -/
def CopyQueue.count (n : Nat) (x : CopyQueue) : CopyQueue :=
  let f (e : QueueEntry) : QueueEntry :=
    match e with
    | .command id l d e (some r) => .command id l d e (some (if r.owed.isSome then { r with waited := r.waited + n } else r))
    | e => e
  { x with entries := x.entries.map f }

/-- A task that waits n cycles more for a peer that does not answer. -/
def Task.count (n : Nat) (t : Task) : Task := if t.owed.isSome then { t with waited := t.waited + n } else t

/-- A team whose pauses have counted n cycles down, and whose copies have waited n cycles more. -/
def Team.count (t : Team) (n : Nat) : Team :=
  { t with queues := t.queues.map (CopyQueue.count n), groups := t.groups.map fun g => { g with lanes := g.lanes.map fun x =>
      match x.wait with
      | .paused left => { x with wait := .paused (left - n) }
      | _ => x } }

/-- n cycles of a core: its counter, its throttled clocks, its pauses and the waits for peers. -/
def State.clockCore (s : State) (core n : Nat) : State :=
  let s := s.setCore core { s.core core with cycle := (s.core core).cycle + BitVec.ofNat 64 n }
  let s := if s.throttled then s.countCore core 6 n else s
  let s := s.countWaits (.core core) n
  let s := s.clusters.foldl (fun (s : State) (p : Nat × Cluster) =>
    if p.2.place.isSome then
      (List.range p.2.teams.length).foldl (fun (s : State) k =>
        if s.coreOf p.1 k = core then s.modTeam p.1 k fun t => t.count n else s) s
    else s) s
  s.sendPeers core

/-- n cycles of a quad: its counter and the waits for peers. -/
def State.clockQuad (s : State) (quad n : Nat) : State :=
  let s := s.setQuadHw quad { s.quadHw quad with cycle := (s.quadHw quad).cycle + BitVec.ofNat 64 n }
  let s := s.countWaits (.quad quad) n
  s.clusters.foldl (fun (s : State) (p : Nat × Cluster) =>
    if p.2.place.isSome then
      (List.range p.2.quads.length).foldl (fun (s : State) k =>
        if s.quadOf ⟨p.1, k⟩ = quad then s.modQuad ⟨p.1, k⟩ fun x => { x with tasks := x.tasks.map (Task.count n) } else s) s
    else s) s

/-- n cycles of a slice: its counter, the waits for peers, and the timers of its gates (R345). -/
def State.clockSlice (s : State) (slice n : Nat) : State :=
  let x := s.sliceAt slice
  let s := (s.setSlice slice { x with cycle := x.cycle + BitVec.ofNat 64 n }).countWaits (.slice slice) n
  let held := (x.waiting.filterMap fun b =>
    ((b.reqs.head?.bind fun p => s.req p.1).bind fun r => s.gridIdOf r).map fun g => (g, b.line)).dedup
  held.foldl (fun (s : State) p =>
    if s.gateStuck slice p.1 p.2 then
      s.modLog slice p.1 fun l =>
        { l with gates := l.gates.set p.2 (let g := l.gates.get ⟨0, 0, 0⟩ p.2; { g with waited := g.waited + n }) }
    else s) s

/-- A WAITW node that has waited n cycles more, and a node that has waited as long for a peer that does not answer. -/
def Node.count (n : Nat) (y : Node) : Node :=
  let y := if y.stage == .running && nodeKind y.image == 5 then { y with waited := y.waited + n } else y
  { y with owed := y.owed.map fun o => (o.1, o.2.1, o.2.2 + n) }

/-- n cycles of the command processor: its counter, the waits of nodes, the quanta of resident grids. -/
def State.clockCp (s : State) (n : Nat) : State :=
  let held := s.grids.map fun (p : Nat × Grid) =>
    (p.1, if (s.residents p.1).isEmpty then p.2 else { p.2 with held := p.2.held + n })
  let waits := s.slots.map fun (x : Slot) => { x with nodes := x.nodes.map (Node.count n) }
  { s.countWaits .cp n with cpCycle := s.cpCycle + BitVec.ofNat 64 n, grids := held, slots := waits }

/-- Cycles of a block. -/
def State.clockTurn (s : State) (u : ClockUnit) (n : Nat) : State :=
  match u with
  | .core k => s.clockCore k n
  | .quad k => s.clockQuad k n
  | .slice k => s.clockSlice k n
  | .cp => s.clockCp n

/-! ### What is read ahead (R6, R38, R292) -/

/-- A read ahead that was dropped: PREFDROP counts it (R141, R197). -/
def State.dropAhead (s : State) : FetchUnit → State
  | .core n => s.countCore n 4 1
  | .quad n => s.countQuad n 4 1
  | .slice _ => s

/-- An instruction word of a running grid read ahead of issue: the block keeps what stands at its home now. A page that is
unmapped, not resident or a peer's drops the read, with no fault and no accessed bit (R38, R292). -/
def State.fetchAheadTurn (s : State) (u : FetchUnit) (grid va : Nat) : State :=
  let va := va % 2 ^ 56 / 4 * 4
  if (s.grid grid).isNone then s
  else
    let w := s.freshWalk va
    let s := s.walked w
    match w.out with
    | .mapped p =>
      if p.peer.isSome then s.dropAhead u
      else
        let s := s.recall (lineOf (p.pa va))
        s.keepWord u (p.target va) ⟨some (BitVec.ofNat 32 (s.homeNat (p.pa va) 4)), 0, 0, s.tick⟩
    | _ => s.dropAhead u

/-- The lines of an L2 slice: 1 MiB of 128 bytes (R6, R7). -/
def l2Lines : Nat := 8192

/-- Sectors of a line that its home slice's L2 comes to hold (R7, log 70). -/
def State.fillL2Turn (s : State) (slice line : Nat) (sectors : BitVec 4) : State :=
  let x := s.sliceAt slice
  if homeSlice (128 * line) = slice ∧ ((x.l2.find line).isSome ∨ x.l2.length < l2Lines) then
    s.setSlice slice { x with l2 := x.l2.set line (x.l2.get 0 line ||| sectors) }
  else s

/-- The command processor wakes a control core that HALT has stopped (R198). -/
def State.wakeHaltedTurn (s : State) (q : QuadRef) : State :=
  if s.cpRuns && s.running q.cid && ((s.quad q).map fun x : Quad => x.control.wait == .halted).getD false then s.wakeControl q
  else s

/-! ### Policies that programs cannot see (R38, R245, R262, R281, R289) -/

/-- A cached thing let go; an owned line's bytes return to its home. -/
def State.evictTurn (s : State) (e : Evict) : State :=
  match e with
  | .code u => s.setCode u []
  | .l2 slice line => s.setSlice slice { s.sliceAt slice with l2 := (s.sliceAt slice).l2.erase line }
  | .l1 core line => s.dropLine core line
  | .tlb core page => s.setCore core { s.core core with tlb := (s.core core).tlb.filter fun p => p.base != page }
  | .quadTlb quad page => s.setQuadHw quad { s.quadHw quad with tlb := (s.quadHw quad).tlb.filter fun p => p.base != page }
  | .walkCache quad => s.setQuadHw quad { s.quadHw quad with walk := ⟨[], []⟩ }
  | .predictor core entry =>
    s.setCore core { s.core core with predictor := (s.core core).predictor.erase entry }
  | .regLine v => s.dropRegLine v

/-- An error counted by the management log: CEC for a corrected one, UEC with a record for another (R301, R350, R356). -/
def State.errorTurn (s : State) (uncorrected : Bool) (detail : DWord) : State :=
  if uncorrected then (s.logError (detail.zeroExtend 128)).record 2 0 0 (detail.zeroExtend 128)
  else { s with bar0 := { s.bar0 with cec := s.bar0.cec + 1 } }

/-! ### A turn -/

/-- A step of the device that an event names; an encoded instruction moves only where its engine issues it. -/
def State.eventTurn (s : State) (i : Instr) : Outcome := if i.op.isSome then .next s else exec i s

/-- One part of the device moves while it has power; where nothing is due, nothing changes. -/
def State.poweredTurn (s : State) (t : Turn) : Outcome :=
  match t with
  | .port cid team port => s.portTurn cid team port
  | .control q => s.controlTurn q
  | .wave slice => s.waveTurn slice
  | .event i => s.eventTurn i
  | .clock u n => .next (s.clockTurn u n)
  | .evict e => .next (s.evictTurn e)
  | .fetchAhead u grid va => .next (s.fetchAheadTurn u grid va)
  | .fillL2 slice line sectors => .next (s.fillL2Turn slice line sectors)
  | .submit slot => .next (s.submitTurn slot)
  | .wakeHalted q => .next (s.wakeHaltedTurn q)
  | .errorCount u d => .next (s.errorTurn u d)
  | .sensors t c => .next { s with bar0 := { s.bar0 with temp := t, current := c } }

/-- One part of the device moves; without power only a cold reset does (R355). -/
def State.turn (s : State) (t : Turn) : Outcome :=
  if s.powered then s.poweredTurn t else if t = .event .coldReset then exec .coldReset s else .next s

end Sys2Proof.Machine
end

