-- ==== Sys2Proof/Machine/Errors.lean ====
section
/-! DEFINITION. Errors that stand in memory until they are read (R301): whether a turn reads them, and what becomes of one that
does. -/

namespace Sys2Proof.Machine

open Sys2Proof

/-- The device with the bits in which errors stand inverted. -/
def State.inverted (s : State) : State :=
  { s with mem := s.bad.foldl (fun m a => Mem.write m a (~~~Mem.read m a)) s.mem }

/-- The device without the bytes of a list. -/
def State.without (s : State) (bad : List Nat) : State := { s with mem := bad.foldl (fun m a => Mem.write m a 0) s.mem }

/-- Whether a turn has read bytes in which errors stand: with other bits there it would leave the device otherwise, those bytes
apart (log 85). -/
def readsBad (bad : List Nat) : Outcome → Outcome → Bool
  | .next a, .next b => a.without bad != b.without bad
  | .fault _, .fault _ => false
  | .refused _, .refused _ => false
  | _, _ => true

/-- The device after a turn that has read no error, its errors standing where that turn has not written (R301). -/
def keepBad (bad : List Nat) : Outcome → Outcome → Outcome
  | .next a, .next b => .next { a with bad := a.bad.filter fun x => !bad.contains x || Mem.read a.mem x != Mem.read b.mem x }
  | x, _ => x

/-- What a step of the device that would have read an error does instead: the request, wave, engine, grid, node or peer request that it
serves meets the error, a read ahead is dropped, and an error that belongs to none freezes the device (R292, R298, R301). -/
def State.eventMeets (s : State) (i : Instr) : State :=
  match i with
  | .loadDataReturn r _ | .storePerform r _ | .homeAtomicPerform (.l1 r) | .promoteReturn r | .pushToHome r _ | .pageWalk r =>
    s.checkReader (.request r)
  | .homeAtomicPerform (.home k) | .waveCommit k => s.checkReader (.wave k)
  | .waveForm k =>
    match (oldestQueue (s.sliceAt k).queues).bind fun p => (s.waveRun p.2).map fun r => (p.1, r.2) with
    | some (line, rs) => s.checkRun line rs
    | none => s
  | .copyCommandStart q => s.checkReader (.engine q.cid)
  | .taskStart q _ => s.checkReader (.engine q.cid)
  | .queueEntryAccept l => s.checkReader (.engine l.cid)
  | .batchAccept b | .gateAdmit b =>
    match (s.req (b / 65536)).bind s.gridIdOf with
    | some gid => (s.recordCheck 1).checkGrid gid 0 0 0
    | none => (s.recordCheck 4).freeze
  | .gateDivergence slice line =>
    match s.grids.find? fun p => s.gateStuck slice p.1 line with
    | some (gid, _) => (s.recordCheck 1).checkGrid gid 0 0 0
    | none => s
  | .nodeStart n | .bulk n | .flip n | .signal n | .waitw n | .branch n | .launch n => (s.recordCheck 1).faultNode n 0
  | .peerRequest r => s.rejectPeer r
  | .hardwarePrefetch .. | .hostAccess _ => s
  | _ => (s.recordCheck 4).freeze

/-- What a turn that would have read an error does instead (R301). -/
def State.meets (s : State) (t : Turn) : State :=
  match t with
  | .port cid _ _ => s.checkReader (.engine cid)
  | .control q => s.checkReader (.engine q.cid)
  | .wave k => s.checkReader (.wave k)
  | .event i => s.eventMeets i
  | .fetchAhead u _ _ => s.dropAhead u
  | .evict _ | .fillL2 .. => s
  | _ => (s.recordCheck 4).freeze

/-- One part of the device moves; the next turn that reads a byte in which an error stands detects it, and never gets the data
(R301). -/
def State.guardedTurn (s : State) (t : Turn) : Outcome :=
  if s.bad.isEmpty then s.turn t
  else
    let a := s.turn t
    let b := s.inverted.turn t
    if readsBad s.bad a b then .next (s.meets t) else keepBad s.bad a b

end Sys2Proof.Machine
end

