-- ==== Sys2Proof/Machine/Step.lean ====
section
/-! DEFINITION. One step of the device: one turn of the agenda, or the free turn where the agenda names none. What a turn
does stands in Turns.lean. -/

namespace Sys2Proof.Machine

open Sys2Proof

/-- The turn that a state takes next, and the agenda after it (R243, R254: no order between the parts is promised). -/
def State.nextTurn (s : State) : Turn × List Turn :=
  match s.agenda with
  | [] => (Config.freeTurn s.tick, [])
  | t :: rest => (t, rest)

/-- One step (R301: a turn that reads bytes in which an error stands does not take effect). -/
def step (s : State) : Host.Outcome State Fault Refusal :=
  State.guardedTurn { s with agenda := s.nextTurn.2, tick := s.tick + 1 } s.nextTurn.1

/-! ### An instruction placed where the next step fetches it -/

/-- The engine class that an instruction's placement uses: lanes where lanes accept it, else a control core, else a
wave. -/
inductive PlaceOn where
  | lane | control | wave
  deriving DecidableEq, Repr

/-- The engine class for the instruction whose bits are w; an undefined one is placed on a lane. -/
def placeOn (nbits w : Nat) : PlaceOn :=
  match decodeTableWord nbits w with
  | none => .lane
  | some i => if (enginesOf i).lane then .lane else if (enginesOf i).control then .control else .wave

/-- The virtual page at which the instruction is placed. -/
def placedVa : Nat := 0x10000

/-- The physical frame of that page. -/
def placedPa : Nat := 0x300000

/-- The three levels of tables that map the page to its frame, and the code (R283 to R286). -/
def placedMemory (m : List Host.Cell) (code : List Byte) : List Host.Cell :=
  let m := Mem.writeBytes m 0x80000 (toBytesLE 8 0x100001)
  let m := Mem.writeBytes m 0x100000 (toBytesLE 8 0x200001)
  let m := Mem.writeBytes m 0x200020 (toBytesLE 8 (placedPa + 0xD))
  Mem.writeBytes m placedPa code

/-- The launch of a grid of one cluster of one quad, one group of one lane, whose programs start at the page. -/
def placedLaunch : Launch :=
  { entry := BitVec.ofNat 56 placedVa, tentry := BitVec.ofNat 56 placedVa, param := 0, tvec := 0, gx := 1, gy := 1, gz := 1,
    shape := 0x10415, flags := 0x300, quantum := 0, methods := [], det := none }

/-- A wave of one lane that starts with the code. -/
def placedWave (code : List Byte) : Wave :=
  { line := 0, key := .user 0 0, reqs := [⟨0, 0, 0, 0⟩], entry := 0, code := code,
    lanes := [⟨0, [], 0, 0, 0, false, 0, false, false, false⟩], g := [],
    object := List.replicate 128 0, buffer := [], issues := 0, stop := none }

/-- A group in its handler, for the return from it; else as it is. -/
def Group.placed (i : Option Instr) (g : Group) : Group :=
  match i with
  | some (.rte _) => { g with handler := some [0] }
  | _ => g

/-- A core without the line that the code is placed in. -/
def CoreHw.withoutPlaced (c : CoreHw) : CoreHw := { c with l1 := c.l1.erase (lineOf placedPa) }

/-- The state with the instruction stored where the next step fetches: powered and not frozen, the page mapped for core 0
and its quad, a cluster at quad 0 that runs at it, or a wave at slice 0 that holds it, and that engine's turn. -/
def State.withFetchWord (s : State) (nbits w : Nat) : State :=
  let code := tableBytes (w % 2 ^ nbits)
  let c := s.core 0
  let q := s.quadHw 0
  let gid := s.nextId
  let cid := s.nextId + 1
  let s := { s with
    bad := [], powered := true, frozen := false, cur := none, nextId := s.nextId + 2
    mem := placedMemory s.mem code
    bar0 := { s.bar0 with ptroot := 0x80000 }
    cores := Table.set (s.cores.map fun (p : Nat × CoreHw) => (p.1, p.2.withoutPlaced)) 0
      { c.withoutPlaced with tlb := [], code := [] }
    quads := s.quads.set 0 { q with tlb := [], walk := ⟨[], []⟩, code := [] } }
  let onCluster := (({ s with grids := s.grids.set gid (Grid.start ⟨0, 0⟩ placedLaunch 0 s.tick),
                              clusters := s.clusters.set cid (Cluster.start gid 0 placedLaunch (0, 0) s.tick) }).modGroup
      ⟨cid, 0, 0⟩ fun g => g.placed (decodeTableWord nbits w))
  match placeOn nbits w with
  | .lane => { onCluster with agenda := [.port cid 0 0] }
  | .control => { onCluster with agenda := [.control ⟨cid, 0⟩] }
  | .wave => { s.setSlice 0 { s.sliceAt 0 with wave := some (placedWave code) } with agenda := [.wave 0] }

end Sys2Proof.Machine
end

