-- ==== Sys2Proof/Safety.lean ====
section
/-! DEFINITION. The terms in which statements about the machine are made: when an issue may execute an instruction, what
an instruction may touch, which states are sound, and which steps are safe. -/

namespace Sys2Proof.Machine

open Sys2Proof

/-! ### Issues -/

/-- A thread exists. -/
def State.here (s : State) : Thread → Bool
  | .lane l => (s.lane l).isSome
  | .control q => (s.quad q).isSome
  | .wave n i => ((s.sliceAt n).wave.bind fun w => w.lanes[i]?).isSome

/-- The issue now executing may have the effect of an instruction: the instruction is defined for the engine (R33, R34),
the capability it needs is there (R189, R196), and the threads of the run exist. -/
structure Ready (i : Instr) (s : State) (u : Issue) : Prop where
  cur : s.cur = some u
  legal : legalFor u.engine (s.hgOf u.engine) (s.inHandlerOf u.engine) i = true
  capable : s.capable u.engine i = true
  here : ∀ n ∈ u.run, s.here (u.engine.thread n) = true

/-- Member n of an issue: a thread of the run whose guard is true (R27). -/
def Member (i : Instr) (s : State) (u : Issue) (n : Nat) : Prop := n ∈ u.members s i

/-! ### What threads hold -/

/-- LSW of a thread; a control core has none (R64, R68). -/
def State.lswOf (s : State) : Thread → Word
  | .lane l => ((s.lane l).map fun x : Lane => x.lsw).getD 0
  | .control _ => 0
  | .wave n i => (((s.sliceAt n).wave.bind fun w => w.lanes[i]?).map fun x : WaveLane => x.lsw).getD 0

/-- Whether a register code names the same register for two threads: a lane's own register, a group's, a control core's
(R22). -/
def sameReg : Thread → Thread → Code → Bool
  | .lane l, .lane k, c => if c.toNat < 192 then l == k else l.gr == k.gr
  | .control q, .control r, _ => q == r
  | .wave n i, .wave m j, c => if c.toNat < 192 then n == m && i == j else n == m
  | _, _, _ => false

/-! ### What stays as it was -/

/-- Everything of the device but its clusters and its slices. -/
def State.outside (s : State) : State := { s with clusters := [], slices := [] }

/-- A lane without its PC, registers, condition bits and flags. -/
def Lane.fixed (x : Lane) : Lane := { x with pc := 0, v := [], cond := 0, lsw := 0 }

/-- A group without those of its lanes, its registers and the marks of its register lines. -/
def Group.fixed (x : Group) : Group :=
  { x with lanes := x.lanes.map Lane.fixed, g := [], live := 0, cached := 0, dirty := 0 }

/-- A team without those of its groups. -/
def Team.fixed (x : Team) : Team := { x with groups := x.groups.map Group.fixed }

/-- A control core without its PC, registers and condition bits. -/
def Control.fixed (x : Control) : Control := { x with pc := 0, k := [], cond := 0 }

/-- A quad without those of its control core. -/
def Quad.fixed (x : Quad) : Quad := { x with control := x.control.fixed }

/-- A cluster without those of its threads. -/
def Cluster.fixed (x : Cluster) : Cluster := { x with teams := x.teams.map Team.fixed, quads := x.quads.map Quad.fixed }

/-- A wave lane without its PC, registers, condition bits, flags, and the mark that it has reached the method's end. -/
def WaveLane.fixed (x : WaveLane) : WaveLane := { x with pc := 0, v := [], cond := 0, lsw := 0, ended := false }

/-- A slice without those of its wave. -/
def Slice.fixed (x : Slice) : Slice :=
  { x with wave := x.wave.map fun w => { w with lanes := w.lanes.map WaveLane.fixed, g := [] } }

/-- Nothing but PCs, registers, condition bits, flags and line marks of threads differs: memory, scratch windows, queues,
requests, tasks, tokens, special registers and everything else are as they were. -/
structure OnlyThreads (s t : State) : Prop where
  outside : t.outside = s.outside
  clusters : ∀ c, (t.cluster c).map Cluster.fixed = (s.cluster c).map Cluster.fixed
  slices : ∀ n, (t.sliceAt n).fixed = (s.sliceAt n).fixed

/-- The codes that a destination writes: a pair where it is wide, save on a control core (R23). -/
def writtenCodes (e : Engine) (wide : Bool) (d : Code) : List Code :=
  if wide && !(e.thread 0).isControl then [d, d + 1] else [d]

/-- The frame of an instruction that acts on registers: its members' registers of the listed codes, their listed
condition bits and, where flags holds, their sticky flags may change; every thread of the run goes on past the instruction;
every other register, condition bit, flag and PC, every byte of memory and the rest of the device are as they were. -/
structure RegFrame (i : Instr) (s t : State) (u : Issue) (regs : List Code) (conds : List CBit) (flags : Bool) : Prop where
  rest : OnlyThreads s t
  memory : ∀ a, Mem.read t.mem a = Mem.read s.mem a
  pcs : ∀ th, t.pcOf th = if th ∈ u.threads then u.next i else s.pcOf th
  regs : ∀ th c, (∀ n, Member i s u n → sameReg (u.engine.thread n) th c = true → c ∉ regs) → t.reg th c = s.reg th c
  conds : ∀ th c, (∀ n, Member i s u n → u.engine.thread n = th → c ∉ conds) → t.condBit th c = s.condBit th c
  flags : ∀ th, (flags = true → ∀ n, Member i s u n → u.engine.thread n ≠ th) → t.lswOf th = s.lswOf th

/-- Wherever an issue may execute the instruction, exec answers a next state, within the frame of the listed
destinations, and each member n of the issue stands in the relation P to the state before. -/
def ComputesIn (i : Instr) (wide : Bool) (ds : List Code) (conds : List CBit) (flags : Bool)
    (P : State → State → Issue → Nat → Prop) : Prop :=
  ∀ s u, Ready i s u → ∃ t, exec i s = .next t
    ∧ RegFrame i s t u (ds.flatMap (writtenCodes u.engine wide)) conds flags
    ∧ ∀ n, Member i s u n → P s t u n

/-- The same, for a relation about the member's thread alone. -/
def Computes (i : Instr) (wide : Bool) (ds : List Code) (conds : List CBit) (flags : Bool)
    (P : State → State → Thread → Prop) : Prop :=
  ComputesIn i wide ds conds flags fun s t u n => P s t (u.engine.thread n)

/-! ### Sound states and safe steps -/

/-- What every step keeps: memory in its canonical form, no issue left over, the reserved bits of DEVNUM and EVCTL 0, and
PEERTO at least 1,300 (R350). -/
structure State.Sound (s : State) : Prop where
  memory : Mem.wf s.mem = true
  idle : s.cur = none
  devnum : s.bar0.devnum &&& ~~~(0x80003FFF : DWord) = 0
  evctl : s.bar0.evctl &&& ~~~(0x8000001F : DWord) = 0
  peerto : 1300 ≤ s.bar0.peerto.toNat

/-- A safe step: the device goes on; the model neither faults nor refuses. -/
def State.Safe (s : State) : Prop := ∃ t, step s = .next t

end Sys2Proof.Machine
end

