-- ==== Sys2Proof/Certificates/Slice0/Obligations.lean ====
section
/-! DEFINITION. What is claimed of the model. Each obligation names the rules of spec/ it states; where a clause rests on
a choice of the model, its docstring names the log entry. -/

namespace Sys2Proof.Machine

open Sys2Proof

/-! ### The terms of the statements -/

/-- The finish of R69 as the rule words it, at the operation width W of R68: wrapped for SUB[1:0] = 0; else the nearest
number of the signed (1) or unsigned (2) type, with SAT where that is not x itself, save on a control core. -/
def Finished (v : BitVec 4) (d : Code) (x : Int) (s t : State) (th : Thread) : Prop :=
  let w := opWidth th (isWide v)
  if slice v 0 2 = 0 then
    t.intReg th (isWide v) false d = x % 2 ^ w ∧ t.lswOf th = s.lswOf th
  else
    let y : Int := if slice v 0 2 = 1 then max (-(2 ^ (w - 1))) (min (2 ^ (w - 1) - 1) x) else max 0 (min (2 ^ w - 1) x)
    t.intReg th (isWide v) (slice v 0 2 == 1) d = y
      ∧ t.lswOf th = s.lswOf th ||| (if y ≠ x ∧ th.isControl = false then 0x10 else 0)

/-- An instruction that writes the number x into d at the operation width, wrapped, and sets no flag. -/
def Wrapped (wide : Bool) (d : Code) (x : Int) (t : State) (th : Thread) : Prop :=
  t.intReg th wide false d = x % 2 ^ opWidth th wide

/-- A log value of a register: the code at bit k in format m (R52, R60). -/
def logAt (m : LogFmt) (k : Nat) (x : Word) : LogVal := m.decode (x.toNat / 2 ^ k % 2 ^ m.w)

/-- What a log instruction does, by the format that SUB[1:0] names (R29, R60, R105): .32 one L32 value; .16 one L16 value
with the upper half written 0; .x2 two L16 values by themselves. rule m k r says that r is the value for the operands'
codes at bit k in format m, with the flags it sets; LSW takes the OR of the flags. -/
def LogDoes (v : BitVec 4) (d : Code) (s t : State) (th : Thread) (rule : LogFmt → Nat → LogVal × Word → Prop) : Prop :=
  let y := t.reg32 th d
  if slice v 0 2 = 0 then
    ∃ r, rule l32 0 r ∧ logAt l32 0 y = r.1 ∧ t.lswOf th = s.lswOf th ||| r.2
  else if slice v 0 2 = 1 then
    ∃ r, rule l16 0 r ∧ logAt l16 0 y = r.1 ∧ y.toNat < 2 ^ 16 ∧ t.lswOf th = s.lswOf th ||| r.2
  else
    ∃ r q, rule l16 0 r ∧ rule l16 16 q ∧ logAt l16 0 y = r.1 ∧ logAt l16 16 y = q.1
      ∧ t.lswOf th = s.lswOf th ||| (r.2 ||| q.2)

/-- finish (R106): OF and Inf, or with .fin the largest finite magnitude, above the range; UF and zero below it. -/
def Finish (m : LogFmt) (fin sign : Bool) (f : Int) (r : LogVal × Word) : Prop :=
  (m.top - 1 < f → r = (if fin then .fin sign (m.top - 1) else .inf sign, 2))
    ∧ (f < m.bot + 1 → r = (.zero, 4))
    ∧ (m.bot + 1 ≤ f → f ≤ m.top - 1 → r = (.fin sign f, 0))

/-- An overflow whose magnitude is no field: OF, and Inf or with .fin the largest finite magnitude (R108, R109). -/
def Overflow (m : LogFmt) (fin sign : Bool) (r : LogVal × Word) : Prop :=
  r = (if fin then .fin sign (m.top - 1) else .inf sign, 2)

/-- q is x / 2^k rounded to nearest, ties to even. -/
def NearestEven (x : Int) (k : Nat) (q : Int) : Prop :=
  |2 * x - 2 ^ (k + 1) * q| ≤ 2 ^ k ∧ (|2 * x - 2 ^ (k + 1) * q| = 2 ^ k → q % 2 = 0)

end Sys2Proof.Machine

open Sys2Proof Sys2Proof.Machine

/-! ### Integers, logic and moves (R51, R67 to R78) -/

/-- R69, R70: IADD, ISUB, IMUL, IMAD, IABS and INEG form the exact integer of their sources and finish it as R69 says. -/
def Claims.IntegerArithmetic : Prop :=
  ∀ (h : Hd) (v : BitVec 4) (d a c : Code) (b : SrcB),
    let w := isWide v
    let sg := isSigned v
    Computes (.iadd h v d a b) w [d] [] true (fun s t th => Finished v d (s.intReg th w sg a + s.intB th w sg b) s t th)
    ∧ Computes (.isub h v d a b) w [d] [] true (fun s t th => Finished v d (s.intReg th w sg a - s.intB th w sg b) s t th)
    ∧ Computes (.imul h v d a b) w [d] [] true (fun s t th => Finished v d (s.intReg th w sg a * s.intB th w sg b) s t th)
    ∧ Computes (.imad h v d a b c) w [d] [] true
        (fun s t th => Finished v d (s.intReg th w sg a * s.intB th w sg b + s.intReg th w sg c) s t th)
    ∧ Computes (.iabs h v d a) w [d] [] true (fun s t th => Finished v d |s.intReg th w sg a| s t th)
    ∧ Computes (.ineg h v d a) w [d] [] true (fun s t th => Finished v d (-s.intReg th w sg a) s t th)

/-- R70: IMULH writes floor(a · b / 2^W), IMIN the smaller and IMAX the larger of their sources, which SUB 2 and 6 read as
unsigned; none sets a flag. -/
def Claims.IntegerHighAndOrder : Prop :=
  ∀ (h : Hd) (v : BitVec 4) (d a : Code) (b : SrcB),
    let w := isWide v
    let sg := isSigned v
    Computes (.imulh h v d a b) w [d] [] false
      (fun s t th => Wrapped w d (s.intReg th w sg a * s.intB th w sg b / 2 ^ opWidth th w) t th)
    ∧ Computes (.imin h v d a b) w [d] [] false
        (fun s t th => t.intReg th w sg d = min (s.intReg th w sg a) (s.intB th w sg b))
    ∧ Computes (.imax h v d a b) w [d] [] false
        (fun s t th => t.intReg th w sg d = max (s.intReg th w sg a) (s.intB th w sg b))

/-- R69, R70: the SUB values and the forms that these instructions do not have. -/
def Claims.IntegerForms : Prop :=
  ∀ (h : Hd) (v : BitVec 4) (d a c : Code) (b : SrcB),
    let none' (is : List Instr) : Prop := ∀ i ∈ is, i.wellFormed = false
    (v ∉ ([0, 1, 2, 4, 5, 6] : List (BitVec 4)) → none' [.iadd h v d a b, .isub h v d a b, .imul h v d a b, .imad h v d a b c])
    ∧ (v ∉ ([0, 2, 4, 6] : List (BitVec 4)) → none' [.imulh h v d a b, .imin h v d a b, .imax h v d a b])
    ∧ (v ∉ ([0, 1, 4, 5] : List (BitVec 4)) → none' [.iabs h v d a, .ineg h v d a])
    ∧ (h.len = .base ∨ h.len = .lit → none' [.imad h v d a b c])
    ∧ (h.len = .lit ∨ h.len = .extLit → none' [.iabs h v d a, .ineg h v d a])

/-- R71, R72, R73: IADDC adds with carry or, for SUB[0] = 1, subtracts with borrow, and writes the carry (c7 keeps
reading 1); LEA adds the extended and shifted b to a; ICMP writes its comparison. Other SUB and MD values, and IADDC without
an extension word, are undefined. -/
def Claims.CarryAddressCompare : Prop :=
  ∀ (h : Hd) (v md : BitVec 4) (d a : Code) (b : SrcB) (cc : CBit),
    let w := isWide v
    Computes (.iaddc h v d a b cc) w [d] [cc] false
      (fun s t th =>
        let ci : Int := if s.condBit th cc then 1 else 0
        let x := if v.getLsbD 0 then s.intReg th w false a - s.intB th w false b - ci
          else s.intReg th w false a + s.intB th w false b + ci
        Wrapped w d x t th
          ∧ t.condBit th cc = (decide (cc = 7) || if v.getLsbD 0 then decide (x < 0) else decide (2 ^ opWidth th w ≤ x)))
    ∧ Computes (.lea h v d a b) true [d] [] false
        (fun s t th =>
          let x : Int := if v.getLsbD 3 then (s.b32 th b).toNat else (s.b32 th b).toInt
          ((t.reg64 th d).toNat : Int) = ((s.reg64 th a).toNat + x * 2 ^ (slice v 0 3).toNat) % 2 ^ 64)
    ∧ Computes (.icmp h v md cc a b) false [] [cc] false
        (fun s t th =>
          let w := md == 1
          let x (sg : Bool) := s.intReg th w sg a
          let y (sg : Bool) := s.intB th w sg b
          (v = 0 → t.condBit th cc = (decide (cc = 7) || x true == y true))
          ∧ (v = 1 → t.condBit th cc = (decide (cc = 7) || x true != y true))
          ∧ (v = 2 → t.condBit th cc = (decide (cc = 7) || decide (x true < y true)))
          ∧ (v = 3 → t.condBit th cc = (decide (cc = 7) || decide (x true ≤ y true)))
          ∧ (v = 4 → t.condBit th cc = (decide (cc = 7) || decide (x true > y true)))
          ∧ (v = 5 → t.condBit th cc = (decide (cc = 7) || decide (x true ≥ y true)))
          ∧ (v = 6 → t.condBit th cc = (decide (cc = 7) || decide (x false < y false)))
          ∧ (v = 7 → t.condBit th cc = (decide (cc = 7) || decide (x false ≤ y false)))
          ∧ (v = 8 → t.condBit th cc = (decide (cc = 7) || decide (x false > y false)))
          ∧ (v = 9 → t.condBit th cc = (decide (cc = 7) || decide (x false ≥ y false))))
    ∧ (v ∉ ([0, 1, 4, 5] : List (BitVec 4)) ∨ h.len = .base ∨ h.len = .lit → (Instr.iaddc h v d a b cc).wellFormed = false)
    ∧ (10 ≤ v.toNat ∨ 2 ≤ md.toNat → (Instr.icmp h v md cc a b).wellFormed = false)

/-- R74: the logic instructions, bit by bit at the operation width; MOV and BREV (R74, R76) likewise. -/
def Claims.LogicBits : Prop :=
  ∀ (h : Hd) (v : BitVec 4) (d a : Code) (b : SrcB),
    let w := isWide v
    let bit (s : State) (th : Thread) (c : Code) (j : Nat) : Bool :=
      if opWidth th w = 64 then (s.reg64 th c).getLsbD j else (s.reg32 th c).getLsbD j
    let bitB (s : State) (th : Thread) (j : Nat) : Bool :=
      if opWidth th w = 64 then (s.b64 th b).getLsbD j else (s.b32 th b).getLsbD j
    let each (f : State → Thread → Nat → Bool) (s t : State) (th : Thread) : Prop :=
      ∀ j, j < opWidth th w → bit t th d j = f s th j
    Computes (.and h v d a b) w [d] [] false (each fun s th j => bit s th a j && bitB s th j)
    ∧ Computes (.or h v d a b) w [d] [] false (each fun s th j => bit s th a j || bitB s th j)
    ∧ Computes (.xor h v d a b) w [d] [] false (each fun s th j => bit s th a j != bitB s th j)
    ∧ Computes (.andn h v d a b) w [d] [] false (each fun s th j => bit s th a j && !bitB s th j)
    ∧ Computes (.not h v d a) w [d] [] false (each fun s th j => !bit s th a j)
    ∧ Computes (.brev h v d a) w [d] [] false (each fun s th j => bit s th a (opWidth th w - 1 - j))
    ∧ Computes (.mov h v d a) w [d] [] false (each fun s th j => bit s th a j)

/-- R74: the shifts and the rotate, by b mod W, bit by bit. -/
def Claims.Shifts : Prop :=
  ∀ (h : Hd) (v : BitVec 4) (d a : Code) (b : SrcB),
    let w := isWide v
    let bit (s : State) (th : Thread) (c : Code) (j : Nat) : Bool :=
      if opWidth th w = 64 then (s.reg64 th c).getLsbD j else (s.reg32 th c).getLsbD j
    let each (f : State → Thread → Nat → Nat → Nat → Bool) (s t : State) (th : Thread) : Prop :=
      let width := opWidth th w
      ∀ j, j < width → bit t th d j = f s th width ((s.b32 th b).toNat % width) j
    Computes (.shl h v d a b) w [d] [] false (each fun s th _ n j => decide (n ≤ j) && bit s th a (j - n))
    ∧ Computes (.shr h v d a b) w [d] [] false (each fun s th width n j => decide (j + n < width) && bit s th a (j + n))
    ∧ Computes (.sar h v d a b) w [d] [] false
        (each fun s th width n j => if j + n < width then bit s th a (j + n) else bit s th a (width - 1))
    ∧ Computes (.rotl h v d a b) w [d] [] false (each fun s th width n j => bit s th a ((j + width - n) % width))

/-- R74, R75: the bit counts and the bit fields. POPC counts the 1 bits; CLZ and CTZ name the place of the highest and the
lowest 1 bit, or W for 0; BFX reads the field that b names, clipped to the width, and BFI replaces it. -/
def Claims.BitFields : Prop :=
  ∀ (h : Hd) (v : BitVec 4) (d a c : Code) (b : SrcB),
    let w := isWide v
    let num (s : State) (th : Thread) (c : Code) : Nat := (s.intReg th w false c).toNat
    let pos (s : State) (th : Thread) : Nat := (s.b32 th b).toNat % 64
    let len (s : State) (th : Thread) : Nat := min ((s.b32 th b).toNat / 256 % 64) (opWidth th w - pos s th)
    Computes (.popc h v d a) false [d] [] false
      (fun s t th => (t.reg32 th d).toNat = ((List.range (opWidth th w)).filter fun j => (num s th a).testBit j).length)
    ∧ Computes (.clz h v d a) false [d] [] false
        (fun s t th =>
          let k := (t.reg32 th d).toNat
          k ≤ opWidth th w ∧ num s th a < 2 ^ (opWidth th w - k)
            ∧ (k < opWidth th w → (num s th a).testBit (opWidth th w - 1 - k) = true))
    ∧ Computes (.ctz h v d a) false [d] [] false
        (fun s t th =>
          let k := (t.reg32 th d).toNat
          k ≤ opWidth th w ∧ num s th a % 2 ^ k = 0 ∧ (k < opWidth th w → (num s th a).testBit k = true))
    ∧ Computes (.bfx h v d a b) w [d] [] false
        (fun s t th =>
          let x := num s th a / 2 ^ pos s th % 2 ^ len s th
          Wrapped w d (if v.getLsbD 0 = true ∧ 0 < len s th ∧ 2 ^ (len s th - 1) ≤ x then (x : Int) - 2 ^ len s th else x)
            t th)
    ∧ Computes (.bfi h v d a b c) w [d] [] false
        (fun s t th => ∀ j, j < opWidth th w → (num t th d).testBit j =
          if pos s th ≤ j ∧ j < pos s th + len s th then (num s th c).testBit (j - pos s th) else (num s th a).testBit j)

/-- R51, R76, R77, R78: NOP changes nothing; SEL chooses by a condition bit; MOVI writes its constant, a group register too
(R25); CBIT computes on condition bits, and c7 keeps reading 1. -/
def Claims.SelectAndConstants : Prop :=
  ∀ (h : Hd) (v : BitVec 4) (d a : Code) (b : SrcB) (k : DWord) (cd ca cb : CBit),
    Computes (.nop h) false [] [] false (fun _ _ _ => True)
    ∧ Computes (.sel h v d a b) (v.getLsbD 3) [d] [] false
        (fun s t th =>
          let w := v.getLsbD 3
          t.intReg th w false d = if s.condBit th (slice v 0 3) then s.intReg th w false a else s.intB th w false b)
    ∧ Computes (.movi h v d k) (v != 0) [d] [] false
        (fun _ t th =>
          (v = 0 → t.reg32 th d = k.truncate 32 ∧ (th.isControl = true → t.reg th d = (k.truncate 32 : Word).zeroExtend 64))
          ∧ (v = 1 → t.reg64 th d = if h.len.hasLit then k else (k.truncate 32 : Word).signExtend 64)
          ∧ (v = 2 → t.reg64 th d = (k.truncate 32 : Word).zeroExtend 64))
    ∧ Computes (.cbit h v cd ca cb) false [] [cd] false
        (fun s t th =>
          let x := s.condBit th ca
          let y := s.condBit th cb
          (v = 0 → t.condBit th cd = (decide (cd = 7) || (x && y)))
          ∧ (v = 1 → t.condBit th cd = (decide (cd = 7) || (x || y)))
          ∧ (v = 2 → t.condBit th cd = (decide (cd = 7) || (x != y)))
          ∧ (v = 3 → t.condBit th cd = (decide (cd = 7) || !x))
          ∧ (v = 4 → t.condBit th cd = true)
          ∧ (v = 5 → t.condBit th cd = decide (cd = 7))
          ∧ (v = 6 → t.condBit th cd = (decide (cd = 7) || (x && !y)))
          ∧ (v = 7 → t.condBit th cd = (decide (cd = 7) || x)))

/-- R75, R78: the SUB values, the forms and the fields that BFX, BFI and CBIT do not have. -/
def Claims.FieldForms : Prop :=
  ∀ (h : Hd) (v : BitVec 4) (d a c : Code) (b : SrcB) (cd ca cb : CBit),
    (v ∉ ([0, 1, 4, 5] : List (BitVec 4)) → (Instr.bfx h v d a b).wellFormed = false)
    ∧ (v ∉ ([0, 4] : List (BitVec 4)) ∨ h.len = .base ∨ h.len = .lit → (Instr.bfi h v d a b c).wellFormed = false)
    ∧ (8 ≤ v.toNat ∨ h.len = .lit ∨ h.len = .extLit ∨ (v ∈ ([3, 4, 5, 7] : List (BitVec 4)) ∧ cb ≠ 0)
        ∨ (v ∈ ([4, 5] : List (BitVec 4)) ∧ ca ≠ 0) → (Instr.cbit h v cd ca cb).wellFormed = false)

/-! ### Packed integers, bytes and hashing (R79 to R85) -/

/-- R79: PADD2, PSUB2, PMUL2 and PADD4 finish each element by itself: wrapped for SUB 0, else clamped to the signed (1) or
unsigned (2) type, and SAT is set once if some element changed. -/
def Claims.PackedArithmetic : Prop :=
  ∀ (h : Hd) (v : BitVec 4) (d a : Code) (b : SrcB),
    let does (n : Nat) (op : Int → Int → Int) (s t : State) (th : Thread) : Prop :=
      let sg := v != 2
      let x (j : Nat) : Int := op (elem n sg (s.reg32 th a) j) (elem n sg (s.b32 th b) j)
      let lo : Int := if v = 1 then -(2 ^ (n - 1)) else 0
      let hi : Int := if v = 1 then 2 ^ (n - 1) - 1 else 2 ^ n - 1
      if v = 0 then
        (∀ j, j < 32 / n → elem n false (t.reg32 th d) j = x j % 2 ^ n) ∧ t.lswOf th = s.lswOf th
      else
        (∀ j, j < 32 / n → elem n sg (t.reg32 th d) j = max lo (min hi (x j)))
          ∧ t.lswOf th = s.lswOf th
              ||| (if (List.range (32 / n)).any fun j => decide (x j < lo) || decide (hi < x j) then 0x10 else 0)
    Computes (.padd2 h v d a b) false [d] [] true (does 16 (· + ·))
    ∧ Computes (.psub2 h v d a b) false [d] [] true (does 16 (· - ·))
    ∧ Computes (.pmul2 h v d a b) false [d] [] true (does 16 (· * ·))
    ∧ Computes (.padd4 h v d a b) false [d] [] true (does 8 (· + ·))

/-- R79: PMIN2 and PMAX2 pick per half, PCMP2 writes 0xFFFF or 0 per half; none sets a flag. -/
def Claims.PackedChoice : Prop :=
  ∀ (h : Hd) (v : BitVec 4) (d a : Code) (b : SrcB),
    let x (s : State) (th : Thread) (sg : Bool) (j : Nat) : Int := elem 16 sg (s.reg32 th a) j
    let y (s : State) (th : Thread) (sg : Bool) (j : Nat) : Int := elem 16 sg (s.b32 th b) j
    Computes (.pmin2 h v d a b) false [d] [] false
      (fun s t th => ∀ j, j < 2 → elem 16 (v == 0) (t.reg32 th d) j = min (x s th (v == 0) j) (y s th (v == 0) j))
    ∧ Computes (.pmax2 h v d a b) false [d] [] false
        (fun s t th => ∀ j, j < 2 → elem 16 (v == 0) (t.reg32 th d) j = max (x s th (v == 0) j) (y s th (v == 0) j))
    ∧ Computes (.pcmp2 h v d a b) false [d] [] false
        (fun s t th => ∀ j, j < 2 →
          let put (p : Prop) [Decidable p] : Prop := elem 16 false (t.reg32 th d) j = if p then 0xFFFF else 0
          (v = 0 → put (x s th true j = y s th true j))
          ∧ (v = 1 → put (x s th true j < y s th true j))
          ∧ (v = 2 → put (x s th true j ≤ y s th true j))
          ∧ (v = 3 → put (x s th false j < y s th false j))
          ∧ (v = 4 → put (x s th false j ≤ y s th false j))
          ∧ (v = 5 → put (x s th true j ≠ y s th true j)))

/-- R80: PMAC2 and PDOT4 add exact products to d and saturate the one sum once, with SAT where that changes it. -/
def Claims.PackedSums : Prop :=
  ∀ (h : Hd) (v : BitVec 4) (d a : Code) (b : SrcB),
    Computes (.pmac2 h d a b) false [d] [] true
      (fun s t th =>
        let e (j : Nat) : Int := elem 16 true (s.reg32 th a) j * elem 16 true (s.b32 th b) j
        let x := (s.reg32 th d).toInt + e 0 + e 1
        let y := max (-(2 ^ 31)) (min (2 ^ 31 - 1) x)
        (t.reg32 th d).toInt = y ∧ t.lswOf th = s.lswOf th ||| (if y = x then 0 else 0x10))
    ∧ Computes (.pdot4 h v d a b) false [d] [] true
        (fun s t th =>
          let e (j : Nat) : Int := elem 8 (v == 0) (s.reg32 th a) j * elem 8 (v != 1) (s.b32 th b) j
          let sum := e 0 + e 1 + e 2 + e 3
          (v = 1 →
            let x := (s.reg32 th d).toNat + sum
            let y := max 0 (min (2 ^ 32 - 1) x)
            ((t.reg32 th d).toNat : Int) = y ∧ t.lswOf th = s.lswOf th ||| (if y = x then 0 else 0x10))
          ∧ (v ≠ 1 →
            let x := (s.reg32 th d).toInt + sum
            let y := max (-(2 ^ 31)) (min (2 ^ 31 - 1) x)
            (t.reg32 th d).toInt = y ∧ t.lswOf th = s.lswOf th ||| (if y = x then 0 else 0x10)))

/-- R81, R82: PSHR2 shifts each half right, rounding for SUB 0; PNARROW rounds two words right by SUB and saturates them to
halves; PUNPK widens the element that SUB names. -/
def Claims.PackedShapes : Prop :=
  ∀ (h : Hd) (v : BitVec 4) (d a : Code) (b : SrcB),
    Computes (.pshr2 h v d a b) false [d] [] false
      (fun s t th =>
        let n := (s.b32 th b).toNat % 16
        ∀ j, j < 2 → elem 16 true (t.reg32 th d) j
          = if v = 0 ∧ n ≠ 0 then (elem 16 true (s.reg32 th a) j + 2 ^ (n - 1)) / 2 ^ n
            else elem 16 true (s.reg32 th a) j / 2 ^ n)
    ∧ Computes (.pnarrow h v d a b) false [d] [] true
        (fun s t th =>
          let n := v.toNat
          let r (x : Int) : Int := if n = 0 then x else (x + 2 ^ (n - 1)) / 2 ^ n
          let sat (x : Int) : Int := max (-32768) (min 32767 x)
          let lo := r (s.reg32 th a).toInt
          let hi := r (s.b32 th b).toInt
          elem 16 true (t.reg32 th d) 0 = sat lo ∧ elem 16 true (t.reg32 th d) 1 = sat hi
            ∧ t.lswOf th = s.lswOf th ||| (if sat lo = lo ∧ sat hi = hi then 0 else 0x10))
    ∧ Computes (.punpk h v d a) false [d] [] false
        (fun s t th =>
          let x := s.reg32 th a
          (v.toNat < 2 → (t.reg32 th d).toInt = elem 16 true x v.toNat)
          ∧ (2 ≤ v.toNat → v.toNat < 4 → ((t.reg32 th d).toNat : Int) = elem 16 false x (v.toNat - 2))
          ∧ (4 ≤ v.toNat → v.toNat < 8 → (t.reg32 th d).toInt = elem 8 true x (v.toNat - 4))
          ∧ (8 ≤ v.toNat → ((t.reg32 th d).toNat : Int) = elem 8 false x (v.toNat - 8)))

/-- R79: the packed instructions run on lanes only; the SUB values that they do not have. -/
def Claims.PackedForms : Prop :=
  ∀ (h : Hd) (v : BitVec 4) (d a : Code) (b : SrcB),
    let none' (is : List Instr) : Prop := ∀ i ∈ is, i.wellFormed = false
    (∀ i ∈ ([.padd2 h v d a b, .psub2 h v d a b, .pmul2 h v d a b, .pmac2 h d a b, .pmin2 h v d a b, .pmax2 h v d a b,
        .padd4 h v d a b, .pdot4 h v d a b, .pcmp2 h v d a b, .pshr2 h v d a b, .pnarrow h v d a b, .punpk h v d a] : List Instr),
      ∀ (e : Engine) (hg : Option (BitVec 512)) (handler : Bool), (∀ g, e ≠ .lane g) → legalFor e hg handler i = false)
    ∧ (3 ≤ v.toNat → none' [.padd2 h v d a b, .psub2 h v d a b, .padd4 h v d a b, .pdot4 h v d a b])
    ∧ (2 ≤ v.toNat → none' [.pmul2 h v d a b, .pshr2 h v d a b])
    ∧ (v ≠ 0 → v ≠ 2 → none' [.pmin2 h v d a b, .pmax2 h v d a b])
    ∧ (6 ≤ v.toNat → none' [.pcmp2 h v d a b])
    ∧ (12 ≤ v.toNat → none' [.punpk h v d a])

/-- R83, R84, R85: BCMP marks and BFIND finds the bytes of a that satisfy the mode; BHASH takes one step of the string
hash or finishes it; BCRC divides, one bit at a time, by the reflected CRC-32C polynomial. Other SUB values are undefined. -/
def Claims.BytesAndHashes : Prop :=
  ∀ (h : Hd) (v : BitVec 4) (d a : Code) (b : SrcB),
    let byte (x : Word) (j : Nat) : Nat := x.toNat / 2 ^ (8 * j) % 256
    let range (x : Nat) (y : Word) : Prop := byte y 0 ≤ x ∧ x ≤ byte y 1
    let crcBit (x : Word) : Word := if x.toNat % 2 = 1 then (x >>> 1) ^^^ 0x82F63B78 else x >>> 1
    Computes (.bcmp h v d a b) false [d] [] false
      (fun s t th =>
        let x := s.reg32 th a
        let y := s.b32 th b
        (t.reg32 th d).toNat < 16 ∧ ∀ j, j < 4 → ((t.reg32 th d).getLsbD j = true ↔
          (v = 0 ∧ byte x j = byte y j) ∨ (v = 1 ∧ byte x j = byte y 0) ∨ (v = 2 ∧ range (byte x j) y)))
    ∧ Computes (.bfind h v d a b) false [d] [] false
        (fun s t th =>
          let x := s.reg32 th a
          let y := s.b32 th b
          let hit (j : Nat) : Prop := (v = 0 ∧ byte x j = byte y 0) ∨ (v = 1 ∧ range (byte x j) y)
          let k := (t.reg32 th d).toNat
          k ≤ 4 ∧ (k < 4 → hit k) ∧ ∀ j, j < k → ¬hit j)
    ∧ Computes (.bhash h v d a) false [d] [] false
        (fun s t th =>
          let x := s.reg32 th d
          let y := s.reg32 th a
          (v = 0 → t.reg32 th d
            = (x ^^^ (y * 0x9B1D34C7).rotateLeft 11 * 0x5F2AE1D3).rotateLeft 17 * 9 + 0x6C3A92E1)
          ∧ (v = 1 →
            let p := (x ^^^ y ^^^ (x ^^^ y) >>> 15) * 0xA54FB2C3
            let q := (p ^^^ p >>> 13) * 0x3C6EF37B
            t.reg32 th d = q ^^^ q >>> 16))
    ∧ Computes (.bcrc h v d a) false [d] [] false
        (fun s t th =>
          t.reg32 th d = (List.range (if v = 0 then 4 else v.toNat)).foldl
            (fun x j => (List.range 8).foldl (fun x _ => crcBit x) (x ^^^ BitVec.ofNat 32 (byte (s.reg32 th a) j)))
            (s.reg32 th d))
    ∧ (3 ≤ v.toNat → (Instr.bcmp h v d a b).wellFormed = false ∧ (Instr.bcrc h v d a).wellFormed = false)
    ∧ (2 ≤ v.toNat → (Instr.bfind h v d a b).wellFormed = false ∧ (Instr.bhash h v d a).wellFormed = false)

/-! ### Cross-lane operations (R86 to R92) -/

/-- R86, R87, R88: SHFL reads a of the lane that the mode and the distance name where that lane is a member, else of the
lane itself; SLIDE moves every element one place, a neighbour that is no member supplying the fill. -/
def Claims.LaneMoves : Prop :=
  ∀ (h : Hd) (v : BitVec 4) (d a b : Code) (dist : BitVec 5),
    ComputesIn (.shfl h v d a b dist) (v.getLsbD 2) [d] [] false
      (fun s t u i =>
        let th := u.engine.thread
        let mem (j : Nat) : Prop := Member (.shfl h v d a b dist) s u j
        let n := if v.getLsbD 3 then dist.toNat else (s.reg32 (th i) b).toNat % 32
        let takes (j : Nat) : Prop :=
          if v.getLsbD 2 then t.reg64 (th i) d = s.reg64 (th j) a else t.reg32 (th i) d = s.reg32 (th j) a
        let from' (src : Int) : Prop :=
          (∀ j : Nat, (j : Int) = src → mem j → takes j) ∧ ((∀ j : Nat, (j : Int) = src → ¬mem j) → takes i)
        (slice v 0 2 = 0 → from' n) ∧ (slice v 0 2 = 1 → from' ((i : Int) - n)) ∧ (slice v 0 2 = 2 → from' (i + n))
          ∧ (slice v 0 2 = 3 → from' ((i ^^^ n : Nat) : Int)))
    ∧ ComputesIn (.slide h v d a b) false [d] [] false
        (fun s t u i =>
          let th := u.engine.thread
          let mem (j : Nat) : Prop := Member (.slide h v d a b) s u j
          let own := (s.reg32 (th i) a).toNat
          let fill := (s.reg32 (th i) b).toNat
          let get (j : Nat) : Nat := (s.reg32 (th j) a).toNat
          let y := (t.reg32 (th i) d).toNat
          let below (p : Nat → Prop) : Prop := (∀ j, j + 1 = i → mem j → p (get j)) ∧ ((∀ j, j + 1 = i → ¬mem j) → p fill)
          let above (p : Nat → Prop) : Prop := (mem (i + 1) → p (get (i + 1))) ∧ (¬mem (i + 1) → p fill)
          (v = 0 → y / 2 ^ 16 = own % 2 ^ 16
            ∧ (∀ j, j + 1 = i → mem j → y % 2 ^ 16 = get j / 2 ^ 16)
            ∧ ((∀ j, j + 1 = i → ¬mem j) → y % 2 ^ 16 = fill % 2 ^ 16))
          ∧ (v = 1 → y % 2 ^ 16 = own / 2 ^ 16 ∧ above fun x => y / 2 ^ 16 = x % 2 ^ 16)
          ∧ (v = 2 → below fun x => y = x)
          ∧ (v = 3 → above fun x => y = x))

/-- R89: VOTE and MATCH summarise the members: any, all, the mask of those with the bit set, the mask of all, and the mask
of those whose a is the same. -/
def Claims.Votes : Prop :=
  ∀ (h : Hd) (v : BitVec 4) (d a : Code) (ca : CBit),
    ComputesIn (.vote h v d ca) false (if 2 ≤ v then [d] else []) (if 2 ≤ v then [] else [d.truncate 3]) false
      (fun s t u i =>
        let th := u.engine.thread
        let mem (j : Nat) : Prop := Member (.vote h v d ca) s u j
        let cd : CBit := d.truncate 3
        (v = 0 → (t.condBit (th i) cd = true ↔ cd = 7 ∨ ∃ j, mem j ∧ s.condBit (th j) ca = true))
        ∧ (v = 1 → (t.condBit (th i) cd = true ↔ cd = 7 ∨ ∀ j, mem j → s.condBit (th j) ca = true))
        ∧ (v = 2 → ∀ j, j < 32 → ((t.reg32 (th i) d).getLsbD j = true ↔ mem j ∧ s.condBit (th j) ca = true))
        ∧ (v = 3 → ∀ j, j < 32 → ((t.reg32 (th i) d).getLsbD j = true ↔ mem j)))
    ∧ ComputesIn (.matchLanes h v d a) false [d] [] false
        (fun s t u i =>
          let th := u.engine.thread
          let mem (j : Nat) : Prop := Member (.matchLanes h v d a) s u j
          ∀ j, j < 32 → ((t.reg32 (th i) d).getLsbD j = true ↔ mem j ∧
            (if v = 4 then s.reg64 (th j) a = s.reg64 (th i) a else s.reg32 (th j) a = s.reg32 (th i) a)))

/-- R90, R91: SCAN gives each member the inclusive prefix, or with MD 1 the exclusive one, and REDUX gives a group register
the total, of the members' values with the identity for the other lanes; the integer operations set no flag, and the L32
add follows the fixed trees with the flags of their nodes. -/
def Claims.Prefixes : Prop :=
  ∀ (h : Hd) (v md : BitVec 4) (d a : Code),
    let value (i : Instr) (s : State) (u : Issue) (j : Nat) : Word :=
      if (u.members s i).contains j then s.reg32 (u.engine.thread j) a else scanIdentity v.toNat
    let sums (x : Nat → Word) (n : Nat) (y : Word) : Prop :=
      (v = 0 → y.toNat = ((List.range n).map fun j => (x j).toNat).sum % 2 ^ 32)
      ∧ (v = 1 → y.toInt = ((List.range n).map fun j => (x j).toInt).foldl min (2 ^ 31 - 1))
      ∧ (v = 2 → y.toInt = ((List.range n).map fun j => (x j).toInt).foldl max (-(2 ^ 31)))
      ∧ (v = 3 → y.toNat = ((List.range n).map fun j => (x j).toNat).foldl min (2 ^ 32 - 1))
      ∧ (v = 4 → y.toNat = ((List.range n).map fun j => (x j).toNat).foldl max 0)
      ∧ (v = 5 → y = (scanFirst 5 x n).1)
    ComputesIn (.scan h v md d a) false [d] [] (v == 5)
      (fun s t u i =>
        let n := if md = 1 then i else i + 1
        let x := value (.scan h v md d a) s u
        i < 32 → sums x n (t.reg32 (u.engine.thread i) d) ∧
          t.lswOf (u.engine.thread i) = s.lswOf (u.engine.thread i) ||| (if v = 5 then (scanFirst 5 x n).2 else 0))
    ∧ ComputesIn (.redux h v d a) false [d] [] (v == 5)
        (fun s t u i =>
          let x := value (.redux h v d a) s u
          sums x 32 (t.reg32 (u.engine.thread i) d) ∧
            t.lswOf (u.engine.thread i) = s.lswOf (u.engine.thread i) ||| (if v = 5 then (scanFirst 5 x 32).2 else 0))

/-- R92: BCAST gives the group register a of the lowest or, with SUB 1, of the highest member; GMOV reads the group register
that b chooses, b mod 64 on a lane and b mod 16 in a method. -/
def Claims.Broadcasts : Prop :=
  ∀ (h : Hd) (v : BitVec 4) (d a b : Code),
    ComputesIn (.bcast h v d a) false [d] [] false
      (fun s t u i =>
        let mem (j : Nat) : Prop := Member (.bcast h v d a) s u j
        u.run.Pairwise (· < ·) →
        (v = 0 → ∀ j, mem j → (∀ k, mem k → j ≤ k) → t.reg32 (u.engine.thread i) d = s.reg32 (u.engine.thread j) a)
        ∧ (v = 1 → ∀ j, mem j → (∀ k, mem k → k ≤ j) → t.reg32 (u.engine.thread i) d = s.reg32 (u.engine.thread j) a))
    ∧ Computes (.gmov h d b) false [d] [] false
        (fun s t th =>
          let n := (s.reg32 th b).toNat
          ((∃ l, th = .lane l) → t.reg32 th d = s.reg32 th (BitVec.ofNat 8 (192 + n % 64)))
          ∧ ((∃ k i, th = .wave k i) → t.reg32 th d = s.reg32 th (BitVec.ofNat 8 (192 + n % 16))))

/-! ### Log arithmetic (R105 to R118) -/

/-- R106, R108: LMUL and LDIV, class by class. -/
def Claims.LogMultiply : Prop :=
  ∀ (h : Hd) (v md : BitVec 4) (d a : Code) (b : SrcB),
    let does (rule : LogFmt → LogVal → LogVal → LogVal × Word → Prop) (s t : State) (th : Thread) : Prop :=
      LogDoes v d s t th fun m k r => rule m (logAt m k (s.reg32 th a)) (logAt m k (s.b32 th b)) r
    let fin := md == 1
    Computes (.lmul h v md d a b) false [d] [] true
      (does fun m x y r =>
        (x = .nan ∨ y = .nan → r = (.nan, 0))
        ∧ (∀ p, (x = .zero ∧ y = .inf p) ∨ (x = .inf p ∧ y = .zero) → r = (.nan, 1))
        ∧ (x = .zero → y = .zero → r = (.zero, 0))
        ∧ (∀ p e, (x = .zero ∧ y = .fin p e) ∨ (x = .fin p e ∧ y = .zero) → r = (.zero, 0))
        ∧ (∀ p q, x = .inf p → y = .inf q → r = (.inf (p != q), 0))
        ∧ (∀ p q e, (x = .inf p ∧ y = .fin q e) ∨ (x = .fin q e ∧ y = .inf p) → r = (.inf (p != q), 0))
        ∧ (∀ p e q f, x = .fin p e → y = .fin q f → Finish m fin (p != q) (e + f) r))
    ∧ Computes (.ldiv h v md d a b) false [d] [] true
        (does fun m x y r =>
          (x = .nan ∨ y = .nan → r = (.nan, 0))
          ∧ (x = .zero → y = .zero → r = (.nan, 1))
          ∧ (∀ p q, x = .inf p → y = .inf q → r = (.nan, 1))
          ∧ (∀ q f, x = .zero → y = .fin q f → r = (.zero, 0))
          ∧ (∀ q, x = .zero → y = .inf q → r = (.zero, 0))
          ∧ (∀ p e q, x = .fin p e → y = .inf q → r = (.zero, 0))
          ∧ (∀ p, x = .inf p → y = .zero → r = (.inf p, 0))
          ∧ (∀ p q f, x = .inf p → y = .fin q f → r = (.inf (p != q), 0))
          ∧ (∀ p e, x = .fin p e → y = .zero → Overflow m fin p r)
          ∧ (∀ p e q f, x = .fin p e → y = .fin q f → Finish m fin (p != q) (e - f) r))

/-- R109: LSQRT, LRSQRT, LSQR and LRCP, class by class; the two roots round the halved field once, ties to even. -/
def Claims.LogRoots : Prop :=
  ∀ (h : Hd) (v md : BitVec 4) (d a : Code),
    let does (rule : LogFmt → LogVal → LogVal × Word → Prop) (s t : State) (th : Thread) : Prop :=
      LogDoes v d s t th fun m k r => rule m (logAt m k (s.reg32 th a)) r
    let fin := md == 1
    Computes (.lsqrt h v d a) false [d] [] true
      (does fun _ x r =>
        (x = .nan → r = (.nan, 0)) ∧ (x = .zero → r = (.zero, 0)) ∧ (x = .inf false → r = (.inf false, 0))
        ∧ (x = .inf true → r = (.nan, 1)) ∧ (∀ e, x = .fin true e → r = (.nan, 1))
        ∧ (∀ e, x = .fin false e → ∃ q, NearestEven e 1 q ∧ r = (.fin false q, 0)))
    ∧ Computes (.lrsqrt h v md d a) false [d] [] true
        (does fun m x r =>
          (x = .nan → r = (.nan, 0)) ∧ (x = .zero → Overflow m fin false r) ∧ (x = .inf false → r = (.zero, 0))
          ∧ (x = .inf true → r = (.nan, 1)) ∧ (∀ e, x = .fin true e → r = (.nan, 1))
          ∧ (∀ e, x = .fin false e → ∃ q, NearestEven (-e) 1 q ∧ Finish m fin false q r))
    ∧ Computes (.lsqr h v md d a) false [d] [] true
        (does fun m x r =>
          (x = .nan → r = (.nan, 0)) ∧ (x = .zero → r = (.zero, 0)) ∧ (∀ p, x = .inf p → r = (.inf false, 0))
          ∧ (∀ p e, x = .fin p e → Finish m fin false (2 * e) r))
    ∧ Computes (.lrcp h v md d a) false [d] [] true
        (does fun m x r =>
          (x = .nan → r = (.nan, 0)) ∧ (x = .zero → Overflow m fin false r) ∧ (∀ p, x = .inf p → r = (.zero, 0))
          ∧ (∀ p e, x = .fin p e → Finish m fin p (-e) r))

/-- R110, R111: LPOWI raises to the integer b, LPOWF to b / 2^16, rounding once; LSCALE adds an offset to the field. -/
def Claims.LogPowers : Prop :=
  ∀ (h : Hd) (v md : BitVec 4) (d a : Code) (b : SrcB),
    let fin := md == 1
    let power (k : Nat) (s t : State) (th : Thread) : Prop :=
      let p := (s.b32 th b).toInt
      let whole : Prop := p % 2 ^ k = 0
      let odd : Prop := whole ∧ p / 2 ^ k % 2 = 1
      LogDoes v d s t th fun m j r =>
        let x := logAt m j (s.reg32 th a)
        (x = .nan → r = (.nan, 0))
        ∧ (x ≠ .nan → p = 0 → r = (.fin false 0, 0))
        ∧ (∀ e, p ≠ 0 → x = .inf true ∨ x = .fin true e → ¬whole → r = (.nan, 1))
        ∧ (x = .zero → 0 < p → r = (.zero, 0))
        ∧ (x = .zero → p < 0 → Overflow m fin false r)
        ∧ (∀ q, x = .inf q → 0 < p → (q = true → whole) →
            (q = true ∧ odd → r = (.inf true, 0)) ∧ (¬(q = true ∧ odd) → r = (.inf false, 0)))
        ∧ (∀ q, x = .inf q → p < 0 → (q = true → whole) → r = (.zero, 0))
        ∧ (∀ q e, x = .fin q e → p ≠ 0 → (q = true → whole) → ∃ f, NearestEven (e * p) k f
            ∧ (q = true ∧ odd → Finish m fin true f r) ∧ (¬(q = true ∧ odd) → Finish m fin false f r))
    Computes (.lpowi h v md d a b) false [d] [] true (power 0)
    ∧ Computes (.lpowf h v md d a b) false [d] [] true (power 16)
    ∧ Computes (.lscale h v md d a b) false [d] [] true
        (fun s t th => LogDoes v d s t th fun m k r =>
          let x := logAt m k (s.reg32 th a)
          let off := (s.b32 th b).toInt * (if v.getLsbD 2 then 2 ^ m.f else 1)
          (x = .nan ∨ x = .zero ∨ x = .inf false ∨ x = .inf true → r = (x, 0))
          ∧ ∀ p e, x = .fin p e → Finish m fin p (e + off) r)

/-- R112, R113: LADD, LSUB, LMAD and LMSB, class by class; a sum of finite values is the Gaussian-log add of the exact
operands, rounded once and finished once, and a product enters it exactly. -/
def Obligations.LogAdditive : Prop :=
  ∀ (h : Hd) (v md : BitVec 4) (d a c : Code) (b : SrcB),
    let fin := md == 1
    let add (m : LogFmt) (x y : LogVal) (r : LogVal × Word) : Prop :=
      (x = .nan ∨ y = .nan → r = (.nan, 0))
      ∧ (∀ p q, x = .inf p → y = .inf q → r = if p = q then (.inf p, 0) else (.nan, 1))
      ∧ (∀ p, x = .inf p → y = .zero ∨ (∃ q f, y = .fin q f) → r = (.inf p, 0))
      ∧ (∀ p, y = .inf p → x = .zero ∨ (∃ q f, x = .fin q f) → r = (.inf p, 0))
      ∧ (x = .zero → y = .zero → r = (.zero, 0))
      ∧ (∀ p e, (x = .zero ∧ y = .fin p e) ∨ (x = .fin p e ∧ y = .zero) → Finish m fin p e r)
      ∧ (∀ p e q f, x = .fin p e → y = .fin q f →
          ((gadd m.f p e q f).1 = none → r = (.zero, (gadd m.f p e q f).2))
          ∧ ∀ z g, (gadd m.f p e q f).1 = some (z, g) →
              ∃ r', Finish m fin z g r' ∧ r = (r'.1, r'.2 ||| (gadd m.f p e q f).2))
    let mul (x y p : LogVal) (fl : Word) : Prop :=
      (x = .nan ∨ y = .nan → p = .nan ∧ fl = 0)
      ∧ (∀ q, (x = .zero ∧ y = .inf q) ∨ (x = .inf q ∧ y = .zero) → p = .nan ∧ fl = 1)
      ∧ (x = .zero → y = .zero → p = .zero ∧ fl = 0)
      ∧ (∀ q e, (x = .zero ∧ y = .fin q e) ∨ (x = .fin q e ∧ y = .zero) → p = .zero ∧ fl = 0)
      ∧ (∀ q z, x = .inf q → y = .inf z → p = .inf (q != z) ∧ fl = 0)
      ∧ (∀ q z e, (x = .inf q ∧ y = .fin z e) ∨ (x = .fin z e ∧ y = .inf q) → p = .inf (q != z) ∧ fl = 0)
      ∧ (∀ q e z f, x = .fin q e → y = .fin z f → p = .fin (q != z) (e + f) ∧ fl = 0)
    let sum (neg : Bool) (s t : State) (th : Thread) : Prop :=
      LogDoes v d s t th fun m k r =>
        let y := logAt m k (s.b32 th b)
        add m (logAt m k (s.reg32 th a)) (if neg then y.neg else y) r
    let fused (neg : Bool) (s t : State) (th : Thread) : Prop :=
      LogDoes v d s t th fun m k r =>
        let z := logAt m k (s.reg32 th c)
        (z = .nan → r = (.nan, 0))
        ∧ (z ≠ .nan → ∃ p fl r', mul (logAt m k (s.reg32 th a)) (logAt m k (s.b32 th b)) p fl
            ∧ add m p (if neg then z.neg else z) r' ∧ r = (r'.1, fl ||| r'.2))
    Computes (.ladd h v md d a b) false [d] [] true (sum false)
    ∧ Computes (.lsub h v md d a b) false [d] [] true (sum true)
    ∧ Computes (.lmad h v md d a b c) false [d] [] true (fused false)
    ∧ Computes (.lmsb h v md d a b c) false [d] [] true (fused true)

/-- R114, R115: LABS, LNEG and LCLAMP by class, LMIN and LMAX by the order of R115; none sets a flag. -/
def Claims.LogSelect : Prop :=
  ∀ (h : Hd) (v : BitVec 4) (d a : Code) (b : SrcB),
    let one (f : LogVal → LogVal) (s t : State) (th : Thread) : Prop :=
      LogDoes v d s t th fun m k r => r = (f (logAt m k (s.reg32 th a)), 0)
    let two (rule : LogFmt → LogVal → LogVal → LogVal → Prop) (s t : State) (th : Thread) : Prop :=
      LogDoes v d s t th fun m k r => r.2 = 0 ∧ rule m (logAt m k (s.reg32 th a)) (logAt m k (s.b32 th b)) r.1
    let pick (le : Int → Int → Prop) (m : LogFmt) (x y r : LogVal) : Prop :=
      (x = .nan → y = .nan → r = .nan)
      ∧ (x = .nan → y ≠ .nan → r = if v.getLsbD 2 then y else .nan)
      ∧ (x ≠ .nan → y = .nan → r = if v.getLsbD 2 then x else .nan)
      ∧ (∀ p q, m.key x = some p → m.key y = some q → (r = x ∧ le p q) ∨ (r = y ∧ le q p))
    Computes (.labs h v d a) false [d] [] false
      (one fun x => match x with | .inf _ => .inf false | .fin _ e => .fin false e | x => x)
    ∧ Computes (.lneg h v d a) false [d] [] false
        (one fun x => match x with | .inf p => .inf (!p) | .fin p e => .fin (!p) e | x => x)
    ∧ Computes (.lclamp h v d a b) false [d] [] false
        (two fun _ x y r =>
          (x = .nan ∨ y = .nan → r = .nan) ∧ (x ≠ .nan → y = .zero → r = .zero) ∧ (∀ q, x ≠ .nan → y = .inf q → r = x)
          ∧ (∀ q f, x = .zero → y = .fin q f → r = .zero) ∧ (∀ p q f, x = .inf p → y = .fin q f → r = .fin p f)
          ∧ (∀ p e q f, x = .fin p e → y = .fin q f → r = .fin p (min e f)))
    ∧ Computes (.lmin h v d a b) false [d] [] false (two (pick (· ≤ ·)))
    ∧ Computes (.lmax h v d a b) false [d] [] false (two (pick (· ≥ ·)))

/-- R116, R117: LCMP compares on the order of R115, with a NaN ordered with nothing; LCLASS tests the class of a against
its mask; c7 keeps reading 1. -/
def Claims.LogCompare : Prop :=
  ∀ (h : Hd) (v md : BitVec 4) (cd : CBit) (a : Code) (b : SrcB) (mask : BitVec 6),
    let m := if slice v 0 2 = 0 then l32 else l16
    Computes (.lcmp h v md cd a b) false [] [cd] false
      (fun s t th =>
        let x := logAt m 0 (s.reg32 th a)
        let y := logAt m 0 (s.b32 th b)
        let gives (p : Prop) : Prop := t.condBit th cd = true ↔ cd = 7 ∨ p
        (x = .nan ∨ y = .nan → gives (md = 1 ∨ md = 6))
        ∧ ∀ p q, m.key x = some p → m.key y = some q →
            (md = 0 → gives (p = q)) ∧ (md = 1 → gives (p ≠ q)) ∧ (md = 2 → gives (p < q)) ∧ (md = 3 → gives (p ≤ q))
            ∧ (md = 4 → gives (p > q)) ∧ (md = 5 → gives (p ≥ q)) ∧ (md = 6 → gives False) ∧ (md = 7 → gives True))
    ∧ Computes (.lclass h v cd a mask) false [] [cd] false
        (fun s t th =>
          let x := logAt m 0 (s.reg32 th a)
          let gives (j : Nat) : Prop := t.condBit th cd = true ↔ cd = 7 ∨ mask.getLsbD j = true
          (x = .nan → gives 0) ∧ (x = .inf true → gives 1) ∧ (∀ e, x = .fin true e → gives 2) ∧ (x = .zero → gives 3)
          ∧ (∀ e, x = .fin false e → gives 4) ∧ (x = .inf false → gives 5))

/-- R118: LEXP2 makes the value of a, rounded to the field's grid, the field; LLOG2 makes the field a value. Their finite
cases are those of CVTLX and CVTXL with q = F. -/
def Claims.LogExponentials : Prop :=
  ∀ (h : Hd) (v md : BitVec 4) (d a : Code),
    let does (rule : LogFmt → LogVal → LogVal × Word → Prop) (s t : State) (th : Thread) : Prop :=
      LogDoes v d s t th fun m k r => rule m (logAt m k (s.reg32 th a)) r
    let fin := md == 1
    Computes (.lexp2 h v md d a) false [d] [] true
      (does fun m x r =>
        (x = .nan → r = (.nan, 0)) ∧ (x = .zero → r = (.fin false 0, 0)) ∧ (x = .inf false → r = (.inf false, 0))
        ∧ (x = .inf true → r = (.zero, 0)) ∧ (x = .fin false 0 → r = (.fin false (2 ^ m.f), 0))
        ∧ (∀ p e, x = .fin p e →
            let mag := magOf m e 0
            let n := Mag.round { mag with e := mag.e + m.f } 0 p
            Finish m fin false (if p then -(n : Int) else n) r))
    ∧ Computes (.llog2 h v md d a) false [d] [] true
        (does fun m x r =>
          (x = .nan → r = (.nan, 0)) ∧ (x = .zero → Overflow m fin true r) ∧ (x = .inf false → r = (.inf false, 0))
          ∧ (x = .inf true → r = (.nan, 1)) ∧ (∀ e, x = .fin true e → r = (.nan, 1))
          ∧ (x = .fin false 0 → r = (.zero, 0))
          ∧ (∀ e, x = .fin false e → e ≠ 0 → Finish m fin (decide (e < 0)) (fieldOf m e.natAbs (-(m.f : Int)) 0) r))

/-! ### Conversions (R119 to R125) -/

/-- R63, R120, R121: CVTFL and CVTLF, class by class; a finite value is rounded once, into L16 correctly (R119): the field is
the nearest to 512 times the base-2 logarithm of the number. -/
def Claims.IeeeConversions : Prop :=
  ∀ (h : Hd) (v md : BitVec 4) (d a b : Code),
    let places (k : BitVec 2) : List Nat := if k = 2 then [0, 16] else [0]
    let ieee (k : BitVec 2) : Ieee := if k = 0 then ⟨8, 23⟩ else if k = 1 then ⟨5, 10⟩ else ⟨8, 7⟩
    Computes (.cvtfl h v md d a b) false [d] [] true
      (fun s t th =>
        let src := ieee (slice v 2 2)
        let m := if slice v 0 2 = 0 then l32 else l16
        let off : Int := if md = 1 then (s.reg32 th b).toInt else 0
        let rule (k : Nat) (r : LogVal × Word) : Prop :=
          let x := src.decode ((s.reg32 th a).toNat / 2 ^ k % 2 ^ src.width)
          (x = .zero → r = (.zero, 0)) ∧ (x = .nan → r = (.nan, 0)) ∧ (∀ p, x = .inf p → r = (.inf p, 0))
          ∧ (∀ p n e, x = .fin p n e → ∃ f, Finish m false p f r
              ∧ (m.f = 23 → f = fieldOf m n e off)
              ∧ (m.f = 9 → let z := 2 * f - 1 - 1024 * e - 2 * off
                  (0 ≤ z → 2 ^ z.toNat ≤ n ^ 1024) ∧ (0 ≤ z + 2 → n ^ 1024 ≤ 2 ^ (z + 2).toNat)))
        (∃ rs : List (LogVal × Word), rs.length = (places (slice v 0 2)).length
          ∧ (∀ (j : Nat) r (k : Nat), rs[j]? = some r → (places (slice v 0 2))[j]? = some k →
              rule k r ∧ logAt m k (t.reg32 th d) = r.1)
          ∧ t.lswOf th = rs.foldl (fun w r => w ||| r.2) (s.lswOf th))
        ∧ (slice v 0 2 = 1 → (t.reg32 th d).toNat < 2 ^ 16))
    ∧ Computes (.cvtlf h v d a) false [d] [] true
        (fun s t th =>
          let dst := ieee (slice v 0 2)
          let m := if slice v 2 2 = 0 then l32 else l16
          let rule (k : Nat) (r : Nat × Word) : Prop :=
            let x := logAt m k (s.reg32 th a)
            (x = .zero → r = (0, 0)) ∧ (x = .nan → r = (dst.nan, 0)) ∧ (∀ p, x = .inf p → r = (dst.inf p, 0))
            ∧ (∀ p e, x = .fin p e → r = dst.round p (magOf m e 0))
          (∃ rs : List (Nat × Word), rs.length = (places (slice v 2 2)).length
            ∧ (∀ (j : Nat) r (k : Nat), rs[j]? = some r → (places (slice v 2 2))[j]? = some k →
                rule k r ∧ (t.reg32 th d).toNat / 2 ^ k % 2 ^ dst.width = r.1)
            ∧ t.lswOf th = rs.foldl (fun w r => w ||| r.2) (s.lswOf th))
          ∧ (slice v 2 2 ≠ 2 → (t.reg32 th d).toNat < 2 ^ dst.width))

/-- R122, R123: CVTIL and CVTXL, of the number a / 2^q, correctly rounded into L16; CVTLI and CVTLX round the number times
2^q once in their mode and then clamp with SAT, or wrap. -/
def Claims.IntegerConversions : Prop :=
  ∀ (h : Hd) (v md : BitVec 4) (d a : Code) (q : BitVec 6),
    let m := if slice v 0 2 = 0 then l32 else l16
    let source (s : State) (th : Thread) : Int :=
      if slice v 2 2 = 0 then (s.reg32 th a).toInt else if slice v 2 2 = 1 then (s.reg32 th a).toNat
      else if slice v 2 2 = 2 then (s.reg64 th a).toInt else (s.reg64 th a).toNat
    let toLog (q : Nat) (s t : State) (th : Thread) : Prop :=
      let x := source s th
      ∃ r : LogVal × Word, logAt m 0 (t.reg32 th d) = r.1 ∧ (slice v 0 2 = 1 → (t.reg32 th d).toNat < 2 ^ 16)
        ∧ t.lswOf th = s.lswOf th ||| r.2
        ∧ (x = 0 → r = (.zero, 0))
        ∧ (x ≠ 0 → ∃ f, Finish m false (decide (x < 0)) f r
            ∧ (m.f = 23 → f = fieldOf m x.natAbs (-(q : Int)) 0)
            ∧ (m.f = 9 → let z := 2 * f - 1 + 1024 * q
                (0 ≤ z → 2 ^ z.toNat ≤ x.natAbs ^ 1024) ∧ (0 ≤ z + 2 → x.natAbs ^ 1024 ≤ 2 ^ (z + 2).toNat)))
    let toInt (q : Nat) (s t : State) (th : Thread) : Prop :=
      let w := if v.getLsbD 3 then 64 else 32
      let sg := !v.getLsbD 2
      let lo : Int := if sg then -(2 ^ (w - 1)) else 0
      let hi : Int := if sg then 2 ^ (w - 1) - 1 else 2 ^ w - 1
      let x := logAt m 0 (s.reg32 th a)
      let gives (y : Int) (fl : Word) : Prop :=
        t.intReg th (v.getLsbD 3) sg d = y ∧ t.lswOf th = s.lswOf th ||| fl
      (x = .nan → gives 0 1)
      ∧ (∀ p, x = .inf p → if md.getLsbD 2 then gives 0 1 else gives (if p then lo else hi) 0x10)
      ∧ (x = .zero → gives 0 0)
      ∧ (∀ p e, x = .fin p e →
          let mag := magOf m e 0
          let n : Nat := Mag.round { mag with e := mag.e + q } (slice md 0 2).toNat p
          let n : Int := if p then -(n : Int) else n
          (lo ≤ n → n ≤ hi → gives n 0)
          ∧ (¬(lo ≤ n ∧ n ≤ hi) → md.getLsbD 2 = false → gives (max lo (min hi n)) 0x10)
          ∧ (¬(lo ≤ n ∧ n ≤ hi) → md.getLsbD 2 = true →
              t.intReg th (v.getLsbD 3) false d = n % 2 ^ w ∧ t.lswOf th = s.lswOf th))
    Computes (.cvtil h v d a) false [d] [] true (toLog 0)
    ∧ Computes (.cvtxl h v d a q) false [d] [] true (toLog q.toNat)
    ∧ Computes (.cvtli h v md d a) (v.getLsbD 3) [d] [] true (toInt 0)
    ∧ Computes (.cvtlx h v md d a q) (v.getLsbD 3) [d] [] true (toInt q.toNat)

/-- R124, R125: CVTLL widens exactly and narrows with one rounding of the field; LFLD moves raw fields. -/
def Claims.LogWidths : Prop :=
  ∀ (h : Hd) (v : BitVec 4) (d a b : Code),
    let narrow (x : Word) (y : Nat) (fl : Word) : Prop :=
      let r := l16.decode y
      ((l32.decode x.toNat = .zero ∨ l32.decode x.toNat = .nan ∨ ∃ p, l32.decode x.toNat = .inf p) →
        r = l32.decode x.toNat ∧ fl = 0)
      ∧ (∀ p e, l32.decode x.toNat = .fin p e → ∃ f, NearestEven e 14 f ∧ Finish l16 false p f (r, fl))
    let widen (x : Nat) (y : Word) : Prop :=
      ((l16.decode x = .zero ∨ l16.decode x = .nan ∨ ∃ p, l16.decode x = .inf p) → l32.decode y.toNat = l16.decode x)
      ∧ (∀ p e, l16.decode x = .fin p e → l32.decode y.toNat = .fin p (e * 2 ^ 14))
    Computes (.cvtll h v d a b) false [d] [] true
      (fun s t th =>
        let x := s.reg32 th a
        let y := t.reg32 th d
        (v = 0 → ∃ fl, narrow x (y.toNat % 2 ^ 16) fl ∧ y.toNat < 2 ^ 16 ∧ t.lswOf th = s.lswOf th ||| fl)
        ∧ (v = 1 → widen (x.toNat % 2 ^ 16) y ∧ t.lswOf th = s.lswOf th)
        ∧ (v = 2 → ∃ fl fl', narrow x (y.toNat % 2 ^ 16) fl ∧ narrow (s.reg32 th b) (y.toNat / 2 ^ 16) fl'
            ∧ t.lswOf th = s.lswOf th ||| (fl ||| fl'))
        ∧ (v = 5 → widen (x.toNat / 2 ^ 16) y ∧ t.lswOf th = s.lswOf th))
    ∧ Computes (.lfld h v d a b) false [d] [] false
        (fun s t th =>
          let x := (s.reg32 th a).toNat
          let y := (s.reg32 th b).toNat
          let z := t.reg32 th d
          let signed (n : Nat) : Int := if x % 2 ^ n < 2 ^ (n - 1) then x % 2 ^ n else (x % 2 ^ n : Nat) - (2 ^ n : Int)
          (v = 0 → z.toInt = signed 31) ∧ (v = 1 → z.toInt = signed 15)
          ∧ (v = 2 → z.toNat = x / 2 ^ 31 * 2 ^ 31 + y % 2 ^ 31)
          ∧ (v = 3 → z.toNat = x / 2 ^ 15 % 2 * 2 ^ 15 + y % 2 ^ 15))


/-! ### The Gaussian-log unit and the roundings (R91, R119 to R123, R201 to R216) -/

namespace Sys2Proof.Machine

open Sys2Proof

/-- The number that a magnitude code of an IEEE format stands for; the code of Inf stands for the power of two after the
largest finite number. -/
noncomputable def Ieee.magnitude (t : Ieee) (w : Nat) : ℝ :=
  (if w / 2 ^ t.fbits = 0 then (w : ℝ) else (2 ^ t.fbits + w % 2 ^ t.fbits : Nat) * 2 ^ (w / 2 ^ t.fbits - 1))
    * 2 ^ ((1 : Int) - t.bias - t.fbits)

/-- x is a number that a magnitude stands for: its own number or, where it is sticky, any number between that and the next. -/
def Mag.Holds (a : Mag) (x : ℝ) : Prop :=
  (a.sticky = false → x = a.m * (2 : ℝ) ^ a.e)
  ∧ (a.sticky = true → a.m * (2 : ℝ) ^ a.e < x ∧ x < (a.m + 1) * (2 : ℝ) ^ a.e)

/-- n is the whole number to which x, of sign s, is rounded: to the nearest, ties to even (0), toward zero (1), down (2), up
(3) (R123). -/
def RoundsTo (x : ℝ) (mode : Nat) (s : Bool) (n : Nat) : Prop :=
  let down : Prop := (n : ℝ) ≤ x ∧ x < n + 1
  let up : Prop := x ≤ n ∧ (n : ℝ) < x + 1
  (mode = 0 → |x - n| ≤ 1 / 2 ∧ (|x - n| = 1 / 2 → n % 2 = 0))
  ∧ (mode = 1 → down) ∧ (mode = 2 → if s then up else down) ∧ (mode = 3 → if s then down else up)

end Sys2Proof.Machine

/-- R201, R202, R204 to R210, R212: the add of two finite values is the larger magnitude's field plus SBP or DBP of the
difference, and zero where they cancel; SB and DB at P9 and P12 have the values and the thresholds that the tables give; at P23
they are the quadratic of the difference's segment, rounded once, and near cancellation the cotransformation, with CX. -/
def Claims.GaussianAdd : Prop :=
  (∀ (F : Nat) (p q : Bool) (e f : Int),
    (f ≤ e → p = q → gadd F p e q f = (some (p, e + sbOf F (f - e)), 0))
    ∧ (f < e → p ≠ q → gadd F p e q f = (some (p, e + dbOf F (f - e)), if F = 23 ∧ e - f < 2 ^ 19 then 8 else 0))
    ∧ (e < f → gadd F p e q f = gadd F q f p e)
    ∧ (p ≠ q → gadd F p e q e = (none, 0)))
  ∧ (∀ d : Int, d ≤ -5391 → sbOf 9 d = 0 ∧ dbOf 9 d = 0) ∧ sbOf 9 (-5390) = 1 ∧ dbOf 9 (-5390) = -1
  ∧ (∀ d : Int, d ≤ -55414 → sbOf 12 d = 0) ∧ (∀ d : Int, d ≤ -55415 → dbOf 12 d = 0)
  ∧ sbOf 12 (-55413) = 1 ∧ dbOf 12 (-55414) = -1 ∧ sbOf 9 0 = 512 ∧ sbOf 12 0 = 4096 ∧ sbOf 23 0 = 2 ^ 23
  ∧ (∀ r ∈ [(1, 512, -4879), (256, 395, -907), (512, 300, -512), (1024, 165, -212), (1536, 87, -99), (2048, 45, -48),
      (3072, 11, -12), (5120, 1, -1), (5632, 0, 0)], sbOf 9 (-r.1) = r.2.1 ∧ dbOf 9 (-r.1) = r.2.2)
  ∧ (∀ r ∈ [(8, 4092, -39034), (2048, 3160, -7256), (4096, 2396, -4096), (8192, 1319, -1700), (12288, 696, -789),
      (16384, 358, -381), (24576, 92, -93), (40960, 6, -6), (45056, 3, -3), (53248, 1, -1), (57344, 0, 0)],
      sbOf 12 (-r.1) = r.2.1 ∧ dbOf 12 (-r.1) = r.2.2)
  ∧ (∀ (T : Tab) (j t : Nat), poly23 T j t
      = (tabRow T j).cf0 + ((tabRow T j).cf1 + (tabRow T j).cf2 * t / 2 ^ 17) * t / 2 ^ 19)
  ∧ (∀ r ∈ [(0, 92, 4, 0), (1, 93, 4, 0), (2, 94, 4, 0), (3, 95, 4, 0), (1532, 1040550772, 32827725, 90819),
      (1533, 1048780408, 33009364, 90835), (1534, 1057055458, 33191036, 90846), (1535, 1065375929, 33372729, 90851)],
      tabRow .sb r.1 = ⟨r.2.1, r.2.2.1, r.2.2.2⟩)
  ∧ (∀ r ∈ [(0, -92, -4, 0), (1, -93, -4, 0), (2, -94, -4, 0), (3, -95, -4, 0), (1532, -4896159163, -1493732585, -255497452),
      (1533, 0, 0, 0), (1534, 0, 0, 0), (1535, 0, 0, 0)], tabRow .db r.1 = ⟨r.2.1, r.2.2.1, r.2.2.2⟩)
  ∧ (tabRow .lg 0).cf0 = 0 ∧ (tabRow .ex 0).cf0 = 0 ∧ (tabRow .lg 32).cf0 = 628098702
  ∧ ∀ d : Int, d < 0 →
      (d < -24 * 2 ^ 23 → sbOf 23 d = 0 ∧ dbOf 23 d = 0)
      ∧ (-24 * 2 ^ 23 ≤ d → ∀ j t : Nat, t < 2 ^ 17 → d + 24 * 2 ^ 23 = 2 ^ 17 * j + t →
          NearestEven (poly23 .sb j t) 7 (sbOf 23 d) ∧ (d ≤ -2 ^ 19 → NearestEven (poly23 .db j t) 7 (dbOf 23 d)))
      ∧ (-2 ^ 19 < d → ∀ h x : Nat, (2 : Int) ^ h ≤ -d → -d < 2 ^ (h + 1) → (x : Int) = (-d - 2 ^ h) * 2 ^ (23 - h) →
          NearestEven (((h : Int) - 23) * 2 ^ 30 + poly23 .lg (x / 2 ^ 17) (x % 2 ^ 17) - 567758570 + 64 * d
            + 31010880 * d ^ 2 / 2 ^ 46) 7 (dbOf 23 d))

/-- R91: the L32 add of SCAN and REDUX: a tree of the sums of its halves, and a prefix that ends with the tree of its last
values added to the prefix before them; the flags are those of every add on the way. -/
def Claims.PrefixTrees : Prop :=
  ∀ (x : Nat → Word) (lo k hi : Nat),
    let join (a b : Word × Word) : Word × Word := ((g23add a.1 b.1).1, (g23add a.1 b.1).2 ||| (a.2 ||| b.2))
    scanTree 5 x lo 0 = (x lo, 0)
    ∧ scanTree 5 x lo (k + 1) = join (scanTree 5 x lo k) (scanTree 5 x (lo + 2 ^ k) k)
    ∧ scanFirst 5 x 0 = (0x40000000, 0)
    ∧ (k ≤ 5 → scanFirst 5 x (2 ^ k) = scanTree 5 x 0 k)
    ∧ (hi ≠ 0 → hi % 2 ^ (k + 1) = 0 → hi + 2 ^ k ≤ 32 →
        scanFirst 5 x (hi + 2 ^ k) = join (scanFirst 5 x hi) (scanTree 5 x hi k))

/-- R119, R121, R123, R213 to R215: a number's field in a format of at most 9 fraction bits is the nearest to its exact
logarithm, ties to even, and its L32 field is that of the P23 procedure, rounded once; an L32 code stands for the dyadic number
of that procedure and an L16 code for a power of two between two neighbours; a magnitude is rounded to a whole number as its
mode says, and to the IEEE number nearest to it, ties to even. -/
def Claims.Roundings : Prop :=
  (∀ (m : LogFmt) (n : Nat) (E S : Int), n ≠ 0 → m.f ≤ 9 →
    let f := fieldOf m n E S
    let x : ℚ := (n : ℚ) ^ 1024 * 2 ^ (1024 * E + 2 * S)
    let edge (g : Int) : ℚ := 2 ^ (g * 2 ^ (9 - m.f))
    edge (2 * f - 1) ≤ x ∧ x ≤ edge (2 * f + 1) ∧ (x = edge (2 * f - 1) ∨ x = edge (2 * f + 1) → f % 2 = 0))
  ∧ (∀ (n h x : Nat) (E S : Int), 2 ^ h ≤ n → n < 2 ^ (h + 1) →
      x = (if h ≤ 23 then (n - 2 ^ h) * 2 ^ (23 - h) else (n - 2 ^ h) / 2 ^ (h - 23)) →
      NearestEven (((h : Int) + E) * 2 ^ 30 + poly23 .lg (x / 2 ^ 17) (x % 2 ^ 17) + S * 2 ^ 21) 7 (fieldOf l32 n E S))
  ∧ (∀ (e S I : Int) (y : Nat), y < 2 ^ 23 → e + S * 2 ^ 14 = I * 2 ^ 23 + y →
      (magOf l32 e S).sticky = false
      ∧ ((magOf l32 e S).m : ℚ) * 2 ^ (magOf l32 e S).e
        = (2 ^ 30 + poly23 .ex (y / 2 ^ 17) (y % 2 ^ 17) : Int) * 2 ^ (I - 30))
  ∧ (∀ (m : LogFmt) (e S : Int), m.f ≤ 9 →
      let a := magOf m e S
      let x : ℚ := 2 ^ (e * 2 ^ (9 - m.f) + S)
      let at' (n : Nat) : ℚ := ((n : ℚ) * 2 ^ a.e) ^ 512
      2 ^ 128 ≤ a.m ∧ (a.sticky = false → at' a.m = x) ∧ (a.sticky = true → at' a.m < x ∧ x < at' (a.m + 1)))
  ∧ (∀ (a : Mag) (mode : Nat) (s : Bool) (x : ℝ), mode < 4 → (a.sticky = true → a.e < 0) → a.Holds x →
      RoundsTo x mode s (a.round mode s))
  ∧ ∀ (t : Ieee) (s : Bool) (a : Mag) (x : ℝ), 1 ≤ t.fbits → 2 ≤ t.ebits → a.m ≠ 0 →
      (a.sticky = true → 2 ^ (t.fbits + 1) ≤ a.m) → a.Holds x →
      let top := (2 ^ t.ebits - 1) * 2 ^ t.fbits
      ∃ w, w ≤ top
        ∧ (∀ v, v ≤ top → |x - t.magnitude w| ≤ |x - t.magnitude v| ∧ (v ≠ w → |x - t.magnitude w| = |x - t.magnitude v| →
            w % 2 = 0))
        ∧ t.round s a = (if w = 0 then 0 else w + if s then 2 ^ (t.ebits + t.fbits) else 0,
            if w = 0 then 4 else if w = top then 2 else 0)

/-- R91, R119, R121, R123, R201 to R210, R212 to R215: what the sums, the conversions and the roundings of log values are. -/
def Obligations.GaussianLogUnit : Prop := Claims.GaussianAdd ∧ Claims.PrefixTrees ∧ Claims.Roundings

/-- R201, R204, R205: SB and DB at P9 and P12 are the exact logarithms of 1 + 2^δ and 1 − 2^δ at δ = d / 2^F, rounded once to the
nearest whole number of units, for every difference d. That the functions compute these values by fixed-point roots and squarings
is the model's (log 10). -/
def Obligations.LogAddRounding : Prop :=
  ∀ F : Nat, F = 9 ∨ F = 12 → ∀ d : Int,
    let power : ℝ := (2 : ℝ) ^ ((d : ℝ) / 2 ^ F)
    (d ≤ 0 → |2 ^ F * Real.logb 2 (1 + power) - sbOf F d| < 1 / 2)
    ∧ (d < 0 → |2 ^ F * Real.logb 2 (1 - power) - dbOf F d| < 1 / 2)

/-! ### Statements joined -/

/-- R71 to R73, R83 to R85: IADDC, LEA and ICMP, and the tests, searches and hashes of bytes. -/
def Obligations.CarriesAndBytes : Prop := Claims.CarryAddressCompare ∧ Claims.BytesAndHashes

/-- R69, R70: IADD, ISUB, IMUL, IMAD, IABS and INEG finish their exact integer as R69 says; IMULH writes the high product, IMIN
the smaller and IMAX the larger source, without a flag; other SUB values and forms are undefined. -/
def Obligations.IntegerOperations : Prop := Claims.IntegerArithmetic ∧ Claims.IntegerHighAndOrder ∧ Claims.IntegerForms

/-- R74, R76: the logic instructions, moves, shifts and the rotate, bit by bit. -/
def Obligations.LogicAndShifts : Prop := Claims.LogicBits ∧ Claims.Shifts

/-- R51, R74 to R78: bit counts and bit fields, selection, constants and condition bits; the forms that BFX, BFI and CBIT do
not have. -/
def Obligations.FieldsAndChoices : Prop := Claims.BitFields ∧ Claims.SelectAndConstants ∧ Claims.FieldForms

/-- R62, R79 to R82: packed arithmetic and choice, element by element, on lanes only, the forms that packed instructions do not
have, and packed sums, shifts, narrowing and widening. -/
def Obligations.PackedOperations : Prop :=
  Claims.PackedArithmetic ∧ Claims.PackedChoice ∧ Claims.PackedForms ∧ Claims.PackedSums ∧ Claims.PackedShapes

/-- R86 to R92: values moved between lanes and to and from group registers, and summaries, prefixes and totals over the
members. -/
def Obligations.LaneExchanges : Prop := Claims.LaneMoves ∧ Claims.Broadcasts ∧ Claims.Votes ∧ Claims.Prefixes

/-- R106, R108 to R111, R118: log products, quotients, reciprocals, roots, powers, scaling, exponentials and logarithms. -/
def Obligations.LogFunctions : Prop :=
  Claims.LogMultiply ∧ Claims.LogRoots ∧ Claims.LogPowers ∧ Claims.LogExponentials

/-- R114 to R117: log selection, comparison and classes. -/
def Obligations.LogOrder : Prop := Claims.LogSelect ∧ Claims.LogCompare

/-- R63, R119 to R125: conversions between log, IEEE, integer and fixed-point values. -/
def Obligations.Conversions : Prop := Claims.IeeeConversions ∧ Claims.IntegerConversions ∧ Claims.LogWidths

/-! ### Control transfer, waiting, barriers and tokens (R93 to R103) -/

namespace Sys2Proof.Machine

open Sys2Proof

/-- Erasures: what of the parts of the device a comparison of two states leaves out. -/
structure Erase where
  lane : Lane → Lane := id
  group : Group → Group := id
  team : Team → Team := id
  control : Control → Control := id
  quad : Quad → Quad := id
  cluster : Cluster → Cluster := id
  slice : Slice → Slice := id
  device : State → State := id

/-- A cluster with its parts erased. -/
def Erase.ofCluster (e : Erase) (c : Cluster) : Cluster :=
  e.cluster { c with
    teams := c.teams.map fun t => e.team { t with groups := t.groups.map fun g => e.group { g with lanes := g.lanes.map e.lane } }
    quads := c.quads.map fun q => e.quad { q with control := e.control q.control } }

/-- Nothing but what the erasures leave out differs. -/
structure Only (e : Erase) (s t : State) : Prop where
  device : e.device { t with clusters := [], slices := [] } = e.device { s with clusters := [], slices := [] }
  clusters : ∀ c, (t.cluster c).map e.ofCluster = (s.cluster c).map e.ofCluster
  slices : ∀ n, e.slice (t.sliceAt n) = e.slice (s.sliceAt n)

/-- A lane without its PC and without what it waits for. -/
def Lane.standing (x : Lane) : Lane := { x with pc := 0, next := 0, wait := .ready, pass := 0 }

/-- A control core without its PC and without what it waits for. -/
def Control.standing (x : Control) : Control := { x with pc := 0, next := 0, wait := .run }

/-- A group without the marks of its register lines. -/
def Group.unmarked (x : Group) : Group := { x with live := 0, cached := 0, dirty := 0 }

/-- A slice without the PCs of its wave's lanes. -/
def Slice.unplaced (x : Slice) : Slice :=
  { x with wave := x.wave.map fun w => { w with lanes := w.lanes.map fun y : WaveLane => { y with pc := 0, ended := false } } }

/-- Where threads stand: PCs, waits and register-line marks may differ; registers, condition bits, flags, LINK, memory
and all else may not. -/
def Erase.standing : Erase :=
  { lane := Lane.standing, group := Group.unmarked, control := Control.standing, slice := Slice.unplaced }

/-- Where threads stand, and their LINK. -/
def Erase.links : Erase :=
  { Erase.standing with lane := fun x => { x.standing with link := 0 }, control := fun x => { x.standing with link := 0 } }

/-- A transfer: members go to their targets, the rest of the run past the instruction; with link, LINK of the members
takes the address of the next instruction; nothing else changes. -/
def Transfers (i : Instr) (s : State) (u : Issue) (link : Bool) (target : Nat → BitVec 56) : Prop :=
  ∃ t, exec i s = .next t
    ∧ Only (if link then Erase.links else Erase.standing) s t
    ∧ (∀ n ∈ u.run, Member i s u n → t.pcOf (u.engine.thread n) = target n)
    ∧ (∀ n ∈ u.run, ¬Member i s u n → t.pcOf (u.engine.thread n) = u.next i)
    ∧ (∀ th, th ∉ u.threads → t.pcOf th = s.pcOf th)
    ∧ (link = true → ∀ n, Member i s u n → t.link (u.engine.thread n) = (u.next i).zeroExtend 64)
    ∧ (∀ th, (∀ n, Member i s u n → u.engine.thread n ≠ th) → t.link th = s.link th)

/-- The lanes of an issue that are not its members, and the lanes outside it: the first go past the instruction, the
others stay. -/
def RestOfRun (i : Instr) (s t : State) (u : Issue) (g : GroupRef) : Prop :=
  (∀ n ∈ u.run, ¬Member i s u n → t.lane (g.at n) = (s.lane (g.at n)).map fun x => { x with pc := u.next i })
  ∧ ∀ l, (∀ n ∈ u.run, g.at n ≠ l) → t.lane l = s.lane l

/-- The entry of a group into its handler (R295): TCAUSE, TPC, TMASK (the lanes of faulting), TDONE and TAUX are written,
the lanes of ms are the handler lanes and, but for one that has exited, stand at TVEC, the faulting ones hold their TADDR, and
the lanes of passed have gone past the instruction; nothing else changes. That bits [1:0] of TVEC count as 0 is the model's
reading of R17 (log 65). -/
structure TakesTrap (s t : State) (g : GroupRef) (pc : BitVec 56) (ms faulting done passed : List Nat) (cause : Nat)
    (addr : Nat → DWord) (aux : DWord) (next : BitVec 56) : Prop where
  frame : Only { Erase.standing with
    lane := fun x => { x.standing with taddr := 0 }
    group := fun x => { x.unmarked with trap := ⟨0, 0, 0, 0, 0⟩, handler := none } } s t
  group : ∃ y, t.group g = some y ∧ y.handler = some ms
    ∧ y.trap.cause = BitVec.ofNat 32 cause ∧ y.trap.pc = pc.zeroExtend 64 ∧ y.trap.aux = aux
    ∧ (∀ j, j < 32 → (y.trap.mask.getLsbD j = true ↔ j ∈ faulting))
    ∧ (∀ j, j < 32 → (y.trap.done.getLsbD j = true ↔ j ∈ done))
  handlers : ∀ n ∈ ms, t.lane (g.at n) = (s.lane (g.at n)).map fun x =>
    let x := { x with taddr := if n ∈ faulting then addr n else x.taddr }
    if x.wait = .exited then x
    else { x with wait := .ready, pc := alignPc (s.tvec g.cid), pass := if x.wait = .ready then x.pass else 0 }
  beyond : ∀ n ∈ passed, t.lane (g.at n) = (s.lane (g.at n)).map fun x => { x with pc := next }
  others : ∀ l, (∀ n, n ∈ ms ∨ n ∈ passed → g.at n ≠ l) → t.lane l = s.lane l

/-- The entry of a control core into its handler at TVEC + 4 (R297). -/
structure TakesControlTrap (s t : State) (q : QuadRef) (pc : BitVec 56) (cause : Nat) (addr aux : DWord) (done : Word) :
    Prop where
  frame : Only { control := fun c => { c.standing with trap := ⟨0, 0, 0, 0, 0⟩, taddr := 0, inHandler := false } } s t
  control : (t.quad q).map (·.control) = (s.quad q).map fun x =>
    { x.control with trap := ⟨BitVec.ofNat 32 cause, pc.zeroExtend 64, 1, done, aux⟩, taddr := addr, inHandler := true,
                     wait := .run, pc := alignPc (s.tvec q.cid) + 4 }
  others : ∀ r, r ≠ q → t.quad r = s.quad r

/-- A trap that nothing handles ends the grid (R299, R300): its abort is recorded, its requests that have not left their cores
are dropped, and nothing else changes. -/
def EndsGrid (s t : State) (cid cause : Nat) (pc : BitVec 56) (mask : List Nat) (addr : DWord) (core group : Nat) : Prop :=
  Only { Erase.standing with device := fun s => { s with grids := [], reqs := [] } } s t
  ∧ (∀ x, s.gridOf cid = some x → x.abort = none → ∃ y a, t.gridOf cid = some y ∧ y.abort = some a
      ∧ { y with abort := none } = x ∧ a.cause = cause ∧ a.pc = pc.zeroExtend 64 ∧ a.addr = addr ∧ a.core = core
      ∧ a.group = group ∧ (∀ j, j < 32 → (a.mask.getLsbD j = true ↔ j ∈ mask)))
  ∧ (∀ n, some n ≠ (s.cluster cid).map (·.grid) → t.grid n = s.grid n)
  ∧ ∀ gid, (s.cluster cid).map (·.grid) = some gid →
      (∀ r, s.ofGrid gid r = false → (r ∈ t.reqs ↔ r ∈ s.reqs)) ∧ ∀ r ∈ t.reqs, s.ofGrid gid r = true → r.hasLeft = true

/-- Whether the handler of a lane group or a control core can be entered: there is a vector, and none is running. -/
def State.canTrap (s : State) (e : Engine) : Prop := s.tvec e.cid ≠ 0 ∧ s.inHandlerOf e = false

/-- A wait that no barrier and no token ends. -/
def LaneWait.still : LaneWait → Bool
  | .ready | .exited | .paused _ | .arriving .. | .signal .. | .held _ | .enqueue .. | .enqueueFence .. => true
  | .barrier .. | .token .. | .queue .. | .event .. | .fence .. | .digest .. | .sweep _ => false

/-- The lanes of a cluster that wait for barriers wait for phases that are not over, and the others for nothing that an
arrival brings about. -/
def State.awaitsPhases (s : State) (cid : Nat) : Prop :=
  ∀ l x, s.lane l = some x → l.cid = cid → x.wait.still = true
    ∨ ∃ cl b p d, x.wait = .barrier cl b p d ∧ (s.barrier l cl b).phase ≤ p

/-- Erasures of an arrival: where threads stand, the bits and acquires of lanes, what they remember, and the barriers. -/
def Erase.arrivals : Erase :=
  { Erase.standing with
    lane := fun x => { x.standing with cond := 0, acqAt := 0, lastTeam := [], lastCluster := [] }
    team := fun x => { x with bars := [] }, cluster := fun x => { x with bars := [] } }

/-- The lanes ls, all of one team, arrive in turn at a barrier b of the team or of the cluster, asking for k arrivals and, with
cd, for a wait; each is to go on at next (R99 to R101). The first arrival of a phase fixes its number. Arrivals short of it are
counted: the arriving form goes on, the joint form waits for the phase. The arrival that completes the phase opens the next
one and lets go every lane that waits for it, whose bit says whether the phase was free of faults. Every arriving lane
remembers the phase. Lanes that wait for nothing of this stay, those of also aside. -/
structure Arrives (s t : State) (cluster : Bool) (b k : Nat) (cd : Option CBit) (ls also : List LaneRef)
    (next : LaneRef → BitVec 56) : Prop where
  only : Only Erase.arrivals s t
  counted : ∀ l ∈ ls, t.barrier l cluster b = ls.foldl (fun x _ => x.arrive k false) (s.barrier l cluster b)
  remembered : ∀ l ∈ ls, let x := s.barrier l cluster b
    x.count + ls.length ≤ (if x.count = 0 then k else x.n) → (t.lane l).bind (fun y => (if cluster then y.lastCluster else y.lastTeam).find b) = some x.phase
  short : ∀ l ∈ ls, let x := s.barrier l cluster b
    let n := if x.count = 0 then k else x.n
    x.count + ls.length < n →
      (t.barrier l cluster b).phase = x.phase ∧ (t.barrier l cluster b).count = x.count + ls.length
        ∧ (t.barrier l cluster b).n = n
        ∧ (cd = none → t.pcOf (.lane l) = next l ∧ (t.lane l).map (·.wait) = some .ready)
        ∧ (∀ d, cd = some d → (t.lane l).map (·.wait) = some (.barrier cluster b x.phase d))
        ∧ (∀ j, j ∉ ls → j ∉ also → t.lane j = s.lane j) ∧ ∀ th d, t.condBit th d = s.condBit th d
  full : ∀ l ∈ ls, let x := s.barrier l cluster b
    let ok : Bool := !(decide (x.count ≠ 0) && x.faulted) && decide (x.phase ∉ x.bad)
    let waits (j : LaneRef) (d : CBit) : Prop := j ∉ also ∧ j.cid = l.cid ∧ (cluster = false → j.team = l.team)
      ∧ (s.lane j).map (·.wait) = some (.barrier cluster b x.phase d)
    x.count + ls.length = (if x.count = 0 then k else x.n) →
      (t.barrier l cluster b).phase = x.phase + 1 ∧ (t.barrier l cluster b).count = 0
        ∧ t.pcOf (.lane l) = next l ∧ (t.lane l).map (·.wait) = some .ready
        ∧ (∀ d, cd = some d → t.condBit (.lane l) d = (decide (d = 7) || ok))
        ∧ (∀ j d, waits j d → t.condBit (.lane j) d = (decide (d = 7) || ok)
            ∧ (t.lane j).map (fun y => { y with cond := 0, acqAt := 0 })
              = (s.lane j).map fun y => { y with cond := 0, acqAt := 0, wait := .ready, pc := y.next, pass := 0 })
        ∧ (∀ j, j ∉ ls → j ∉ also → (∀ d, ¬waits j d) → t.lane j = s.lane j)
        ∧ ∀ th d, (∀ j ∈ ls, cd = some d → th ≠ .lane j) → (∀ j, th = .lane j → ¬waits j d) →
            t.condBit th d = s.condBit th d

end Sys2Proof.Machine

/-- R93, R94: BRA and CALL go to PC + 4·sext(disp), JMP and CALLR to the address in a register, RET to LINK; CALL and
CALLR write LINK; a method may not branch out of its code. -/
def Claims.ControlTransfers : Prop :=
  ∀ (h : Hd) (disp : BitVec 32) (a : Code) (s : State) (u : Issue),
    let target : BitVec 56 := BitVec.ofInt 56 (u.pc.toNat + 4 * disp.toInt)
    let inside : Prop := ∀ k w, u.engine = .method k → (s.sliceAt k).wave = some w →
      w.entry.toNat ≤ target.toNat ∧ target.toNat ≤ w.entry.toNat + w.code.length
    let to64 (x : DWord) : BitVec 56 := x.truncate 56
    (Ready (.bra h disp) s u → inside → Transfers (.bra h disp) s u false fun _ => target)
    ∧ (Ready (.bra h disp) s u → ¬inside → (∃ n, Member (.bra h disp) s u n) → ∀ k, u.engine = .method k →
        exec (.bra h disp) s = .next (s.modWave k fun w => { w with stop := some .target }))
    ∧ (Ready (.call h disp) s u → Transfers (.call h disp) s u true fun _ => target)
    ∧ (Ready (.jmp h a) s u → (∀ n, Member (.jmp h a) s u n → (s.reg64 (u.engine.thread n) a).toNat % 4 = 0) →
        Transfers (.jmp h a) s u false fun n => to64 (s.reg64 (u.engine.thread n) a))
    ∧ (Ready (.callr h a) s u → (∀ n, Member (.callr h a) s u n → (s.reg64 (u.engine.thread n) a).toNat % 4 = 0) →
        Transfers (.callr h a) s u true fun n => to64 (s.reg64 (u.engine.thread n) a))
    ∧ (Ready (.ret h) s u → (∀ n, Member (.ret h) s u n → (s.link (u.engine.thread n)).toNat % 4 = 0) →
        Transfers (.ret h) s u false fun n => to64 (s.link (u.engine.thread n)))

/-- R96, R97, R98, R103: EXIT ends its members, and a handler all of whose lanes have ended; YIELD marks them for the next
selection and goes on; PAUSE holds a member for its count of cycles, where that is not 0; LIVE discards the lines whose
mask bit is 0 and goes on. -/
def Claims.LanesStopAndPause : Prop :=
  ∀ (h : Hd) (v : BitVec 4) (a : Code) (k : BitVec 32) (mask : BitVec 48) (s : State) (u : Issue),
    (Ready (.exit h) s u → (∃ n, Member (.exit h) s u n) → ∃ t, exec (.exit h) s = .next t
      ∧ Only { Erase.standing with group := fun x => { x.unmarked with handler := none } } s t
      ∧ (∀ q, u.engine = .control q → (t.quad q).map (·.control.wait) = some .exited)
      ∧ ∀ g, u.engine = .lane g →
          RestOfRun (.exit h) s t u g
          ∧ (∀ n, Member (.exit h) s u n → (t.lane (g.at n)).map (·.wait) = some .exited)
          ∧ ∀ x y, s.group g = some x → t.group g = some y →
              (x.handler = none → y.handler = none)
              ∧ ∀ ls, x.handler = some ls →
                y.handler = if ls.all fun n => (y.lanes[n]?.map fun z => z.wait == .exited).getD true then none else some ls)
    ∧ ∀ g, u.engine = .lane g →
      (Ready (.yield h) s u → ∃ t, exec (.yield h) s = .next t
        ∧ Only { Erase.standing with lane := fun x => { x.standing with yielded := false } } s t
        ∧ RestOfRun (.yield h) s t u g
        ∧ ∀ n, Member (.yield h) s u n →
            t.lane (g.at n) = (s.lane (g.at n)).map fun x => { x with yielded := true, pc := u.next (.yield h) })
      ∧ (Ready (.pause h v a k) s u → ∃ t, exec (.pause h v a k) s = .next t
        ∧ Only Erase.standing s t ∧ RestOfRun (.pause h v a k) s t u g
        ∧ ∀ n, Member (.pause h v a k) s u n →
            let c := if v = 0 then (s.reg32 (.lane (g.at n)) a).toNat else k.toNat
            let next := u.next (.pause h v a k)
            t.lane (g.at n) = (s.lane (g.at n)).map fun x =>
              if c = 0 then { x with pc := next } else { x with wait := .paused c, next := next, pass := 0 })
      ∧ (Ready (.live h mask) s u → (∃ n, Member (.live h mask) s u n) → ∃ t, exec (.live h mask) s = .next t
        ∧ Only { Erase.standing with lane := fun x => { x.standing with v := [] } } s t
        ∧ (∀ th, t.pcOf th = if th ∈ u.threads then u.next (.live h mask) else s.pcOf th)
        ∧ (∀ j, j < 48 → ((t.group g).map fun x => x.live.getLsbD j)
            = (s.group g).map fun x => x.live.getLsbD j && mask.getLsbD j)
        ∧ ∀ (l : LaneRef) (c : Code), c.toNat < 192 →
            t.reg (.lane l) c = if l.gr = g ∧ mask.getLsbD (c.toNat / 4) = false then 0 else s.reg (.lane l) c)

/-- R99 to R101: a member whose earlier accesses have not performed at the barrier's scope is held before its arrival
counts, and the others arrive in lane order. The waiting form waits for the phase that its lane last arrived at, or the open
one, and goes on where that phase is over. -/
def Claims.Barriers : Prop :=
  ∀ (h : Hd) (v : BitVec 4) (cd : CBit) (b : BitVec 4) (k : BitVec 14) (cluster : Bool) (s : State) (u : Issue)
    (g : GroupRef), u.engine = .lane g →
    let i : Instr := if cluster then .barc h v cd b k else .bar h v cd b k
    let bar (s : State) : Barrier := s.barrier (g.at 0) cluster b.toNat
    let scope : BitVec 3 := if cluster then 3 else 2
    let joins : Option CBit := if v = 0 then none else some cd
    let come := (u.members s i).filter fun n => s.performed (g.at n) scope
    let heldOn (t : State) (n : Nat) (w : LaneWait) : Prop :=
      t.lane (g.at n) = (s.lane (g.at n)).map fun x => { x with wait := w, next := u.next i, pass := 0 }
    let goesOn (t : State) (n : Nat) : Prop :=
      t.pcOf (.lane (g.at n)) = u.next i ∧ (t.lane (g.at n)).map (·.wait) = some .ready
    let conds (t : State) : Prop := ∀ th c, (c ≠ cd ∨ ∀ n, Member i s u n → .lane (g.at n) ≠ th) →
      t.condBit th c = s.condBit th c
    Ready i s u →
    (v ≠ 1 → come = [] → ∃ t, exec i s = .next t
      ∧ Only Erase.standing s t ∧ RestOfRun i s t u g
      ∧ ∀ n, Member i s u n → heldOn t n (.arriving cluster b.toNat k.toNat joins))
    ∧ (v ≠ 1 → u.run.Nodup → (∀ n ∈ u.run, (s.lane (g.at n)).map (·.wait) = some .ready) → s.awaitsPhases g.cid →
        ∃ t, exec i s = .next t
          ∧ Arrives s t cluster b.toNat k.toNat joins (come.map g.at) (u.run.map g.at) (fun _ => u.next i)
          ∧ (∀ n ∈ u.run, ¬Member i s u n → goesOn t n)
          ∧ ∀ n, Member i s u n → n ∉ come → (t.lane (g.at n)).map (fun x => (x.wait, x.next))
              = some (.arriving cluster b.toNat k.toNat joins, u.next i))
    ∧ (v = 1 → ∃ t, exec i s = .next t
        ∧ Only { Erase.standing with lane := fun x => { x.standing with cond := 0, acqAt := 0 } } s t
        ∧ conds t ∧ RestOfRun i s t u g
        ∧ ∀ n x, Member i s u n → s.lane (g.at n) = some x →
          let p := ((if cluster then x.lastCluster else x.lastTeam).find b.toNat).getD (bar s).phase
          ((bar s).phase ≤ p → heldOn t n (.barrier cluster b.toNat p cd))
          ∧ (p < (bar s).phase → goesOn t n
              ∧ t.condBit (.lane (g.at n)) cd = (decide (cd = 7) || decide (p ∉ (bar s).bad))))

/-- R102: TWAIT goes on once the token has reached its value, and otherwise waits for it; TSIGNAL adds its members'
values, or with .one the lowest member's, where their earlier accesses have performed, and otherwise holds them; a lane that
waits for a token goes on as soon as an add brings it there, and a halted control core of the quad as soon as one adds a value
that is not 0 (R198). A quad that the cluster does not have is the trap SPACE of every member (R194). That an add waits until
its accesses have performed at the home slices (log 13) and that TADDR of the trap is 0 (log 57) are the model's choices. -/
def Claims.Tokens : Prop :=
  ∀ (h : Hd) (v : BitVec 4) (a : Code) (tok : BitVec 9) (s : State) (u : Issue) (g : GroupRef), u.engine = .lane g →
    let j := (slice tok 0 6).toNat
    let wait : Instr := .twait h a tok
    let signal : Instr := .tsignal h v a tok
    let reg (n : Nat) : Word := s.reg32 (.lane (g.at n)) a
    let heldOn (i : Instr) (t : State) (n : Nat) (w : LaneWait) : Prop :=
      t.lane (g.at n) = (s.lane (g.at n)).map fun x => { x with wait := w, next := u.next i, pass := 0 }
    let goesOn (i : Instr) (t : State) (n : Nat) : Prop :=
      t.pcOf (.lane (g.at n)) = u.next i ∧ (t.lane (g.at n)).map (·.wait) = some .ready
    let ms := u.members s signal
    let adders := if v = 0 then ms else ms.take 1
    let after (n : Nat) : List Nat := s.unperformed (if v = 0 then [g.at n] else ms.map g.at)
    let add := adders.filter fun n => (after n).isEmpty
    let trapped (i : Instr) : Prop :=
      Ready i s u → s.tokenQuad g.cid g.team tok = none → u.members s i ≠ [] → ∃ t, exec i s = .next t
        ∧ let ms := u.members s i
          (s.canTrap u.engine → TakesTrap s t g u.pc ms ms [] (u.run.filter fun n => !ms.contains n) 0x07 (fun _ => 0)
            ((slice tok 6 2).zeroExtend 64) (u.next i))
          ∧ (¬s.canTrap u.engine → EndsGrid s t g.cid 0x07 u.pc ms 0 (s.coreOf g.cid g.team) g.group)
    trapped wait ∧ trapped signal
    ∧ ∀ q, s.tokenQuad g.cid g.team tok = some q →
      let here : QuadRef := ⟨g.cid, q⟩
      (Ready wait s u → ∃ t, exec wait s = .next t
        ∧ Only { Erase.standing with lane := fun x => { x.standing with acqAt := 0 } } s t
        ∧ RestOfRun wait s t u g
        ∧ ∀ n, Member wait s u n →
            ((s.token here j - reg n).toInt < 0 → heldOn wait t n (.token q j (reg n)))
            ∧ (0 ≤ (s.token here j - reg n).toInt → goesOn wait t n))
      ∧ (Ready signal s u → u.run.Nodup → (s.quad here).isSome → (∀ n ∈ u.run, (s.lane (g.at n)).map (·.wait) = some .ready) →
          (∀ l x, s.lane l = some x → l.cid = g.cid → x.wait.still = true ∨ ∃ r k y, x.wait = .token r k y) →
          let sum (m : Nat) : Nat := ((add.take m).map fun n => (reg n).toNat).sum
          let seen (r k m : Nat) : Word :=
            s.token ⟨g.cid, r⟩ k + (if r = q ∧ k = j then BitVec.ofNat 32 (sum m) else 0)
          let reached (r k : Nat) (y : Word) : Prop := ∃ m, 1 ≤ m ∧ m ≤ add.length ∧ 0 ≤ (seen r k m - y).toInt
          ∃ t, exec signal s = .next t
            ∧ Only { Erase.standing with
                lane := fun x => { x.standing with acqAt := 0 }, quad := fun y => { y with tokens := [] } } s t
            ∧ (∀ r k, t.token r k
                = if r = here ∧ k = j then s.token here j + BitVec.ofNat 32 (sum add.length) else s.token r k)
            ∧ (∀ n ∈ u.run, n ∉ adders ∨ n ∈ add → goesOn signal t n)
            ∧ (∀ n ∈ adders, n ∉ add → heldOn signal t n (.signal q j (reg n) (after n)))
            ∧ (∀ l x, (∀ n ∈ u.run, g.at n ≠ l) → s.lane l = some x →
                (l.cid ≠ g.cid ∨ x.wait.still = true → t.lane l = some x)
                ∧ ∀ r k y, l.cid = g.cid → x.wait = .token r k y →
                  (reached r k y → (t.lane l).map (fun z => { z with acqAt := 0 })
                    = some { x with acqAt := 0, wait := .ready, pc := x.next, pass := 0 })
                  ∧ (¬reached r k y → t.lane l = some x))
            ∧ ∀ y, s.quad here = some y → (t.quad here).map (·.control) = some (
                if y.control.wait = .halted ∧ ∃ n ∈ add, reg n ≠ 0 then { y.control with wait := .run, pc := y.control.next }
                else y.control))


/-! ### Traps and special registers (R33 to R35, R94, R104, R189, R192 to R196, R295 to R299) -/

/-- R33 to R35, R50, R189, R196: an instruction that its engine does not define traps UNDEF, one whose capability is
missing traps PRIV with its opcode in TAUX, for every lane of the run whatever the guards, with nothing performed; with no
vector, or inside the handler, the grid ends; a wave faults. That the entry is a part of the same step is the model's choice
(log 49). -/
def Claims.IllegalInstructionsTrap : Prop :=
  ∀ (i : Instr) (s : State) (u : Issue) (op : BitVec 8), i.op = some op → s.cur = some u → u.run ≠ [] →
    (∀ n ∈ u.run, s.here (u.engine.thread n) = true) →
    let legal := legalFor u.engine (s.hgOf u.engine) (s.inHandlerOf u.engine) i
    let cause := if legal then 0x02 else 0x01
    let aux : DWord := if legal then op.zeroExtend 64 else 0
    (legal = false ∨ s.capable u.engine i = false) → ∃ t, exec i s = .next t
      ∧ match u.engine with
        | .lane g =>
          (s.canTrap u.engine → TakesTrap s t g u.pc u.run u.run [] [] cause (fun _ => 0) aux 0)
          ∧ (¬s.canTrap u.engine → EndsGrid s t g.cid cause u.pc u.run 0 (s.coreOf g.cid g.team) g.group)
        | .control q =>
          (s.canTrap u.engine → TakesControlTrap s t q u.pc cause 0 aux 0)
          ∧ (¬s.canTrap u.engine → EndsGrid s t q.cid cause u.pc [0] 0 (1536 + s.quadOf q) 0)
        | .method k => t = s.modWave k fun w => { w with stop := some .undefined }

/-- R94, R104, R295, R297: TRAP and BRK take their traps with every member done and TAUX the constant; JMP, CALLR and RET
trap ALIGN for the members whose target is misaligned, with nothing done and the target in TADDR. That the other members stand
in neither TMASK nor TDONE, and become handler lanes, is the model's reading (log 16). -/
def Claims.InstructionTraps : Prop :=
  ∀ (h : Hd) (k : BitVec 32) (a : Code) (s : State) (u : Issue), s.canTrap u.engine →
    let soft (i : Instr) (cause : Nat) : Prop := Ready i s u → (∃ n, Member i s u n) → ∃ t, exec i s = .next t
      ∧ match u.engine with
        | .lane g =>
          let ms := u.members s i
          TakesTrap s t g u.pc ms ms ms (u.run.filter fun n => !ms.contains n) cause (fun _ => 0) (k.zeroExtend 64) (u.next i)
        | .control q => TakesControlTrap s t q u.pc cause 0 (k.zeroExtend 64) 1
        | .method _ => False
    let jump (i : Instr) (target : Nat → DWord) : Prop := Ready i s u →
      let dest (n : Nat) : BitVec 56 := (target n).truncate 56
      let bad := (u.members s i).filter fun n => decide ((dest n).toNat % 4 ≠ 0)
      bad ≠ [] → ∃ t, exec i s = .next t
        ∧ match u.engine with
          | .lane g =>
            let ms := u.members s i
            TakesTrap s t g u.pc ms bad [] (u.run.filter fun n => !ms.contains n) 0x03 (fun n => (dest n).zeroExtend 64) 0
              (u.next i)
          | .control q => TakesControlTrap s t q u.pc 0x03 ((dest 0).zeroExtend 64) 0 0
          | .method _ => False
    soft (.trap h k) 0x0E ∧ soft (.brk h k) 0x0F
    ∧ jump (.jmp h a) (fun n => s.reg64 (u.engine.thread n) a)
    ∧ jump (.callr h a) (fun n => s.reg64 (u.engine.thread n) a)
    ∧ jump (.ret h) (fun n => s.link (u.engine.thread n))

/-- R195, R296: RTE ends the handler. A handler lane that has not exited goes on at TPC, or, if TDONE names it, past the
instruction there, whose length its first word gives; a control core likewise, by bit 0 of TDONE. Where TDONE holds a lane that
word is fetched, and a fault of the fetch is a trap in the handler, which ends the grid. That bits [1:0] of TPC count as 0 is
the model's reading of R17 (log 65). -/
def Obligations.HandlersReturn : Prop :=
  ∀ (h : Hd) (s : State) (u : Issue), let i : Instr := .rte h
    Ready i s u → (∃ n, Member i s u n) →
    let ms := u.members s i
    let s0 := s.touchLines u i ms
    let tpc (r : TrapRegs) : BitVec 56 := alignPc (r.pc.truncate 56)
    let after (r : TrapRegs) (w : Word) : BitVec 56 := tpc r + BitVec.ofNat 56 (4 * (Len.ofBits (slice w 0 2)).words)
    (∀ g x ls, u.engine = .lane g → s.group g = some x → x.handler = some ls → ls.Nodup →
      let fetched := s0.fetchWord (s0.fetchCore g.cid g.team) (tpc x.trap).toNat
      let resumed (t : State) (past : BitVec 56) : Prop :=
        ((t.group g).bind (·.handler)) = none
        ∧ ∀ n ∈ ls, ∀ y, s.lane (g.at n) = some y → ∃ z, t.lane (g.at n) = some z ∧ z.v = y.v ∧ z.cond = y.cond ∧ z.lsw = y.lsw
          ∧ (y.wait = .exited → z = { y with serial := z.serial, again := z.again })
          ∧ (y.wait ≠ .exited → z.wait = .ready ∧ z.pass = (if y.wait = .ready then y.pass else 0)
              ∧ z.pc = if x.trap.done.getLsbD n then past else tpc x.trap)
      (∀ ws, x.trap.done ≠ 0 → fetched.2 = .words ws → ∃ t, exec i s = .next t ∧ resumed t (after x.trap (ws.headD 0)))
      ∧ (x.trap.done = 0 → ∃ t, exec i s = .next t ∧ resumed t 0 ∧ ∀ a, Mem.read t.mem a = Mem.read s.mem a)
      ∧ ∀ va cause aux, x.trap.done ≠ 0 → fetched.2 = .fault va cause aux → ∃ t, exec i s = .next t
        ∧ EndsGrid fetched.1 t g.cid cause u.pc ms (BitVec.ofNat 64 va) (s.coreOf g.cid g.team) g.group)
    ∧ ∀ q x, u.engine = .control q → s.quad q = some x →
      let c := x.control
      let fetched := s0.fetchWord (s0.fetchQuad q) (tpc c.trap).toNat
      (c.trap.done.getLsbD 0 = false → ∃ t, exec i s = .next t
        ∧ Only { control := fun c => { c with pc := 0, inHandler := false } } s t
        ∧ (t.quad q).map (·.control) = some { c with inHandler := false, pc := tpc c.trap })
      ∧ (∀ ws, c.trap.done.getLsbD 0 = true → fetched.2 = .words ws → ∃ t, exec i s = .next t
        ∧ (t.quad q).map (·.control) = some { c with inHandler := false, pc := after c.trap (ws.headD 0) })
      ∧ ∀ va cause aux, c.trap.done.getLsbD 0 = true → fetched.2 = .fault va cause aux → ∃ t, exec i s = .next t
        ∧ EndsGrid fetched.1 t q.cid cause u.pc [0] (BitVec.ofNat 64 va) (1536 + s.quadOf q) 0

/-- R65, R192, R193: SREAD writes what the table of special registers gives for the number; .clr clears LSW of the members,
and for GSW of every lane of the group. -/
def Claims.SpecialRegistersRead : Prop :=
  ∀ (h : Hd) (v : BitVec 4) (d : Code) (n : BitVec 8) (s : State) (u : Issue), let i : Instr := .sread h v d n
    Ready i s u → ∃ t, exec i s = .next t ∧ OnlyThreads s t
      ∧ (∀ th, t.pcOf th = if th ∈ u.threads then u.next i else s.pcOf th)
      ∧ (∀ th c, t.condBit th c = s.condBit th c)
      ∧ (∀ th c, (∀ m, Member i s u m → sameReg (u.engine.thread m) th c = true →
            c ∉ (if th.isControl then [d] else (List.range (specialRegs n)).map fun j => d + BitVec.ofNat 8 j)) →
          t.reg th c = s.reg th c)
      ∧ (v = 0 → ∀ th, t.lswOf th = s.lswOf th)
      ∧ (v = 1 → ∀ l : LaneRef, u.engine = .lane l.gr →
          ((∃ m, Member i s u m) ∧ n = 0x0A ∨ Member i s u l.lane) →
          t.lswOf (.lane l) = s.lswOf (.lane l) &&& ~~~(0x3F : Word))
      ∧ (∀ th, (∀ l : LaneRef, th = .lane l → u.engine ≠ .lane l.gr ∨ n ≠ 0x0A ∧ ¬Member i s u l.lane) →
          t.lswOf th = s.lswOf th)
      ∧ ∀ m, Member i s u m →
        let th := u.engine.thread m
        let one (x : Nat) : Prop := (t.reg32 th d).toNat = x % 2 ^ 32
        let two (x : Nat) : Prop := (t.reg64 th d).toNat = x % 2 ^ 64
        let xyz (x y z : Nat) : Nat := x + 2 ^ 21 * y + 2 ^ 42 * z
        (n = 0x0B → two (s.link th).toNat)
        ∧ (n = 0x10 → one (s.trapRegs th).cause.toNat) ∧ (n = 0x11 → two (s.trapRegs th).pc.toNat)
        ∧ (n = 0x12 → one (s.trapRegs th).mask.toNat) ∧ (n = 0x13 → one (s.trapRegs th).done.toNat)
        ∧ (n = 0x07 → one (s.quadHere th / 24 + 16 * (s.quadHere th % 24)))
        ∧ (n = 0x14 → two (s.taddrOf th).toNat) ∧ (n = 0x15 → two (s.trapRegs th).aux.toNat)
        ∧ (∀ c gr, s.cluster th.cid = some c → s.grid c.grid = some gr →
            let l := gr.launch
            (n = 0x03 → two (xyz (c.index % l.gx) (c.index / l.gx % l.gy) (c.index / (l.gx * l.gy))))
            ∧ (n = 0x04 → one (l.shape.toNat % 2 ^ 24)) ∧ (n = 0x05 → two (xyz l.gx l.gy l.gz))
            ∧ (n = 0x18 → one (l.flags.toNat / 16 % 4)) ∧ (n = 0x19 → one gr.rrstat.toNat)
            ∧ (n = 0x1A → one (l.digest.toNat + 2 * (l.det.any (·.recv)).toNat + 4 * gr.reex.toNat)))
        ∧ (∀ q, th = .control q → n = 0x08 → two (s.quadHw (s.quadOf q)).cycle.toNat)
        ∧ ∀ l g, th = .lane l → s.group l.gr = some g →
            (n = 0x00 → one l.lane) ∧ (n = 0x01 → one l.group) ∧ (n = 0x02 → one l.team)
            ∧ (n = 0x06 → one (s.coreOf l.cid l.team / 48 + 32 * (s.coreOf l.cid l.team % 48)))
            ∧ (n = 0x08 → two (s.core (s.coreOf l.cid l.team)).cycle.toNat)
            ∧ (n = 0x09 → one ((s.lswOf (.lane l)).toNat % 64))
            ∧ (n = 0x0A → ∀ j, j < 32 → ((t.reg32 th d).getLsbD j = true ↔
                j < 6 ∧ ∃ x ∈ g.lanes, x.lsw.getLsbD j = true))
            ∧ (∀ k j : Nat, k < 4 → j < 4 → n = BitVec.ofNat 8 (0x1C + k) →
                (t.reg32 th (d + BitVec.ofNat 8 j)).toNat = (g.hg.getD 0).toNat / 2 ^ (128 * k + 32 * j) % 2 ^ 32)

/-- R95, R193, R194: SWRITE replaces the special register of each member, members in lane order; LSW keeps its six flags,
LINK its low 56 bits, TCAUSE its low 8. Of several members that write one trap register of their group, the highest-numbered
one's value stands (the model's choice, log 64). -/
def Claims.SpecialRegistersWritten : Prop :=
  ∀ (h : Hd) (a : Code) (n : BitVec 8) (s : State) (u : Issue), let i : Instr := .swrite h a n
    Ready i s u → u.run.Pairwise (· < ·) → ∃ t, exec i s = .next t
      ∧ Only { Erase.standing with
          lane := fun x => { x.standing with lsw := 0, link := 0, taddr := 0 }
          group := fun x => { x.unmarked with trap := ⟨0, 0, 0, 0, 0⟩ }
          control := fun c => { c.standing with link := 0, taddr := 0, trap := ⟨0, 0, 0, 0, 0⟩ } } s t
      ∧ (∀ th, t.pcOf th = if th ∈ u.threads then u.next i else s.pcOf th)
      ∧ (∀ th, (n ≠ 0x09 ∨ ∀ m, Member i s u m → u.engine.thread m ≠ th) → t.lswOf th = s.lswOf th)
      ∧ (∀ th, (n ≠ 0x0B ∨ ∀ m, Member i s u m → u.engine.thread m ≠ th) → t.link th = s.link th)
      ∧ (∀ th, (n ≠ 0x14 ∨ ∀ m, Member i s u m → u.engine.thread m ≠ th) → t.taddrOf th = s.taddrOf th)
      ∧ (∀ l : LaneRef, u.engine ≠ .lane l.gr → t.trapRegs (.lane l) = s.trapRegs (.lane l))
      ∧ (∀ q, u.engine ≠ .control q → t.trapRegs (.control q) = s.trapRegs (.control q))
      ∧ ∀ m, Member i s u m →
        let th := u.engine.thread m
        let x32 := s.reg32 th a
        let x64 := s.reg64 th a
        let last : Prop := ∀ k, Member i s u k → k ≤ m
        let old := s.trapRegs th
        let new := t.trapRegs th
        (n = 0x09 → t.lswOf th = x32 &&& 0x3F)
        ∧ (n = 0x0B → (t.link th).toNat = x64.toNat % 2 ^ 56)
        ∧ (n = 0x14 → t.taddrOf th = x64)
        ∧ (n = 0x10 → last → new = { old with cause := x32 &&& 0xFF })
        ∧ (n = 0x11 → last → new = { old with pc := x64 })
        ∧ (n = 0x12 → last → new = { old with mask := x32 })
        ∧ (n = 0x13 → last → new = { old with done := x32 })
        ∧ (n = 0x15 → last → new = { old with aux := x64 })
        ∧ (n = 0x09 ∨ n = 0x0B ∨ n = 0x14 → new = old)

/-! ### Statements joined -/

/-- R93, R94, R96 to R98, R103: transfers, and how lanes stop, yield and pause. -/
def Obligations.ControlFlow : Prop := Claims.ControlTransfers ∧ Claims.LanesStopAndPause

/-- R99 to R102: barriers and quad tokens. What its parts name as the model's choice: log 13, log 57. -/
def Obligations.BarriersAndTokens : Prop := Claims.Barriers ∧ Claims.Tokens

/-- R65, R95, R192 to R194: SREAD and SWRITE of every special register that they name. What its parts name as the model's
choice: log 64. -/
def Obligations.SpecialRegisters : Prop := Claims.SpecialRegistersRead ∧ Claims.SpecialRegistersWritten

/-- R33 to R35, R50, R94, R104, R189, R196, R295, R297: the instructions that trap at issue, TRAP and BRK among them. What its
parts name as the model's choice: log 16, log 49. -/
def Obligations.GroupTraps : Prop := Claims.IllegalInstructionsTrap ∧ Claims.InstructionTraps

/-! ### Memory instructions (R127 to R161) -/

namespace Sys2Proof.Machine

open Sys2Proof

/-- No request and no open instruction carries a number that is still to be given (NumbersStayFresh). -/
def State.Numbered (s : State) : Prop :=
  0 < s.nextId ∧ (∀ r ∈ s.reqs, r.id < s.nextId ∧ r.op < s.nextId ∧ r.issue < s.nextId)
  ∧ ∀ c x, s.clusters.find c = some x → ∀ t ∈ x.teams, ∀ g ∈ t.groups,
      (∀ o ∈ g.opens, o.id < s.nextId)
      ∧ ∀ l ∈ g.lanes, ∀ op q d e, l.wait = .enqueue op q d e → op < s.nextId

/-- The page that serves a lane's address without a walk: its last page, or its core's TLB, where permissions and class allow
the access (R289, R290). -/
def State.cachedPage (s : State) (l : LaneRef) (good : Page → Bool) (va : Nat) (write : Bool) : Option Page :=
  cachedFor (((s.lane l).bind (·.lpr)).toList ++ (s.core (s.coreOf l.cid l.team)).tlb) good va write

/-- The pages that serve addresses in order without a walk, up to the first that none serves: the last page, which each
address found replaces, or the TLB (R289). -/
def servedPages (tlb : List Page) (good : Nat → Page → Bool) (write : Bool) : List Page → List Nat → List Page
  | _, [] => []
  | last, va :: vas =>
    match cachedFor (last ++ tlb) (good va) va write with
    | none => []
    | some p => p :: servedPages tlb good write [p] vas

/-- What a memory instruction asks of one member: its virtual address, the request it makes, and the pages whose class allows
it; where its access crosses a line boundary, also the parts it is made in and the second part's address. -/
structure Wants where
  va : Nat
  kind : ReqKind
  good : Page → Bool
  cut : Option (ReqKind × Nat × ReqKind)

/-- Counters of cores: n more events of a kind at one core, and nothing else of any core differs (R197). -/
def CountsAt (s t : State) (core ctr n : Nat) : Prop :=
  ∀ k, { t.core k with counters := [] } = { s.core k with counters := [] }
    ∧ ∀ j, (t.core k).counters.get 0 j
        = (s.core k).counters.get 0 j + (if k = core ∧ j = ctr then BitVec.ofNat 64 n else 0)

/-- The open instructions that members of an issue are to issue anew after a resumption, and whose other members wait for them
(R239, R257, R258). -/
def State.resumed (s : State) (u : Issue) (i : Instr) : List Open :=
  match u.engine with
  | .lane g => ((s.group g).map fun x : Group => x.awaiting (u.members s i)).getD []
  | _ => []

/-- An instruction that members issue anew after a resumption takes up the open ones whose other members wait for them: these
are listed no more, and all the lanes wait together or go on together (R130, R152, R239, R258). -/
structure Rejoins (i : Instr) (s t : State) (u : Issue) (g : GroupRef) : Prop where
  taken : ∀ x, t.group g = some x → ∀ o ∈ s.resumed u i, o ∉ x.opens
  together : (∀ o ∈ s.resumed u i, ∀ p ∈ o.parts, ¬Member i s u p.lane ∧ (s.lane (g.at p.lane)).map (·.wait) = some (.held o.id)) →
    let all (held on : Nat → Prop) : Prop := (∀ n, held n) ∨ ∀ n, on n
    let mine (n : Nat) : Prop := Member i s u n
    let theirs (n : Nat) : Prop := ∃ o ∈ s.resumed u i, ∃ p ∈ o.parts, p.lane = n
    all (fun n => mine n ∨ theirs n → (t.lane (g.at n)).map (·.wait) ≠ some .ready
          ∧ t.pcOf (.lane (g.at n)) = s.pcOf (.lane (g.at n)))
      fun n => mine n ∨ theirs n → (t.lane (g.at n)).map (·.wait) = some .ready
          ∧ (mine n → t.pcOf (.lane (g.at n)) = u.next i)
          ∧ (theirs n → some (t.pcOf (.lane (g.at n))) = (s.lane (g.at n)).map (·.next))

/-- A memory instruction opens (R128 to R132, R241, R289 to R291, R354): a misaligned member fails with ALIGN, and every other
member's request stands in flight, translated where a cached page serves it and waiting for a walk elsewhere, which TLBMISS
counts; an access that crosses a line boundary translates both parts, and where both pages are of this device it becomes a
request for each (log 52); with a page of a peer it stays one request (log 26). A request may leave at once for a peer, and one
whose peer cannot be reached fails with PEER as it would leave (R353). The members are held, unless passes holds and each has a
page, which far allows to be a peer's; then they go on. Requests made before, registers, memory and all else stay as they were;
shed drops what of a lane may also change. An instruction that some members issue anew after a resumption takes up the one that
the others wait in. -/
def OpensRequests (i : Instr) (write : Bool) (bytes : Nat) (o : Order) (passes far : Bool) (shed : Lane → Lane)
    (wants : State → LaneRef → Wants) : Prop :=
  ∀ (s : State) (u : Issue) (g : GroupRef), u.engine = .lane g → Ready i s u → s.Numbered → u.run.Nodup →
    let w (n : Nat) : Wants := wants s (g.at n)
    let core := s.coreOf g.cid g.team
    let page (n : Nat) : Option Page := s.cachedPage (g.at n) (w n).good (w n).va write
    let next (n : Nat) (p : Page) (va : Nat) : Option Page := cachedFor (p :: (s.core core).tlb) (w n).good va write
    let dev (p : Page) (va : Nat) : Option Nat := peerOf (p.target va)
    let devs (n : Nat) : List Nat := match page n, (w n).cut with
      | some p, none => (dev p (w n).va).toList
      | some p, some (_, vb, _) => match next n p vb with
        | some q => (dev p (w n).va).toList ++ (dev q vb).toList
        | none => []
      | none, _ => []
    let aligned (n : Nat) : Bool := decide ((w n).va % bytes = 0)
    let waits (n : Nat) : Bool := aligned n && (match page n, (w n).cut with
      | none, _ => true
      | some _, none => false
      | some p, some (_, vb, _) => (next n p vb).isNone)
    let calm : Prop := ∀ n, Member i s u n → aligned n = true → ∀ d ∈ (devs n).take 1, s.peerReachable d = true
    ∃ t, exec i s = .next t
      ∧ (s.resumed u i ≠ [] → Rejoins i s t u g)
      ∧ (s.resumed u i = [] →
      (calm → Only { Erase.standing with
          lane := fun x => { (shed x).standing with lpr := none, again := none }
          group := fun x => { x.unmarked with opens := [] }
          device := fun x => { x with reqs := [], nextId := 0, cores := [] } } s t
        ∧ (∀ n ∈ u.run, ¬Member i s u n → t.lane (g.at n) = (s.lane (g.at n)).map fun x =>
            { x with pc := u.next i, again := if o.counted = true ∧ s.inHandlerOf u.engine = false then none else x.again })
        ∧ (∀ l, (∀ n ∈ u.run, g.at n ≠ l) → t.lane l = s.lane l)
        ∧ CountsAt s t core 3 ((u.members s i).filter waits).length)
      ∧ (∀ r, r ∈ s.reqs ↔ r ∈ t.reqs ∧ r.id < s.nextId)
      ∧ (∀ r ∈ t.reqs, s.nextId ≤ r.id → ∃ n, Member i s u n ∧ r.owner = .lane (g.at n))
      ∧ (∀ n, Member i s u n →
          let failed (c va aux : Nat) : Prop := ∃ x y, t.group g = some x ∧ y ∈ x.opens ∧ y.id = s.nextId ∧ y.pc = u.pc
            ∧ ⟨n, .failed c (BitVec.ofNat 64 va) (BitVec.ofNat 64 aux)⟩ ∈ y.parts
          let made (kind : ReqKind) (vas : List Nat) (P : Req → Prop) : Prop := ∃ r ∈ t.reqs, r.owner = .lane (g.at n)
            ∧ s.nextId ≤ r.id ∧ r.kind = kind ∧ r.vas = vas ∧ r.scope = o.sc ∧ r.acq = o.acq ∧ r.rel = o.rel ∧ P r
          let kind := (w n).kind
          let va := (w n).va
          let parked (r : Req) : Prop := r.stage = .walk
          let placed (pas : List Nat) (r : Req) : Prop :=
            r.pas = pas ∧ (r.stage = .ready ∨ devs n ≠ [] ∧ r.stage = .atPeer)
          let lost : Prop := ∃ d ∈ (devs n).take 1, s.peerReachable d = false ∧ failed 0x0B va (d % 2 ^ 14)
          if va % bytes ≠ 0 then failed 0x03 va 0
          else match page n, (w n).cut with
            | none, none => made kind [va] parked
            | none, some (_, vb, _) => made kind [va, vb] parked
            | some p, none => made kind [va] (placed [p.target va]) ∨ lost
            | some p, some (k, vb, k') =>
              match next n p vb with
              | none => made kind [va, vb] parked
              | some q =>
                if devs n = [] then made k [va] (placed [p.target va]) ∧ made k' [vb] (placed [q.target vb])
                else made kind [va, vb] (placed [p.target va, q.target vb]) ∨ lost)
      ∧ (∀ n p, Member i s u n → aligned n = true → page n = some p → (w n).cut = none →
          (t.lane (g.at n)).bind (·.lpr) = some p)
      ∧ ((passes = false ∨ ∃ n, Member i s u n ∧ (aligned n = false ∨ waits n = true ∨ far = false ∧ devs n ≠ [])) →
          ∀ n, Member i s u n →
            (t.lane (g.at n)).map (·.wait) = some (.held s.nextId) ∧ t.pcOf (.lane (g.at n)) = s.pcOf (.lane (g.at n)))
      ∧ (passes = true → calm → (∀ n, Member i s u n → aligned n = true ∧ waits n = false ∧ (far = true ∨ devs n = [])) →
          ∀ n, Member i s u n →
            (t.lane (g.at n)).map (·.wait) = some .ready ∧ t.pcOf (.lane (g.at n)) = u.next i))

/-- The address a + sext(imm), bits [63:56] ignored (R128). -/
def addrOf (s : State) (th : Thread) (a : Code) (imm : BitVec 32) : Nat :=
  (((s.reg64 th a).toNat + imm.toInt) % 2 ^ 56 : Int).toNat

/-- Byte i of the registers from b up, the lowest byte first (R127). -/
def byteOf (s : State) (th : Thread) (b : Code) (i : Nat) : Byte :=
  BitVec.ofNat 8 ((s.reg32 th (b + BitVec.ofNat 8 (i / 4))).toNat / 2 ^ (8 * (i % 4)))

end Sys2Proof.Machine

/-- R127 to R130, R133, R134, R145: LDG, its residency form and PROMOTE ask for their bytes; the residency form clears its
condition bit where its page is known. That a load that meets a page of a peer asks the peer alone (log 26), and that the members
are held until each has its page (log 89), are the model's choices. -/
def Obligations.LoadsRequest : Prop :=
  ∀ (h : Hd) (v md : BitVec 4) (sc : BitVec 3) (rc : CBit) (d a : Code) (imm : BitVec 32),
    let n := widthBytes v
    OpensRequests (.ldg h v md sc d a imm) false n { sc := sc, acq := md == 1 } true true id
      (fun s l => ⟨addrOf s (.lane l) a imm, .load d n (v.getLsbD 3) (md == 2) none, fun _ => true, none⟩)
    ∧ OpensRequests (.ldgRc h v md sc rc d a imm) false n { sc := sc, acq := md == 1 } true true
        (fun x => { x with cond := x.cond &&& ~~~(1#8 <<< rc.toNat) })
        (fun s l => ⟨addrOf s (.lane l) a imm, .load d n (v.getLsbD 3) (md == 2) (some rc), fun _ => true, none⟩)
    ∧ (∀ s u g t, u.engine = .lane g → Ready (.ldgRc h v md sc rc d a imm) s u → s.Numbered → u.run.Nodup →
        exec (.ldgRc h v md sc rc d a imm) s = .next t → ∀ m, Member (.ldgRc h v md sc rc d a imm) s u m →
          let va := addrOf s (.lane (g.at m)) a imm
          t.condBit (.lane (g.at m)) rc
            = if va % n = 0 ∧ (s.cachedPage (g.at m) (fun _ => true) va false).isSome then decide (rc = 7)
              else s.condBit (.lane (g.at m)) rc)
    ∧ OpensRequests (.promote h v sc d a imm) false n { sc := sc, acq := true } true true id
        (fun s l => ⟨addrOf s (.lane l) a imm, .promote d n, fun p => p.cls == .normal, none⟩)

/-- R127 to R132, R135, R136: STG and STN take their bytes from their registers, STN with a mask of nibbles; a cached page that
is combining does not serve a store. That a store that crosses a line boundary becomes a request for each line (log 52), or stays one
where a page of a peer is met (log 26), are the model's choices. -/
def Obligations.StoresRequest : Prop :=
  ∀ (h : Hd) (v md : BitVec 4) (sc : BitVec 3) (a b c : Code) (imm : BitVec 32),
    let n := widthBytes v
    let bits (s : State) (l : LaneRef) (j : Nat) : Bool := (s.reg32 (.lane l) c).getLsbD j
    OpensRequests (.stg h v md sc a b imm) true n { sc := sc, rel := md == 1 } true false (fun x => { x with st := 0 })
      (fun s l => ⟨addrOf s (.lane l) a imm,
        .store ((List.range n).map fun j => ⟨0xFF, byteOf s (.lane l) b j⟩), fun p => p.cls != .combining, none⟩)
    ∧ OpensRequests (.stn h v md sc a b c imm) true 4 { sc := sc, rel := md == 1 } true false (fun x => { x with st := 0 })
        (fun s l =>
          let va := addrOf s (.lane l) a imm
          let data : List MByte := (List.range n).map fun j =>
            ⟨(if bits s l (2 * j) then 0x0F else 0) ||| (if bits s l (2 * j + 1) then 0xF0 else 0), byteOf s (.lane l) b j⟩
          let k := 128 - va % 128
          ⟨va, .store data, fun p => p.cls != .combining,
            if va % 128 + n ≤ 128 then none
            else some (.store (data.take k), (va + k) % 2 ^ 56, .store (data.drop k))⟩)

/-- R146 to R148, R150, R151: ATOM, RED, COMB and COMBR hold their lanes and send operation, type and operands; no cached page
serves a combining request to a misaligned address, to a page that is not combining, or of a method that the launch does not
have. -/
def Obligations.AtomicsRequest : Prop :=
  ∀ (h : Hd) (v md : BitVec 4) (sc : BitVec 3) (d a b c : Code) (imm : BitVec 32) (m : BitVec 5),
    let ty := (slice md 2 2).toNat
    let n := if ty = 1 then 8 else 4
    let o : Order := { sc := sc, acq := md.getLsbD 0, rel := md.getLsbD 1, counted := true }
    let val (s : State) (l : LaneRef) (r : Code) : DWord :=
      if ty = 1 then s.reg64 (.lane l) r else (s.reg32 (.lane l) r).zeroExtend 64
    let comb (d : Option Code) (s : State) (l : LaneRef) : Wants :=
      let entry := ((s.gridOf l.cid).bind fun x => x.launch.methods[m.toNat - 16]?).map (·.1)
      ⟨(s.reg64 (.lane l) a).toNat % 2 ^ 56,
        .comb m.toNat d (if v = 0 then 0 else s.reg32 (.lane l) b) (if v = 2 then s.reg32 (.lane l) c else 0),
        fun p => decide ((s.reg64 (.lane l) a).toNat % 128 = 0) && p.cls == .combining
          && (decide (m.toNat < 16) || (p.peer.isNone && decide (entry.getD 0 ≠ 0))), none⟩
    OpensRequests (.atom h v md sc d a b c imm) true n o false false id
      (fun s l => ⟨addrOf s (.lane l) a imm, .atomic v.toNat ty (some d) (val s l b) (val s l c), fun _ => true, none⟩)
    ∧ OpensRequests (.red h v md sc a b imm) true n o false false id
        (fun s l => ⟨addrOf s (.lane l) a imm, .atomic v.toNat ty none (val s l b) 0, fun _ => true, none⟩)
    ∧ OpensRequests (.comb h v md sc d a b c m) true 1 o false false id (comb (some d))
    ∧ OpensRequests (.combr h v md sc a b c m) true 1 o false false id (comb none)

/-! ### Scratch, objects, uniform loads and caches (R137 to R149, R154 to R161) -/

namespace Sys2Proof.Machine

open Sys2Proof

/-- The number that m bytes from k up spell, the lowest first. -/
def spelt (bs : Nat → Byte) (k m : Nat) : Nat := ((List.range m).map fun i => (bs (k + i)).toNat * 256 ^ i).sum

/-- Registers from d up after a load of n bytes, sign-extended where sx holds (R127). -/
def LoadedBytes (n : Nat) (sx : Bool) (d : Code) (bs : Nat → Byte) (t : State) (th : Thread) : Prop :=
  if n < 4 then
    let x := spelt bs 0 n
    (t.reg32 th d).toInt = if sx = true ∧ 2 ^ (8 * n - 1) ≤ x then (x : Int) - 2 ^ (8 * n) else x
  else ∀ j, j < n / 4 → (t.reg32 th (d + BitVec.ofNat 8 j)).toNat = spelt bs (4 * j) 4

/-- Registers from d up after a load of the width and the extension that SUB names (R127). -/
def Loaded (v : BitVec 4) (d : Code) (bs : Nat → Byte) (t : State) (th : Thread) : Prop :=
  LoadedBytes (widthBytes v) (v.getLsbD 3) d bs t th

/-- The codes of n bytes of registers from d up. -/
def codesFrom (d : Code) (n : Nat) : List Code := (List.range ((n + 3) / 4)).map fun j => d + BitVec.ofNat 8 j

/-- The operations of R146 on numbers of w bits. -/
def atomicOn (w op m b c : Nat) : Nat :=
  let sg (x : Nat) : Int := if x < 2 ^ (w - 1) then x else (x : Int) - 2 ^ w
  match op with
  | 0 => (m + b) % 2 ^ w
  | 1 => (m + 2 ^ w - b) % 2 ^ w
  | 2 => if sg b < sg m then b else m
  | 3 => if sg m < sg b then b else m
  | 4 => m &&& b
  | 5 => m ||| b
  | 6 => m ^^^ b
  | 7 => b
  | 8 => if m = b then c else m
  | 9 => if b ≤ m then 0 else m + 1
  | 10 => min m b
  | _ => max m b

/-- The new value and the flags of an atomic of a type: integers of 32 and 64 bits, G23add, and G9add on both halves
(R112, R146). -/
def atomicOf (op ty m b c : Nat) : Nat × Word :=
  match ty with
  | 0 => (atomicOn 32 op m b c, 0)
  | 1 => (atomicOn 64 op m b c, 0)
  | 2 => let r := g23add (BitVec.ofNat 32 m) (BitVec.ofNat 32 b); (r.1.toNat, r.2)
  | _ =>
    let lo := g9add (BitVec.ofNat 16 m) (BitVec.ofNat 16 b)
    let hi := g9add (BitVec.ofNat 16 (m / 2 ^ 16)) (BitVec.ofNat 16 (b / 2 ^ 16))
    (lo.1.toNat + 2 ^ 16 * hi.1.toNat, lo.2 ||| hi.2)

/-- A window under the writes of a list of members in order: byte i of member n goes to the place p n i. -/
def writtenOver (ns : List Nat) (size : Nat) (place : Nat → Nat → Nat) (byte : Nat → Nat → Byte) (old : Nat → Byte) :
    Nat → Byte :=
  ns.foldl (fun w n => fun q =>
    (((List.range size).filter fun i => place n i == q).getLast?.map fun i => byte n i).getD (w q)) old

/-- Every byte of every window but one team's is as it was. -/
def OtherWindows (s t : State) (cid team : Nat) : Prop :=
  ∀ c k o, (c, k) ≠ (cid, team) → t.winByte c k o = s.winByte c k o

/-- Frame of a store to a window: that window may change, where threads stand, and nothing else. -/
def Erase.windows : Erase := { Erase.standing with team := fun x => { x with window := [] } }

/-- No L1 owns a line, and none holds a store that has not reached its home. -/
def State.homeCurrent (s : State) : Prop :=
  (∀ line, s.ownerOf line = none) ∧ ∀ r ∈ s.reqs, ∀ c, r.stage ≠ .inL1 c

end Sys2Proof.Machine

/-- R127, R128, R138 to R140, R146, R149: LDS and LDC read, STS and STC write, and ATOMS updates, in lane order, a window
through its swizzle, where every member's offset is aligned and its bytes lie in the window of a core of the cluster;
members that fail trap ALIGN, or SPACE, and the others perform. That bits [1:0] of TVEC count as 0 (log 65), and that
ATOMS .l32 sets CX (log 60), are the model's choices. -/
def Obligations.ScratchWindows : Prop :=
  ∀ (h : Hd) (v md : BitVec 4) (d a b c : Code) (imm : BitVec 32) (core : BitVec 4) (off : BitVec 16) (s : State)
    (u : Issue) (g : GroupRef), u.engine = .lane g → u.run.Pairwise (· < ·) →
    let th (n : Nat) : Thread := .lane (g.at n)
    let offOwn (n : Nat) : Int := (s.reg32 (th n) a).toNat + imm.toInt
    let offFar (n : Nat) : Int := (s.reg32 (th n) a).toNat + off.toNat
    let fits (x : Int) (n : Nat) : Prop := x % n = 0 ∧ 0 ≤ x ∧ x + n ≤ s.winSize g.cid
    let cores := ((s.cluster g.cid).map (·.teams.length)).getD 0
    let place (x : Nat → Int) (m n i : Nat) : Nat := swizzle m ((x n).toNat + i)
    let goods (i : Instr) (x : Nat → Int) (team size : Nat) : List Nat := (u.members s i).filter fun n =>
      decide (x n % size = 0 ∧ 0 ≤ x n ∧ x n + size ≤ s.winSize g.cid ∧ team < cores)
    let sameWindows (t : State) : Prop := ∀ c k o, t.winByte c k o = s.winByte c k o
    let sameRegs (t : State) : Prop := ∀ e r, t.reg e r = s.reg e r
    let loads (i : Instr) (x : Nat → Int) (team : Nat) : Prop := Ready i s u →
      (∀ n, Member i s u n → fits (x n) (widthBytes v) ∧ team < cores) → ∃ t, exec i s = .next t
        ∧ RegFrame i s t u (codesFrom d (widthBytes v)) [] false
        ∧ ∀ n, Member i s u n → Loaded v d (fun j => s.winByte g.cid team (place x (slice md 0 3).toNat n j)) t (th n)
    let loaded (x : Nat → Int) (team : Nat) (ns : List Nat) (t : State) : Prop := sameWindows t
      ∧ (∀ e r, (∀ n ∈ ns, th n = e → r ∉ codesFrom d (widthBytes v)) → t.reg e r = s.reg e r)
      ∧ (∀ e, t.lswOf e = s.lswOf e)
      ∧ ∀ n ∈ ns, Loaded v d (fun j => s.winByte g.cid team (place x (slice md 0 3).toNat n j)) t (th n)
    let stored (x : Nat → Int) (team : Nat) (ns : List Nat) (t : State) : Prop := OtherWindows s t g.cid team
      ∧ sameRegs t ∧ (∀ e, t.lswOf e = s.lswOf e)
      ∧ ∀ o, t.winByte g.cid team o = writtenOver ns (widthBytes v) (place x (slice md 0 3).toNat)
          (fun n j => byteOf s (th n) b j) (s.winByte g.cid team) o
    let stores (i : Instr) (x : Nat → Int) (team : Nat) : Prop := Ready i s u →
      (∀ n, Member i s u n → fits (x n) (widthBytes v) ∧ team < cores) → ∃ t, exec i s = .next t
        ∧ Only Erase.windows s t ∧ (∀ e, t.pcOf e = if e ∈ u.threads then u.next i else s.pcOf e)
        ∧ stored x team (u.members s i) t
    let fails (i : Instr) (x : Nat → Int) (team size : Nat) (aux : Option DWord)
        (effect : List Nat → State → Prop) : Prop := Ready i s u →
      s.canTrap u.engine → ∀ n, Member i s u n → ¬(fits (x n) size ∧ team < cores) →
        (∀ m, Member i s u m → m < n → fits (x m) size ∧ team < cores) →
        let bad (m : Nat) : Prop := ¬(fits (x m) size ∧ team < cores)
        let align (m : Nat) : Prop := x m % size ≠ 0
        ∃ t y, exec i s = .next t ∧ effect (goods i x team size) t
          ∧ Only { Erase.windows with
              lane := fun x => { x.standing with v := [], lsw := 0, taddr := 0 }
              group := fun x => { x.unmarked with trap := ⟨0, 0, 0, 0, 0⟩, handler := none } } s t
          ∧ (∀ m ∈ u.run, ¬Member i s u m → t.pcOf (th m) = u.next i)
          ∧ t.group g = some y ∧ y.handler = some (u.members s i)
          ∧ y.trap.pc = u.pc.zeroExtend 64
          ∧ (align n → y.trap.cause = 0x03 ∧ y.trap.aux = 0) ∧ (¬align n → y.trap.cause = 0x07)
          ∧ (¬align n → ∀ z, aux = some z → y.trap.aux = z)
          ∧ (∀ m, m < 32 → (y.trap.mask.getLsbD m = true ↔ Member i s u m ∧ bad m ∧ (align m ↔ align n)))
          ∧ (∀ m, m < 32 → (y.trap.done.getLsbD m = true ↔ Member i s u m ∧ ¬bad m))
          ∧ (∀ m, Member i s u m → bad m → (align m ↔ align n) → t.taddrOf (th m) = BitVec.ofInt 64 (x m))
          ∧ ∀ m, Member i s u m → (s.lane (g.at m)).map (·.wait) ≠ some .exited → t.pcOf (th m) = alignPc (s.tvec g.cid)
    let ty := (slice md 2 2).toNat
    let size := if ty = 1 then 8 else 4
    let num (r : Code) (n : Nat) : Nat := if ty = 1 then (s.reg64 (th n) r).toNat else (s.reg32 (th n) r).toNat
    let atoms : Instr := .atoms h v md d a b c imm
    let new (w : Nat → Byte) (n : Nat) : Nat × Word :=
      atomicOf v.toNat ty (spelt w (offOwn n).toNat size) (num b n) (num c n)
    let update (w : Nat → Byte) (n : Nat) : Nat → Byte := fun q =>
      if (offOwn n).toNat ≤ q ∧ q < (offOwn n).toNat + size then BitVec.ofNat 8 ((new w n).1 / 256 ^ (q - (offOwn n).toNat))
      else w q
    let updated (ns : List Nat) (t : State) : Prop := OtherWindows s t g.cid g.team
      ∧ (∀ e r, (∀ n ∈ ns, th n = e → r ∉ codesFrom d size) → t.reg e r = s.reg e r)
      ∧ (∀ e, (∀ n ∈ ns, th n ≠ e) → t.lswOf e = s.lswOf e)
      ∧ (∀ o, t.winByte g.cid g.team o = ns.foldl update (s.winByte g.cid g.team) o)
      ∧ ∀ n ∈ ns,
        let before := (ns.takeWhile (· != n)).foldl update (s.winByte g.cid g.team)
        t.lswOf (th n) = s.lswOf (th n) ||| (new before n).2
        ∧ (ty ≠ 1 → (t.reg32 (th n) d).toNat = spelt before (offOwn n).toNat 4)
        ∧ (ty = 1 → (t.reg64 (th n) d).toNat = spelt before (offOwn n).toNat 8)
    loads (.lds h v md d a imm) offOwn g.team ∧ loads (.ldc h v md d a core off) offFar core.toNat
    ∧ stores (.sts h v md a b imm) offOwn g.team ∧ stores (.stc h v md a b core off) offFar core.toNat
    ∧ (Ready atoms s u → (∀ n, Member atoms s u n → fits (offOwn n) size) → g.team < cores → ∃ t, exec atoms s = .next t
        ∧ Only { Erase.windows with lane := fun x => { x.standing with v := [], lsw := 0 } } s t
        ∧ (∀ e, t.pcOf e = if e ∈ u.threads then u.next atoms else s.pcOf e)
        ∧ updated (u.members s atoms) t)
    ∧ fails (.lds h v md d a imm) offOwn g.team (widthBytes v) none (loaded offOwn g.team)
    ∧ fails (.sts h v md a b imm) offOwn g.team (widthBytes v) none (stored offOwn g.team)
    ∧ fails atoms offOwn g.team size none updated
    ∧ fails (.ldc h v md d a core off) offFar core.toNat (widthBytes v) (some (core.zeroExtend 64))
        (loaded offFar core.toNat)
    ∧ fails (.stc h v md a b core off) offFar core.toNat (widthBytes v) (some (core.zeroExtend 64))
        (stored offFar core.toNat)

/-- R154 to R156: OBJLD reads the object as the wave began with it (log 68) under the wave's buffered writes, OBJST writes into that buffer, REPLY sets the
reply, and MABORT removes its members; an access that leaves the object, and an abort after a store, stop the wave. -/
def Obligations.MethodObjects : Prop :=
  ∀ (h : Hd) (v : BitVec 4) (d a b : Code) (imm : BitVec 32) (s : State) (u : Issue) (k : Nat) (w : Wave),
    u.engine = .method k → (s.sliceAt k).wave = some w → u.run.Pairwise (· < ·) →
    let th (n : Nat) : Thread := .wave k n
    let off (n : Nat) : Int := (s.reg32 (th n) a).toNat + imm.toInt
    let fits (n : Nat) : Prop := off n % widthBytes v = 0 ∧ 0 ≤ off n ∧ off n + widthBytes v ≤ 128
    let old (o : Nat) : Byte := (w.buffer.find o).getD (w.object.getD o 0)
    let stops (i : Instr) (why : WaveStop) : Prop := exec i s = .next (s.modWave k fun x => { x with stop := some why })
    let slice' (f : WaveLane → WaveLane) (x : Slice) : Slice :=
      { x with wave := x.wave.map fun y => { y with buffer := [], lanes := y.lanes.map fun z => f { z with pc := 0, ended := false } } }
    let passes (i : Instr) (t : State) : Prop := ∀ e, t.pcOf e = if e ∈ u.threads then u.next i else s.pcOf e
    let ld : Instr := .objld h v d a imm
    let st : Instr := .objst h v a b imm
    let rp : Instr := .reply h a
    let ab : Instr := .mabort h
    let laneOf (x : State) (n : Nat) : Option WaveLane := ((x.sliceAt k).wave.bind fun y => y.lanes[n]?)
    (Ready ld s u → (∀ n, Member ld s u n → fits n) → ∃ t, exec ld s = .next t
      ∧ RegFrame ld s t u (codesFrom d (widthBytes v)) [] false
      ∧ ∀ n, Member ld s u n → Loaded v d (fun j => old ((off n).toNat + j)) t (th n))
    ∧ (Ready ld s u → (∃ n, Member ld s u n ∧ ¬fits n) → stops ld .objectBounds)
    ∧ (Ready st s u → (∀ n, Member st s u n → fits n) → ∃ t w', exec st s = .next t ∧ passes st t
        ∧ Only { slice := slice' fun z => { z with stored := false } } s t ∧ (t.sliceAt k).wave = some w'
        ∧ (∀ o, (w'.buffer.find o).getD (w.object.getD o 0)
            = writtenOver (u.members s st) (widthBytes v) (fun n j => (off n).toNat + j) (fun n j => byteOf s (th n) b j) old o)
        ∧ ∀ n x, laneOf s n = some x → (laneOf t n).map (·.stored) = some (x.stored || decide (n ∈ u.members s st)))
    ∧ (Ready st s u → (∃ n, Member st s u n ∧ ¬fits n) → stops st .objectBounds)
    ∧ (Ready rp s u → ∃ t, exec rp s = .next t ∧ passes rp t
        ∧ Only { slice := slice' fun z => { z with reply := 0 } } s t
        ∧ ∀ n x, laneOf s n = some x →
            (laneOf t n).map (·.reply) = some (if n ∈ u.members s rp then s.reg64 (th n) a else x.reply))
    ∧ (Ready ab s u → (∀ n x, Member ab s u n → laneOf s n = some x → x.stored = false) → ∃ t, exec ab s = .next t
        ∧ passes ab t ∧ Only { slice := slice' fun z => { z with reply := 0, removed := false } } s t
        ∧ ∀ n x, laneOf s n = some x → (laneOf t n).map (fun y => (y.removed, y.reply))
            = some (if n ∈ u.members s ab then (true, 0) else (x.removed, x.reply)))
    ∧ (Ready ab s u → (∃ n x, Member ab s u n ∧ laneOf s n = some x ∧ x.stored = true) → stops ab .abortAfterStore)

namespace Sys2Proof.Machine

open Sys2Proof

/-- The host's event ring takes entries of payload, INFO and source, in order, as far as it has room: each goes to the tail,
with its PHASE and its sequence count; EVDROP counts the others (R142, R352). -/
structure RingTakes (s t : State) (es : List (DWord × Word × Word)) : Prop where
  taken : let n := 2 ^ (s.bar0.evctl.toNat % 32)
    let used := (s.bar0.evtail - s.bar0.evhead).toNat
    let enabled := s.bar0.evctl.getLsbD 31 = true ∧ 6 ≤ s.bar0.evctl.toNat % 32 ∧ s.bar0.evctl.toNat % 32 ≤ 16
    let k := if enabled then min es.length (n - used) else 0
    let tail (i : Nat) : Nat := (s.bar0.evtail + BitVec.ofNat 64 i).toNat
    let pa (i : Nat) : Nat := 2 ^ 47 + (s.bar0.evbase.toNat / 4096 * 4096) % 2 ^ 47 + 32 * (tail i % n)
    (enabled → used ≤ n) →
      t.bar0.evtail = s.bar0.evtail + BitVec.ofNat 64 k
      ∧ t.bar0.evdrop = s.bar0.evdrop + BitVec.ofNat 64 (es.length - k)
      ∧ t.ringSeq = s.ringSeq + BitVec.ofNat 64 k
      ∧ (∀ i e, i < k → es[i]? = some e →
          t.homeNat (pa i) 8 = e.1.toNat
          ∧ t.homeNat (pa i + 8) 4 = (e.2.1 ||| if tail i / n % 2 = 0 then 0x80000000 else 0).toNat
          ∧ t.homeNat (pa i + 12) 4 = e.2.2.toNat
          ∧ t.homeNat (pa i + 16) 8 = (s.ringSeq + BitVec.ofNat 64 (i + 1)).toNat ∧ t.homeNat (pa i + 24) 8 = 0)
      ∧ ∀ a, (∀ i, i < k → a < pa i ∨ pa i + 32 ≤ a) → Mem.read t.mem a = Mem.read s.mem a

end Sys2Proof.Machine

/-- R137, R144, R157, R161, R194, R260, R325, R354: LDGU loads once into its uniform register, and HGCFG loads the group's
descriptor, where a cached page of this device serves the address and no L1 holds anything newer than memory; a descriptor that
does not keep its limits is the trap HGDESC. At a page of a peer one request asks that peer: the members go on while it is on its
way, and a control core waits for its own. A misaligned address is the trap ALIGN, and one that nothing maps the trap PAGE. HGIDX
gives the index, the weight or the entry address of one corner, and traps HGDESC for a level or a corner out of range, and without
a descriptor; that TADDR is 0 there is the model's choice (log 24). FENCE goes on where what it orders has performed, and
otherwise holds its lane. -/
def Obligations.UniformLoadsAndFences : Prop :=
  ∀ (h : Hd) (v md : BitVec 4) (sc : BitVec 3) (d a : Code) (imm : BitVec 32) (level : BitVec 4) (corner : BitVec 8)
    (s : State) (u : Issue),
    let th := u.engine.thread
    let n := widthBytes v
    let ld : Instr := .ldgu h v md sc d a imm
    let cfg : Instr := .hgcfg h a imm
    let idx : Instr := .hgidx h v d a level corner
    let fe : Instr := .fence h md sc
    let passes (i : Instr) (t : State) : Prop := ∀ e, t.pcOf e = if e ∈ u.threads then u.next i else s.pcOf e
    let page (good : Page → Bool) (m va : Nat) : Option Page := match u.engine with
      | .lane g => s.cachedPage (g.at m) good va false
      | .control q => cachedFor (s.quadHw (s.quadOf q)).tlb good va false
      | .method _ => none
    let trapped (i : Instr) (cause va : Nat) : Prop :=
      let ms := u.members s i
      ∃ t, exec i s = .next t ∧ match u.engine with
        | .lane g => TakesTrap s t g u.pc ms ms [] (u.run.filter fun n => !ms.contains n) cause (fun _ => BitVec.ofNat 64 va) 0
            (u.next i)
        | .control q => TakesControlTrap s t q u.pc cause (BitVec.ofNat 64 va) 0 0
        | .method _ => False
    let unmapped (i : Instr) (va : Nat) : Prop := ∃ t, exec i s = .next t ∧ match u.engine with
      | .lane g => ∃ y, t.group g = some y ∧ y.handler = some (u.members s i) ∧ y.trap.cause = 0x04 ∧ y.trap.done = 0
          ∧ y.trap.pc = u.pc.zeroExtend 64 ∧ ∀ k, Member i s u k → t.taddrOf (th k) = BitVec.ofNat 64 va
            ∧ ∀ c, t.reg (th k) c = s.reg (th k) c
      | .control q => ∃ y, t.quad q = some y ∧ y.control.inHandler = true ∧ y.control.trap.cause = 0x04
          ∧ y.control.trap.pc = u.pc.zeroExtend 64 ∧ y.control.taddr = BitVec.ofNat 64 va
      | .method _ => False
    let noWalkCached : Prop := match u.engine with
      | .lane g => (s.quadHw (quadOfCore (s.coreOf g.cid g.team))).walk = ⟨[], []⟩
      | .control q => (s.quadHw (s.quadOf q)).walk = ⟨[], []⟩
      | .method _ => False
    let asks (i : Instr) (kind : ReqKind) (acq : Bool) (sc : BitVec 3) (m va : Nat) (p : Page) (dev : Nat) : Prop := ∃ t r,
      exec i s = .next t
        ∧ Only { Erase.standing with
            lane := fun x => { x.standing with lpr := none, again := none }
            group := fun x => { x.unmarked with opens := [] }
            device := fun x => { x with reqs := [], nextId := 0 } } s t
        ∧ (∀ r, r ∈ s.reqs ↔ r ∈ t.reqs ∧ r.id < s.nextId)
        ∧ r ∈ t.reqs ∧ r.id = s.nextId ∧ r.kind = kind ∧ r.acq = acq ∧ r.scope = sc ∧ r.vas = [va] ∧ r.pas = [p.target va]
        ∧ r.stage = .atPeer ∧ r.peer = some dev
        ∧ (∀ q, u.engine = .control q → r.owner = .control q ∧ (t.quad q).map (·.control.wait) = some (.loading s.nextId)
            ∧ t.pcOf (.control q) = s.pcOf (.control q))
        ∧ ∀ g, u.engine = .lane g → r.owner = .lane (g.at m) ∧ RestOfRun i s t u g
            ∧ (∃ y o, t.group g = some y ∧ o ∈ y.opens ∧ o.id = s.nextId ∧ o.pc = u.pc ∧ o.gone = true
                ∧ o.parts = (u.members s i).map fun k => ⟨k, .translated⟩)
            ∧ ∀ k, Member i s u k → (t.lane (g.at k)).map (·.wait) = some .ready ∧ t.pcOf (.lane (g.at k)) = u.next i
    (Ready ld s u → ∀ m, (u.members s ld).head? = some m →
      let va := addrOf s (th m) a imm
      (va % n ≠ 0 → s.canTrap u.engine → trapped ld 0x03 va)
      ∧ (va % n = 0 → page (fun _ => true) m va = none → noWalkCached → (s.freshWalk va).out = .unmapped → s.canTrap u.engine →
          unmapped ld va))
    ∧ (Ready cfg s u → ∀ g m, u.engine = .lane g → (u.members s cfg).head? = some m →
      let va := addrOf s (th m) a imm
      (va % 64 ≠ 0 → s.canTrap u.engine → trapped cfg 0x03 va)
      ∧ (va % 64 = 0 → page (fun p => p.cls == .hashedGrid) m va = none → noWalkCached → (s.freshWalk va).out = .unmapped →
          s.canTrap u.engine → unmapped cfg va))
    ∧ (Ready ld s u → ∀ m p, (u.members s ld).head? = some m →
      let va := addrOf s (th m) a imm
      va % n = 0 → page (fun _ => true) m va = some p → p.peer = none → s.homeCurrent → ∃ t, exec ld s = .next t
        ∧ passes ld t
        ∧ Only { Erase.standing with
            lane := fun x => { x.standing with acqAt := 0, lpr := none }
            group := fun x => { x.unmarked with g := [] }
            control := fun c => { c.standing with k := [], acqAt := 0 }
            device := fun x => { x with cores := [] } } s t
        ∧ (∀ e c, (sameReg (th m) e c = true → c ∉ codesFrom d n) → t.reg e c = s.reg e c)
        ∧ ∀ k, Member ld s u k →
            ((th k).isControl = true → (t.reg (th k) d).toNat = spelt (fun j => Mem.read s.mem (p.pa va + j)) 0 n)
            ∧ ((th k).isControl = false → n ≠ 8 → (t.reg32 (th k) d).toNat = spelt (fun j => Mem.read s.mem (p.pa va + j)) 0 4)
            ∧ ((th k).isControl = false → n = 8 → (t.reg64 (th k) d).toNat = spelt (fun j => Mem.read s.mem (p.pa va + j)) 0 8))
    ∧ (Ready ld s u → s.Numbered → s.resumed u ld = [] → ∀ m p dev, (u.members s ld).head? = some m →
        let va := addrOf s (th m) a imm
        va % n = 0 → page (fun _ => true) m va = some p → p.peer = some dev → s.peerReachable dev = true →
          asks ld (.uniform d n (md == 1) (u.members s ld)) (md == 1) sc m va p dev)
    ∧ (Ready cfg s u → s.Numbered → s.resumed u cfg = [] → ∀ g m p dev, u.engine = .lane g → (u.members s cfg).head? = some m →
        let va := addrOf s (th m) a imm
        va % 64 = 0 → page (fun p => p.cls == .hashedGrid) m va = some p → p.peer = some dev → s.peerReachable dev = true →
          asks cfg (.config (u.members s cfg)) false 4 m va p dev)
    ∧ (∀ i, i = ld ∨ i = cfg → Ready i s u → s.Numbered → ∀ g, u.engine = .lane g → s.resumed u i ≠ [] → ∀ m p dev,
        (u.members s i).head? = some m → let va := addrOf s (th m) a imm
        va % (if i = ld then n else 64) = 0 → page (fun p => decide (i = ld) || p.cls == .hashedGrid) m va = some p →
        p.peer = some dev → s.peerReachable dev = true → ∃ t, exec i s = .next t ∧ Rejoins i s t u g)
    ∧ (Ready cfg s u → ∀ g m p, u.engine = .lane g → (u.members s cfg).head? = some m →
        let va := addrOf s (th m) a imm
        let desc : BitVec 512 := BitVec.ofNat 512 (spelt (fun j => Mem.read s.mem (p.pa va + j)) 0 64)
        va % 64 = 0 → page (fun p => p.cls == .hashedGrid) m va = some p → p.peer = none → s.homeCurrent →
        (hgOk desc va = true → ∃ t, exec cfg s = .next t ∧ passes cfg t
          ∧ Only { Erase.standing with
              lane := fun x => { x.standing with lpr := none }
              group := fun x => { x.unmarked with hg := none, hgAt := 0 }
              device := fun x => { x with cores := [] } } s t
          ∧ (t.group g).map (fun x => (x.hg, x.hgAt)) = some (some desc, va)
          ∧ ∀ r, r ≠ g → (t.group r).map (fun x => (x.hg, x.hgAt)) = (s.group r).map fun x => (x.hg, x.hgAt))
        ∧ (hgOk desc va = false → s.canTrap u.engine → ∃ t x y, exec cfg s = .next t ∧ s.group g = some x ∧ t.group g = some y
          ∧ y.hg = x.hg ∧ y.hgAt = x.hgAt ∧ y.trap.cause = 0x10 ∧ y.trap.done = 0 ∧ y.trap.aux = 0
          ∧ y.handler = some (u.members s cfg)
          ∧ ∀ k, Member cfg s u k → t.taddrOf (th k) = BitVec.ofNat 64 va))
    ∧ (Ready idx s u → ∀ g x, u.engine = .lane g → s.group g = some x →
        let l := level.toNat
        let k := corner.toNat
        (∀ desc, x.hg = some desc → l < hgLevels desc → k < 2 ^ hgD desc → ∃ t, exec idx s = .next t
          ∧ RegFrame idx s t u (codesFrom d (if v = 2 then 8 else 4)) [] false
          ∧ ∀ m, Member idx s u m →
            let xs := s.hgCoords (th m) desc a
            let at' := hgIndex desc l (hgCorner desc l k xs)
            (v = 0 → (t.reg32 (th m) d).toNat = at' % 2 ^ 32)
            ∧ (v = 1 → (t.reg32 (th m) d).toNat = l16.encode (hgWeight desc l k xs) % 2 ^ 32)
            ∧ (v = 2 → (t.reg64 (th m) d).toNat = hgEntry desc x.hgAt l at'))
        ∧ ((∀ desc, x.hg = some desc → hgLevels desc ≤ l ∨ 2 ^ hgD desc ≤ k) → (∃ m, Member idx s u m) → s.canTrap u.engine →
          let ms := u.members s idx
          ∃ t, exec idx s = .next t ∧ TakesTrap s t g u.pc ms ms [] (u.run.filter fun n => !ms.contains n) 0x10 (fun _ => 0) 0
            (u.next idx)))
    ∧ (Ready fe s u → ∀ q, u.engine = .control q → ∃ t, exec fe s = .next t ∧ passes fe t ∧ Only Erase.standing s t)
    ∧ (Ready fe s u → ∀ g, u.engine = .lane g → ∃ t, exec fe s = .next t
        ∧ Only { Erase.standing with lane := fun x => { x.standing with acqAt := 0 } } s t ∧ RestOfRun fe s t u g
        ∧ ∀ k, Member fe s u k →
          let w := (t.lane (g.at k)).map (·.wait)
          let done (r : Req) : Prop := r.performedAt sc (s.fused g.cid) = true
          let waitsFor (r : Req) : Prop := r.ofLane (g.at k) = true
            ∧ (md ≠ 1 ∧ r.kind.writes = true ∨ md ≠ 2 ∧ (r.kind.reads = true ∨ r.acq = true))
          let ordered : Prop := (∀ r ∈ s.reqs, waitsFor r → done r)
            ∧ (md ≠ 1 → servedByL1 sc (s.fused g.cid) = false →
                ∀ r ∈ s.reqs, ∀ c, r.stage = .inL1 c → c ∉ s.l1sOf g.cid g.team)
          (ordered → w = some .ready ∧ t.pcOf (.lane (g.at k)) = u.next fe)
          ∧ (¬ordered → w = some (.fence md sc) ∧ t.pcOf (.lane (g.at k)) = s.pcOf (.lane (g.at k))))

/-- R128, R159, R160, R289, R290, R293, R327, R354: HGLD asks for the entries of every corner, and HGSCAT sends the products for
them, level by level. An address is served by a cached page of the hashed-grid class; a request all of whose addresses are served
stands translated, each at its page's physical address, and any other waits for a walk, which TLBMISS counts. Where an address
lies at a peer, a request of its own asks for it or takes its product there, whose reachability is tested as it leaves (log 26).
HGSCAT holds its members until the replies; HGLD's go on once every page of every member is known, and are held until then (log
89). An
instruction that members issue anew after a resumption takes up the one that the others wait in. Without a descriptor both trap
HGDESC. -/
def Obligations.HashedGridRequests : Prop :=
  ∀ (h : Hd) (d a b : Code) (s : State) (u : Issue) (g : GroupRef) (x : Group), u.engine = .lane g → s.group g = some x →
    let ld : Instr := .hgld h d a
    let sc : Instr := .hgscat h a b
    let core := s.coreOf g.cid g.team
    let good (p : Page) : Bool := p.cls == .hashedGrid
    let sends (i : Instr) (desc : BitVec 512) (kind : Nat → ReqKind) (part : Nat → Nat → Nat → ReqKind)
        (vas : Nat → List Nat) : Prop :=
      let last (n : Nat) : List Page := ((s.lane (g.at n)).bind (·.lpr)).toList
      let pages (n : Nat) : List Page := servedPages (s.core core).tlb (fun _ => good) (i == sc) (last n) (vas n)
      let known (n : Nat) : Prop := (pages n).length = (vas n).length
      let pas (n : Nat) : List Nat := List.zipWith Page.target (pages n) (vas n)
      Ready i s u → s.Numbered → u.run.Nodup → x.hg = some desc → ∃ t, exec i s = .next t
        ∧ (s.resumed u i ≠ [] → Rejoins i s t u g)
        ∧ (s.resumed u i = [] → Only { Erase.standing with
            lane := fun y => { y.standing with lpr := none, again := none }
            group := fun y => { y.unmarked with opens := [] }
            device := fun y => { y with reqs := [], nextId := 0, cores := [] } } s t
        ∧ (∃ lost : List Nat, lost.Nodup ∧ (∀ n, n ∈ lost ↔ Member i s u n ∧ ¬known n) ∧ CountsAt s t core 3 lost.length)
        ∧ (∀ n ∈ u.run, ¬Member i s u n → t.pcOf (.lane (g.at n)) = u.next i)
        ∧ (∀ l, (∀ n ∈ u.run, g.at n ≠ l) → t.lane l = s.lane l)
        ∧ (∀ r, r ∈ s.reqs ↔ r ∈ t.reqs ∧ r.id < s.nextId)
        ∧ (∀ n, Member i s u n →
            ((t.lane (g.at n)).bind (·.lpr)).toList = ((pages n).getLast?.map fun p => [p]).getD (last n)
            ∧ ∃ r ∈ t.reqs, s.nextId ≤ r.id ∧ r.owner = .lane (g.at n) ∧ r.kind = kind n
              ∧ r.vas = vas n ∧ r.scope = 4 ∧ r.acq = false ∧ r.rel = false
              ∧ (¬known n → r.stage = .walk)
              ∧ (known n → r.stage = .ready ∧ r.pas = pas n
                ∧ ∀ j pa, (pas n)[j]? = some pa → (peerOf pa).isSome = true → ∃ y ∈ t.reqs, y.owner = r.owner
                    ∧ y.kind = part n r.id j ∧ y.vas = [r.vas.getD j 0] ∧ y.pas = [pa] ∧ y.peer = peerOf pa ∧ y.stage = .ready))
        ∧ (i = sc ∨ (∃ n, Member i s u n ∧ ¬known n) → ∀ n, Member i s u n →
            (t.lane (g.at n)).map (·.wait) = some (.held s.nextId) ∧ t.pcOf (.lane (g.at n)) = s.pcOf (.lane (g.at n)))
        ∧ (i = ld → (∀ n, Member i s u n → known n) → ∀ n, Member i s u n →
            (t.lane (g.at n)).map (·.wait) = some .ready ∧ t.pcOf (.lane (g.at n)) = u.next i))
    (∀ desc,
      let half := hgF desc / 2
      let xs (n : Nat) := s.hgCoords (.lane (g.at n)) desc a
      let va (n : Nat) (lk : Nat × Nat) : Nat := hgEntry desc x.hgAt lk.1 (hgIndex desc lk.1 (hgCorner desc lk.1 lk.2 (xs n)))
      let corners : List (Nat × Nat) :=
        (List.range (hgLevels desc)).flatMap fun l => (List.range (2 ^ hgD desc)).map fun k => (l, k)
      let grad (n l j : Nat) : Word := s.reg32 (.lane (g.at n)) (b + BitVec.ofNat 8 (l * half + j))
      let product (n : Nat) (lk : Nat × Nat) (hi : Bool) (j : Nat) : LogVal × Word :=
        logMul (hgWeight desc lk.1 lk.2 (xs n)) (logAt l16 (if hi then 16 else 0) (grad n lk.1 j))
      let parts : List ((Nat × Nat) × Nat) := corners.flatMap fun lk => (List.range half).map fun j => (lk, j)
      let vals (n : Nat) : List (LogVal × LogVal) :=
        parts.map fun p => ((product n p.1 false p.2).1, (product n p.1 true p.2).1)
      sends ld desc (fun n => .hgld d desc (xs n)) (fun _ id j => .corner id j (2 * hgF desc)) (fun n => corners.map (va n))
      ∧ sends sc desc
          (fun n => .hgscat (vals n)
            (parts.foldl (fun f p => f ||| ((product n p.1 false p.2).2 ||| (product n p.1 true p.2).2)) 0))
          (fun n id j => .scatterPart id j ((vals n).getD j (.zero, .zero)))
          (fun n => parts.map fun p => va n p.1 + 4 * p.2))
    ∧ ∀ i, i = ld ∨ i = sc → Ready i s u → (∃ n, Member i s u n) → x.hg = none → s.canTrap u.engine →
        let ms := u.members s i
        ∃ t, exec i s = .next t ∧ TakesTrap s t g u.pc ms ms [] (u.run.filter fun n => !ms.contains n) 0x10 (fun _ => 0) 0
          (u.next i)

/-- R6, R7, R141 to R143, R352: PREF brings the members' lines into the L1, or whole into the L2 slice of their home, where
there is room, and counts those it drops, among them a line of which a batch of updates has performed in part (R131, log 69); TOUCH says whether each page is there, and sends one residency event for each page
that is not, which the ring takes where it has room; CCTL lets the named line, or every line, of the L1 go. That a prefetch
fills within its own step is the model's choice (log 18), as is what an L2 slice holds (log 70). Stated for L1s that own no
line. -/
def Obligations.CacheHints : Prop :=
  ∀ (h : Hd) (v : BitVec 4) (cd : CBit) (a : Code) (imm : BitVec 32) (s : State) (u : Issue) (g : GroupRef),
    u.engine = .lane g → (∀ line, s.ownerOf line = none) →
    let va (n : Nat) : Nat := addrOf s (.lane (g.at n)) a imm
    let pf : Instr := .pref h v a imm
    let tc : Instr := .touch h cd a imm
    let cc : Instr := .cctl h v a imm
    let core := s.coreOf g.cid g.team
    let passes (i : Instr) (t : State) : Prop := ∀ e, t.pcOf e = if e ∈ u.threads then u.next i else s.pcOf e
    let caches : Erase := { Erase.standing with
      slice := fun x => { x.unplaced with l2 := [] }, device := fun x => { x with cores := [] } }
    let usable (n : Nat) : Bool := (s.peekLane (g.at n) (va n)).any fun p => p.peer.isNone
    let drops (n : Nat) : Bool := !usable n
      || (decide (v = 1) && (s.peekLane (g.at n) (va n)).any fun p => s.lineSplit (lineOf (p.pa (va n))))
    let missing (n : Nat) : Option (Nat × Bool) := match (s.freshWalk (va n)).out with
      | .mapped _ => none
      | .absent p => if p.peer.isSome then none else some (p.base, false)
      | .unmapped => if (s.freshWalk (va n)).leaf.getLsbD 49 then none else some (va n / 2 ^ 14 * 2 ^ 14, true)
    (Ready pf s u → ∃ t, exec pf s = .next t ∧ passes pf t ∧ Only caches s t
        ∧ ((t.core core).counters.get 0 4).toNat = (((s.core core).counters.get 0 4).toNat
            + ((u.members s pf).filter drops).length) % 2 ^ 64
        ∧ ∀ n p, Member pf s u n → s.peekLane (g.at n) (va n) = some p → p.peer = none → drops n = false →
            let line := lineOf (p.pa (va n))
            let l1 := s.l1Of g.cid g.team line
            let home := homeSlice (128 * line)
            (v = 1 ∧ p.noL1 = false → (s.core l1).l1.length + (u.members s pf).length ≤ 1024 →
              ((t.core l1).l1.find line).isSome = true)
            ∧ (v ≠ 1 ∨ p.noL1 = true → (s.sliceAt home).l2.length + (u.members s pf).length ≤ 8192 →
              (t.sliceAt home).l2.find line = some 0xF))
    ∧ (Ready tc s u → u.run.Pairwise (· < ·) → ∃ t, exec tc s = .next t ∧ passes tc t
        ∧ Only { Erase.standing with
            lane := fun x => { x.standing with cond := 0 }
            device := fun x => { x with mem := [], ringSeq := 0, bar0 := { x.bar0 with evtail := 0, evdrop := 0 } } } s t
        ∧ (∀ e c, (c ≠ cd ∨ ∀ n, Member tc s u n → .lane (g.at n) ≠ e) → t.condBit e c = s.condBit e c)
        ∧ (∀ n, Member tc s u n → t.condBit (.lane (g.at n)) cd = (decide (cd = 7) || match (s.freshWalk (va n)).out with
            | .mapped _ => true
            | .absent p => p.peer.isSome
            | .unmapped => false))
        ∧ ∃ es : List (Nat × Nat × Bool), es.Pairwise (fun x y => x.1 < y.1 ∧ x.2.1 ≠ y.2.1)
          ∧ (∀ e ∈ es, Member tc s u e.1 ∧ missing e.1 = some e.2
              ∧ ∀ m, Member tc s u m → m < e.1 → (missing m).map (·.1) ≠ some e.2.1)
          ∧ (∀ n p, Member tc s u n → missing n = some p → ∃ e ∈ es, e.2.1 = p.1)
          ∧ RingTakes s t (es.map fun e => (BitVec.ofNat 64 e.2.1, if e.2.2 then 0x1000 else 0,
              BitVec.ofNat 32 (core + 2048 * g.group + 65536 * e.1))))
    ∧ (Ready cc s u → ∃ t, exec cc s = .next t ∧ passes cc t ∧ Only caches s t
        ∧ (v = 1 → (∃ n, Member cc s u n) → (t.core core).l1 = [])
        ∧ ∀ n p, Member cc s u n → v = 0 → s.peekLane (g.at n) (va n) = some p → p.peer = none →
            (t.core (s.l1Of g.cid g.team (lineOf (p.pa (va n))))).l1.find (lineOf (p.pa (va n))) = none)

/-! ### Copy queues, tile tasks, digests, counters and events (R163 to R199) -/

/-- R164, R165, R172, R299: CPY, CPYB and CPYT read the members' descriptors, each of four 64-byte parts (log 25), and enter them
in lane order as far as the queue has room; the others are held with their commands. A descriptor that lies in part at a peer is
asked for by a request, with a part of its own for each address there (log 26), and the commands of the lanes above wait for it. A
misaligned descriptor fails its member with ALIGN, and one that nothing maps with PAGE, and the other members go on. CPYT with a
quad that the cluster does not have is the trap SPACE, whose TADDR 0 is the model's choice (log 57). The first clause is stated for
descriptors that cached pages serve, with no L1 holding anything newer than memory. -/
def Obligations.CopiesEnter : Prop :=
  ∀ (h : Hd) (q : BitVec 2) (a b : Code) (imm : BitVec 32) (k : BitVec 4) (m : BitVec 14) (tok : BitVec 9) (s : State)
    (u : Issue) (g : GroupRef) (x : CopyQueue), u.engine = .lane g → s.queue ⟨g.cid, g.team, q.toNat⟩ = some x →
    let tlb := (s.core (s.coreOf g.cid g.team)).tlb
    let enters (i : Instr) (va : Nat → Nat) (ending : Nat → CopyEnding) : Prop :=
      Ready i s u → s.Numbered → u.run.Pairwise (· < ·) → s.homeCurrent → (∃ n, Member i s u n) →
      ∀ page : Nat → Nat → Page,
      let part (n j : Nat) : Nat := (va n + 64 * j) % 2 ^ 56
      (∀ n, Member i s u n → va n % 64 = 0) →
      (∀ n j, Member i s u n → j < 4 →
        cachedFor ((if j = 0 then ((s.lane (g.at n)).bind (·.lpr)).toList else [page n (j - 1)]) ++ tlb) (fun _ => true)
          (part n j) false = some (page n j)) →
      let ms := u.members s i
      let frame : Erase := { Erase.standing with
        lane := fun y => { y.standing with copies := [], lpr := none, again := none }
        group := fun y => { y.unmarked with opens := [] }
        team := fun y => { y with queues := [] }
        device := fun y => { y with nextId := 0, cores := [] } }
      (s.resumed u i ≠ [] → ∃ t, exec i s = .next t ∧ Rejoins i s t u g) ∧ (s.resumed u i = [] →
      ((∀ n j, Member i s u n → j < 4 → (page n j).peer = none) →
        let desc (n : Nat) : List Byte := (List.range 256).map fun j =>
          Mem.read s.mem ((page n (j / 64)).pa (part n (j / 64)) + j % 64)
        let room := 16 - x.entries.length
        ∃ t y, exec i s = .next t ∧ Only frame s t
          ∧ (∀ n ∈ u.run, ¬Member i s u n → t.lane (g.at n) = (s.lane (g.at n)).map fun y => { y with pc := u.next i })
          ∧ (∀ l, (∀ n ∈ u.run, g.at n ≠ l) → t.lane l = s.lane l)
          ∧ t.queue ⟨g.cid, g.team, q.toNat⟩ = some y
          ∧ y = { x with accepted := x.accepted + (ms.take room).length
                         entries := x.entries ++ (ms.take room).zipIdx.map fun p =>
                           .command (s.nextId + 1 + p.2) (g.at p.1) (desc p.1) (ending p.1) none }
          ∧ (∀ r, r ≠ ⟨g.cid, g.team, q.toNat⟩ → t.queue r = s.queue r)
          ∧ (∀ p ∈ (ms.take room).zipIdx, (t.lane (g.at p.1)).map (·.copies)
              = (s.lane (g.at p.1)).map fun y => y.copies ++ [(s.nextId + 1 + p.2, none)])
          ∧ (ms.length ≤ room → ∀ n ∈ ms, (t.lane (g.at n)).map (·.wait) = some .ready ∧ t.pcOf (.lane (g.at n)) = u.next i)
          ∧ (room < ms.length → (∀ n ∈ ms.take room, (t.lane (g.at n)).map (·.wait) = some (.held s.nextId))
              ∧ ∀ n ∈ ms.drop room, (t.lane (g.at n)).map (fun y => (y.wait, y.copies))
                  = (s.lane (g.at n)).map fun y => (.enqueue s.nextId q.toNat (desc n) (ending n), y.copies)))
      ∧ ((∀ n, Member i s u n → ∃ j, j < 4 ∧ (page n j).peer.isSome = true) → ∃ t, exec i s = .next t
        ∧ Only { frame with device := fun y => { y with nextId := 0, cores := [], reqs := [] } } s t
        ∧ (∀ r, t.queue r = s.queue r) ∧ (∀ r, r ∈ s.reqs ↔ r ∈ t.reqs ∧ r.id < s.nextId)
        ∧ ∀ n, Member i s u n → (t.lane (g.at n)).map (·.wait) = some (.held s.nextId)
          ∧ ∃ r ∈ t.reqs, s.nextId < r.id ∧ r.owner = .lane (g.at n) ∧ r.kind = .descriptor q.toNat (ending n)
            ∧ r.vas = (List.range 4).map (part n) ∧ r.pas = (List.range 4).map (fun j => (page n j).target (part n j))
            ∧ r.stage = .ready
            ∧ ∀ j, j < 4 → (peerOf ((page n j).target (part n j))).isSome = true → ∃ y ∈ t.reqs, y.owner = r.owner
              ∧ y.kind = .corner r.id j 64 ∧ y.vas = [part n j] ∧ y.pas = [(page n j).target (part n j)] ∧ y.stage = .ready))
    let mixed (i : Instr) (va : Nat → Nat) (ending : Nat → CopyEnding) : Prop :=
      Ready i s u → s.Numbered → u.run.Pairwise (· < ·) → s.homeCurrent → s.resumed u i = [] → ∀ page : Nat → Nat → Page,
      let part (n j : Nat) : Nat := (va n + 64 * j) % 2 ^ 56
      (∀ n j, Member i s u n → va n % 64 = 0 → j < 4 →
        cachedFor ((if j = 0 then ((s.lane (g.at n)).bind (·.lpr)).toList else [page n (j - 1)]) ++ tlb) (fun _ => true)
          (part n j) false = some (page n j)) →
      let far (n : Nat) : Prop := va n % 64 = 0 ∧ ∃ j, j < 4 ∧ (page n j).peer.isSome = true
      let behind (n : Nat) : Prop := ∃ m, m < n ∧ Member i s u m ∧ far m
      ∃ t, exec i s = .next t ∧ (∀ a, Mem.read t.mem a = Mem.read s.mem a)
        ∧ ∀ n, Member i s u n →
          (va n % 64 ≠ 0 → ∃ y o, t.group g = some y ∧ o ∈ y.opens ∧ o.id = s.nextId ∧ o.pc = u.pc
            ∧ ⟨n, .failed 0x03 (BitVec.ofNat 64 (va n)) 0⟩ ∈ o.parts)
          ∧ (far n → (t.lane (g.at n)).map (·.wait) = some (.held s.nextId)
            ∧ ∃ r ∈ t.reqs, r.owner = .lane (g.at n) ∧ r.kind = .descriptor q.toNat (ending n)
              ∧ r.pas = (List.range 4).map (fun j => (page n j).target (part n j)))
          ∧ (va n % 64 = 0 → ¬far n →
              (behind n → ∃ d, (t.lane (g.at n)).map (fun y => (y.wait, y.copies))
                = (s.lane (g.at n)).map fun y => (.enqueue s.nextId q.toNat d (ending n), y.copies))
              ∧ (¬behind n → x.entries.length + (u.members s i).length ≤ 16 →
                  (t.lane (g.at n)).map (·.copies.length) = (s.lane (g.at n)).map (·.copies.length + 1)))
    let absent (i : Instr) (va : Nat → Nat) : Prop := Ready i s u → s.Numbered → s.resumed u i = [] → ∀ n,
      u.members s i = [n] → va n % 64 = 0 → va n < 2 ^ 56 → s.cachedPage (g.at n) (fun _ => true) (va n) false = none →
      (s.quadHw (quadOfCore (s.coreOf g.cid g.team))).walk = ⟨[], []⟩ → (s.freshWalk (va n)).out = .unmapped →
      ∃ t y o, exec i s = .next t ∧ t.group g = some y ∧ o ∈ y.opens ∧ o.id = s.nextId ∧ o.pc = u.pc
        ∧ o.parts = [⟨n, .failed 0x04 (BitVec.ofNat 64 (va n)) 0⟩] ∧ ∀ r, t.queue r = s.queue r
    let cpyt : Instr := .cpyt h q a b tok
    let all (i : Instr) (va : Nat → Nat) (ending : Nat → CopyEnding) : Prop :=
      enters i va ending ∧ mixed i va ending ∧ absent i va
    all (.cpy h q a imm) (fun n => addrOf s (.lane (g.at n)) a imm) (fun _ => .cpy)
    ∧ all (.cpyb h q a k m) (fun n => addrOf s (.lane (g.at n)) a 0) (fun _ => .cpyb k.toNat m.toNat)
    ∧ (∀ r, s.tokenQuad g.cid g.team tok = some r → all cpyt (fun n => addrOf s (.lane (g.at n)) a 0)
        (fun n => .cpyt r (slice tok 0 6).toNat (s.reg32 (.lane (g.at n)) b)))
    ∧ (Ready cpyt s u → s.tokenQuad g.cid g.team tok = none → (∃ n, Member cpyt s u n) → s.canTrap u.engine →
        let ms := u.members s cpyt
        ∃ t, exec cpyt s = .next t ∧ TakesTrap s t g u.pc ms ms [] (u.run.filter fun n => !ms.contains n) 0x07 (fun _ => 0)
          ((slice tok 6 2).zeroExtend 64) (u.next cpyt))

/-- R164, R173 to R176: QFENCE enters one fence for the issue, or holds it; QWAIT writes 0 on a held queue, 1 where every
entry accepted before it has performed, and waits elsewhere; QSTAT gives the status word; QRESET empties its queue, whose waiting
QWAITs return 0, and each command that it discards signals as R172 says: a CPYB makes one faulted arrival at its barrier, a CPYT
no add. That a failed command that holds its queue is not counted as pending is the model's choice (log 63). -/
def Obligations.CopyQueues : Prop :=
  ∀ (h : Hd) (q : BitVec 2) (md mask : BitVec 4) (cd : CBit) (d : Code) (s : State) (u : Issue) (g : GroupRef)
    (x : CopyQueue), u.engine = .lane g → let ref : QueueRef := ⟨g.cid, g.team, q.toNat⟩
    s.queue ref = some x →
    let fe : Instr := .qfence h q md mask
    let wt : Instr := .qwait h q cd
    let st : Instr := .qstat h q d
    let rs : Instr := .qreset h q
    let on (t : State) (i : Instr) (n : Nat) : Prop :=
      (t.lane (g.at n)).map (·.wait) = some .ready ∧ t.pcOf (.lane (g.at n)) = u.next i
    let queues : Erase := { Erase.standing with
      lane := fun y => { y.standing with again := none }
      group := fun y => { y.unmarked with opens := [] }
      team := fun y => { y with queues := [] }
      device := fun y => { y with nextId := 0 } }
    (Ready fe s u → s.Numbered → u.run.Nodup → ∀ m, (u.members s fe).head? = some m →
      let stores := if md = 1 then s.pendingWrites ((u.members s fe).map g.at) else []
      let named := ((List.range 4).filter fun k => mask.getLsbD k).filterMap fun k =>
        (s.queue ⟨g.cid, g.team, k⟩).map fun y => (k, y.accepted, y.epoch)
      (s.resumed u fe ≠ [] → ∃ t, exec fe s = .next t ∧ Rejoins fe s t u g)
      ∧ (s.resumed u fe = [] → x.entries.length < 16 → ∃ t, exec fe s = .next t ∧ Only queues s t ∧ RestOfRun fe s t u g
        ∧ t.queue ref = some { x with entries := x.entries ++ [.fence named stores], accepted := x.accepted + 1 }
        ∧ ∀ n, Member fe s u n → on t fe n)
      ∧ (s.resumed u fe = [] → 16 ≤ x.entries.length → ∃ t, exec fe s = .next t ∧ Only queues s t ∧ RestOfRun fe s t u g ∧ t.queue ref = some x
        ∧ ∀ n, Member fe s u n → (t.lane (g.at n)).map (·.wait) = some
            (if n = m then .enqueueFence s.nextId q.toNat mask.toNat stores else .held s.nextId)))
    ∧ (Ready wt s u → ∃ t, exec wt s = .next t
        ∧ Only { Erase.standing with lane := fun y => { y.standing with cond := 0, acqAt := 0 } } s t ∧ RestOfRun wt s t u g
        ∧ (∀ e c, (c ≠ cd ∨ ∀ n, Member wt s u n → .lane (g.at n) ≠ e) → t.condBit e c = s.condBit e c)
        ∧ ∀ n, Member wt s u n →
          let bit := t.condBit (.lane (g.at n)) cd
          (x.state ≠ 0 → t.pcOf (.lane (g.at n)) = u.next wt ∧ bit = decide (cd = 7))
          ∧ (x.state = 0 → x.accepted ≤ x.performed → on t wt n ∧ bit = true)
          ∧ (x.state = 0 → x.performed < x.accepted → bit = s.condBit (.lane (g.at n)) cd
              ∧ (t.lane (g.at n)).map (·.wait) = some (.queue q.toNat x.accepted x.epoch cd)))
    ∧ Computes st true [d] [] false (fun s t e => ∀ l y, e = .lane l → s.queue ⟨l.cid, l.team, q.toNat⟩ = some y →
        let elem := if y.state ≠ 0 then y.elem.toNat else match y.entries.head? with
          | some (.command _ _ _ _ (some r)) => r.elems % 2 ^ 40
          | _ => 0
        let state := if y.state ≠ 0 then y.state.toNat else if y.entries = [] then 0 else 1
        (t.reg64 e d).toNat = state + 2 ^ 3 * y.cause.toNat + 2 ^ 8 * y.flags.toNat + 2 ^ 11 * (y.entries.length % 32)
          + 2 ^ 16 * y.done.toNat + 2 ^ 24 * elem)
    ∧ (Ready rs s u → (∃ n, Member rs s u n) → ∃ t, exec rs s = .next t
        ∧ t.queue ref = some { x with entries := [], state := 0, cause := 0, flags := 0, elem := 0, accepted := 0,
                                      performed := 0, epoch := x.epoch + 1 }
        ∧ (∀ r, r ≠ ref → t.queue r = s.queue r) ∧ (∀ a, Mem.read t.mem a = Mem.read s.mem a)
        ∧ ((∀ l y, s.lane l = some y → y.wait = .ready) → x.entries = [] →
            Only { Erase.standing with team := fun y => { y with queues := [] } } s t
            ∧ ∀ e, t.pcOf e = if e ∈ u.threads then u.next rs else s.pcOf e)
        ∧ (∀ l y, s.lane l = some y → l.cid = g.cid → l.team = g.team → ∀ upto c,
            y.wait = .queue q.toNat upto x.epoch c →
            (t.lane l).map (·.wait) = some .ready ∧ t.condBit (.lane l) c = decide (c = 7))
        ∧ ((∀ l y, s.lane l = some y → ∀ r j w after, y.wait ≠ .signal r j w after) →
            (∀ r j, t.token r j = s.token r j)
            ∧ ((∀ id l e d r, .command id l d e r ∈ x.entries → l.cid = g.cid ∧ l.team = g.team) → ∀ b,
                let faults (y : Barrier) (e : QueueEntry) : Barrier := match e with
                  | .command _ _ _ (.cpyb b' n) _ => if b' = b then y.arrive n true else y
                  | _ => y
                t.barrier (g.at 0) false b = x.entries.foldl faults (s.barrier (g.at 0) false b))))

/-- R177 to R184, R186: a task instruction puts its operands and the template into the dependency table and goes on; while
the table is full it stalls its control core with the task. -/
def Obligations.TasksEnter : Prop :=
  ∀ (h : Hd) (v : BitVec 4) (a b c : Code) (f : TaskField) (s : State) (u : Issue) (q : QuadRef) (x : Quad),
    u.engine = .control q → s.quad q = some x →
    let r (k : Code) : DWord := s.reg (.control q) k
    let enters (i : Instr) (kind : TaskKind) (z : Bool) (wa wb wc : DWord) : Prop :=
      Ready i s u → (∃ n, Member i s u n) →
      let task : Task := ⟨s.nextId, kind, z, wa, wb, wc, f, x.template.w0, x.template.w1, x.template.sig, .waiting, 0, none, 0⟩
      (x.tasks.length < 32 → ∃ t y, exec i s = .next t ∧ t.quad q = some y
        ∧ y.tasks = x.tasks ++ [task] ∧ y.control = { x.control with pc := u.next i }
        ∧ y.folds = (if kind = .tdrain ∨ kind = .tdapply then x.folds ++ [(s.nextId, none)] else x.folds)
        ∧ ((t.quadHw (s.quadOf q)).counters.get 0 0) = (s.quadHw (s.quadOf q)).counters.get 0 0 + 1
        ∧ (∀ r, r ≠ q → t.quad r = s.quad r)
        ∧ Only { control := Control.standing, quad := fun y => { y with tasks := [], folds := [] }
                 device := fun y => { y with quads := [], nextId := 0 } } s t)
      ∧ (32 ≤ x.tasks.length → ∃ t, exec i s = .next t
        ∧ (t.quad q).map (·.control) = some { x.control with wait := .entering task, next := u.next i }
        ∧ Only { control := Control.standing, device := fun y => { y with nextId := 0 } } s t)
    enters (.tmma h v a b c f) .tmma (v == 1) (r a) (r b) (r c)
    ∧ enters (.tmmas h v a b c f) .tmmas (v == 1) (r a) (r b) (r c)
    ∧ enters (.tzero h f) .tzero false 0 0 0
    ∧ enters (.tdrain h a b c f) .tdrain false (r a) (r b) (r c)
    ∧ enters (.tdapply h a b c f) .tdapply false (r a) (r b) (r c)
    ∧ enters (.tloadacc h a f) .tloadacc false (r a) 0 0
    ∧ enters (.tfence h f) .tfence false 0 0 0

/-- R178, R185, R186, R188, R198: the other instructions of the control core. TFENCE.W goes on once every task has
finished; TAMAX reads and with .rst clears an amax register; EVPOP and EVWAIT pop the oldest record, and trap after the pop
where its STATUS is OPFMT; TTOK reads a token, adds to it, or sets a slot of the template, which TTOK.CLR empties; HALT
stops where no record is queued. That a TFENCE whose waits hold counts as finished for TFENCE.W is the model's choice (log 76),
as is that bits [1:0] of TVEC count as 0 (log 65). -/
def Obligations.ControlCoreOperations : Prop :=
  ∀ (h : Hd) (v : BitVec 4) (d a : Code) (n : BitVec 4) (cc : CBit) (tok : BitVec 6) (s : State) (u : Issue) (q : QuadRef)
    (x : Quad), u.engine = .control q → s.quad q = some x →
    let th : Thread := .control q
    let runs (i : Instr) (e : Erase) (P : State → Quad → Prop) : Prop :=
      ∃ t y, exec i s = .next t ∧ Only e s t ∧ t.quad q = some y ∧ (∀ r, r ≠ q → t.quad r = s.quad r) ∧ P t y
    let here (i : Instr) : Prop := Ready i s u ∧ ∃ n, Member i s u n
    let core (k cond : Bool) : Erase := { control := fun c =>
      { c.standing with k := if k then [] else c.k, cond := if cond then 0 else c.cond } }
    let frees (e : Erase) : Erase := { e with quad := fun y => { y with events := [] } }
    let past (i : Instr) (t : State) : Prop := t.pcOf th = u.next i
    let onlyReg (t : State) : Prop := ∀ c, c ≠ d → t.reg th c = s.reg th c
    let onlyCond (t : State) : Prop := ∀ c, c ≠ cc → t.condBit th c = s.condBit th c
    let status (r : DWord) : Nat := r.toNat / 2 ^ 12 % 16
    let fw : Instr := .tfenceW h
    let am : Instr := .tamax h v d n
    let ep : Instr := .evpop h d cc
    let ew : Instr := .evwait h d
    let tt : Instr := .ttok h v d a tok
    let tc : Instr := .ttokClr h
    let ht : Instr := .halt h
    let popped (i : Instr) (r : DWord) (t : State) (y : Quad) : Prop :=
      t.reg th d = r ∧ onlyReg t ∧ y.events = x.events.drop 1
      ∧ (status r ≠ 1 → past i t)
      ∧ (status r = 1 → s.canTrap u.engine → y.control.inHandler = true ∧ y.control.pc = alignPc (s.tvec q.cid) + 4
          ∧ y.control.trap = ⟨0x08, u.pc.zeroExtend 64, 1, 1, r⟩ ∧ y.control.taddr = 0)
    let trapped (e : Erase) : Erase := { e with control := fun c =>
      { e.control c with trap := ⟨0, 0, 0, 0, 0⟩, taddr := 0, inHandler := false } }
    let holds (w : Option (Nat × Word)) : Prop := ∀ j y, w = some (j, y) → 0 ≤ (s.token q j - y).toInt
    let ended (k : Task) : Prop := k.stage = .finished ∨ k.kind = .tfence ∧ holds k.w0 ∧ holds k.w1
    (here fw → ((∀ k ∈ x.tasks, ended k) → runs fw (core false false) fun t _ => past fw t)
      ∧ ((∃ k ∈ x.tasks, ¬ended k) → exec fw s = .next s))
    ∧ (here am → runs am { core true false with quad := fun y => { y with amax := [] } } fun t y =>
        past am t ∧ t.reg th d = (x.amax.get 0x4000 n.toNat).zeroExtend 64 ∧ onlyReg t
        ∧ ∀ j, y.amax.get 0x4000 j = if v = 1 ∧ j = n.toNat then 0x4000 else x.amax.get 0x4000 j)
    ∧ (here ep → (x.events = [] → runs ep (core false true) fun t _ =>
          past ep t ∧ t.condBit th cc = decide (cc = 7) ∧ onlyCond t)
        ∧ ∀ r, x.events.head? = some r → (status r ≠ 1 ∨ s.canTrap u.engine) →
            runs ep (trapped (frees (core true true))) fun t y => popped ep r t y ∧ t.condBit th cc = true ∧ onlyCond t)
    ∧ (here ew → (x.events = [] → exec ew s = .next s)
        ∧ ∀ r, x.events.head? = some r → (status r ≠ 1 ∨ s.canTrap u.engine) →
            runs ew (trapped (frees (core true false))) fun t y => popped ew r t y)
    ∧ (here tt → (v = 0 → runs tt (core true false) fun t _ =>
          past tt t ∧ onlyReg t ∧ t.reg th d = (s.token q tok.toNat).zeroExtend 64)
        ∧ (v = 1 → (∀ l y, s.lane l = some y → l.cid = q.cid → y.wait.still = true ∨ ∃ r j z, y.wait = .token r j z) →
            runs tt { core false false with
              quad := fun y => { y with tokens := [] }, lane := fun y => { y.standing with acqAt := 0 } } fun t _ =>
              past tt t ∧ (∀ j, t.token q j = s.token q j + if j = tok.toNat then s.reg32 th a else 0)
              ∧ ∀ l y, s.lane l = some y → (l.cid ≠ q.cid ∨ y.wait.still = true → t.lane l = some y)
                ∧ ∀ r j z, l.cid = q.cid → y.wait = .token r j z →
                  (0 ≤ (t.token ⟨q.cid, r⟩ j - z).toInt → (t.lane l).map (fun w => { w with acqAt := 0 })
                    = some { y with acqAt := 0, wait := .ready, pc := y.next, pass := 0 })
                  ∧ ((t.token ⟨q.cid, r⟩ j - z).toInt < 0 → t.lane l = some y))
        ∧ (2 ≤ v.toNat → runs tt { core false false with quad := fun y => { y with template := ⟨none, none, none⟩ } } fun t y =>
            let slot := some (tok.toNat, s.reg32 th a)
            past tt t ∧ y.template = (if v = 2 then { x.template with w0 := slot }
              else if v = 3 then { x.template with w1 := slot } else { x.template with sig := slot })))
    ∧ (here tc → runs tc { core false false with quad := fun y => { y with template := ⟨none, none, none⟩ } } fun t y =>
        past tc t ∧ y.template = ⟨none, none, none⟩)
    ∧ (here ht → runs ht (core false false) fun t y =>
        (x.events ≠ [] → past ht t ∧ y.control.wait = x.control.wait)
        ∧ (x.events = [] → y.control = { x.control with wait := .halted, next := u.next ht }))

namespace Sys2Proof.Machine

open Sys2Proof

/-- Where the walk of region number r reads its level-1 entry (R284). -/
def State.level1At (s : State) (r : Nat) : Nat := s.bar0.ptroot.toNat / 2 ^ 19 * 2 ^ 19 + 8 * (r / 2 ^ 17 % 2 ^ 16)

/-- Where the walk of region number r reads its region entry (R284). -/
def State.regionAt (s : State) (r : Nat) : Nat :=
  (s.freshWalk (r * 2 ^ 23)).level1.toNat / 2 ^ 20 % 2 ^ 28 * 2 ^ 20 + 8 * (r % 2 ^ 17)

/-- Whether region number r is a mapped twin region (R285). -/
def State.isTwin (s : State) (r : Nat) : Prop :=
  let e := (s.freshWalk (r * 2 ^ 23)).region
  r < 2 ^ 33 ∧ regionOk e = true ∧ e.getLsbD 3 = true

/-- Memory after a flip of n regions from number r up: the version bits of the mapped twin regions, and no other bit, have
toggled (R189). Stated where no region entry of a twin region overlaps another entry that the flip reads. -/
def FlipsVersions (s t : State) (r n : Nat) : Prop :=
  (∀ i j, i < n → j < n → s.isTwin (r + i) →
    (i ≠ j → (s.freshWalk ((r + j) * 2 ^ 23)).level1 ≠ 0 → s.regionAt (r + i) < s.regionAt (r + j) ∨ s.regionAt (r + j) + 8 ≤ s.regionAt (r + i))
    ∧ (s.regionAt (r + i) < s.level1At (r + j) ∨ s.level1At (r + j) + 8 ≤ s.regionAt (r + i))) →
  ∀ x, ((∃ i, i < n ∧ s.isTwin (r + i) ∧ x = s.regionAt (r + i)) → Mem.read t.mem x = Mem.read s.mem x ^^^ 0x04)
    ∧ ((∀ i, i < n → s.isTwin (r + i) → x ≠ s.regionAt (r + i)) → Mem.read t.mem x = Mem.read s.mem x)

end Sys2Proof.Machine

/-- R190, R191, R197, R199, R244, R340, R352: DGST waits until its members' copy commands are folded and its registers' lines
can be written, and gives the task digest, or 0 where digests are off; POSTR posts the lowest member's word; PCNT reads a counter and with .clr zeroes it; EVSEND to
the log writes a record of the black box once its sender's earlier accesses have performed, and to the host hands over an
entry whose sender waits for it; what the fused L1s of a control core's cluster hold goes home before its event. That DGST waits for every copy command that has not ended (log 33), that a sender waits for its
earlier accesses and sends in lane order (log 34), the record's layout, payload, code and source (log 67), and that every member of one PCNT.clr reads the count before
it (log 87), are the model's choices. -/
def Obligations.DigestsCountersEvents : Prop :=
  ∀ (h : Hd) (v : BitVec 4) (d a : Code) (n code : BitVec 8) (s : State) (u : Issue),
    let th := u.engine.thread
    let passes (i : Instr) (t : State) : Prop := ∀ e, t.pcOf e = if e ∈ u.threads then u.next i else s.pcOf e
    let dg : Instr := .dgst h d
    let po : Instr := .postr h a
    let pc : Instr := .pcnt h v d n
    let ev : Instr := .evsend h v a code
    let digest : DWord := if s.digestOn u.engine.cid then ((s.cluster u.engine.cid).map (·.taskDigest)).getD 0 else 0
    let onlyD (i : Instr) (t : State) : Prop := ∀ e c, (∀ m, Member i s u m → sameReg (th m) e c = true → c ≠ d ∧ c ≠ d + 1) →
      t.reg e c = s.reg e c
    let sends (s : State) (x : DWord) (unit source : Nat) (t : State) : Prop :=
      t.bbSeq = s.bbSeq + 1 ∧ t.blackbox.getLast? = some ⟨s.bbSeq + 1, 9, 0, BitVec.ofNat 16 unit, s.cpCycle.truncate 32,
        BitVec.ofNat 128 (x.toNat + 2 ^ 64 * code.toNat + 2 ^ 96 * source)⟩
    let regs : Erase := { Erase.standing with
      lane := fun x => { x.standing with v := [] }, control := fun c => { c.standing with k := [] } }
    let boxed : Erase := { Erase.standing with device := fun x => { x with blackbox := [], bbSeq := 0 } }
    let writable : Prop := ∀ g, u.engine = .lane g → s.linesReady g (lineMask d 2) = true
    (Ready dg s u → (∀ g m, u.engine = .lane g → Member dg s u m → s.copiesFolded (g.at m) = true) → writable → ∃ t, exec dg s = .next t
        ∧ Only regs s t ∧ passes dg t ∧ onlyD dg t ∧ ∀ m, Member dg s u m → t.reg64 (th m) d = digest)
    ∧ (Ready dg s u → ∀ g, u.engine = .lane g → (¬writable ∨ ∃ m, Member dg s u m ∧ s.copiesFolded (g.at m) = false) → ∃ t, exec dg s = .next t
        ∧ Only Erase.standing s t ∧ RestOfRun dg s t u g
        ∧ ∀ k, Member dg s u k → (t.lane (g.at k)).map (·.wait) = some (.digest d (u.members s dg)))
    ∧ (Ready po s u → ∀ m, (u.members s po).head? = some m → ∃ t, exec po s = .next t ∧ passes po t
        ∧ Only { Erase.standing with cluster := fun c => { c with result := none } } s t
        ∧ (t.cluster u.engine.cid).map (·.result) = some (some (s.reg64 (th m) a))
        ∧ ∀ c, c ≠ u.engine.cid → t.cluster c = s.cluster c)
    ∧ (Ready pc s u → ∀ m, Member pc s u m → ∃ t, exec pc s = .next t ∧ passes pc t ∧ onlyD pc t
        ∧ Only { regs with slice := fun x => { x with lost := 0 }, device := fun x => { x with cores := [], quads := [] } } s t
        ∧ (∀ k, Member pc s u k → t.reg64 (th k) d = s.counter (th m) n.toNat)
        ∧ (v = 1 → t.counter (th m) n.toNat = 0)
        ∧ ∀ e j, v ≠ 1 ∨ j ≠ n.toNat → t.counter e j = s.counter e j)
    ∧ (Ready ev s u → ∀ q, u.engine = .control q → (∃ m, Member ev s u m) →
        let x := s.reg64 (.control q) a
        let s0 := s.pushStaged (s.fusedCores q.cid)
        ((∀ r ∈ s.reqs, ∀ c ∈ s.fusedCores q.cid, r.stage ≠ .inL1 c) → s0 = s)
        ∧ (v ≠ 1 → ∃ t, exec ev s = .next t ∧ (∀ e, t.pcOf e = if e ∈ u.threads then u.next ev else s0.pcOf e) ∧ Only boxed s0 t
          ∧ sends s0 x (1536 + s.quadOf q) (s.controlSource q).toNat t)
        ∧ (v = 1 → ∃ t, exec ev s = .next t
          ∧ Only { control := Control.standing, device := fun x => { x with hostEvents := [] } } s0 t
          ∧ t.hostEvents = s0.hostEvents ++ [⟨x, 0x100 ||| code.zeroExtend 32, s.controlSource q, some (.control q)⟩]
          ∧ (t.quad q).map (·.control.wait) = some (.event true x code)))
    ∧ (Ready ev s u → ∀ g, u.engine = .lane g →
        let x (m : Nat) : DWord := s.reg64 (.lane (g.at m)) a
        (v = 1 → u.run.Nodup → ∃ t, exec ev s = .next t ∧ RestOfRun ev s t u g
          ∧ Only { Erase.standing with device := fun x => { x with hostEvents := [] } } s t
          ∧ t.hostEvents = s.hostEvents ++ ((u.members s ev).map fun m => HostEvent.mk
              (x m) (0x100 ||| code.zeroExtend 32) (s.laneSource (g.at m)) (some (.lane (g.at m))))
          ∧ ∀ m, Member ev s u m → (t.lane (g.at m)).map (·.wait) = some (.event true (x m) code))
        ∧ (v ≠ 1 → (∀ m, Member ev s u m → s.performed (g.at m) 5 = false) → ∃ t, exec ev s = .next t
          ∧ RestOfRun ev s t u g ∧ Only Erase.standing s t
          ∧ ∀ m, Member ev s u m → (t.lane (g.at m)).map (·.wait) = some (.event false (x m) code))
        ∧ (v ≠ 1 → ∀ m, u.run = [m] → Member ev s u m → s.performed (g.at m) 5 = true → s.lowerSends (g.at m) = false →
          ∃ t, exec ev s = .next t ∧ passes ev t ∧ Only boxed s t
            ∧ (t.lane (g.at m)).map (·.wait) = some .ready
            ∧ sends s (x m) (s.coreOf g.cid g.team) (s.laneSource (g.at m)).toNat t))

/-- R189, R196, R285, R290: TLBINV and FLIPV begin one sweep of the range that the lowest member names, and hold their
senders until it is over; the version bits of a flip toggle when its sweep ends (log 31), which WalksAndSweeps says. A flip of a
control core first sends home what the fused L1s of its cluster hold. A misaligned range traps ALIGN, with the operand that is
misaligned in TADDR, the start first (log 78). -/
def Obligations.SweepsBegin : Prop :=
  ∀ (h : Hd) (a b : Code) (s : State) (u : Issue) (flip : Bool),
    let th := u.engine.thread
    let i : Instr := if flip then .flipv h a b else .tlbinv h a b
    let unit := if flip then 2 ^ 23 else 2 ^ 14
    Ready i s u → ∀ m, (u.members s i).head? = some m →
    let start := s.reg64 (th m) a
    let len := s.reg64 (th m) b
    let lo := start.toNat % 2 ^ 56
    let ls : List LaneRef := match u.engine with
      | .lane g => (u.members s i).map g.at
      | _ => []
    let after := if flip then s.releases ls else []
    let frame : Erase := { Erase.standing with device := fun x => { x with invalidations := [], nextId := 0 } }
    let s0 : State := match u.engine with
      | .control q => if flip then s.pushStaged (s.fusedCores q.cid) else s
      | _ => s
    (∀ q, u.engine = .control q → (∀ r ∈ s.reqs, ∀ c ∈ s.fusedCores q.cid, r.stage ≠ .inL1 c) → s0 = s)
    ∧ (start.toNat % unit = 0 → len.toNat % unit = 0 → ∃ t, exec i s = .next t ∧ Only frame s0 t
      ∧ t.nextId = s0.nextId + 1
      ∧ t.invalidations = s0.invalidations ++ [⟨s0.nextId, lo, lo + len.toNat, false, flip, after⟩]
      ∧ (∀ g, u.engine = .lane g → RestOfRun i s t u g
          ∧ ∀ k, Member i s u k → (t.lane (g.at k)).map (·.wait) = some (.sweep s.nextId))
      ∧ ∀ q, u.engine = .control q → (t.quad q).map (·.control.wait) = some (.sweep s0.nextId))
    ∧ (start.toNat % unit ≠ 0 ∨ len.toNat % unit ≠ 0 → s.canTrap u.engine → ∃ t, exec i s = .next t
      ∧ let addr := if start.toNat % unit ≠ 0 then start else len
        (∀ g, u.engine = .lane g → let ms := u.members s i
          TakesTrap s t g u.pc ms ms [] (u.run.filter fun n => !ms.contains n) 0x03 (fun _ => addr) 0 (u.next i))
        ∧ ∀ q, u.engine = .control q → TakesControlTrap s t q u.pc 0x03 addr 0 0)

/-! ### Requests in flight and the waits of lanes (R98 to R101, R130 to R135, R145, R245, R265 to R299) -/

namespace Sys2Proof.Machine

open Sys2Proof

/-- No lane waits in DGST, whose end writes registers. -/
def State.noDigestWait (s : State) : Prop := ∀ l x d ls, s.lane l = some x → x.wait ≠ .digest d ls

/-- A request of a lane ends: it is listed no more, its registers hold the bytes, and no other register, no flag but those
of f, and no byte of memory changes. -/
structure Returns (s t : State) (r : Req) (l : LaneRef) (n : Nat) (sx : Bool) (d : Code) (bs : Nat → Byte) (f : Word) : Prop where
  gone : t.req r.id = none
  value : LoadedBytes n sx d bs t (.lane l)
  regs : ∀ e c, e ≠ .lane l ∨ c ∉ codesFrom d n → t.reg e c = s.reg e c
  flags : t.lswOf (.lane l) = s.lswOf (.lane l) ||| f
  others : ∀ e, e ≠ .lane l → t.lswOf e = s.lswOf e
  memory : ∀ a, Mem.read t.mem a = Mem.read s.mem a

/-- The part of a request's lane in its open instruction has failed. -/
def PartFails (s t : State) (r : Req) (l : LaneRef) (cause : Nat) (addr aux : DWord) : Prop :=
  ∀ x o p, r.op ≠ 0 → s.group l.gr = some x → o ∈ x.opens → o.id = r.op → (∀ q ∈ x.opens, q.id = r.op → q = o) →
    p ∈ o.parts → p.lane = l.lane →
    ∃ y o', t.group l.gr = some y ∧ o' ∈ y.opens ∧ o'.id = r.op ∧ ⟨l.lane, .failed cause addr aux⟩ ∈ o'.parts

/-- A request has failed: it is listed no more, and its lane's part says so. -/
def RequestFails (s t : State) (r : Req) (l : LaneRef) (cause : Nat) (addr aux : DWord) : Prop :=
  t.req r.id = none ∧ PartFails s t r l cause addr aux

end Sys2Proof.Machine

/-- R127, R133, R145, R147, R159, R244, R265, R275: LOAD_DATA_RETURN writes a load's registers, where their lines can be
written, from a copy that its L1 may serve, or from the home under the stores that it must see; an HGLD's from its entries, at
the home or as peers have returned them; an ATOM's from the old value. PROMOTE_RETURN reads memory once every core has pushed
and the lane's own writes to the bytes have performed. Where no store is in flight, the home is memory. Which of the places
that R265 allows serves a load is the turn's (log 5). -/
def Obligations.LoadsReturn : Prop :=
  ∀ (s : State) (id : Nat) (r : Req) (l : LaneRef) (d : Code) (n pa : Nat) (more : List Nat),
    s.req id = some r → r.owner = .lane l → (s.lane l).isSome = true → s.noDigestWait → s.canDeliver r = true →
    d.toNat + (n + 3) / 4 ≤ 192 → n = 1 ∨ n = 2 ∨ n = 4 ∨ n = 8 ∨ n = 16 →
    let line := lineOf pa
    let home (i : Nat) : Byte := (s.homeSeen r l pa n).getD i 0
    let ready : Prop := r.stage = .ready ∧ r.peer = none ∧ r.pas = pa :: more ∧ s.mayPerform r = true
    (∀ sx strm rc x, ready → r.kind = .load d n sx strm rc → s.l1Hit r l pa strm = some x →
      ∃ t, exec (.loadDataReturn id .l1) s = .next t
        ∧ Returns s t r l n sx d (fun i => (s.seen r (s.l1Of l.cid l.team line) x.byteAt pa n).getD i 0) 0)
    ∧ (∀ sx strm rc fill, ready → r.kind = .load d n sx strm rc → s.lineBusy line = false →
        ∃ t, exec (.loadDataReturn id (.home fill)) s = .next t ∧ Returns s t r l n sx d home 0)
    ∧ (∀ place op ty b c x f, r.stage = .replied x f → r.kind = .atomic op ty (some d) b c → n = (if ty = 1 then 8 else 4) →
        ∃ t, exec (.loadDataReturn id place) s = .next t
          ∧ Returns s t r l n false d (fun i => BitVec.ofNat 8 (x.toNat / 256 ^ i)) f)
    ∧ (∀ place desc xs, r.stage = .ready → s.mayPerform r = true → r.kind = .hgld d desc xs →
        (∀ j a, r.pas[j]? = some a →
          if (peerOf a).isNone then s.lineBusy (lineOf a) = false else ∃ g ∈ r.got, g.1 = j) →
        let entry (p : Nat × Nat) : List Byte :=
          if (peerOf p.1).isNone then s.homeSeen r l p.1 (2 * hgF desc)
          else ((r.got.find? fun g => g.1 == p.2).map (·.2)).getD []
        let res := hgResults desc xs (r.pas.zipIdx.map entry)
        d.toNat + res.1.length ≤ 192 → ∃ t, exec (.loadDataReturn id place) s = .next t
          ∧ t.req id = none ∧ (∀ a, Mem.read t.mem a = Mem.read s.mem a)
          ∧ t.lswOf (.lane l) = s.lswOf (.lane l) ||| res.2
          ∧ ∀ j x, res.1[j]? = some x → t.reg32 (.lane l) (d + BitVec.ofNat 8 j) = x)
    ∧ (ready → 4 ≤ n → r.kind = .promote d n → s.lineBusy line = false → s.ownWritesDone r = true →
        (∀ c ∈ s.pushTargets pa, c ∈ r.acks) → ∃ t, exec (.promoteReturn id) s = .next t
          ∧ Returns s t r l n false d (fun i => Mem.read s.mem (pa + i)) 0)
    ∧ ((∀ q ∈ s.reqs, q = r ∨ ∀ data, q.kind ≠ .store data) → (∀ data, r.kind ≠ .store data) →
        ∀ i, i < n → home i = Mem.read s.mem (pa + i))

/-- R135, R143, R145, R262, R265, R273 to R275, R280, R281: STORE_PERFORM writes a store's masked bytes at its home, or
hands it to its L1; PUSH_TO_HOME writes every store that a core's L1 holds, or those that the L1s of its fused cluster hold, in
the order in which they took them, between no two requests of one batch (log 69); LINE_RECALL returns an owned line's bytes and
counts the recall. -/
def Obligations.StoresPerform : Prop :=
  (∀ (s : State) (id : Nat) (r : Req) (data : List MByte) (pa : Nat) (more : List Nat),
    s.req id = some r → r.kind = .store data → r.pas = pa :: more → r.peer = none →
    let core (l : LaneRef) : Nat := s.l1Of l.cid l.team (lineOf pa)
    (s.storeReachesHome r pa = true → ∃ t, exec (.storePerform id .home) s = .next t
      ∧ t.req id = none
      ∧ ∀ a, Mem.read t.mem a = if pa ≤ a then ((data[a - pa]?).map fun m => m.apply (Mem.read s.mem a)).getD (Mem.read s.mem a)
          else Mem.read s.mem a)
    ∧ ∀ l, r.owner = .lane l → r.stage = .ready → inDevice pa = true → r.noL1 = false → s.mayPerform r = true →
      (s.ownerOf (lineOf pa) ≠ some (core l) → ∃ t r', exec (.storePerform id .l1) s = .next t
        ∧ (∀ a, Mem.read t.mem a = Mem.read s.mem a) ∧ t.reqs.getLast? = some r' ∧ r' = { r with stage := .inL1 (core l) })
      ∧ ∀ x, s.ownerOf (lineOf pa) = some (core l) → (s.core (core l)).l1.find (lineOf pa) = some x → s.relDrained r = true →
        ∃ t y, exec (.storePerform id .l1) s = .next t ∧ t.req id = none
          ∧ (∀ a, Mem.read t.mem a = Mem.read s.mem a)
          ∧ (t.core (core l)).l1.find (lineOf pa) = some y ∧ y.bytes.length = x.bytes.length
          ∧ ∀ i b, x.bytes[i]? = some b → y.bytes[i]? = some (overByte pa data (128 * lineOf pa + i) b))
  ∧ (∀ (s : State) (id core : Nat) (r : Req) (d : Code) (n : Nat), s.req id = some r → r.kind = .promote d n →
      let cores := s.pushGroup core
      let split : Prop := ∃ q ∈ s.reqs, ∃ c ∈ cores, ∃ pa ∈ q.pas, q.stage = .inL1 c ∧ s.lineSplit (lineOf pa) = true
      ((∀ c, core ∈ s.coresOf c → s.fused c = false) → cores = [core])
      ∧ (∀ c, core ∈ s.coresOf c → s.fused c = true → (∀ k, core ∈ s.coresOf k → s.fused k = true → k = c) → cores = s.coresOf c)
      ∧ (r.stage ≠ .ready ∨ s.mayPerform r = false ∨ split → exec (.pushToHome id core) s = .next s)
      ∧ ((∀ q ∈ s.reqs, q.id = id → q = r) → r.stage = .ready → s.mayPerform r = true → ¬split →
        (∀ line, s.ownerOf line = none) →
        (∀ q ∈ s.stagedAt cores, ∃ data pa more, q.kind = .store data ∧ q.pas = pa :: more) →
        ∃ t, exec (.pushToHome id core) s = .next t
          ∧ (∀ a, Mem.read t.mem a = overStores (s.stagedAt cores) a (Mem.read s.mem a))
          ∧ t.stagedAt cores = [] ∧ ∃ r', t.req id = some r' ∧ ∀ c, c ∈ r'.acks ↔ c ∈ r.acks ∨ c ∈ cores))
  ∧ ∀ (s : State) (line : Nat),
      (s.ownerOf line = none → exec (.lineRecall line) s = .next s)
      ∧ ∀ n x, s.ownerOf line = some n → (s.core n).l1.find line = some x → ∃ t, exec (.lineRecall line) s = .next t
        ∧ (t.core n).l1.find line = none
        ∧ (∀ k, k ≠ line → (t.core n).l1.find k = (s.core n).l1.find k) ∧ (∀ m, m ≠ n → t.core m = s.core m)
        ∧ (let i := predictorIndex line
           let old := ((s.core n).predictor.get 0 i).toNat
           ((t.core n).predictor.get 0 i).toNat = min 3 (old + 1))
        ∧ Only { device := fun x => { x with mem := [], cores := [] } } s t
        ∧ ∀ a, Mem.read t.mem a = if 128 * line ≤ a then (x.bytes[a - 128 * line]?).getD (Mem.read s.mem a)
            else Mem.read s.mem a

/-- R98 to R101, R130, R244, R245, R295, R297, R299: a live register line of a resident group is filled where an access waits for
it, and its victim goes, which RCMISS counts; a pause ends; an arrival counts once the lane's earlier accesses, and its run's
lower lanes, allow it; a group takes the trap of an instruction whose every part has performed or failed, with the cause of its
lowest failed lane; a control core takes the trap that it waits for. When a line is filled and counted (log 22), that an arrival
waits for lower lanes at its PC (log 79), that lanes which have gone on past an instruction whose peer data fails leave what they
are in (log 66), and that bits [1:0] of TVEC count as 0 (log 65), are the model's choices. -/
def Obligations.LaneEvents : Prop :=
  (∀ (s : State) (g : GroupRef) (x : Group) (line : Nat), s.group g = some x → line < 48 →
    let coming : Prop := ∃ r ∈ s.reqs, ∃ l d k j, r.owner = .lane l ∧ l.gr = g ∧ (d, k) ∈ r.kind.dests ∧ d.toNat < 192
      ∧ j < k ∧ (d.toNat + j) / 4 = line
    let digest : Prop := ∃ y ∈ x.lanes, ∃ d ls j, y.wait = .digest d ls ∧ d.toNat < 192 ∧ j < 2 ∧ (d.toNat + j) / 4 = line
    let issuing : Prop := ∃ pc run i, x.selection = some (pc, run)
      ∧ (s.engineDecode (s.fetchCore g.cid g.team) x.trap pc).2 = .instr i
      ∧ let ms := Issue.members ⟨.lane g, run, pc⟩ s i
        ms ≠ [] ∧ legalFor (.lane g) x.hg x.handler.isSome i = true ∧ s.capable (.lane g) i = true
        ∧ ∃ o ∈ operandsOf x.hg i, ∃ j, (o.dest = true → s.writesAtIssue g i ms = true) ∧ o.code.toNat < 192 ∧ j < o.n
          ∧ (o.code.toNat + j) / 4 = line
    let waits : Prop := s.resident g.cid = true ∧ x.live.getLsbD line = true ∧ x.cached.getLsbD line = false
      ∧ (coming ∨ digest ∨ issuing)
    (∀ w, ¬waits → exec (.registerLineFill g line w) s = .next s)
    ∧ (waits → s.cachedLines g.cid g.team < 512 →
      ∃ t y, exec (.registerLineFill g line none) s = .next t ∧ t.group g = some y
        ∧ y = { x with cached := y.cached } ∧ (∀ j, y.cached.getLsbD j = (x.cached.getLsbD j || decide (j = line)))
        ∧ (t.core (s.coreOf g.cid g.team)).counters.get 0 1 = (s.core (s.coreOf g.cid g.team)).counters.get 0 1 + 1)
    ∧ ∀ (y : Group) (w : VictimLine), waits → s.group w.g = some y → w.g.cid = g.cid → w.g.team = g.team → w.g ≠ g →
      y.cached.getLsbD w.line = true →
      ∃ t x' y', exec (.registerLineFill g line (some w)) s = .next t ∧ t.group g = some x' ∧ t.group w.g = some y'
        ∧ (∀ j, x'.cached.getLsbD j = (x.cached.getLsbD j || decide (j = line)))
        ∧ (∀ j, y'.cached.getLsbD j = (y.cached.getLsbD j && decide (j ≠ w.line)))
        ∧ (∀ j, y'.dirty.getLsbD j = (y.dirty.getLsbD j && decide (j ≠ w.line))))
  ∧ (∀ (s : State) (l : LaneRef) (x : Lane), s.lane l = some x → x.wait = .paused 0 →
      ∃ t, exec (.pauseExpiry l) s = .next t ∧ Only Erase.standing s t ∧ (∀ k, k ≠ l → t.lane k = s.lane k)
        ∧ t.lane l = some { x with wait := .ready, pc := x.next, pass := 0 })
  ∧ (∀ (s : State) (l : LaneRef) (x : Lane) (cluster : Bool) (b n : Nat) (cd : Option CBit), s.lane l = some x →
      x.wait = .arriving cluster b n cd →
      let scope : BitVec 3 := if cluster then 3 else 2
      let lower : Prop := ∃ k y, k < l.lane ∧ s.lane (l.gr.at k) = some y ∧ y.wait = x.wait ∧ y.next = x.next
        ∧ s.performed (l.gr.at k) scope = true
      (s.performed l scope = false ∨ lower → exec (.barrierArrival l) s = .next s)
      ∧ (s.performed l scope = true → ¬lower → s.awaitsPhases l.cid → ∃ t, exec (.barrierArrival l) s = .next t
          ∧ Arrives s t cluster b n cd [l] [] (fun _ => x.next)))
  ∧ (∀ (s : State) (g : GroupRef) (x : Group) (o : Open) (p : Part) (c : Nat) (addr aux : DWord) (before after : List Part),
      s.group g = some x → x.trapDue = some o → o.parts = before ++ p :: after → p.st = .failed c addr aux →
      (∀ k ∈ before, k.st.isFailed = false) → (o.parts.map (·.lane)).Nodup →
      let bad (n : Nat) : Prop := ∃ k ∈ o.parts, k.lane = n ∧ ∃ a z, k.st = .failed c a z
      let ended (k : Part) : Prop := ∀ z, s.lane (g.at k.lane) = some z → z.wait = .exited
      (s.tvec g.cid ≠ 0 → x.handler = none → ∃ t y, exec (.trapEntry g) s = .next t ∧ t.group g = some y
        ∧ y.trap.cause = BitVec.ofNat 32 c ∧ y.trap.pc = o.pc.zeroExtend 64 ∧ y.trap.aux = aux
        ∧ (∀ n, n < 32 → (y.trap.mask.getLsbD n = true ↔ bad n))
        ∧ (∀ n, n < 32 → (y.trap.done.getLsbD n = true ↔ ∃ k ∈ o.parts, k.lane = n ∧ k.st = .performed))
        ∧ ((∀ k ∈ o.parts, ended k) → y.handler = none)
        ∧ ((∃ k ∈ o.parts, ¬ended k) → y.handler = some (o.parts.map (·.lane)))
        ∧ (o.gone = false → ∀ q, q ∈ y.opens ↔ q ∈ x.opens ∧ q.id ≠ o.id)
        ∧ (o.gone = true → ∀ q ∈ y.opens, q.id ≠ o.id ∧ ∀ k ∈ q.parts, k.lane ∉ o.parts.map (·.lane))
        ∧ (∀ k ∈ o.parts, ∀ z, s.lane (g.at k.lane) = some z → ∃ z', t.lane (g.at k.lane) = some z'
            ∧ z'.v = z.v ∧ z'.cond = z.cond ∧ z'.lsw = z.lsw ∧ z'.link = z.link
            ∧ (z.wait = .exited → z'.wait = .exited)
            ∧ (z.wait ≠ .exited → z'.wait = .ready ∧ z'.pc = alignPc (s.tvec g.cid))
            ∧ (z.wait = .ready → z'.pass = z.pass)
            ∧ (∀ a w, k.st = .failed c a w → z'.taddr = a) ∧ (¬bad k.lane → z'.taddr = z.taddr))
        ∧ ∀ a, Mem.read t.mem a = Mem.read s.mem a)
      ∧ (s.tvec g.cid = 0 ∨ x.handler.isSome = true → ∀ gr, s.gridOf g.cid = some gr → gr.abort = none →
          ∃ t y a, exec (.trapEntry g) s = .next t ∧ t.gridOf g.cid = some y ∧ y.abort = some a ∧ a.cause = c
            ∧ a.pc = o.pc.zeroExtend 64 ∧ a.addr = addr ∧ a.core = s.coreOf g.cid g.team ∧ a.group = g.group))
  ∧ ∀ (s : State) (q : QuadRef) (x : Quad) (c : Nat) (addr aux : DWord) (done : Bool), s.quad q = some x →
      x.control.wait = .trapping c addr aux done → s.tvec q.cid ≠ 0 → x.control.inHandler = false →
      ∃ t, exec (.controlCoreTrapEntry q) s = .next t
        ∧ TakesControlTrap s t q x.control.pc c addr aux (if done then 1 else 0)

/-! ### Translation and peers (R129, R132, R196, R283 to R299, R322, R353, R354) -/

namespace Sys2Proof.Machine

open Sys2Proof

/-- The cause with which the class of its page refuses an access, by R129's table and the checks of R151 and R307: a combining
request needs an aligned object of the combining class and a method that the launch has, a user method one of this device. -/
def State.refusedBy (s : State) (l : LaneRef) (k : ReqKind) (p : Page) (va : Nat) : Option Nat :=
  let entry (m : Nat) : Nat := (((s.gridOf l.cid).bind fun x => x.launch.methods[m - 16]?).map (·.1)).getD 0
  match k, p.cls with
  | .store _, .combining => some 0x05
  | .promote .., .combining | .promote .., .hashedGrid => some 0x05
  | .comb m _ _ _, .combining =>
    if va % 128 = 0 ∧ (m < 16 ∨ entry m ≠ 0 ∧ p.peer = none) then none else some 0x09
  | .comb .., .normal | .comb .., .hashedGrid => some 0x09
  | .hgld .., .normal | .hgld .., .combining | .hgscat .., .normal | .hgscat .., .combining => some 0x05
  | .config _, .normal | .config _, .combining => some 0x10
  | _, _ => none

end Sys2Proof.Machine

/-- R283 to R286: what a walk finds, by the bits of the three entries that it reads; where an entry has a fault, nothing is
mapped. Stated where no L1 owns a line. -/
def Claims.WalkReadsTables : Prop :=
  ∀ (s : State) (va : Nat), va < 2 ^ 56 → (∀ line, s.ownerOf line = none) →
    let entry (a : Nat) : Nat := spelt (fun j => Mem.read s.mem (a + j)) 0 8
    let bits (x lo n : Nat) : Nat := x / 2 ^ lo % 2 ^ n
    let dev : Nat := 0x6000000000
    let root := s.bar0.ptroot.toNat / 2 ^ 19 * 2 ^ 19
    let e1 := entry (root + 8 * (va / 2 ^ 40))
    let table := bits e1 20 28 * 2 ^ 20
    let ok1 : Prop := root < dev ∧ bits e1 0 1 = 1 ∧ bits e1 1 19 = 0 ∧ bits e1 48 16 = 0 ∧ table < dev
    let e2 := entry (table + 8 * (va / 2 ^ 23 % 2 ^ 17))
    let large : Prop := bits e2 4 1 = 1
    let twin : Prop := bits e2 3 1 = 1
    let leaf := bits e2 7 41 * 128
    let ok2 : Prop := bits e2 0 1 = 1 ∧ bits e2 1 1 = 0 ∧ bits e2 5 2 ≠ 3 ∧ bits e2 48 2 ≤ 1 ∧ bits e2 50 14 = 0 ∧ leaf < dev
      ∧ (large ∨ leaf % (if twin then 8192 else 4096) = 0)
    let current := leaf + if twin ∧ bits e2 2 1 = 1 then (if large then 64 else 4096) else 0
    let at' := current + 8 * (if large then va / 2 ^ 20 % 8 else va / 2 ^ 14 % 512)
    let e3 := entry at'
    let frame := bits e3 14 34 * 2 ^ 14
    let size := if large then 2 ^ 20 else 2 ^ 14
    let ok3 : Prop := bits e3 0 1 = 1 ∧ bits e3 1 1 = 0 ∧ bits e3 6 8 = 0 ∧ bits e3 48 1 = 0 ∧ (large → bits e3 14 6 = 0)
      ∧ (bits e3 49 1 = 1 ∨ frame < dev ∨ 2 ^ 47 ≤ frame)
    let w := s.freshWalk va
    (¬(ok1 ∧ ok2 ∧ ok3) → w.out = .unmapped)
    ∧ (ok1 ∧ ok2 ∧ ok3 → ∃ p, w.out = (if bits e3 2 1 = 1 then .mapped p else .absent p) ∧ w.leafPa = at'
        ∧ p.base = va / size * size ∧ (p.large = true ↔ large) ∧ p.frame = frame
        ∧ (p.writable = true ↔ bits e3 3 1 = 1) ∧ (p.dirty = true ↔ bits e3 5 1 = 1)
        ∧ p.cls = (if bits e2 5 2 = 0 then .normal else if bits e2 5 2 = 1 then .combining else .hashedGrid)
        ∧ (p.noL1 = true ↔ bits e2 48 2 = 1) ∧ (p.ver = true ↔ twin ∧ bits e2 2 1 = 1)
        ∧ p.peer = (if bits e3 49 1 = 1 then some (bits e3 50 14) else none)
        ∧ (bits e3 49 1 = 0 → p.target va = frame + va % size))

/-- R129, R134, R151, R288 to R293, R307: PAGE_WALK, where a slot of its quad's walk scheduler is free and its instruction has the fewest
walks in flight and it is the oldest of those, begins the walk of a region for every waiting request of the instruction that
needs it. When the walk ends, the address is translated, all the entries that no cache holds being read then (log 93), from cached upper entries or, where they would fail it, from a fresh
walk: a mapped page of the right class sets ACCESSED, and DIRTY for a write; a page of another class fails the part with the cause of
R129 and R151, every other outcome with the cause that R293 gives, but a residency form that meets a page that is not there reads 0. The request then waits for the walk of its
next address that no page serves, or stands translated, a store that crosses a line boundary as two requests (log 52). Stated for a walk that one request waits for, where no L1 owns a line. -/
def Claims.PageWalks : Prop :=
  (∀ (s : State) (cache : WalkCache) (good : Page → Bool) (va : Nat) (write : Bool),
    let x := s.walkAccess cache none good va write
    (cache = ⟨[], []⟩ ∨ (∀ p, x.2 ≠ .ok p) → x.1 = s.freshWalk va)
    ∧ (∀ p, x.2 = .ok p ↔ x.1.out = .mapped p ∧ (write = true → p.writable = true))
    ∧ (x.2 = .error .unmapped ↔ x.1.out = .unmapped)
    ∧ (∀ p, x.2 = .ok p → good p = false → x.1 = s.freshWalk va))
  ∧ (∀ (s : State) (id : Nat) (r : Req) (l : LaneRef), s.req id = some r → r.stage = .walk → r.owner = .lane l →
      let quad := quadOfCore (s.coreOf l.cid l.team)
      let flights (n : Nat) : Nat := ((s.walksAt quad).filter fun w => w.1 == n).length
      let first : Prop := (s.walksAt quad).length < 16 ∧ ∀ q ∈ s.reqs, q.stage = .walk → s.walkQuad q = some quad →
        flights r.issue < flights q.issue ∨ flights r.issue = flights q.issue ∧ r.id ≤ q.id
      let region := s.walkRegion r l
      (∀ va, r.vas = [va] → region = va / 2 ^ 23)
      ∧ (¬first → exec (.pageWalk id) s = .next s)
      ∧ (first → ∃ t, exec (.pageWalk id) s = .next t ∧ Only { device := fun x => { x with reqs := [] } } s t
          ∧ t.reqs = s.reqs.map fun q =>
              match q.owner with
              | .lane k => if q.stage = .walk ∧ q.issue = r.issue ∧ s.walkRegion q k = region
                  then { q with stage := .walking region } else q
              | _ => q))
  ∧ ∀ (s : State) (id region : Nat) (r : Req) (l : LaneRef), s.req id = some r → r.stage = .walking region →
    r.owner = .lane l → (s.lane l).isSome = true → id < s.nextId → (∀ line, s.ownerOf line = none) →
    (∀ q ∈ s.reqs, q.issue = r.issue → q.stage = .walking region → q = r) →
    (∀ d n sx strm rc, r.kind = .load d n sx strm (some rc) → s.canDeliver r = true) →
    let write := r.kind.writes
    let core := s.coreOf l.cid l.team
    let good (va : Nat) (p : Page) : Bool := (s.refusedBy l r.kind p va).isNone
    let last := ((s.lane l).bind (·.lpr)).toList
    let tlb := (s.core core).tlb
    let pre := servedPages tlb good write last r.vas
    let ends (t : State) (pas : List Nat) : Prop :=
      (∃ r', t.req id = some r' ∧ r'.owner = r.owner ∧ r'.scope = r.scope
        ∧ (r'.stage = .ready ∨ (∃ a ∈ pas, (peerOf a).isSome = true) ∧ r'.stage = .atPeer)
        ∧ ((∀ data, r.kind = .store data → r.vas.length = 1 ∨ ∃ a ∈ pas, (peerOf a).isSome = true) →
            r'.kind = r.kind ∧ r'.vas = r.vas ∧ r'.pas = pas)
        ∧ ∀ data va vb pa pb, r.kind = .store data → r.vas = [va, vb] → pas = [pa, pb] → peerOf pa = none → peerOf pb = none →
            let k := 128 - va % 128
            r'.kind = .store (data.take k) ∧ r'.vas = [va] ∧ r'.pas = [pa] ∧ ∃ q ∈ t.reqs, s.nextId ≤ q.id ∧ q.owner = r.owner
              ∧ q.kind = .store (data.drop k) ∧ q.vas = [vb] ∧ q.pas = [pb] ∧ q.stage = .ready)
      ∨ ∃ d, pas.findSome? peerOf = some d
          ∧ RequestFails s t r l 0x0B (BitVec.ofNat 64 (r.vas.headD 0)) (BitVec.ofNat 64 (d % 2 ^ 14))
    (pre.length = r.vas.length → ∃ t, exec (.pageWalk id) s = .next t ∧ ends t (List.zipWith Page.target pre r.vas)
      ∧ ∀ a, Mem.read t.mem a = Mem.read s.mem a)
    ∧ ∀ va, r.vas[pre.length]? = some va →
      let x := s.walkAccess (s.quadHw (quadOfCore core)).walk none (good va) va write
      let fails (cause : Nat) : Prop :=
        ∃ t, exec (.pageWalk id) s = .next t ∧ RequestFails s t r l cause (BitVec.ofNat 64 va) 0
      (∀ p, x.2 = .ok p →
        (good va p = true →
          let p' : Page := { p with dirty := p.dirty || write }
          let post := servedPages (cachePut tlb 1024 p') good write [p'] (r.vas.drop (pre.length + 1))
          ∃ t, exec (.pageWalk id) s = .next t
            ∧ (∀ a, Mem.read t.mem a
                = Mem.read s.mem a ||| (if a = x.1.leafPa then (if write then 0x30 else 0x10) else 0))
            ∧ (t.core core).tlb = cachePut tlb 1024 p'
            ∧ (pre.length + 1 + post.length < r.vas.length → ∃ r', t.req id = some r' ∧ r' = { r with stage := .walk, op := r'.op })
            ∧ (pre.length + 1 + post.length = r.vas.length →
                ends t (List.zipWith Page.target (pre ++ p' :: post) r.vas)))
        ∧ ∀ c, s.refusedBy l r.kind p va = some c → fails c)
      ∧ (x.2 = .error .readOnly → fails 0x05)
      ∧ (x.2 = .error .unmapped → fails 0x04)
      ∧ (x.2 = .error .absent → (∀ d n sx strm rc, r.kind ≠ .load d n sx strm (some rc)) → fails (if write then 0x06 else 0x04))
      ∧ ∀ d n sx strm rc, x.2 = .error .absent → r.kind = .load d n sx strm (some rc) → s.noDigestWait →
          (∀ y, s.lane l = some y → (∀ q t v, y.wait ≠ .barrier q t v rc) ∧ ∀ q k e, y.wait ≠ .queue q k e rc) →
          d.toNat + (n + 3) / 4 ≤ 192 → ∃ t, exec (.pageWalk id) s = .next t ∧ t.req id = none
            ∧ (∀ j, j < (n + 3) / 4 → t.reg32 (.lane l) (d + BitVec.ofNat 8 j) = 0)
            ∧ t.condBit (.lane l) rc = true ∧ t.lswOf (.lane l) = s.lswOf (.lane l) ||| 0x20

/-- R189, R196, R289, R290, R294, R350: INVALIDATION_COMPLETE comes once the accesses that a flip waits for have performed and no
store that has translated in the range is still on its way, here or to a peer, and for a flip between no two requests of one batch
(log 69); it leaves no page or upper entry of its range cached, toggles the version bits that a flip is to toggle (log 31), and
lets its senders go on. -/
def Claims.Sweeps : Prop :=
  ∀ (s : State) (v : Invalidation), s.invalidations.find? (fun w => w.id == v.id) = some v →
    let meets (p : Page) : Prop := p.base < v.hi ∧ v.lo < p.base + p.size
    let ready : Prop := (v.flip = true → s.unsplit = true) ∧ ∀ r ∈ s.reqs, (r.id ∈ v.after → r.performedAt 4 false = true)
      ∧ ∀ data va, r.kind = .store data → r.stage ≠ .walk → (∀ n, r.stage ≠ .walking n) → va ∈ r.vas →
          ¬(va < v.hi ∧ v.lo < va + data.length)
    (¬ready → exec (.invalidationComplete v.id) s = .next s)
    ∧ (ready → ∃ t, exec (.invalidationComplete v.id) s = .next t
      ∧ (∀ w, w ∈ t.invalidations ↔ w ∈ s.invalidations ∧ w.id ≠ v.id)
      ∧ (∀ n p, p ∈ (t.core n).tlb ↔ p ∈ (s.core n).tlb ∧ ¬meets p)
      ∧ (∀ n p, p ∈ (t.quadHw n).tlb ↔ p ∈ (s.quadHw n).tlb ∧ ¬meets p)
      ∧ (∀ n k e, (k, e) ∈ (t.quadHw n).walk.region ↔ (k, e) ∈ (s.quadHw n).walk.region ∧
          ¬(k * 2 ^ 23 < v.hi ∧ v.lo < (k + 1) * 2 ^ 23))
      ∧ (∀ n k e, (k, e) ∈ (t.quadHw n).walk.level1 ↔ (k, e) ∈ (s.quadHw n).walk.level1 ∧
          ¬(k * 2 ^ 40 < v.hi ∧ v.lo < (k + 1) * 2 ^ 40))
      ∧ (∀ l x, s.lane l = some x → ∃ y, t.lane l = some y
          ∧ (∀ p, y.lpr = some p ↔ x.lpr = some p ∧ ¬meets p)
          ∧ (x.wait = .sweep v.id → y.wait = .ready ∧ y.pc = x.next))
      ∧ (∀ q x, s.quad q = some x → x.control.wait = .sweep v.id →
          ∃ y, t.quad q = some y ∧ y.control.wait = .run ∧ y.control.pc = x.control.next)
      ∧ (v.flip = false → ∀ a, Mem.read t.mem a = Mem.read s.mem a)
      ∧ (v.flip = true → (∀ line, s.ownerOf line = none) → FlipsVersions s t (v.lo / 2 ^ 23) ((v.hi - v.lo) / 2 ^ 23))
      ∧ (v.host = true → (∀ w ∈ s.invalidations, w.host = true → w.id = v.id) → t.bar0.invstat.getLsbD 0 = false))

/-- R129, R134, R189, R196, R283 to R294, R350: walks of the page tables, and sweeps of what is cached of them. What its parts
name as the model's choice: log 31, log 52, log 69, log 93. -/
def Obligations.WalksAndSweeps : Prop := Claims.WalkReadsTables ∧ Claims.PageWalks ∧ Claims.Sweeps

/-- R132, R137, R157, R298, R299, R322, R345, R353, R354: a peer's data completes a request, where the lines of its registers can
be written (log 22), its error fails it with PEER, or the request that it is a part of (log 26), and what comes after PEERTO only
counts; LDGU's reaches its uniform register, and HGCFG's becomes the group's descriptor or is the trap HGDESC of every member; a
control core goes on, or traps. On a link that has retrained no completion comes (log 29). A request that has waited PEERTO cycles
fails with PEERTO, is recorded and leaves its late completion behind; a peer's read and write perform at memory, between no two requests of one batch
(log 69), its atomics, combining requests and scatter adds join the home's queues, and what is not allowed to come in, a user
method among it (log 48) and what comes while peer traffic is off (log 95), is answered with an error and logged. -/
def Obligations.Peers : Prop :=
  (∀ (s : State) (id : Nat) (r : Req), s.req id = some r →
    (∀ ok data u, r.stage = .timedOut u → ∃ t, exec (.peerCompletion id ok data) s = .next t ∧ t.req id = none
      ∧ Only { device := fun x => { x with reqs := [], cores := [], quads := [] } } s t
      ∧ (∀ n k, (t.core n).counters.get 0 k = (s.core n).counters.get 0 k + if u = .core n ∧ k = 7 then 1 else 0)
      ∧ ∀ n k, (t.quadHw n).counters.get 0 k = (s.quadHw n).counters.get 0 k + if u = .quad n ∧ k = 7 then 1 else 0)
    ∧ (r.stage = .atPeer → r.retrained = true ∨ s.canDeliver r = false → ∀ ok data,
        exec (.peerCompletion id ok data) s = .next s)
    ∧ ∀ l, r.owner = .lane l → r.stage = .atPeer →
      let dev := r.peer.getD 0
      let addr : DWord := BitVec.ofNat 64 (r.vas.headD 0)
      let aux : DWord := BitVec.ofNat 64 (dev % 2 ^ 14)
      let whole : Prop := (∀ p j n, r.kind ≠ .corner p j n) ∧ ∀ p j v, r.kind ≠ .scatterPart p j v
      (r.retrained = false → s.canDeliver r = true →
        (∀ data d n sx strm rc, r.kind = .load d n sx strm rc → data.length = n →
          (s.lane l).isSome = true → s.noDigestWait → d.toNat + (n + 3) / 4 ≤ 192 → n = 1 ∨ n = 2 ∨ n = 4 ∨ n = 8 ∨ n = 16 →
          ∃ t, exec (.peerCompletion id true data) s = .next t ∧ Returns s t r l n sx d (fun i => data.getD i 0) 0)
        ∧ (∀ data, r.kind.apart = false → id < s.nextId → ∃ t, exec (.peerCompletion id true data) s = .next t ∧ t.req id = none
            ∧ ∀ a, Mem.read t.mem a = Mem.read s.mem a)
        ∧ (∀ data d n acq ls, r.kind = .uniform d n acq ls → data.length = n → s.noDigestWait →
            let x : DWord := BitVec.ofNat 64 (spelt (fun j => data.getD j 0) 0 n)
            ∃ t, exec (.peerCompletion id true data) s = .next t ∧ t.req id = none ∧ ∀ e c, t.reg e c
              = (if n = 8 then s.setReg64 (.lane l) d x else s.setReg32 (.lane l) d (x.truncate 32)).reg e c)
        ∧ (∀ data ls y, r.kind = .config ls → data.length = 64 → s.group l.gr = some y →
            let desc : BitVec 512 := BitVec.ofNat 512 (spelt (fun j => data.getD j 0) 0 64)
            let va := r.vas.headD 0
            (hgOk desc va = true → ∃ t, exec (.peerCompletion id true data) s = .next t ∧ t.req id = none
              ∧ (t.group l.gr).map (fun x => (x.hg, x.hgAt)) = some (some desc, va))
            ∧ (hgOk desc va = false → ∃ t, exec (.peerCompletion id true data) s = .next t ∧ RequestFails s t r l 0x10 addr 0
              ∧ (t.group l.gr).map (fun x => (x.hg, x.hgAt)) = some (y.hg, y.hgAt)))
        ∧ (∀ data p j n q, r.kind = .corner p j n → p ≠ id → s.req p = some q → data.length = n →
            ∃ t, exec (.peerCompletion id true data) s = .next t ∧ t.req p = some { q with got := (j, data) :: q.got }
              ∧ Only { device := fun x => { x with reqs := [] } } s t)
        ∧ (∀ data, whole → ∃ t, exec (.peerCompletion id false data) s = .next t ∧ RequestFails s t r l 0x0B addr aux)
        ∧ (∀ data p j n q, r.kind = .corner p j n → p ≠ id → s.req p = some q → q.owner = .lane l →
            ∃ t, exec (.peerCompletion id false data) s = .next t ∧ RequestFails s t q l 0x0B addr aux)
        ∧ ∀ data p j v q, r.kind = .scatterPart p j v → p ≠ id → s.req p = some q → q.owner = .lane l → q.fail = none →
            ∃ t, exec (.peerCompletion id false data) s = .next t ∧ t.req id = none
              ∧ (1 < q.left → t.req p = some { q with left := q.left - 1, fail := some (0x0B, addr, aux) })
              ∧ (q.left ≤ 1 → RequestFails s t q l 0x0B addr aux))
      ∧ (s.bar0.peerto.toNat ≤ r.waited → id < s.nextId → whole → (∀ k x p c, s.lane k = some x → x.wait ≠ .event false p c) →
          ∃ t b, exec (.peerTimeout id) s = .next t ∧ RequestFails s t r l 0x0C addr aux
          ∧ (∃ late ∈ t.reqs, late.id = s.nextId ∧ late.stage = .timedOut (.core (s.coreOf l.cid l.team)) ∧ late.owner ≠ .lane l)
          ∧ t.blackbox.getLast? = some b ∧ b.kind = 4 ∧ b.cause = 0x0C
          ∧ b.unit = BitVec.ofNat 16 (s.coreOf l.cid l.team))
      ∧ (r.waited < s.bar0.peerto.toNat → exec (.peerTimeout id) s = .next s))
  ∧ (∀ (s : State) (id : Nat) (r : Req) (q : QuadRef) (x : Quad) (d : Code) (n : Nat) (acq : Bool) (ls : List Nat)
      (data : List Byte), s.req id = some r → r.owner = .control q → r.stage = .atPeer → r.retrained = false →
      r.kind = .uniform d n acq ls → s.quad q = some x → data.length = n →
      let v : DWord := BitVec.ofNat 64 (spelt (fun j => data.getD j 0) 0 n)
      (∃ t y, exec (.peerCompletion id true data) s = .next t ∧ t.req id = none ∧ t.quad q = some y
        ∧ y.control.wait = .run ∧ y.control.pc = x.control.next
        ∧ ∀ e c, t.reg e c = (if n = 8 then s.setReg64 (.control q) d v else s.setReg32 (.control q) d (v.truncate 32)).reg e c)
      ∧ ∃ t y, exec (.peerCompletion id false data) s = .next t ∧ t.req id = none ∧ t.quad q = some y
        ∧ y.control.wait = .trapping 0x0B (BitVec.ofNat 64 (r.vas.headD 0)) (BitVec.ofNat 64 (r.peer.getD 0 % 2 ^ 14)) false)
  ∧ ∀ (s : State) (src seq pa : Nat) (kind : PeerKind) (bad : Bool),
      let r : PeerAccess := ⟨src, seq, pa, kind, bad⟩
      let len := peerBytes kind
      let user : Prop := ∃ m b c, kind = .comb m b c ∧ 16 ≤ m
      let allowed : Prop := s.inboundFrom src = true ∧ bad = false ∧ pa + len ≤ 0x6000000000 ∧ ¬user
      (¬allowed → ∃ t b, exec (.peerRequest r) s = .next t ∧ t.peerReplies = s.peerReplies ++ [⟨src, seq, false, []⟩]
        ∧ t.bar0.uec = s.bar0.uec + 1 ∧ t.blackbox.getLast? = some b ∧ b.kind = 3
        ∧ Only { device := fun x => { x with
            peerReplies := [], blackbox := [], bbSeq := 0, bar0 := { x.bar0 with uec := 0, lasterr := [] } } } s t)
      ∧ (allowed → ((∃ k, kind = .read k) ∨ (∃ data, kind = .write data) → s.unsplit = false → exec (.peerRequest r) s = .next s))
      ∧ (allowed → s.unsplit = true → (∀ line, s.ownerOf line = none) →
        (∀ n, kind = .read n → ∃ t, exec (.peerRequest r) s = .next t
          ∧ t.peerReplies = s.peerReplies ++ [⟨src, seq, true, Mem.readBytes s.mem pa n⟩]
          ∧ Only { device := fun x => { x with peerReplies := [] } } s t)
        ∧ ∀ data, kind = .write data → ∃ t, exec (.peerRequest r) s = .next t
          ∧ t.peerReplies = s.peerReplies ++ [⟨src, seq, true, []⟩]
          ∧ Only { device := fun x => { x with peerReplies := [], mem := [] } } s t
          ∧ ∀ a, Mem.read t.mem a = if pa ≤ a then ((data[a - pa]?).map fun b => MByte.apply ⟨b.1, b.2⟩ (Mem.read s.mem a)).getD (Mem.read s.mem a)
              else Mem.read s.mem a)
      ∧ (allowed → ∀ k, (∃ op ty b c, kind = .atomic op ty b c ∧ k = ReqKind.atomic op ty (some 0) b c)
            ∨ (∃ m b c, kind = .comb m b c ∧ k = ReqKind.comb m (some 0) b c)
            ∨ (∃ lo hi, kind = .scatter lo hi ∧ k = ReqKind.hgscat [(lo, hi)] 0) →
          ∃ t q, exec (.peerRequest r) s = .next t ∧ t.reqs = s.reqs ++ [q] ∧ q.kind = k ∧ q.owner = .peer src seq
            ∧ q.pas = [pa] ∧ q.stage = .ready ∧ q.id = s.nextId
            ∧ Only { device := fun x => { x with reqs := [], nextId := 0 } } s t)

/-! ### Copy queues and tile tasks (R164 to R187, R218 to R237, R338) -/

namespace Sys2Proof.Machine

open Sys2Proof

/-- A byte that an engine moves: of the window of a core of the cluster, or of memory. -/
inductive MovedByte where
  | window (team off : Nat)
  | home (pa : Nat)
  deriving DecidableEq

/-- What a byte holds. -/
def State.held (s : State) (cid : Nat) : MovedByte → Byte
  | .window team off => s.winByte cid team off
  | .home pa => Mem.read s.mem pa

/-- Where n bytes from a position of an engine's side lie: in the window of a core, under a swizzle, where the window has
them; or at virtual addresses, on the pages that the engine's TLB serves for the access, all in one access where the address is
a multiple of n. -/
def State.lieAt (s : State) (cid : Nat) (tlb : List Page) (space : Option (Nat × Nat)) (write : Bool) (pos : Int) (n : Nat) :
    Option (List MovedByte) :=
  match space with
  | some (team, swz) =>
    if 0 ≤ pos ∧ pos + n ≤ s.winSize cid then
      some ((List.range n).map fun j => .window team (swizzle swz (pos.toNat + j)))
    else none
  | none =>
    let va := (pos % 2 ^ 56).toNat
    let page (a : Nat) : Option Page :=
      (cachedFor tlb (if write then storePage else anyPage) a write).filter fun p => p.peer.isNone
    if va % n = 0 then (page va).map fun p => (List.range n).map fun j => .home (p.pa va + j)
    else (List.range n).mapM fun j => (page ((va + j) % 2 ^ 56)).map fun p => .home (p.pa ((va + j) % 2 ^ 56))

/-- The w bits from a bit of bytes. -/
def bitsOf (m : MovedByte → Byte) (cs : List MovedByte) (bit w : Nat) : Nat :=
  spelt (fun j => (cs[j]?.map m).getD 0) 0 cs.length / 2 ^ bit % 2 ^ w

/-- Bytes under a write of w bits from a bit; every other bit stays (R169). -/
def withBits (m : MovedByte → Byte) (cs : List MovedByte) (bit w v : Nat) : MovedByte → Byte :=
  cs.zipIdx.foldl (fun (m : MovedByte → Byte) (c : MovedByte × Nat) => fun k =>
    if k = c.1 then
      let old := (m k).toNat
      BitVec.ofNat 8 (if w < 8 then old - old / 2 ^ bit % 2 ^ w * 2 ^ bit + v % 2 ^ w * 2 ^ bit else v / 2 ^ (8 * c.2))
    else m k) m

/-- The walks for an access of an engine fail with f, whatever the bytes hold that are written before it. -/
def State.walkFails (s : State) (cache : WalkCache) (good : Page → Bool) (va : Nat) (write : Bool) (f : TransFault)
    (written : MovedByte → Prop) : Prop :=
  ∀ m, (∀ a, ¬written (.home a) → Mem.read m a = Mem.read s.mem a) →
    ({ s with mem := m }.walkAccess cache none good va write).2 = .error f

/-- A block scale for exact logarithms, in units of 2^−9, that may take a destination up to T (R168). -/
def scaleOf (logs : List Int) (T : Int) : Int :=
  match logs.max? with
  | none => -32768
  | some M => max (-32767) (min 32767 (M - T))

/-! #### Copies -/

/-- Where a side of a command lies. -/
def CopySide.where' (x : CopySide) : Option (Nat × Nat) := if x.space = 0 then none else some (x.team, x.swz)

/-- The bit position of element e of a side: its base and the strides of its index tuple, dimension 0 fastest (R169). -/
def CopyDesc.bitAt (d : CopyDesc) (x : CopySide) (stride : Nat × Int × Int → Int) (e : Nat) : Int :=
  8 * (x.base : Int) + copyBits x.fmt
    * (d.dims.foldl (fun (acc : Nat × Int) k => (acc.1 / k.1, acc.2 + (acc.1 % k.1 : Nat) * stride k)) (e, 0)).2

/-- The first element of the block of element e, the number of the block, and how many elements it has (R58, R169). -/
def CopyDesc.firstOf (d : CopyDesc) (e : Nat) : Nat := e - e % d.ext0 % 32
def CopyDesc.blockOf (d : CopyDesc) (e : Nat) : Nat := e / d.ext0 * ((d.ext0 + 31) / 32) + e % d.ext0 / 32
def CopyDesc.lengthOf (d : CopyDesc) (e : Nat) : Nat := min 32 (d.ext0 - e % d.ext0 / 32 * 32)

/-- The bytes of element e of the source and of the destination, and of the scale of its block. -/
def State.from' (s : State) (l : LaneRef) (d : CopyDesc) (e : Nat) : Option (List MovedByte) :=
  s.lieAt l.cid (s.core (s.coreOf l.cid l.team)).tlb d.src.where' false (d.bitAt d.src (·.2.1) e / 8)
    ((copyBits d.src.fmt + 7) / 8)
def State.into' (s : State) (l : LaneRef) (d : CopyDesc) (e : Nat) : Option (List MovedByte) :=
  s.lieAt l.cid (s.core (s.coreOf l.cid l.team)).tlb d.dst.where' true (d.bitAt d.dst (·.2.2) e / 8)
    ((copyBits d.dst.fmt + 7) / 8)
def State.scaleBytes (s : State) (l : LaneRef) (d : CopyDesc) (x : CopySide) (write : Bool) (e : Nat) :
    Option (List MovedByte) :=
  s.lieAt l.cid (s.core (s.coreOf l.cid l.team)).tlb x.where' write ((x.scales : Int) + 2 * d.blockOf e) 2

/-- The code of source element e, where bytes hold m. -/
def State.codeAt (s : State) (l : LaneRef) (d : CopyDesc) (m : MovedByte → Byte) (e : Nat) : Nat :=
  bitsOf m ((s.from' l d e).getD []) (d.bitAt d.src (·.2.1) e % 8).toNat (copyBits d.src.fmt)

/-- The scale that the block of element e chooses, where bytes hold m as its elements are read (R168). -/
def State.chosen (s : State) (l : LaneRef) (d : CopyDesc) (m : MovedByte → Byte) (e : Nat) : Int :=
  scaleOf (((List.range (d.lengthOf e)).filterMap fun j => (d.value (s.codeAt l d m (d.firstOf e + j)) none).ceil512).map
    fun x => x + d.scl.toInt) (if d.dst.fmt = 6 then 768 else 4032)

/-- The destination code of element e and its flags: the element as it stands, under its block's scale, or less the scale that
its block chooses from its elements as they stood before any of them was written (R167 to R169). -/
def State.delivers (s : State) (l : LaneRef) (d : CopyDesc) (m : Nat → MovedByte → Byte) (e : Nat) : Nat × Word :=
  if d.mode = 0 then (s.codeAt l d (m e) e, 0)
  else if d.mode = 2 ∨ d.mode = 4 then
    let sc := s.chosen l d (m (d.firstOf e)) e
    d.convert (if sc = -32768 then d.scl.toInt else d.scl.toInt - sc) (d.value (s.codeAt l d (m (d.firstOf e)) e) none)
  else
    let sc := bitsOf (m (d.firstOf e)) ((s.scaleBytes l d d.src false e).getD []) 0 16
    d.convert d.scl.toInt (d.value (s.codeAt l d (m e) e) (if d.sse then some sc else none))

/-- Elements below n delivered one after the other, dimension 0 fastest: m e is what bytes hold before element e. Each
element changes its own bits alone, and the last one of a block writes the scale that the block chooses (R168, R169). -/
structure Moved (s : State) (l : LaneRef) (d : CopyDesc) (n : Nat) (m : Nat → MovedByte → Byte) (flags : Word) : Prop where
  start : m 0 = s.held l.cid
  each : ∀ e, e < n →
    let w := withBits (m e) ((s.into' l d e).getD []) (d.bitAt d.dst (·.2.2) e % 8).toNat (copyBits d.dst.fmt)
      (s.delivers l d m e).1
    m (e + 1) = if (d.mode = 2 ∨ d.mode = 4) ∧ e + 1 = d.firstOf e + d.lengthOf e then
        withBits w ((s.scaleBytes l d d.dst true e).getD []) 0 16 (s.chosen l d (m (d.firstOf e)) e % 2 ^ 16).toNat
      else w
  flags : flags = (List.range n).foldl (fun f e => f ||| (s.delivers l d m e).2) 0

/-- Element e can be read and written: the engine's TLB serves its global bytes, and the window has its scratch bytes. -/
def State.canMove (s : State) (l : LaneRef) (d : CopyDesc) (e : Nat) : Prop :=
  (s.from' l d e).isSome = true ∧ (s.into' l d e).isSome = true
  ∧ (d.sse = true → (s.scaleBytes l d d.src false e).isSome = true)
  ∧ ((d.mode = 2 ∨ d.mode = 4) ∧ e + 1 = d.firstOf e + d.lengthOf e → (s.scaleBytes l d d.dst true e).isSome = true)

/-! #### The tree of the Anvil -/

/-- nodefinish (R225). -/
def nodeFinish (s : Bool) (f : Int) : LogVal × Word :=
  if 2 ^ 19 - 2 < f then (.inf s, 2) else if f < -2 ^ 19 + 1 then (.zero, 4) else (.fin s f, 0)

/-- product (R224). -/
def productOf : LogVal → LogVal → LogVal × Word
  | .nan, _ => (.nan, 0)
  | _, .nan => (.nan, 0)
  | .zero, .inf _ => (.nan, 1)
  | .inf _, .zero => (.nan, 1)
  | .zero, _ => (.zero, 0)
  | _, .zero => (.zero, 0)
  | .inf s, .inf t => (.inf (s != t), 0)
  | .inf s, .fin t _ => (.inf (s != t), 0)
  | .fin s _, .inf t => (.inf (s != t), 0)
  | .fin s e, .fin t f => nodeFinish (s != t) (e + f)

/-- node (R226). -/
def nodeOf : LogVal → LogVal → LogVal × Word
  | .nan, _ => (.nan, 0)
  | _, .nan => (.nan, 0)
  | .inf s, .inf t => if s = t then (.inf s, 0) else (.nan, 1)
  | .inf s, _ => (.inf s, 0)
  | _, .inf t => (.inf t, 0)
  | .zero, y => (y, 0)
  | x, .zero => (x, 0)
  | .fin s e, .fin t f =>
    match (gadd 12 s e t f).1 with
    | none => (.zero, 0)
    | some (u, g) => nodeFinish u g

/-- The tree over 2^n leaves: the node over the trees of its two halves, with the flags of every node (R226). -/
def treeOf : Nat → (Nat → LogVal) → LogVal × Word
  | 0, p => (p 0, 0)
  | n + 1, p =>
    let x := treeOf n p
    let y := treeOf n fun k => p (2 ^ n + k)
    ((nodeOf x.1 y.1).1, (nodeOf x.1 y.1).2 ||| (x.2 ||| y.2))

/-- Bit k of the bitmap of stored row q of an operand (R180). -/
def State.bitmapBit (s : State) (cid : Nat) (o : TileOp) (q k : Nat) : Bool :=
  (s.winByte cid o.core (o.bitmap + q * (tileK o.fmt / 8) + k / 8)).getLsbD (k % 8)

/-- Element k of row or column r of an operand of a task, after operand() (R179, R180, R224): stored row r, or where the rows
run the other way position r of stored row k; in a sparse operand the value that as many present ones precede as the bitmap
says. -/
def State.operandAt (s : State) (cid : Nat) (o : TileOp) (sparse : Bool) (x : Half) (r k : Nat) : LogVal :=
  let q := if o.along then r else k
  let at' := if o.along then k else r
  let p := if sparse then ((List.range k).filter fun j => s.bitmapBit cid o r j).length else at'
  let w := tileBits o.fmt
  let code := spelt (fun b => s.winByte cid o.core (swizzle o.swz b)) (o.base + q * o.pitch + p * w / 8) ((w + 7) / 8)
    / 2 ^ (p * w % 8) % 2 ^ w
  let scale := BitVec.ofNat 16 (spelt (s.winByte cid o.core) (o.scales + 2 * (q * o.rowScales + at' / 32)) 2)
  if o.sce = true ∧ scale = 0x8000 then .zero
  else if o.fmt = 2 ∧ code = 12 then
    match l16.decode x.toNat with
    | .fin s e => .fin s (8 * e)
    | v => v
  else
    match (tileFmt o.fmt).decode code with
    | .fin s e => .fin s (e * 2 ^ (12 - (tileFmt o.fmt).f) + if o.sce then 8 * scale.toInt else 0)
    | v => v

/-! #### Drains -/

/-- A value times 2^(S / 512). -/
def scaledBy (S : Int) : LogVal → LogVal
  | .fin s e => .fin s (e + S * 2 ^ 14)
  | v => v

/-- A magnitude is no larger than another; NaN is none (R53, R114). -/
def noLarger : LogVal → LogVal → Prop
  | .nan, _ => True
  | _, .nan => False
  | .zero, _ => True
  | _, .zero => False
  | _, .inf _ => True
  | .inf _, _ => False
  | .fin _ e, .fin _ f => e ≤ f

/-- The L16 code c, as a value that counts 2^−23, and with the sign 0. -/
def amaxValue (c : Half) : LogVal :=
  match l16.decode c.toNat with
  | .fin _ e => .fin false (e * 2 ^ 14)
  | v => v

/-- c is the amax code of old and the values vs: no value is larger, and c is old, or no smaller code will do (R183, R236). -/
def AmaxOf (old : Half) (vs : List LogVal) (c : Half) : Prop :=
  c.toNat < 2 ^ 15 ∧ noLarger (amaxValue old) (amaxValue c) ∧ (∀ v ∈ vs, noLarger v (amaxValue c))
  ∧ (c = old ∨ ∀ b : Half, b.toNat < 2 ^ 15 → amaxValue b ≠ .nan → (∀ v ∈ vs, noLarger v (amaxValue b)) →
      noLarger (amaxValue c) (amaxValue b))

/-- One write of a task: bit position, width, value, flags. -/
abbrev TaskWrite := Nat × Nat × Nat × Word

/-- Bytes under writes made in order. -/
def State.underWrites (s : State) (cid : Nat) (at' : TaskWrite → Option (List MovedByte)) (ws : List TaskWrite) :
    MovedByte → Byte :=
  ws.foldl (fun m w => withBits m ((at' w).getD []) (w.1 % 8) w.2.1 w.2.2.1) (s.held cid)

end Sys2Proof.Machine

/-- R165 to R171, R266, R291: QUEUE_ENTRY_ACCEPT enters a held command where there is room and no lower member still waits;
COPY_COMMAND_START waits where a batch of updates has performed in part (log 69) and where a walk would find no slot (log 82). It
ends a command that is not legal or whose footprints forbid it before it moves a byte, and moves the elements of any other one
after the other in their order, within the step (log 8), those below the first that fails, with their flags (log 28); the failure's
cause is as for a lane's access. Stated for bytes on pages that
the core's TLB holds, and for a first failure: past a window, at a walk, at a peer that is not reached or that fails the
command's first element. That a scale array in scratch lies under the side's swizzle (log 58), that a scale which cannot be
written stops the block before its last element (log 62), and what the limits and the footprints leave open (log 59, log 61) are
the model's choices. -/
def Claims.CopyMoves : Prop :=
  (∀ (s : State) (l : LaneRef) (g : Group) (x : Lane) (y : CopyQueue) (op q : Nat) (desc : List Byte) (e : CopyEnding),
    let ref : QueueRef := ⟨l.cid, l.team, q⟩
    s.running l.cid = true → s.group l.gr = some g → s.lane l = some x → x.wait = .enqueue op q desc e → s.queue ref = some y →
    let lower : Prop := ∃ o p, g.openOf op = some o ∧ p ∈ o.parts ∧ p.lane < l.lane ∧ p.st = .waiting
    (16 ≤ y.entries.length ∨ lower → ∃ t, exec (.queueEntryAccept l) s = .next t ∧ t.queue ref = some y)
    ∧ (y.entries.length < 16 → ¬lower → ∃ t, exec (.queueEntryAccept l) s = .next t
        ∧ t.queue ref = some { y with entries := y.entries ++ [.command s.nextId l desc e none], accepted := y.accepted + 1 }
        ∧ ∀ a, Mem.read t.mem a = Mem.read s.mem a))
  ∧ ∀ (s : State) (q : QueueRef) (x : CopyQueue) (id : Nat) (l : LaneRef) (bytes : List Byte) (e : CopyEnding)
      (rest : List QueueEntry), s.queue q = some x → x.entries = .command id l bytes e none :: rest → x.state = 0 →
      s.running q.cid = true →
      let d := CopyDesc.parse bytes l.team
      let cores := ((s.cluster l.cid).map (·.teams.length)).getD 0
      let core := s.coreOf l.cid l.team
      let cache := (s.quadHw (quadOfCore core)).walk
      let starts (still : Erase) (P : State → CopyRun → Prop) : Prop := ∃ t run, exec (.copyCommandStart q) s = .next t
        ∧ t.queue q = some { x with entries := .command id l bytes e (some run) :: rest, doneAt := s.tick } ∧ P t run
        ∧ Only still s t
        ∧ (∀ r, r ≠ q → t.queue r = s.queue r) ∧ ∀ c k o, c ≠ l.cid → t.winByte c k o = s.winByte c k o
      let queues : Erase := { team := fun y => { y with queues := [] } }
      let bytes' : Erase := { team := fun y => { y with queues := [], window := [] }, device := fun z => { z with mem := [] } }
      let quad := quadOfCore (s.coreOf q.cid q.team)
      let go : Prop := s.unsplit = true ∧ (s.walksAt quad).length < 16
        ∧ ∀ r ∈ s.reqs, r.stage = .walk → s.walkQuad r = some quad → ∃ w ∈ s.walksAt quad, w.1 = r.issue
      (¬go → exec (.copyCommandStart q) s = .next s)
      ∧ (go → d.ok cores = false → starts queues fun _ run => run = ⟨.desc, 0, 0, [], none, 0⟩)
      ∧ (go → d.ok cores = true → d.overlaps = true → starts queues fun _ run => run = ⟨.overlap, 0, 0, [], none, 0⟩)
      ∧ (go → d.ok cores = true → d.overlaps = false → s.homeCurrent →
        (d.dst.space ≠ 0 → (s.team l.cid d.dst.team).isSome = true) →
        ((∀ e, e < d.total → s.canMove l d e) → starts bytes' fun t run => ∃ m,
            Moved s l d d.total m run.flags ∧ t.held l.cid = m d.total
            ∧ run.status = .done ∧ run.elems = d.total ∧ run.owed = none)
        ∧ ∀ n, n < d.total → (∀ e, e < n → s.canMove l d e) →
          let stops (still : Erase) (cause : Nat) : Prop := starts still fun t run => ∃ m,
            Moved s l d n m run.flags ∧ t.held l.cid = m n ∧ run.status = .fault cause ∧ run.elems = n
          let counted : Erase := { bytes' with device := fun z => { z with mem := [], cores := [] } }
          let written (c : MovedByte) : Prop := ∃ e cs, e < n ∧ s.into' l d e = some cs ∧ c ∈ cs
          let va (x : CopySide) (stride : Nat × Int × Int → Int) : Nat := (d.bitAt x stride n / 8 % 2 ^ 56).toNat
          let page (a : Nat) (write : Bool) : Option Page :=
            cachedFor (s.core core).tlb (if write then storePage else anyPage) a write
          let blocks : Prop := d.mode = 2 ∨ d.mode = 4
          (blocks → n = d.firstOf n → (∃ j, j < d.lengthOf n ∧ s.from' l d (n + j) = none) → d.src.space ≠ 0 → stops bytes' 0x07)
          ∧ (blocks → (∀ j, j < d.lengthOf n → (s.from' l d (d.firstOf n + j)).isSome = true) →
              s.into' l d n = none ∨ n + 1 = d.firstOf n + d.lengthOf n ∧ s.scaleBytes l d d.dst true n = none →
              d.dst.space ≠ 0 → stops bytes' 0x07)
          ∧ (¬blocks → d.sse = true → n = d.firstOf n → s.scaleBytes l d d.src false n = none → d.src.space ≠ 0 → stops bytes' 0x07)
          ∧ (¬blocks → (d.sse = true → (s.scaleBytes l d d.src false n).isSome = true) → s.from' l d n = none →
            (d.src.space ≠ 0 → stops bytes' 0x07)
            ∧ (d.src.space = 0 →
              let a := va d.src (·.2.1)
              (∀ f, page a false = none → s.walkFails cache anyPage a false f written → stops counted 0x04)
              ∧ (∀ p, page a false = some p → s.bar0.devnum.getLsbD 31 = false → stops bytes' 0x0B)
              ∧ ∀ p dev c, page a false = some p → p.peer = some dev → s.peerFault dev a = some c → n = 0 →
                  starts bytes' fun t run => t.held l.cid = s.held l.cid ∧ run.status = .fault c ∧ run.elems = 0
                    ∧ run.owed = if c = 0x0C then some (a, dev) else none))
          ∧ (¬blocks → (d.sse = true → (s.scaleBytes l d d.src false n).isSome = true) → (s.from' l d n).isSome = true →
            s.into' l d n = none →
            (d.dst.space ≠ 0 → stops bytes' 0x07)
            ∧ (d.dst.space = 0 →
              let a := va d.dst (·.2.2)
              (∀ f, page a true = none → s.walkFails cache storePage a true f written →
                stops counted (match f with | .unmapped => 0x04 | .absent => 0x06 | .readOnly => 0x05))
              ∧ ∀ p, page a true = some p → s.bar0.devnum.getLsbD 31 = false → stops bytes' 0x0B)))

/-- R167, R168, R183, R213, R235: an exact log into a log format is rounded once, ties to even, and saturates, in a drain's L32
and L16 as finish does; the logarithm that a block scale takes of a number is the least one, in units of 2^−9, that is not below
it. -/
def Claims.MovedValues : Prop :=
  (∀ (m : LogFmt) (isL4 nanx neg plain : Bool) (S f : Int) (frac : Nat), 9 ≤ frac →
    let x := if plain then f else f + S * 2 ^ (frac - 9)
    let top := if m.hasInf then m.top - 1 else m.top
    ∃ g, (m.f ≤ frac → NearestEven x (frac - m.f) g) ∧ (frac ≤ m.f → g = x * 2 ^ (m.f - frac))
      ∧ intoLog m isL4 nanx S (.log neg f frac plain)
        = if top < g then (m.encode (.fin neg top), 2) else if g < m.bot + 1 then (m.encode .zero, 4)
          else (m.encode (.fin neg g), 0))
  ∧ (∀ (neg : Bool) (n : Nat) (e L : Int), n ≠ 0 →
      ((CopyVal.num neg n e).ceil512 = some L ↔
        (2 : ℚ) ^ (L - 1) < (n : ℚ) ^ 512 * 2 ^ (512 * e) ∧ (n : ℚ) ^ 512 * 2 ^ (512 * e) ≤ 2 ^ L))
  ∧ (∀ (neg plain : Bool) (f L : Int) (frac : Nat), 9 ≤ frac →
      ((CopyVal.log neg f frac plain).ceil512 = some L ↔ (L - 1) * 2 ^ (frac - 9) < f ∧ f ≤ L * 2 ^ (frac - 9)))
  ∧ ∀ (neg : Bool) (e : Int),
      (∃ r, Finish l32 false neg e r ∧ drainConvert 0 (.fin neg e) = (l32.encode r.1, r.2))
      ∧ ∃ g r, NearestEven e 14 g ∧ Finish l16 false neg g r ∧ drainConvert 1 (.fin neg e) = (l16.encode r.1, r.2)

/-- R164, R171 to R175, R299, R338, R356: COPY_COMMAND_END comes once a peer that does not answer has been waited for, for PEERTO
cycles of the core, and records it; it counts the command or holds the queue, which the command leaves (log 63), gives its flags
to the lane and the queue, signals, and lets lanes go on whose QWAIT it decides; QFENCE_COMPLETE lets a fence go whose queues and
stores have performed. -/
def Claims.CopyEnds : Prop :=
  (∀ (s : State) (q : QueueRef) (x : CopyQueue) (id : Nat) (l : LaneRef) (bytes : List Byte) (e : CopyEnding)
      (run : CopyRun) (rest : List QueueEntry), s.queue q = some x → x.entries = .command id l bytes e (some run) :: rest →
      x.state = 0 → s.mayEnd q.cid = true → (s.lane l).isSome = true →
      let ok : Bool := run.status == .done
      (∀ f, run.owed = some f → run.waited < s.bar0.peerto.toNat → exec (.copyCommandEnd q) s = .next s)
      ∧ (run.owed = none ∨ s.bar0.peerto.toNat ≤ run.waited → ∃ t y, exec (.copyCommandEnd q) s = .next t
        ∧ t.queue q = some y ∧ y.entries = rest
        ∧ y.flags = x.flags ||| run.flags.truncate 3 ∧ y.accepted = x.accepted ∧ y.epoch = x.epoch
        ∧ t.lswOf (.lane l) = s.lswOf (.lane l) ||| run.flags
        ∧ (run.status = .done → y.state = 0 ∧ y.done = x.done + 1 ∧ y.performed = x.performed + 1)
        ∧ (∀ c, run.status = .fault c → y.state = 2 ∧ y.cause = BitVec.ofNat 5 c)
        ∧ (run.status = .overlap → y.state = 3) ∧ (run.status = .desc → y.state = 4)
        ∧ (run.status ≠ .done → y.done = x.done ∧ y.performed = x.performed ∧ y.elem = BitVec.ofNat 40 run.elems)
        ∧ (∀ k tok inc, e = .cpyt k tok inc → (∀ r z, s.lane r = some z → ∀ a b c w, z.wait ≠ .signal a b c w) →
            (s.quad ⟨l.cid, k⟩).isSome = true →
            t.token ⟨l.cid, k⟩ tok = s.token ⟨l.cid, k⟩ tok + if run.status = .done then inc else 0)
        ∧ (∀ b n, e = .cpyb b n →
            let z := s.barrier l false b
            let asked := if z.count = 0 then n else z.n
            let bad : Bool := (z.count != 0 && z.faulted) || !ok
            t.barrier l false b = if z.count + 1 = asked then ⟨z.phase + 1, 0, 0, false, if bad then z.phase :: z.bad else z.bad⟩
              else ⟨z.phase, z.count + 1, asked, bad, z.bad⟩)
        ∧ (∀ r z upto c, s.lane r = some z → r.cid = q.cid → r.team = q.team → z.wait = .queue q.q upto x.epoch c →
            x.performed < upto →
            let woken (b : Bool) : Prop := (t.lane r).map (·.wait) = some .ready ∧ t.pcOf (.lane r) = z.next
              ∧ t.condBit (.lane r) c = (decide (c = 7) || b)
            (ok = false → woken false) ∧ (ok = true → upto ≤ x.performed + 1 → woken true)
            ∧ (ok = true → x.performed + 1 < upto → (t.lane r).map (·.wait) = some z.wait))
        ∧ ∀ va dev, run.owed = some (va, dev) → (∀ k z p c, s.lane k = some z → z.wait ≠ .event false p c) →
            (∃ late ∈ t.reqs, late.id = s.nextId ∧ late.stage = .timedOut (.core (s.coreOf q.cid q.team)))
            ∧ ∃ b, t.blackbox.getLast? = some b ∧ b.kind = 4 ∧ b.cause = 0x0C
                ∧ b.unit = BitVec.ofNat 16 (s.coreOf q.cid q.team) ∧ b.detail = BitVec.ofNat 128 (va + 2 ^ 64 * (dev % 2 ^ 14))))
  ∧ ∀ (s : State) (q : QueueRef) (x : CopyQueue) (named : List (Nat × Nat × Nat)) (stores : List Nat) (rest : List QueueEntry),
      s.queue q = some x → x.entries = .fence named stores :: rest → x.state = 0 → s.running q.cid = true →
      let done : Prop := (∀ k ∈ named, ∀ y, s.queue ⟨q.cid, q.team, k.1⟩ = some y → y.epoch ≠ k.2.2 ∨ k.2.1 ≤ y.performed)
        ∧ ∀ r ∈ s.reqs, r.id ∈ stores → r.performedAt 4 false = true
      (¬done → exec (.qfenceComplete q) s = .next s)
      ∧ (done → ∃ t, exec (.qfenceComplete q) s = .next t
          ∧ t.queue q = some { x with entries := rest, performed := x.performed + 1 }
          ∧ (∀ r, r ≠ q → t.queue r = s.queue r) ∧ ∀ a, Mem.read t.mem a = Mem.read s.mem a)

/-- R164 to R176, R213, R266, R291, R299, R338: the steps of the copy queues. What its parts name as the model's choice: log 8,
log 28, log 58, log 59, log 61, log 62, log 63, log 69, log 82. -/
def Obligations.CopyQueueSteps : Prop := Claims.CopyMoves ∧ Claims.MovedValues ∧ Claims.CopyEnds

/-- R177, R181 to R184, R218, R221 to R231, R235 to R237, R266, R269: a unit that is free starts its oldest ready task, one whose
waits hold while no older task names its tile, and its effect is made then (log 8), after what the fused L1s of the cluster hold
has gone home. A pass adds to each element the tree of its products, or with .z writes it; TZERO and TLOADACC fill a tile; a drain writes its
rows in ascending order, a row's block scale before its elements, and raises its amax register; TDAPPLY adds s times the tile to
a block of weights, reading of a twin region the version that is current as it starts and writing the other one. A task that is not
legal, a reserved bit of TDAPPLY's operands included (log 30), ends OPFMT and changes nothing; a write that fails ends the task
there, with the flags of what it has delivered (log 28). Stated for global bytes on pages that the quad's TLB holds, and for TDAPPLY
outside twin regions, whose two tables are stated of one weight. That a drain's block scales lie under its swizzle is the model's
choice (log 58). -/
def Claims.TasksAct : Prop :=
  (∀ (s : State) (q : QuadRef) (x : Quad) (drain : Bool) (task : Task), s.quad q = some x → s.running q.cid = true →
      let mine (k : TaskKind) : Prop :=
        if drain then k = .tdrain ∨ k = .tdapply else k = .tmma ∨ k = .tmmas ∨ k = .tzero ∨ k = .tloadacc
      let waits (w : Option (Nat × Word)) : Prop := ∀ j y, w = some (j, y) → 0 ≤ (s.token q j - y).toInt
      let ready (z : Task) (older : List Task) : Prop := mine z.kind ∧ z.stage = .waiting ∧ waits z.w0 ∧ waits z.w1
        ∧ ∀ o ∈ older, o.kind = .tfence ∨ o.field.tile ≠ z.field.tile
      let home := s.pushStaged (s.fusedCores q.cid)
      ((x.tasks.map (·.id)).Nodup → (x.startable drain = some task ↔
        (∀ z ∈ x.tasks, ¬(mine z.kind ∧ z.stage = .running))
        ∧ ∃ before after, x.tasks = before ++ task :: after ∧ ready task before
          ∧ ∀ (i : Nat) z, before[i]? = some z → ¬ready z (before.take i)))
      ∧ (x.startable drain = none ∨ s.unsplit = false → exec (.taskStart q drain) s = .next s)
      ∧ (x.startable drain = some task → s.unsplit = true → (∀ r ∈ s.reqs, r.owner ≠ .control q) →
          (∀ r ∈ s.stagedAt (s.fusedCores q.cid), ∃ data pa more, r.kind = .store data ∧ r.pas = pa :: more) →
          exec (.taskStart q drain) s = exec (.taskStart q drain) home ∧ home.stagedAt (s.fusedCores q.cid) = [])
      ∧ (x.startable drain = some task → s.unsplit = true → (x.tasks.map (·.id)).Nodup → s.homeCurrent →
        let n := s.quadOf q
        let win := s.winSize q.cid
        let cores := ((s.cluster q.cid).map (·.teams.length)).getD 0
        let tile := task.field.tile.toNat
        let still : Erase := { team := fun y => { y with window := [] }
                               quad := fun y => { y with tasks := [], folds := [], tk := 0, acc := [], amax := [], doneAt := 0 }
                               device := fun z => { z with mem := [], quads := [] } }
        let starts (P : State → Quad → Prop) (record : Nat) : Prop := ∃ t y k, exec (.taskStart q drain) s = .next t
          ∧ t.quad q = some y ∧ k.toNat = record ∧ P t y ∧ Only still s t
          ∧ y.tasks.map (fun z => { z with owed := none }) = x.tasks.map fun z =>
              if z.id = task.id then { z with stage := .running, record := k, owed := none, waited := 0 }
              else { z with owed := none }
        let ends (status cause : Nat) (flags : Word) (sk : Bool) : Nat := cause * 2 ^ 40 + flags.toNat / 8 % 2 * 2 ^ 36
          + (if sk then 2 ^ 35 else 0) + flags.toNat % 8 * 2 ^ 32 + task.field.tag.toNat * 2 ^ 16 + status * 2 ^ 12
          + task.kind.code * 2 ^ 8 + tile
        let sameBytes (t : State) : Prop := t.held q.cid = s.held q.cid
        let otherTiles (y : Quad) : Prop := y.amax = x.amax
          ∧ ∀ k i j, k ≠ tile → i < 32 → j < 32 → y.accAt k i j = x.accAt k i j
        let opfmt : Prop := starts (fun t y => sameBytes t ∧ y.acc = x.acc ∧ y.amax = x.amax) (ends 1 0 0 false)
        let tlb := (s.quadHw n).tlb
        (task.kind = .tzero → starts (fun t y => sameBytes t ∧ otherTiles y
            ∧ ∀ i j, i < 32 → j < 32 → y.accAt tile i j = 0x40000000) (ends 0 0 0 false))
        ∧ (task.kind = .tloadacc →
            let core := task.a.toNat / 2 ^ 14 % 16
            let base := 32 * (task.a.toNat % 2 ^ 14)
            let swz := task.a.toNat / 2 ^ 21 % 8
            let legal : Prop := task.a.toNat / 2 ^ 18 % 8 = 0 ∧ task.a.toNat / 2 ^ 24 = 0 ∧ task.a.toNat % 4 = 0
              ∧ core < cores ∧ base + 4096 ≤ win
            (legal → starts (fun t y => sameBytes t ∧ otherTiles y ∧ ∀ i j, i < 32 → j < 32 →
                (y.accAt tile i j).toNat = spelt (fun b => s.winByte q.cid core (swizzle swz b)) (base + 128 * i + 4 * j) 4)
                (ends 0 0 0 false))
            ∧ (¬legal → opfmt))
        ∧ (task.kind = .tmma ∨ task.kind = .tmmas →
            let sparse := task.kind == .tmmas
            let a := TileOp.parse task.a true
            let b := TileOp.parse task.b false
            let K := tileK a.fmt
            let legal : Prop := task.a.toNat / 2 ^ 61 = 0 ∧ task.b.toNat / 2 ^ 61 = 0 ∧ task.c.toNat / 2 ^ 32 = 0 ∧ a.fmt = b.fmt
              ∧ ∀ o ∈ [a, b], o.fmt ≠ 3 ∧ (o.sce = true → o.fmt ≠ 0) ∧ o.core < cores
                ∧ (sparse = false → o.ord = true → o.fmt ≠ 2 ∧ o.rowBytes % 32 = 0 ∧ o.pitch % 32 = 0)
                ∧ (sparse = true → o.along = true ∧ o.bitmap + o.rows * (K / 8) ≤ win)
                ∧ (∀ r, r < o.rows →
                    let used := if sparse then
                        (((List.range K).filter fun k => s.bitmapBit q.cid o r k).length * tileBits o.fmt + 7) / 8
                      else o.rowBytes
                    (sparse = true → used ≤ o.pitch) ∧ (used ≠ 0 → o.base + r * o.pitch + used ≤ win))
                ∧ (o.sce = true → o.scales + 2 * (o.rows * o.rowScales) ≤ win)
            let bit (o : TileOp) (r k : Nat) : Bool := !sparse || s.bitmapBit q.cid o r k
            let opA (i k : Nat) : LogVal := s.operandAt q.cid a sparse (slice task.c 0 16) i k
            let opB (j k : Nat) : LogVal := s.operandAt q.cid b sparse (slice task.c 16 16) j k
            let prod (i j k : Nat) : LogVal × Word :=
              if bit a i k && bit b j k then productOf (opA i k) (opB j k) else (.zero, 0)
            let tree (i j : Nat) : LogVal × Word :=
              treeOf (if a.fmt = 0 then 3 else if a.fmt = 1 then 5 else 6) fun k => (prod i j k).1
            let wide (i j : Nat) : LogVal := match (tree i j).1 with
              | .fin p e => .fin p (e * 2 ^ 11)
              | v => v
            let sum (i j : Nat) : LogVal × Word :=
              if task.z then (wide i j, 0) else logAdd l32 false (l32.decode (x.accAt tile i j).toNat) (wide i j)
            let flags : Word := (List.range 1024).foldl (fun f c => (List.range K).foldl
              (fun f k => f ||| (prod (c / 32) (c % 32) k).2)
              (f ||| ((tree (c / 32) (c % 32)).2 ||| (sum (c / 32) (c % 32)).2))) 0
            let special (v : LogVal) : Bool := match v with
              | .nan | .inf _ => true
              | _ => false
            let sk : Bool := sparse && (List.range 1024).any fun c => (List.range K).any fun k =>
              (bit a (c / 32) k && !bit b (c % 32) k && special (opA (c / 32) k))
                || (!bit a (c / 32) k && bit b (c % 32) k && special (opB (c % 32) k))
            let present := ((List.range 1024).map fun c =>
              ((List.range K).filter fun k => bit a (c / 32) k && bit b (c % 32) k).length).sum
            (¬legal → opfmt)
            ∧ (legal → starts (fun t y => sameBytes t ∧ otherTiles y
                ∧ (∀ i j, i < 32 → j < 32 → y.accAt tile i j = BitVec.ofNat 32 (l32.encode (sum i j).1))
                ∧ (t.quadHw n).counters.get 0 8 = (s.quadHw n).counters.get 0 8
                    + if sparse = true ∧ 2 * present ≤ 1024 * K then 1 else 2)
                (ends 0 0 flags sk)))
        ∧ (task.kind = .tdrain →
            let fld (lo n : Nat) : Nat := task.a.toNat / 2 ^ lo % 2 ^ n
            let bit (i : Nat) : Bool := task.a.getLsbD i
            let dfmt := fld 0 3
            let w := [32, 16, 8, 4, 32, 16, 16].getD dfmt 8
            let pitch := if fld 24 16 = 0 then 4 * w else fld 24 16
            let legal : Prop := dfmt ≠ 7 ∧ fld 20 4 = 0 ∧ slice task.c 16 16 = 0 ∧ (bit 12 = true → slice task.c 0 16 ≠ 0x8000)
              ∧ (bit 14 = true → (dfmt = 2 ∨ dfmt = 3) ∧ fld 40 24 % 2 = 0)
              ∧ (bit 3 = false → task.b.toNat < 2 ^ 19 ∧ fld 4 4 < cores ∧ task.b.toNat + 31 * pitch + 4 * w ≤ win
                ∧ (bit 14 = true → task.b.toNat + fld 40 24 + 64 ≤ win))
            let base := if bit 3 then task.b.toNat % 2 ^ 56 else task.b.toNat
            let value (r c : Nat) : LogVal :=
              let v := l32.decode (if bit 11 then x.accAt tile c r else x.accAt tile r c).toNat
              let v := if bit 12 then scaledBy (slice task.c 0 16).toInt v else v
              if bit 13 then logClampV v (l32.decode (task.c.toNat / 2 ^ 32 % 2 ^ 31)) else v
            let sb (r : Nat) : Int := scaleOf ((List.range 32).filterMap fun c => match value r c with
              | .fin _ e => some (-((-e) / 2 ^ 14))
              | _ => none) (if dfmt = 3 then 768 else 4032)
            let out (r c : Nat) : Nat × Word :=
              drainConvert dfmt (if bit 14 ∧ sb r ≠ -32768 then scaledBy (-sb r) (value r c) else value r c)
            let writes : List TaskWrite := (List.range 32).flatMap fun r =>
              (if bit 14 then [(8 * (base + fld 40 24 + 2 * r), 16, (sb r % 2 ^ 16).toNat, 0)] else [])
                ++ (List.range 32).map fun c => (8 * (base + r * pitch) + c * w, w, out r c)
            let at' (k : TaskWrite) : Option (List MovedByte) :=
              s.lieAt q.cid tlb (if bit 3 then none else some (fld 4 4, fld 8 3)) true (k.1 / 8 : Nat) ((k.2.1 + 7) / 8)
            let flagsOf (ws : List TaskWrite) : Word := ws.foldl (fun f k => f ||| k.2.2.2) 0
            (¬legal → opfmt)
            ∧ (legal → (∀ k ∈ writes, (at' k).isSome = true) →
                starts (fun t y => y.acc = x.acc ∧ t.held q.cid = s.underWrites q.cid at' writes
                  ∧ (bit 15 = false → y.amax = x.amax)
                  ∧ (bit 15 = true → let old := x.amax.get 0x4000 (fld 16 4)
                      (∀ k, k ≠ fld 16 4 → y.amax.get 0x4000 k = x.amax.get 0x4000 k)
                      ∧ (old.toNat < 2 ^ 15 → AmaxOf old ((List.range 1024).map fun c => value (c / 32) (c % 32))
                          (y.amax.get 0x4000 (fld 16 4)))))
                  (ends 0 0 (flagsOf writes) false))
            ∧ (legal → bit 3 = true → ∀ (k : Nat) (hit : TaskWrite) (f : TransFault), writes[k]? = some hit →
                (∀ v ∈ writes.take k, (at' v).isSome = true) →
                let va := hit.1 / 8 % 2 ^ 56
                va % ((hit.2.1 + 7) / 8) = 0 → cachedFor tlb storePage va true = none →
                s.walkFails (s.quadHw n).walk storePage va true f (fun c => ∃ v ∈ writes.take k, ∃ cs, at' v = some cs ∧ c ∈ cs) →
                starts (fun t y => y.acc = x.acc ∧ t.held q.cid = s.underWrites q.cid at' (writes.take k))
                  (ends 2 (match f with | .unmapped => 0x04 | .absent => 0x06 | .readOnly => 0x05)
                    (flagsOf (writes.take k)) false)))
        ∧ (task.kind = .tdapply →
            let legal : Prop := task.a.toNat / 2 ^ 57 = 0 ∧ task.b.toNat / 2 ^ 32 = 0 ∧ task.c.toNat / 2 ^ 16 = 0
            let wide := task.a.getLsbD 56
            let size := if wide then 4 else 2
            let base := task.a.toNat % 2 ^ 56
            let aligned : Prop := base % size = 0 ∧ task.b.toNat % size = 0
            let va (k : Nat) : Nat := (base + k / 32 * task.b.toNat + k % 32 * size) % 2 ^ 56
            let at' (write : Bool) (k : Nat) : Option (List MovedByte) := s.lieAt q.cid tlb none write (va k : Nat) size
            let written (n : Nat) (c : MovedByte) : Prop := ∃ k cs, k < n ∧ at' true k = some cs ∧ c ∈ cs
            let single (k : Nat) : Prop := let e := (s.freshWalk (va k)).region
              regionOk e = false ∨ e.getLsbD 3 = false
            let g (k : Nat) : Word := x.accAt tile (k / 32) (k % 32)
            let new (m : Nat → MovedByte → Byte) (k : Nat) : Nat × Word :=
              weightSum wide (l16.decode (task.c.toNat % 2 ^ 16)) (bitsOf (m k) ((at' false k).getD []) 0 (8 * size)) (g k)
            let applied (n : Nat) (m : Nat → MovedByte → Byte) (flags : Word) : Prop := m 0 = s.held q.cid
              ∧ (∀ k, k < n → m (k + 1) = withBits (m k) ((at' true k).getD []) 0 (8 * size) (new m k).1)
              ∧ flags = (List.range n).foldl (fun f k => f ||| (new m k).2) 0
            let reached (k : Nat) : Prop := (at' false k).isSome = true ∧ (at' true k).isSome = true ∧ single k
            (¬legal → opfmt)
            ∧ (legal → ¬aligned → starts (fun t y => sameBytes t ∧ y.acc = x.acc ∧ y.amax = x.amax) (ends 2 0x03 0 false))
            ∧ (legal → aligned → (∀ k, k < 1024 → reached k) → ∃ m flags, applied 1024 m flags
                ∧ starts (fun t y => y.acc = x.acc ∧ y.amax = x.amax ∧ t.held q.cid = m 1024) (ends 0 0 flags false))
            ∧ (legal → aligned → ∀ (k : Nat) (f : TransFault), k < 1024 → (∀ j, j < k → reached j) → ∃ m flags,
                applied k m flags ∧
                let stops (cause : Nat) : Prop := starts (fun t y => y.acc = x.acc ∧ t.held q.cid = m k) (ends 2 cause flags false)
                (single k → cachedFor tlb anyPage (va k) false = none →
                  s.walkFails (s.quadHw n).walk anyPage (va k) false f (written k) → stops 0x04)
                ∧ ((at' false k).isSome = true → single k → cachedFor tlb storePage (va k) true = none →
                  s.walkFails (s.quadHw n).walk storePage (va k) true f (written k) →
                    stops (match f with | .unmapped => 0x04 | .absent => 0x06 | .readOnly => 0x05))))))
  ∧ (∀ (s : State) (vas : List Nat), (∀ line, s.ownerOf line = none) → ∀ va ∈ vas,
      let e := (s.freshWalk (va / 2 ^ 23 * 2 ^ 23)).region
      (s.versions vas).1 = s ∧ (s.versions vas).2.get none (va / 2 ^ 23)
        = if regionOk e = true ∧ e.getLsbD 3 = true then some (e.getLsbD 2) else none)
  ∧ ∀ (s : State) (n va : Nat), (s.quadHw n).walk = ⟨[], []⟩ → (∀ line, s.ownerOf line = none) →
      let region := (s.freshWalk va).region
      let table (v : Bool) := s.walkWith ⟨[], []⟩ (some v) va
      (∀ write, s.weightPage n none va write = s.translateQuad n (if write then storePage else anyPage) va write)
      ∧ ∀ v : Bool, region.getLsbD 3 = true → (∃ p, (table v).out = .mapped p) →
          (table v).leafPa ≠ (table (!v)).leafPa ∧ (table (region.getLsbD 2)).leafPa = (s.freshWalk va).leafPa
          ∧ (∀ p, cachedFor (s.quadHw n).tlb (fun p => p.ver == v) va false = some p →
              s.weightPage n (some v) va false = (s, .ok p))
          ∧ (∀ p, cachedFor (s.quadHw n).tlb (fun p => p.ver == v) va false = none → (table v).out = .mapped p →
              ∃ t, s.weightPage n (some v) va false = (t, .ok p)
                ∧ ∀ a, Mem.read t.mem a = Mem.read s.mem a ||| if a = (table v).leafPa then 0x10 else 0)
          ∧ ∀ p, (table (!v)).out = .mapped p → p.writable = true →
              ∃ t, s.weightPage n (some v) va true = (t, .ok { p with dirty := true })
                ∧ (region.getLsbD 2 = v → (t.quadHw n).tlb = (s.quadHw n).tlb)
                ∧ ∀ a, Mem.read t.mem a = Mem.read s.mem a ||| if a = (table (!v)).leafPa then 0x30 else 0

/-- R177, R185 to R187, R198, R231, R232, R299, R356: a stalled task enters the table once it has room; a running task finishes,
once a peer that does not answer has been waited for, for PEERTO cycles of its quad; a finished task, or a TFENCE that is ready,
completes, posting its record where it is not quiet or has failed, and adding its signal. -/
def Claims.TasksPass : Prop :=
  (∀ (s : State) (q : QuadRef) (x : Quad) (task : Task), s.quad q = some x → x.control.wait = .entering task →
    (32 ≤ x.tasks.length → exec (.taskTableEntry q) s = .next s)
    ∧ (x.tasks.length < 32 → s.running q.cid = true → ∃ t y, exec (.taskTableEntry q) s = .next t ∧ t.quad q = some y
        ∧ y.tasks = x.tasks ++ [task] ∧ y.control = { x.control with wait := .run, pc := x.control.next }
        ∧ Only { control := Control.standing, quad := fun y => { y with tasks := [], folds := [] }
                 device := fun y => { y with quads := [] } } s t))
  ∧ (∀ (s : State) (q : QuadRef) (x : Quad) (task : Task), s.quad q = some x →
      x.tasks.find? (fun z => z.id == task.id && z.stage == .running) = some task →
      (∀ f, task.owed = some f → task.waited < s.bar0.peerto.toNat → exec (.taskFinish q task.id) s = .next s)
      ∧ (task.owed = none ∨ s.bar0.peerto.toNat ≤ task.waited → ∃ t, exec (.taskFinish q task.id) s = .next t
        ∧ t.quad q = some { x with
            tasks := x.tasks.map fun z => if z.id = task.id then { z with stage := .finished, owed := none } else z }
        ∧ (task.owed = none → Only { quad := fun y => { y with tasks := [] } } s t)
        ∧ ∀ va dev, task.owed = some (va, dev) →
            (∃ late ∈ t.reqs, late.id = s.nextId ∧ late.stage = .timedOut (.quad (s.quadOf q)))
            ∧ ∃ b, t.blackbox.getLast? = some b ∧ b.kind = 4 ∧ b.cause = 0x0C
                ∧ b.unit = BitVec.ofNat 16 (1536 + s.quadOf q) ∧ b.detail = BitVec.ofNat 128 (va + 2 ^ 64 * (dev % 2 ^ 14))))
  ∧ ∀ (s : State) (q : QuadRef) (x : Quad) (task : Task), s.quad q = some x →
      x.tasks.find? (fun z => z.id == task.id) = some task → s.mayEnd q.cid = true →
      let fence := task.kind = .tfence ∧ x.taskReady task = true
      let record : DWord := if task.kind = .tfence then BitVec.ofNat 64 (task.field.tag.toNat * 2 ^ 16 + 6 * 2 ^ 8
        + task.field.tile.toNat) else task.record
      let post : Prop := task.field.quiet = false ∨ record.toNat / 2 ^ 12 % 16 ≠ 0
      (task.stage = .finished ∨ fence → (post → x.events.length < 64) → ∃ t y, exec (.taskComplete q task.id) s = .next t
        ∧ t.quad q = some y ∧ y.tasks = x.tasks.filter (fun z => z.id != task.id)
        ∧ (post → y.events = x.events ++ [record]) ∧ (¬post → y.events = x.events)
        ∧ (x.control.wait = .halted → post → y.control.wait = .run ∧ y.control.pc = x.control.next)
        ∧ ∀ tok inc, task.sig = some (tok, inc) → t.token q tok = s.token q tok + inc)
      ∧ (task.stage = .finished ∨ fence → post → 64 ≤ x.events.length → exec (.taskComplete q task.id) s = .next s)
      ∧ (task.stage ≠ .finished → ¬fence → exec (.taskComplete q task.id) s = .next s)

/-- R177, R181 to R187, R218, R221 to R232, R235 to R237, R299: tile tasks, from their entry to their completion. What its
parts name as the model's choice: log 8, log 28, log 30, log 58. -/
def Obligations.TileSteps : Prop := Claims.TasksAct ∧ Claims.TasksPass

/-! ### The arithmetic of hashed grids (R324 to R329) -/

namespace Sys2Proof.Machine

open Sys2Proof

/-- A log value in node units: its field times 8 (R224). -/
def inNodes : LogVal → LogVal
  | .fin s e => .fin s (8 * e)
  | v => v

/-- The one rounding of a tree's result to L16: zero, NaN and Inf stay, and a field is divided by 8, to nearest, ties to even
(R329). -/
def Rounded16 (x : LogVal) (r : LogVal × Word) : Prop :=
  (∀ s f, x = .fin s f → ∃ q, NearestEven f 3 q ∧ Finish l16 false s q r)
  ∧ ((∀ s f, x ≠ .fin s f) → r = (x, 0))

end Sys2Proof.Machine

/-- R326 to R329: the corner coordinates of a level are whole parts of coordinate times resolution, one more where the corner's bit
is set, and lie in 0 to N; the index is dense where the level's corners fit its table, else the hash; the weight is the sum of the
correctly rounded logarithms of the fractions; and each result of HGLD is the tree of the exact products of weight and feature over
the level's corners, rounded once to L16, with the flags of the products, the nodes and the roundings. -/
def Obligations.HashedGridArithmetic : Prop :=
  (∀ (d : BitVec 512) (l k : Nat) (xs : List Word), xs.length = hgD d → hgN d l ≠ 0 →
    let N := hgN d l
    let D := hgD d
    let t := hgT d l
    let x (i : Nat) : Nat := (xs.getD i 0).toNat
    let c (i : Nat) : Nat := x i * N / 2 ^ 32 + if k.testBit i then 1 else 0
    let v (i : Nat) : Nat := if k.testBit i then x i * N % 2 ^ 32 else 2 ^ 32 - x i * N % 2 ^ 32
    let cs := hgCorner d l k xs
    (1 ≤ D ∧ D ≤ 8 ∧ cs.length = D ∧ ∀ i, i < D → cs[i]? = some (c i) ∧ c i ≤ N)
    ∧ ((N + 1) ^ D ≤ 2 ^ t → hgIndex d l cs = ((List.range D).map fun i => c i * (N + 1) ^ i).sum)
    ∧ (2 ^ t < (N + 1) ^ D →
        let K : List Word := [0x00000001, 0x9C4A6E35, 0x3D1B58C7, 0xB5E29A4F, 0x6A9F03D1, 0xE34C7B29, 0x1F87C6AB, 0xC2D5E40D]
        let h : Word := (List.range D).foldl (fun h i => h ^^^ BitVec.ofNat 32 (c i) * K.getD i 0) 0
        hgIndex d l cs = (((h ^^^ (h >>> 16)) * 0x6B43A9B5) >>> (32 - t)).toNat)
    ∧ hgIndex d l cs < 2 ^ t
    ∧ ((∃ i, i < D ∧ v i ≤ 1) → hgWeight d l k xs = .zero)
    ∧ ((∀ i, i < D → 1 < v i) → ∃ f : Nat → Int,
        (∀ i, i < D → (2 : ℚ) ^ (2 * f i - 1) < ((v i : ℚ) / 2 ^ 32) ^ 1024 ∧ ((v i : ℚ) / 2 ^ 32) ^ 1024 < (2 : ℚ) ^ (2 * f i + 1))
        ∧ let w := ((List.range D).map f).sum
          hgWeight d l k xs = if w < -16383 then .zero else .fin false w))
  ∧ ∀ (d : BitVec 512) (xs : List Word) (entries : List (List Byte)),
    hgFC d ≠ 0 → entries.length = hgLevels d * 2 ^ hgD d → (∀ e ∈ entries, e.length = 2 * hgF d) →
    let feature (l j k : Nat) : LogVal :=
      l16.decode (spelt (fun i => (entries.getD (l * 2 ^ hgD d + k) []).getD i 0) (2 * j) 2)
    let product (l j k : Nat) : LogVal × Word := productOf (inNodes (hgWeight d l k xs)) (inNodes (feature l j k))
    let tree (l j : Nat) : LogVal × Word := treeOf (hgD d) fun k => (product l j k).1
    let res := hgResults d xs entries
    let half (n : Nat) : LogVal := logAt l16 (16 * (n % 2)) (res.1.getD (n / 2) 0)
    res.1.length = hgLevels d * (hgF d / 2)
    ∧ ∃ r : Nat → Nat → LogVal × Word,
        (∀ l j, l < hgLevels d → j < hgF d → Rounded16 (tree l j).1 (r l j) ∧ half (l * hgF d + j) = (r l j).1)
        ∧ ∀ b, res.2.getLsbD b = true ↔ ∃ l j, l < hgLevels d ∧ j < hgF d ∧ ((r l j).2.getLsbD b = true
            ∨ (tree l j).2.getLsbD b = true ∨ ∃ k, k < 2 ^ hgD d ∧ (product l j k).2.getLsbD b = true)

/-! ### Home slices: batches, logs, waves -/

namespace Sys2Proof.Machine

open Sys2Proof

/-- Whether a slice has room for a batch of a line behind the batches that came before it: the line has an entry with fewer than
32 requests, or there is a free entry of 64, and no earlier batch waits for the same (R313). -/
def Slice.roomFor (x : Slice) (earlier : List Batch) (line : Nat) : Prop :=
  (∀ q, x.queues.find line = some q → q.length < 32 ∧ ∀ y ∈ earlier, y.line ≠ line)
  ∧ (x.queues.find line = none → x.queues.length < 64 ∧ ∀ y ∈ earlier, x.queues.find y.line ≠ none)

/-- Whether a slice can take a batch for a line: it has room, and no batch of the line before it has been admitted in part
(R303, R313, R315). -/
def Slice.takes (x : Slice) (before earlier : List Batch) (line : Nat) : Prop :=
  (∀ y ∈ before, y.line = line → y.begun = false) ∧ x.roomFor earlier line

/-- Whether the gate holds a batch (R342). -/
def State.holdsBatch (s : State) (b : Batch) : Bool :=
  match (b.reqs.head?.bind fun p => s.req p.1).bind fun r => (s.gridIdOf r).bind s.grid with
  | some g => g.logMode == 2
  | none => false

/-- Reading n chunks of a log from an address, f i after the first i: each is a load of its own, which marks the leaf entry of
its page, and recalls its line (R280, R288, R343). -/
structure ReadsLog (s : State) (base n : Nat) (t : State) (f : Nat → State) : Prop where
  start : f 0 = s
  last : f n = t
  each : ∀ i, i < n → ∀ u, (∀ e, (f i).translateNode (base + 16 * i) false = (u, .error e) → f (i + 1) = u)
    ∧ ∀ p, (f i).translateNode (base + 16 * i) false = (u, .ok p) →
      f (i + 1) = if p.peer = none then u.recall (lineOf (p.pa (base + 16 * i))) else u

/-- The first request of a batch, in queue order, that the words at the head of the object's log name (R342). -/
def State.namedBy (s : State) (ws : DWord × DWord) (admitted : Nat) (b : Batch) : Option (Nat × Nat) :=
  b.reqs.find? fun p => (((s.req p.1).bind s.requester).map fun who => matchesHead ws admitted who).getD false

/-- One request of a waiting batch has entered its object's queue, and the gate has moved on (R342, R345). -/
structure Admitted (gid slice count : Nat) (b : Batch) (p : Nat × Nat) (s u : State) : Prop where
  queue : (u.sliceAt slice).queues.find b.line
    = some (((s.sliceAt slice).queues.find b.line).getD [] ++ [⟨p.1, p.2, b.id, b.arrived⟩])
  waiting : let left := b.reqs.filter fun q => q != p
    (u.sliceAt slice).waiting = if left = [] then (s.sliceAt slice).waiting.filter fun y => y.id != b.id
      else (s.sliceAt slice).waiting.map fun y => if y.id = b.id then { y with reqs := left, begun := true } else y
  gate : let old := ((s.sliceAt slice).log gid).gates.get ⟨0, 0, 0⟩ b.line
    ((u.sliceAt slice).log gid).gates.get ⟨0, 0, 0⟩ b.line
      = if old.admitted + 1 = count then ⟨old.chunks + 1, 0, 0⟩ else ⟨old.chunks, old.admitted + 1, 0⟩

/-- The gate admits the requests of a batch that its object's log names next, until the log names none of those that are left
(R342). -/
inductive GateRun (gid : Nat) (d : DetBlock) (slice : Nat) : State → Batch → State → Prop where
  | none (s : State) (b : Batch) : b.reqs = [] → GateRun gid d slice s b s
  | stop (s : State) (b : Batch) (off : Nat) (head : Option (DWord × DWord)) (ovf : Bool) :
      s.gateHead gid d slice b.line = (off, head, ovf) →
      (∀ ws, head = some ws → s.namedBy ws (((s.sliceAt slice).log gid).gates.get ⟨0, 0, 0⟩ b.line).admitted b = .none) →
      GateRun gid d slice s b (s.logSeen d slice off)
  | next (s u t : State) (b : Batch) (off : Nat) (ws : DWord × DWord) (ovf : Bool) (p : Nat × Nat) :
      s.gateHead gid d slice b.line = (off, some ws, ovf) →
      s.namedBy ws (((s.sliceAt slice).log gid).gates.get ⟨0, 0, 0⟩ b.line).admitted b = some p →
      Admitted gid slice (field ws.1 55 48) b p s u →
      GateRun gid d slice u { b with reqs := b.reqs.filter fun q => q != p } t → GateRun gid d slice s b t

/-- The operation, the type and the operands that a request names to the home, and whether it takes a reply: those of a home
atomic, or of a built-in method by R308's table. -/
def askedOf : ReqKind → Option (Nat × Nat × Nat × Nat × Bool)
  | .atomic op ty d b c => some (op, ty, b.toNat, c.toNat, d.isSome)
  | .comb m d b c =>
    if m < 12 then some (m, 0, b.toNat, c.toNat, d.isSome)
    else if m = 12 then some (0, 1, b.toNat + 2 ^ 32 * c.toNat, 0, d.isSome)
    else if m = 13 then some (7, 1, b.toNat + 2 ^ 32 * c.toNat, 0, d.isSome)
    else if m = 14 then some (0, 2, b.toNat, c.toNat, d.isSome)
    else if m = 15 then some (0, 3, b.toNat, c.toNat, d.isSome)
    else none
  | _ => none

/-- G9add of an exact product to a half: a zero product leaves it, and sets no flag (R330). -/
def halfPlus (m : Nat) (p : LogVal) : Nat × Word :=
  match p with
  | .zero => (m % 2 ^ 16, 0)
  | p => let r := logAdd l16 false (l16.decode (m % 2 ^ 16)) p; (l16.encode r.1 % 2 ^ 16, r.2)

/-- What one request of a built-in wave does to its word: its width, the word before, the word after, and the flags
(R146, R308, R330). -/
def servedBy (k : ReqKind) (i pa : Nat) (m : Nat → Byte) : Nat × Nat × Nat × Word :=
  match k, askedOf k with
  | .hgscat ps _, _ =>
    let old := spelt m pa 4
    let p := ps.getD i (.zero, .zero)
    let lo := halfPlus old p.1
    let hi := halfPlus (old / 2 ^ 16) p.2
    (4, old, lo.1 + 2 ^ 16 * hi.1, lo.2 ||| hi.2)
  | _, some (op, ty, b, c, _) =>
    let n := if ty = 1 then 8 else 4
    let old := spelt m pa n
    let new := atomicOf op ty old b c
    (n, old, new.1, new.2)
  | _, none => (0, 0, 0, 0)

/-- Memory under one request of a built-in wave. -/
def afterOne (k : ReqKind) (i pa : Nat) (m : Nat → Byte) : Nat → Byte :=
  let x := servedBy k i pa m
  fun a => if pa ≤ a ∧ a < pa + x.1 then BitVec.ofNat 8 (x.2.2.1 / 256 ^ (a - pa)) else m a

/-- No lane waits in EVSEND, whose end makes a record. -/
def State.noEventWait (s : State) : Prop := ∀ l x h p c, s.lane l = some x → x.wait ≠ .event h p c

/-- A lane whose request was lost with nothing to learn of it. -/
def Req.lostQuietly (r : Req) : Bool :=
  match r.owner, r.kind with
  | .lane _, .comb _ none _ _ => true
  | _, _ => false

end Sys2Proof.Machine

/-- R303, R312 to R315, R342, R343, R345, R356: BATCH_ACCEPT moves a batch from its core into its object's queue, or lets it
wait at the slice, and takes a waiting one in its turn; GATE_ADMIT admits the requests of a waiting batch that the object's log
names next and moves the gate on, and behind an overflow terminator admits in arrival order; a batch that the gate has not
begun finds its room behind the batches that arrived earlier; the reads of the log mark their pages as plain loads do;
GATE_DIVERGENCE rejects what the gate holds of an object whose timer has run out, sets DIV and UNGATED, and records it. That the
gate admits in one step the requests of one batch that the log names one after the other is the model's choice (log 38). -/
def Obligations.SlicesAdmit : Prop :=
  (∀ (s : State) (batch : Nat) (b : Batch), s.waitingAt batch = none → s.leavingBatch batch = some b →
    (∀ p ∈ b.reqs, ∃ r, s.req p.1 = some r) →
    let x := s.sliceAt b.slice
    let earlier := x.waiting.filter fun y => !s.holdsBatch y
    let sent (t : State) : Prop := ∀ p ∈ b.reqs, ∀ r, t.req p.1 = some r → r.stage = .atHome ∧ p.2 ∈ r.acks
    (s.holdsBatch b = false → x.takes x.waiting earlier b.line → ∃ t, exec (.batchAccept batch) s = .next t ∧ sent t
      ∧ (t.sliceAt b.slice).queues.find b.line
          = some ((x.queues.find b.line).getD [] ++ b.reqs.map fun p => ⟨p.1, p.2, b.id, b.arrived⟩)
      ∧ (t.sliceAt b.slice).waiting = x.waiting)
    ∧ (s.holdsBatch b = true ∨ ¬x.takes x.waiting earlier b.line → ∃ t, exec (.batchAccept batch) s = .next t ∧ sent t
        ∧ (t.sliceAt b.slice).waiting = x.waiting ++ [b] ∧ (t.sliceAt b.slice).queues = x.queues
        ∧ ∀ a, Mem.read t.mem a = Mem.read s.mem a))
  ∧ (∀ (s : State) (batch slice : Nat) (b : Batch), s.waitingAt batch = some (slice, b) → b.slice = slice →
      let x := s.sliceAt slice
      let before := x.waiting.takeWhile fun y => y.id != batch
      let earlier := before.filter fun y => !s.holdsBatch y
      (s.holdsBatch b = false → x.takes before earlier b.line → ∃ t, exec (.batchAccept batch) s = .next t
        ∧ (t.sliceAt slice).queues.find b.line
            = some ((x.queues.find b.line).getD [] ++ b.reqs.map fun p => ⟨p.1, p.2, b.id, b.arrived⟩)
        ∧ (t.sliceAt slice).waiting = x.waiting.filter fun y => y.id != batch)
      ∧ (s.holdsBatch b = true ∨ ¬x.takes before earlier b.line → exec (.batchAccept batch) s = .next s))
  ∧ (∀ (s : State) (batch slice gid off : Nat) (b : Batch) (g : Grid) (d : DetBlock) (head : Option (DWord × DWord))
      (ovf : Bool), s.waitingAt batch = some (slice, b) → b.slice = slice → b.id = batch →
      (b.reqs.head?.bind fun p => s.req p.1).bind s.gridIdOf = some gid → s.grid gid = some g → g.logMode = 2 →
      g.launch.det = some d → s.gateHead gid d slice b.line = (off, head, ovf) →
      let x := s.sliceAt slice
      let room : Prop := b.begun = true
        ∨ x.roomFor ((x.waiting.takeWhile fun y => y.id != batch).filter fun y => !s.holdsBatch y) b.line
      let looked : Prop := exec (.gateAdmit batch) s = .next (s.logSeen d slice off)
      (¬room → looked)
      ∧ (ovf = false ∨ head ≠ none → room → ∃ t, exec (.gateAdmit batch) s = .next t ∧ GateRun gid d slice s b t)
      ∧ (head = none → ovf = true → room →
          (¬(∃ y, (x.waiting.find? fun y => y.line == b.line) = some y ∧ y.id = batch) → looked)
          ∧ ((∃ before after, x.waiting = before ++ b :: after ∧ ∀ y ∈ before, y.line ≠ b.line) →
              ∃ t g', exec (.gateAdmit batch) s = .next t
                ∧ (t.sliceAt slice).queues.find b.line
                    = some ((x.queues.find b.line).getD [] ++ b.reqs.map fun p => ⟨p.1, p.2, b.id, b.arrived⟩)
                ∧ (t.sliceAt slice).waiting = x.waiting.filter (fun y => y.id != batch)
                ∧ t.grid gid = some g' ∧ g'.rrstat = g.rrstat ||| 6 ∧ slice ∈ g'.overflowed)))
  ∧ (∀ (s : State) (d : DetBlock) (slice off : Nat), ∃ f,
      ReadsLog s (d.logBase + d.area * slice) ((off - d.area * slice) / 16 + 1) (s.logSeen d slice off) f)
  ∧ ∀ (s : State) (slice line gid : Nat) (g : Grid) (d : DetBlock),
      s.grids.find? (fun p => s.gateStuck slice p.1 line
        && ((p.2.launch.det.map fun d : DetBlock =>
          decide ((if d.gateLimit = 0 then 1300000 else d.gateLimit)
            ≤ (((s.sliceAt slice).log p.1).gates.get ⟨0, 0, 0⟩ line).waited)).getD false)) = some (gid, g) →
      s.grid gid = some g → g.launch.det = some d →
      let mine (b : Batch) : Bool := b.line == line && ((b.reqs.head?.bind fun p => s.req p.1).bind s.gridIdOf) == some gid
      let held := ((s.sliceAt slice).waiting.filter mine).flatMap (·.reqs)
      let head := s.gateHead gid d slice line
      let admitted := (((s.sliceAt slice).log gid).gates.get ⟨0, 0, 0⟩ line).admitted
      ∃ t g', exec (.gateDivergence slice line) s = .next t ∧ t.grid gid = some g' ∧ g'.rrstat = g.rrstat ||| 5
        ∧ (t.sliceAt slice).waiting = (s.sliceAt slice).waiting.filter (fun b => !mine b)
        ∧ (s.noEventWait → ∃ k, t.blackbox.getLast? = some k ∧ k.seq = s.bbSeq + 1 ∧ k.kind = 8 ∧ k.cause = 0x0D
            ∧ k.unit = BitVec.ofNat 16 slice)
        ∧ (∀ a, Mem.read t.mem a = Mem.read (s.logSeen d slice head.1).mem a)
        ∧ ∀ p r l, p ∈ held → (held.map (·.1)).Nodup → s.req p.1 = some r → r.kind.isScatter = false → r.owner = .lane l →
            (∀ q ∈ held, ∀ k, s.req q.1 = some k → k.kind.queued = true) → (∀ q ∈ s.reqs, q.op = r.op → q.owner = .lane l → q = r) →
            (∀ x op k, s.group l.gr = some x → op ∈ x.opens → op.id = r.op → k ∈ op.parts → k.lane = l.lane → k.st = .waiting) →
            RequestFails s t r l 0x0D (BitVec.ofNat 64 (r.vas.getD p.2 0))
              (BitVec.ofNat 64 (head.1 + (if head.2.1 = none then 0 else admitted) * 2 ^ 48))

/-- R147, R148, R152 to R156, R160, R280, R308 to R310, R315 to R320, R322, R330: WAVE_FORM takes the oldest run of requests, a
user wave's lanes starting with their operands and their requester; HOME_ATOMIC_PERFORM performs a built-in wave in queue
order, whoever asked, or an atomic in a line that its L1 owns or is granted; WAVE_COMMIT writes a user wave's buffer and
replies; WAVE_FAULT discards them; COMB_REPLY brings the reply, or the failure, to its lane. That a user wave begins again where
its object has changed since it began is the model's choice (log 68), as are that nothing comes between two parts of a batch
(log 69) and that g0 and g1 hold the byte address of the line (log 92). -/
def Obligations.WavesPerform : Prop :=
  (∀ (s : State) (slice line : Nat) (q rs : List QueuedReq) (key : WaveKey), (s.sliceAt slice).wave = none →
    oldestQueue (s.sliceAt slice).queues = some (line, q) → (s.sliceAt slice).queues.find line = some q →
    s.waveRun q = some (key, rs) →
    let forms (s' : State) (entry : Nat) (t : State) (w : Wave) : Prop := (t.sliceAt slice).wave = some w
      ∧ w.line = line ∧ w.key = key ∧ w.reqs = rs ∧ w.buffer = [] ∧ w.issues = 0 ∧ w.entry = BitVec.ofNat 56 entry
      ∧ w.object = (List.range 128).map (fun i => Mem.read t.mem (128 * line + i))
      ∧ (s'.ownerOf line = none → ∀ a, Mem.read t.mem a = Mem.read s'.mem a)
      ∧ (t.sliceAt slice).queues.find line = (if q.length ≤ rs.length then none else some (q.drop rs.length))
    (∀ op ty, key = .builtin op ty → ∃ t w, exec (.waveForm slice) s = .next t ∧ forms s 0 t w ∧ w.stop = none)
    ∧ ∀ m gid entry len, key = .user m gid → ((s.grid gid).bind fun x => x.launch.method m).getD (0, 0) = (entry, len) →
        let lanes (t : State) : Prop := (∀ k ∈ rs, ∃ r, s.req k.req = some r) →
          t.reg32 (.wave slice 0) 192 = BitVec.ofNat 32 (128 * line)
          ∧ t.reg32 (.wave slice 0) 193 = BitVec.ofNat 32 (128 * line / 2 ^ 32)
          ∧ t.reg32 (.wave slice 0) 194 = BitVec.ofNat 32 rs.length ∧ t.reg32 (.wave slice 0) 195 = BitVec.ofNat 32 m
          ∧ ∀ j k r b c l, rs[j]? = some k → s.req k.req = some r → (∃ n dst, r.kind = .comb n dst b c) → r.owner = .lane l →
            t.pcOf (.wave slice j) = BitVec.ofNat 56 entry
            ∧ t.reg32 (.wave slice j) 0 = b ∧ t.reg32 (.wave slice j) 1 = c ∧ t.reg32 (.wave slice j) 3 = 0
            ∧ t.reg32 (.wave slice j) 2 = BitVec.ofNat 32 (l.lane + 32 * l.group + 1024 * s.coreOf l.cid l.team)
        match s.methodCode slice gid entry len with
        | (s', .words ws) => ∃ t w, exec (.waveForm slice) s = .next t ∧ forms s' entry t w ∧ lanes t ∧ w.stop = none
            ∧ w.code = bytesOfWords ws
        | (s', .fault _ _ _) => ∃ t w, exec (.waveForm slice) s = .next t ∧ forms s' entry t w ∧ w.stop = some .fetch
        | (s', .owed target va) => exec (.waveForm slice) s
            = .next (s'.askWord (.cluster (s'.waveCluster rs)) (.slice slice) target va))
  ∧ (∀ (s : State) (slice : Nat) (w : Wave), (s.sliceAt slice).wave = some w → w.stop = none → 256 ≤ w.issues →
      (∃ l ∈ w.lanes, l.ended = false ∧ l.removed = false) →
      exec (.waveBudgetExceeded slice) s = .next (s.modWave slice fun x => { x with stop := some .budget }))
  ∧ (∀ (s : State) (slice op ty : Nat) (w : Wave) (rq : QueuedReq → Req) (pa : QueuedReq → Nat),
      (s.sliceAt slice).wave = some w → w.key = .builtin op ty → s.ownerOf w.line = none →
      (∀ q ∈ w.reqs, s.req q.req = some (rq q) ∧ (rq q).pas[q.idx]? = some (pa q)
        ∧ ((∃ ps f, (rq q).kind = .hgscat ps f) ∨ ∃ o z b c reply, askedOf (rq q).kind = some (o, z, b, c, reply)
            ∧ b < 2 ^ (if z = 1 then 64 else 32) ∧ c < 2 ^ (if z = 1 then 64 else 32))) →
      (∀ q ∈ w.reqs, ∀ k ∈ w.reqs, q.req = k.req → q = k ∨ ((rq q).kind.isScatter = true ∧ ∃ l, (rq q).owner = .lane l)) →
      w.reqs.Nodup →
      let times (id : Nat) : Nat := w.reqs.countP fun k => k.req == id
      (∀ q ∈ w.reqs, ∀ l, (rq q).owner = .lane l → (rq q).kind.isScatter = true → times q.req ≤ (rq q).left) →
      let update (m : Nat → Byte) (q : QueuedReq) : Nat → Byte := afterOne (rq q).kind q.idx (pa q) m
      let at' (j : Nat) : Nat → Byte := (w.reqs.take j).foldl update (Mem.read s.mem)
      let served (j : Nat) (q : QueuedReq) : Nat × Nat × Nat × Word := servedBy (rq q).kind q.idx (pa q) (at' j)
      let mute (k : ReqKind) : Prop := ∃ o z b c, askedOf k = some (o, z, b, c, false)
      ∃ t, exec (.homeAtomicPerform (.home slice)) s = .next t ∧ (t.sliceAt slice).wave = none
        ∧ (∀ a, Mem.read t.mem a = w.reqs.foldl update (Mem.read s.mem) a)
        ∧ (∀ k, w.reqs.getLast? = some k →
            let more : Prop := (∃ z ∈ ((t.sliceAt slice).queues.find w.line).getD [], z.batch = k.batch)
              ∨ ∃ y ∈ (t.sliceAt slice).waiting, y.id = k.batch ∧ y.begun = true
            (more → (t.sliceAt slice).split.find w.line = some k.batch)
            ∧ (¬more → (s.sliceAt slice).split.find w.line = none → (t.sliceAt slice).split.find w.line = none))
        ∧ (∀ j q, w.reqs[j]? = some q →
            (∀ l, (rq q).owner = .lane l → mute (rq q).kind → t.req q.req = none)
            ∧ (∀ l o z b c, (rq q).owner = .lane l → askedOf (rq q).kind = some (o, z, b, c, true) → ∃ r, t.req q.req = some r
                ∧ r.stage = .replied (BitVec.ofNat 64 (served j q).2.1) (served j q).2.2.2)
            ∧ (∀ dev seq, (rq q).owner = .peer dev seq → t.req q.req = none
                ∧ ⟨dev, seq, true, (List.range 8).map fun i => BitVec.ofNat 8 ((served j q).2.1 / 256 ^ i)⟩ ∈ t.peerReplies)
            ∧ (∀ n, (rq q).owner = .node n → (rq q).kind.isScatter = false → t.req q.req = none
                ∧ ∀ y, s.node n = some y → y.stage = .running → t.node n = some { y with stage := .ending 0x02 none })
            ∧ ∀ l ps f, (rq q).owner = .lane l → (rq q).kind = .hgscat ps f → (rq q).fail = none →
                (times q.req < (rq q).left → ∃ r, t.req q.req = some r ∧ r.left = (rq q).left - times q.req)
                ∧ (times q.req = (rq q).left → t.req q.req = none))
        ∧ ∀ l, (s.lane l).isSome = true → (∀ q ∈ w.reqs, (rq q).fail = none) → ∀ i, i < 32 →
            ((t.lswOf (.lane l)).getLsbD i = true ↔ (s.lswOf (.lane l)).getLsbD i = true
              ∨ ∃ (j : Nat) (q : QueuedReq), w.reqs[j]? = some q ∧ (rq q).owner = .lane l
                ∧ (((mute (rq q).kind ∨ (rq q).kind.isScatter = true) ∧ ((served j q).2.2.2).getLsbD i = true)
                  ∨ ∃ ps f, (rq q).kind = .hgscat ps f ∧ (rq q).left ≤ times q.req ∧ f.getLsbD i = true)))
  ∧ (∀ (s : State) (id op ty pa : Nat) (r : Req) (l : LaneRef) (dst : Code) (b c : DWord), s.req id = some r →
      r.kind = .atomic op ty (some dst) b c → r.owner = .lane l → r.pas = [pa] →
      let line := lineOf pa
      let core := s.l1Of l.cid l.team line
      let n := if ty = 1 then 8 else 4
      (∀ q ∈ s.reqs, q.id = id ∨ q.issue = r.issue → q = r) → s.reqs.Nodup → r.stage = .ready → r.cls = .normal → r.noL1 = false →
      r.peer = none → inDevice pa = true →
      (∀ g, s.gridOf l.cid = some g → g.launch.rrmode = 0) → s.mayPerform r = true → s.relDrained r = true →
      s.ownWritesDone r = true → s.mayOwn core line = true →
      pa % n = 0 → b.toNat < 2 ^ (8 * n) → c.toNat < 2 ^ (8 * n) →
      let done (old : Nat) (t : State) (y : L1Line) : Prop :=
        (∀ a, Mem.read t.mem a = Mem.read s.mem a) ∧ (t.core core).l1.find line = some y
          ∧ spelt y.byteAt pa n = (atomicOf op ty old b.toNat c.toNat).1
          ∧ ∃ r', t.req id = some r' ∧ r'.stage = .replied (BitVec.ofNat 64 old) (atomicOf op ty old b.toNat c.toNat).2
      (∀ x, s.ownerOf line = some core → (s.core core).l1.find line = some x → x.bytes.length = 128 →
        ∃ t y, exec (.homeAtomicPerform (.l1 id)) s = .next t ∧ done (spelt x.byteAt pa n) t y)
      ∧ (s.ownerOf line = none → ∃ t y, exec (.homeAtomicPerform (.l1 id)) s = .next t ∧ done (spelt (Mem.read s.mem) pa n) t y
          ∧ t.ownerOf line = some core
          ∧ ∀ i, i < 128 → (128 * line + i < pa ∨ pa + n ≤ 128 * line + i) →
              y.bytes[i]? = some (Mem.read s.mem (128 * line + i))))
  ∧ (∀ (s : State) (slice m gid : Nat) (w : Wave), (s.sliceAt slice).wave = some w → w.key = .user m gid → w.stop = none →
      (∀ l ∈ w.lanes, l.ended = true ∨ l.removed = true) → s.ownerOf w.line = none →
      let present := (List.range 128).map fun i => Mem.read s.mem (128 * w.line + i)
      (w.object = present → (w.buffer.map (·.1)).Nodup → (w.reqs.map (·.req)).Nodup →
        (∀ q ∈ w.reqs, ∃ r l, s.req q.req = some r ∧ r.owner = .lane l) → w.lanes.length = w.reqs.length →
        ∃ t, exec (.waveCommit slice) s = .next t ∧ (t.sliceAt slice).wave = none
          ∧ (∀ a, Mem.read t.mem a = if 128 * w.line ≤ a then (w.buffer.find (a - 128 * w.line)).getD (Mem.read s.mem a)
              else Mem.read s.mem a)
          ∧ (t.sliceAt slice).lost = (s.sliceAt slice).lost + BitVec.ofNat 64 ((List.zip w.reqs w.lanes).countP fun p =>
              p.2.removed && ((s.req p.1.req).map Req.lostQuietly).getD false)
          ∧ ∀ (j : Nat) (q : QueuedReq) (y : WaveLane) (r : Req) (l : LaneRef) (dst : Option Code) (b c : Word),
              w.reqs[j]? = some q → w.lanes[j]? = some y → s.req q.req = some r → r.owner = .lane l → r.kind = .comb m dst b c →
              (dst = none → t.req q.req = none
                ∧ (y.removed = false → (s.lane l).isSome = true → t.lswOf (.lane l) &&& y.lsw = y.lsw))
              ∧ ∀ d, dst = some d → ∃ r', t.req q.req = some r' ∧ r'.stage = if y.removed then .lost false else .replied y.reply y.lsw)
      ∧ (w.object ≠ present → ∃ t w', exec (.waveCommit slice) s = .next t ∧ (t.sliceAt slice).wave = some w'
          ∧ (∀ a, Mem.read t.mem a = Mem.read s.mem a)
          ∧ w'.line = w.line ∧ w'.key = w.key ∧ w'.reqs = w.reqs ∧ w'.entry = w.entry ∧ w'.code = w.code ∧ w'.object = present
          ∧ w'.buffer = [] ∧ w'.issues = 0 ∧ w'.stop = none
          ∧ ∀ l ∈ w'.lanes, l.pc = w.entry ∧ l.ended = false ∧ l.removed = false ∧ l.stored = false ∧ l.reply = 0 ∧ l.lsw = 0))
  ∧ (∀ (s : State) (slice : Nat) (w : Wave) (why : WaveStop), (s.sliceAt slice).wave = some w → w.stop = some why →
      (w.reqs.map (·.req)).Nodup → w.reqs.length ≤ 32 → ∃ t, exec (.waveFault slice) s = .next t ∧ (t.sliceAt slice).wave = none
        ∧ (∀ a, Mem.read t.mem a = Mem.read s.mem a)
        ∧ (s.noEventWait → ∃ k ∈ t.blackbox, k.seq = s.bbSeq + 1 ∧ k.kind = 7 ∧ k.cause = 0x0A ∧ k.unit = BitVec.ofNat 16 slice)
        ∧ (∀ q ∈ w.reqs, ∀ r l m d b c, s.req q.req = some r → r.owner = .lane l → r.kind = .comb m (some d) b c →
            ∃ r', t.req q.req = some r' ∧ r'.stage = .lost true)
        ∧ (∀ q ∈ w.reqs, ∀ r l m b c, s.req q.req = some r → r.owner = .lane l → r.kind = .comb m none b c →
            t.req q.req = none)
        ∧ (t.sliceAt slice).lost.toNat = ((s.sliceAt slice).lost.toNat + (w.reqs.filter fun q =>
            (s.req q.req).any Req.lostQuietly).length) % 2 ^ 64)
  ∧ ∀ (s : State) (id m : Nat) (r : Req) (l : LaneRef) (d : Code) (b c : Word), s.req id = some r → r.owner = .lane l →
      r.kind = .comb m (some d) b c →
      (∀ x f, r.stage = .replied x f → s.canDeliver r = true → (s.lane l).isSome = true → s.noDigestWait → d.toNat + 2 ≤ 192 →
        ∃ t, exec (.combReply id) s = .next t ∧ Returns s t r l 8 false d (fun i => BitVec.ofNat 8 (x.toNat / 256 ^ i)) f)
      ∧ ∀ wave, r.stage = .lost wave → ∃ t, exec (.combReply id) s = .next t
          ∧ RequestFails s t r l (if wave then 0x0A else 0x09) (BitVec.ofNat 64 (r.vas.head?.getD 0)) 0

/-! ### Task graphs (R247 to R252, R305, R334, R351) -/

namespace Sys2Proof.Machine

open Sys2Proof

/-- The command processor's record of one node changes as f says; the others stay. -/
def Moves (n : NodeRef) (f : Node → Node) (s t : State) : Prop :=
  t.node n = (s.node n).map f ∧ ∀ m, m ≠ n → t.node m = s.node m

/-- A node's effect is over: it is about to end with a status and a chosen successor. -/
def Ends (n : NodeRef) (status : Nat) (chosen : Option Nat) (s t : State) : Prop :=
  Moves n (fun y => { y with stage := .ending status chosen }) s t

/-- Every byte of memory reads as before. -/
def SameMemory (s t : State) : Prop := ∀ a, Mem.read t.mem a = Mem.read s.mem a

/-- The black box's last record is of a graph node's transition: status and address (R356). -/
def Boxed (t : State) (status addr : Nat) : Prop :=
  ∃ b, t.blackbox.getLast? = some b ∧ b.kind = 5 ∧ b.cause = BitVec.ofNat 8 status ∧ b.detail = BitVec.ofNat 128 addr

/-- A status stands in the node's STATUS, where the device's tables, as s has them, let its page be written. -/
def StatusStands (s t : State) (addr status : Nat) : Prop :=
  ∀ p s', s.translateNode ((addr + 4) % 2 ^ 56) true = (s', .ok p) → p.peer = none →
    t.homeNat (p.pa ((addr + 4) % 2 ^ 56)) 4 = status

/-- The slot of a node. -/
def State.slotOf (s : State) (n : NodeRef) : Option Slot := s.slots[n.slot.val]?

/-- A graph event: payload, code, whether of a node, and the slot (R352). -/
def graphEntry (n : NodeRef) (payload code : Nat) (node : Bool) : HostEvent :=
  ⟨BitVec.ofNat 64 payload, BitVec.ofNat 32 (code + 2 * 2 ^ 8 + (if node then 2 ^ 13 else 0) + n.slot.val * 2 ^ 16), 0, none⟩

/-- Memory as BULK copies n bytes in ascending order, m i before byte i: each byte is read and written on the pages that the
command processor's own walks find for it, which mark their leaf entries (R250, R288). -/
structure BulkMoved (s : State) (src dst n : Nat) (m : Nat → List Host.Cell) : Prop where
  start : m 0 = s.mem
  each : ∀ i, i < n → ∃ s1 p s2 q,
    ({ s with mem := m i }).translateNode ((src + i) % 2 ^ 56) false = (s1, .ok p) ∧ p.peer = none
    ∧ s1.translateNode ((dst + i) % 2 ^ 56) true = (s2, .ok q) ∧ q.peer = none ∧ q.cls ≠ .combining
    ∧ m (i + 1) = Mem.write s2.mem (q.pa ((dst + i) % 2 ^ 56)) (Mem.read s1.mem (p.pa ((src + i) % 2 ^ 56)))

/-- Whether an address is reached from another through SUCC entries of a submitted graph (R250). -/
inductive SuccPath (x : Slot) : Nat → Nat → Prop where
  | here (a : Nat) : SuccPath x a a
  | step (y : Node) (a b : Nat) : y ∈ x.nodes → a ∈ nodeNext y.image → SuccPath x a b → SuccPath x y.addr b

end Sys2Proof.Machine

/-- R247, R248, R352, R356: a node that is eligible starts, STATUS RUNNING; one that met only skips ends SKIPPED; one with a
field of its header outside its limits ends BADNODE; one that does not translate stops its graph, which ends there where nothing
runs, with a report that names the node. A node that ends writes STATUS; a status of 0x10 or more stops its graph, another one
arrives at each successor, as a skip where it was skipped or not chosen; one that has met more arrivals than NPRED ends BADNODE;
the graph is over once no node is left to run, and reads done or failed, which an event says. That a node's start, and a node
that does not translate, are transitions of R356 is the model's reading (log 40), and that the report of such a node stands in
the slot's list of reports is the model's choice (log 77). -/
def Obligations.NodesStartAndEnd : Prop :=
  (∀ (s s' : State) (n : NodeRef) (x : Slot) (y : Node) (bs : List Byte), s.cpRuns = true → s.slotOf n = some x →
    s.node n = some y → x.running = true → x.failed = false → y.stage = .pending →
    let root : Prop := x.root % 2 ^ 56 = n.addr ∧ y.arrivals = 0
    let npred := bytesField bs 3 1
    let legal : Prop := (1 ≤ bytesField bs 0 1 ∧ bytesField bs 0 1 ≤ 6) ∧ bytesField bs 1 1 < 2 ∧ bytesField bs 2 1 ≤ 4
      ∧ (∀ i, bytesField bs 2 1 ≤ i → i < 4 → bytesField bs (8 + 8 * i) 8 = 0)
      ∧ if root then npred = 0 else npred = y.arrivals
    let quiet : Prop := ∀ z ∈ x.nodes, z.addr ≠ n.addr → z.stage = .pending ∨ z.stage = .ended
    (¬root → y.arrivals = 0 → exec (.nodeStart n) s = .next s)
    ∧ (s.nodeBytes n.addr 2 = (s', none) →
        (¬root → y.arrivals ≠ 0 → y.arrivals < nodePreds y.image → exec (.nodeStart n) s = .next s')
        ∧ (root ∨ y.arrivals ≠ 0 ∧ nodePreds y.image ≤ y.arrivals → ∃ t, exec (.nodeStart n) s = .next t ∧ Boxed t 0x13 n.addr
            ∧ (t.slotOf n).map (fun z => (z.failed, z.reports)) = some (true, x.reports ++ [.unreadable n.addr])
            ∧ (¬quiet → (t.slotOf n).map (·.running) = some true ∧ t.node n = some { y with stage := .ended }
                ∧ t.hostEvents = s.hostEvents)
            ∧ (quiet → (t.slotOf n).map (fun z => (z.running, z.nodes)) = some (false, [])
                ∧ t.bar0.slotstat[n.slot.val]? = (s.bar0.slotstat[n.slot.val]?).map (fun _ => 3)
                ∧ t.hostEvents = s.hostEvents ++ [graphEntry n x.root 3 false])))
    ∧ (s.nodeBytes n.addr 2 = (s', some bs) →
        (¬root → y.arrivals ≠ 0 → y.arrivals < npred → exec (.nodeStart n) s = .next s')
        ∧ (¬root → y.arrivals = npred → y.arrivals ≠ 0 → y.normal = false → ∃ t, exec (.nodeStart n) s = .next t
            ∧ t.node n = some { y with image := bs, stage := .ending 3 none } ∧ SameMemory s' t)
        ∧ (root ∨ npred ≤ y.arrivals ∧ y.arrivals ≠ 0 → root ∨ y.normal = true → ¬legal →
            ∃ t, exec (.nodeStart n) s = .next t
              ∧ t.node n = some { y with image := bs, stage := .ending 0x10 none } ∧ SameMemory s' t)
        ∧ (root ∨ y.arrivals ≠ 0 ∧ y.normal = true → legal → ∃ t, exec (.nodeStart n) s = .next t
            ∧ Moves n (fun z => { z with image := bs, stage := .running }) s t
            ∧ Boxed t 1 n.addr ∧ StatusStands s' t n.addr 1)))
  ∧ ∀ (s : State) (n : NodeRef) (x : Slot) (y : Node) (found : Nat) (chosen : Option Nat), s.cpRuns = true →
      s.slotOf n = some x → s.node n = some y → x.running = true → y.stage = .ending found chosen →
      let bs := y.image
      let st := if bytesField bs 3 1 < y.arrivals then 0x10 else found
      let told : List HostEvent := if bytesField bs 1 1 % 2 = 1 then [graphEntry n n.addr st true] else []
      let others (P : Node → Prop) : Prop := ∀ z ∈ x.nodes, z.addr ≠ n.addr → P z
      let quiet : Prop := others fun z => z.stage = .pending ∨ z.stage = .ended
      let ends (code : Nat) (t : State) : Prop := (t.slotOf n).map (fun z => (z.running, z.preempt, z.nodes)) = some (false, false, [])
        ∧ t.bar0.slotstat[n.slot.val]? = (s.bar0.slotstat[n.slot.val]?).map (fun _ => BitVec.ofNat 4 code)
        ∧ t.hostEvents = s.hostEvents ++ told ++ [graphEntry n x.root code false]
      bs.length = 128 →
      (0x10 ≤ st → st < 2 ^ 32 → ∃ t, exec (.nodeEnd n) s = .next t ∧ Boxed t st n.addr ∧ StatusStands s t n.addr st
        ∧ (quiet → ends 3 t)
        ∧ (¬quiet → Moves n (fun z => { z with stage := .ended }) s t ∧ (t.slotOf n).map (·.failed) = some true
            ∧ t.hostEvents = s.hostEvents ++ told))
      ∧ (st < 0x10 → bytesField bs 2 1 = 0 → x.failed = false → others (fun z => z.stage = .ended) →
          ∃ t, exec (.nodeEnd n) s = .next t ∧ Boxed t st n.addr ∧ StatusStands s t n.addr st ∧ ends 2 t)
      ∧ (st < 0x10 → x.failed = false → (nodeNext bs).Nodup → n.addr ∉ nodeNext bs → nodeNext bs ≠ [] →
          (∀ a ∈ nodeNext bs, ∃ z, s.node ⟨n.slot, a⟩ = some z ∧ z.stage = .pending) →
          ∃ t, exec (.nodeEnd n) s = .next t ∧ Boxed t st n.addr ∧ StatusStands s t n.addr st
            ∧ t.node n = some { y with stage := .ended } ∧ t.hostEvents = s.hostEvents ++ told
            ∧ ∀ (i a : Nat) (z : Node), (nodeNext bs)[i]? = some a → s.node ⟨n.slot, a⟩ = some z →
                t.node ⟨n.slot, a⟩ = some { z with
                  arrivals := z.arrivals + 1
                  normal := z.normal || decide (st ≠ 3 ∧ ∀ c, chosen = some c → c = i) })

/-- R250: BULK copies its bytes in ascending order until one faults, and moves no byte between ranges that meet; FLIP begins a
sweep of its range, which toggles the version bits of its twin regions as it ends (log 31, WalksAndSweeps); SIGNAL stores, or sends an add to the home; WAITW
ends once the masked word satisfies its condition, or after LIMIT cycles; BRANCH chooses the successor of the first key that
RESULT equals, or else the last, where SRCN names a LAUNCH node that has ended and leads to it; a field outside its limits ends
BADNODE, a fault FAULT. That a misaligned WAITW ends BADNODE, and one whose word does not translate waits on (log 39), that a
BRANCH whose SRCN no longer translates ends BADNODE (log 83), and that a node acts while no batch of updates has performed in part
(log 69), within one step (log 8), are the model's choices. -/
def Obligations.NodesAct : Prop :=
  ∀ (s : State) (n : NodeRef) (x : Slot) (y : Node), s.cpRuns = true → s.slotOf n = some x → s.node n = some y →
    y.stage = .running → (∀ line, s.ownerOf line = none) → s.unsplit = true → y.owed = none →
    let at' (off k : Nat) : Nat := bytesField y.image off k
    let kind := at' 0 1
    let zeros (off : Nat) : Prop := ∀ b ∈ y.image.drop off, b = 0
    let ends (i : Instr) (status : Nat) : Prop := ∃ t, exec i s = .next t ∧ Ends n status none s t
    let still (i : Instr) (status : Nat) : Prop := ∃ t, exec i s = .next t ∧ Ends n status none s t ∧ SameMemory s t
    let src := at' 0x28 8 % 2 ^ 56
    let dst := at' 0x30 8 % 2 ^ 56
    let len := at' 0x38 8
    (kind = 2 →
      (len = 0 ∨ 2 ^ 40 < len ∨ ¬zeros 0x40 → still (.bulk n) 0x10)
      ∧ (1 ≤ len → len ≤ 2 ^ 40 → zeros 0x40 →
        (src < dst + len ∧ dst < src + len → still (.bulk n) 0x14)
        ∧ (¬(src < dst + len ∧ dst < src + len) → ∀ k m, BulkMoved s src dst k m →
          (k = len → ∃ t, exec (.bulk n) s = .next t ∧ Ends n 2 none s t ∧ t.mem = m len)
          ∧ (k < len → let now : State := { s with mem := m k }
            (∀ s1 f, now.translateNode ((src + k) % 2 ^ 56) false = (s1, .error f) →
              ∃ t, exec (.bulk n) s = .next t ∧ Ends n 0x13 none s t ∧ t.mem = m k)
            ∧ ∀ s1 p, now.translateNode ((src + k) % 2 ^ 56) false = (s1, .ok p) → p.peer = none →
              (∀ s2 f, s1.translateNode ((dst + k) % 2 ^ 56) true = (s2, .error f) →
                ∃ t, exec (.bulk n) s = .next t ∧ Ends n 0x13 none s t ∧ t.mem = s1.mem)
              ∧ ∀ s2 q, s1.translateNode ((dst + k) % 2 ^ 56) true = (s2, .ok q) → q.cls = .combining →
                ∃ t, exec (.bulk n) s = .next t ∧ Ends n 0x13 none s t ∧ t.mem = s2.mem))))
    ∧ (kind = 3 → y.waited = 0 →
      (at' 0x28 8 % 2 ^ 23 ≠ 0 ∨ at' 0x30 8 % 2 ^ 23 ≠ 0 ∨ ¬zeros 0x38 → still (.flip n) 0x10)
      ∧ (at' 0x28 8 % 2 ^ 23 = 0 → at' 0x30 8 % 2 ^ 23 = 0 → zeros 0x38 → ∃ t, exec (.flip n) s = .next t
          ∧ Moves n (fun z => { z with waited := s.nextId }) s t
          ∧ t.invalidations = s.invalidations ++ [⟨s.nextId, src, src + at' 0x30 8, false, true, []⟩] ∧ SameMemory s t))
    ∧ (kind = 4 → y.waited = 0 →
      let wide := len % 2 = 1
      let w := if wide then 8 else 4
      let addr := at' 0x28 8
      (4 ≤ len ∨ ¬zeros 0x40 ∨ addr % w ≠ 0 → still (.signal n) 0x10)
      ∧ (len < 4 → zeros 0x40 → addr % w = 0 →
        (∀ s1 f, s.translateNode (addr % 2 ^ 56) true = (s1, .error f) → still (.signal n) 0x13)
        ∧ ∀ s1 p, s.translateNode (addr % 2 ^ 56) true = (s1, .ok p) → p.peer = none →
          (len < 2 → p.cls = .combining → ends (.signal n) 0x13)
          ∧ (len < 2 → p.cls ≠ .combining → ∃ t, exec (.signal n) s = .next t ∧ Ends n 2 none s t
              ∧ t.homeNat (p.pa (addr % 2 ^ 56)) w = at' 0x30 8 % 2 ^ (8 * w)
              ∧ ∀ a, a < p.pa (addr % 2 ^ 56) ∨ p.pa (addr % 2 ^ 56) + w ≤ a → Mem.read t.mem a = Mem.read s1.mem a)
          ∧ (2 ≤ len → ∃ t r, exec (.signal n) s = .next t ∧ Moves n (fun z => { z with waited := s.nextId }) s t
              ∧ t.reqs = s.reqs ++ [r] ∧ r.id = s.nextId ∧ r.owner = .node n ∧ r.pas = [p.pa (addr % 2 ^ 56)] ∧ r.scope = 5
              ∧ r.kind = .atomic 0 (if wide then 1 else 0) none (BitVec.ofNat 64 (at' 0x30 8)) 0)))
    ∧ (kind = 5 →
      let addr := at' 0x28 8
      let cond := at' 0x40 4
      let limit := at' 0x44 4
      (2 ≤ cond ∨ addr % 8 ≠ 0 ∨ ¬zeros 0x48 → still (.waitw n) 0x10)
      ∧ (cond < 2 → addr % 8 = 0 → zeros 0x48 →
          (∀ s1 f, s.translateNode (addr % 2 ^ 56) false = (s1, .error f) →
            ∃ t, exec (.waitw n) s = .next t ∧ ∀ m, t.node m = s.node m)
          ∧ ∀ s1 p, s.translateNode (addr % 2 ^ 56) false = (s1, .ok p) → p.peer = none →
            let word := s1.homeNat (p.pa (addr % 2 ^ 56)) 8
            let met : Prop := if cond = 0 then word &&& len = at' 0x30 8 else at' 0x30 8 ≤ word &&& len
            (met → ends (.waitw n) 2) ∧ (¬met → ∃ t, exec (.waitw n) s = .next t ∧ ∀ m, t.node m = s.node m))
      ∧ (limit ≠ 0 → limit ≤ y.waited → still (.waitwTimeout n) 0x15)
      ∧ (limit = 0 ∨ y.waited < limit → exec (.waitwTimeout n) s = .next s))
    ∧ (kind = 6 →
      let k := at' 2 1
      let joined : Prop := (∃ z, s.node ⟨n.slot, src⟩ = some z ∧ z.stage = .ended)
        ∧ ∃ z ∈ x.nodes, z.addr = src ∧ bytesField z.image 0 1 = 1 ∧ ∃ a ∈ nodeNext z.image, SuccPath x a n.addr
      (k = 0 ∨ ¬zeros 0x48 ∨ ¬joined → still (.branch n) 0x10)
      ∧ (k ≠ 0 → zeros 0x48 → joined →
          (∀ s1, s.nodeBytes src 2 = (s1, none) → ends (.branch n) 0x10)
          ∧ ∀ s1 bs, s.nodeBytes src 2 = (s1, some bs) →
            let st := bytesField bs 4 4
            let result := bytesField bs 0x70 8
            let key (i : Nat) : Nat := at' (0x30 + 8 * i) 8
            (st ≠ 2 ∧ st ≠ 4 → ends (.branch n) 0x10)
            ∧ (st = 2 ∨ st = 4 → ∃ t c, exec (.branch n) s = .next t ∧ Ends n 2 (some c) s t
                ∧ (∀ i, i < c → key i ≠ result) ∧ (c < k - 1 ∧ key c = result ∨ c = k - 1))))

/-- R251, R252, R305, R334, R335, R344: LAUNCH checks its fields, its method table, its determinism block and the number of
slots of its shape, and starts a grid under a new number, with no cluster started. -/
def Obligations.LaunchesStart : Prop :=
  ∀ (s : State) (n : NodeRef) (y : Node), s.cpRuns = true → s.node n = some y → y.stage = .running →
    s.unsplit = true → (∀ p ∈ s.grids, p.2.node ≠ n) →
    let at' (off k : Nat) : Nat := bytesField y.image off k
    let shape := at' 0x54 4
    let flags := at' 0x58 4
    let qr := shape % 4
    let qc := shape / 4 % 4
    let count := at' 0x48 4 * at' 0x4C 4 * at' 0x50 4
    let mtab := at' 0x60 8
    let detb := at' 0x68 8
    let legal : Prop := at' 0x28 8 % 4 = 0 ∧ (∀ off ∈ [0x48, 0x4C, 0x50], 1 ≤ at' off 4 ∧ at' off 4 ≤ 2097151)
      ∧ (1 ≤ qr ∧ 1 ≤ qc ∧ qr * qc ≤ 3 ∧ min qr qc = 1) ∧ (1 ≤ shape / 2 ^ 4 % 64 ∧ shape / 2 ^ 4 % 64 ≤ 32)
      ∧ (1 ≤ shape / 2 ^ 10 % 64 ∧ shape / 2 ^ 10 % 64 ≤ 32) ∧ (1 ≤ shape / 2 ^ 16 % 256 ∧ shape / 2 ^ 16 % 256 ≤ 128)
      ∧ shape / 2 ^ 24 = 0 ∧ flags / 2 ^ 19 = 0 ∧ flags / 2 ^ 10 % 64 = 0 ∧ flags / 2 ^ 6 % 4 = 0 ∧ flags / 2 ^ 4 % 4 ≠ 3
      ∧ (flags / 2 ^ 4 % 4 ≠ 0 → detb ≠ 0) ∧ mtab % 256 = 0 ∧ detb % 64 = 0 ∧ at' 0x78 8 = 0
    let entry (bs : List Byte) (i : Nat) : Nat × Nat := (bytesField bs (16 * i) 8, bytesField bs (16 * i + 8) 4)
    let row (bs : List Byte) (i : Nat) : Prop := bytesField bs (16 * i + 12) 4 = 0 ∧ (entry bs i).1 % 4 = 0
      ∧ if (entry bs i).1 = 0 then (entry bs i).2 = 0
        else (entry bs i).2 % 4 = 0 ∧ 4 ≤ (entry bs i).2 ∧ (entry bs i).2 ≤ 1024
    let crowded : Prop := (flags.testBit 1 = true ∨ flags / 2 ^ 4 % 4 = 2) ∧ 16 / qr * (24 / qc) < count
    let ends (status : Nat) : Prop := ∃ t, exec (.launch n) s = .next t ∧ Ends n status none s t
    let starts (ms : List (Nat × Nat)) (det : Option DetBlock) : Prop := ∃ t g, exec (.launch n) s = .next t ∧ t.grid s.nextId = some g
      ∧ t.nextId = s.nextId + 1 ∧ (∀ m, t.node m = s.node m) ∧ (∀ k, k ≠ s.nextId → t.grid k = s.grid k)
      ∧ g.node = n ∧ g.next = 0 ∧ g.retired = 0 ∧ g.ended = [] ∧ g.result = none ∧ g.digest = digestIV ∧ g.abort = none
      ∧ g.reex = false ∧ g.launch.count = count ∧ g.launch.methods = ms ∧ g.launch.det = det ∧ g.rrstat = 0
      ∧ g.launch.entry = BitVec.ofNat 56 (at' 0x28 8) ∧ g.launch.tentry = BitVec.ofNat 56 (at' 0x30 8)
      ∧ g.launch.param = BitVec.ofNat 64 (at' 0x38 8 % 2 ^ 56) ∧ g.launch.tvec = BitVec.ofNat 56 (at' 0x40 8)
      ∧ g.launch.shape = BitVec.ofNat 32 shape ∧ g.launch.flags = BitVec.ofNat 32 flags
      ∧ g.launch.quantum = if at' 0x5C 4 = 0 then 13000000 else at' 0x5C 4
    y.image.length = 128 → at' 0 1 = 1 →
    let block (bs : List Byte) : DetBlock := ⟨detb, bytesField bs 0 8, bytesField bs 8 8, bytesField bs 0x10 4,
      bytesField bs 0x14 4 == 1, BitVec.ofNat 64 (bytesField bs 0x18 8)⟩
    let legalBlock (bs : List Byte) : Prop := bytesField bs 0 8 % 4096 = 0 ∧ bytesField bs 0x14 4 < 2 ∧ bytesField bs 0x38 8 = 0
      ∧ (flags / 2 ^ 4 % 4 = 0 ∨ 12288 ≤ bytesField bs 8 8) ∧ (bytesField bs 0x14 4 = 0 ∨ flags.testBit 3 = true)
    let goesOn (s' : State) (ms : List (Nat × Nat)) : Prop :=
      (detb = 0 → (crowded → ends 0x11) ∧ (¬crowded → starts ms none))
      ∧ (detb ≠ 0 → ∀ s'' r, s'.nodeBytes detb 1 = (s'', r) → (r = none → ends 0x13)
          ∧ ∀ bs, r = some bs → (¬legalBlock bs → ends 0x10)
            ∧ (legalBlock bs → (crowded → ends 0x11) ∧ (¬crowded → starts ms (some (block bs)))))
    (¬legal → ends 0x10)
    ∧ (legal →
        (mtab = 0 → goesOn s [])
        ∧ (mtab ≠ 0 → ∀ s' r, s.nodeBytes mtab 4 = (s', r) →
            (r = none → ends 0x13)
            ∧ ∀ bs, r = some bs →
              ((∃ i, i < 16 ∧ ¬row bs i) → ends 0x10)
              ∧ ((∀ i, i < 16 → row bs i) → goesOn s' ((List.range 16).map (entry bs)))))

/-! ### Clusters and grids (R219, R240, R252 to R259, R299, R300, R333, R341, R346) -/

namespace Sys2Proof.Machine

open Sys2Proof

/-- A cluster as it starts: number n of a grid, at an anchor, its lanes at the entry with nothing in their registers but
PARAM in g0 and g1, its control cores at the tile program's entry with PARAM in K0, or absent. -/
def Starts (t : State) (cid gid n : Nat) (l : Launch) (a : Nat × Nat) : Prop :=
  ∃ c, t.cluster cid = some c ∧ c.grid = gid ∧ c.index = n ∧ c.place = some a ∧ c.home = a ∧ c.saved = 0 ∧ c.result = none
    ∧ c.teams.length = 4 * l.qr * l.qc ∧ c.quads.length = l.qr * l.qc
    ∧ (∀ r : LaneRef, r.cid = cid → ((t.lane r).isSome = true ↔
        r.team < 4 * l.qr * l.qc ∧ r.group < l.gpt ∧ r.lane < l.lpg))
    ∧ (∀ (r : LaneRef) x, r.cid = cid → t.lane r = some x → x.pc = l.entry ∧ x.wait = .ready ∧ x.cond = 0 ∧ x.link = 0
        ∧ x.lsw = 0 ∧ x.taddr = 0 ∧ x.pass = 0 ∧ x.yielded = false ∧ x.serial = 0 ∧ x.lpr = none
        ∧ (∀ k : Code, k.toNat < 192 → t.reg (.lane r) k = 0)
        ∧ t.reg (.lane r) 0xC0 = (l.param.truncate 32).zeroExtend 64
        ∧ t.reg (.lane r) 0xC1 = (l.param.extractLsb' 32 32).zeroExtend 64)
    ∧ ∀ (q : QuadRef) x, q.cid = cid → t.quad q = some x → x.control.pc = alignPc l.tentry ∧ x.tasks = [] ∧ x.events = []
        ∧ x.control.wait = (if l.tentry = 0 then .absent else .run) ∧ x.control.k.get 0 0 = l.param ∧ x.tokens = []

/-- A resident cluster that a request of the host is still to stop, with its grid (R256, R351). -/
def State.hostNames (s : State) (cid : Nat) (c : Cluster) (g : Grid) : Prop :=
  (cid, c) ∈ s.clusters ∧ s.grid c.grid = some g ∧ c.place.isSome = true ∧ c.spared = false ∧ g.abort = none
    ∧ s.hostPreempts g = true

/-- Whether a cluster goes before another: the lower PRIO first, then the later start; within a grid the higher index, while
those of a co-resident grid go together (R256). -/
def GoesFirst (c d : Cluster) (g h : Grid) : Prop :=
  if c.grid = d.grid then g.launch.cores = false ∧ d.index < c.index
  else g.launch.prio < h.launch.prio
    ∨ g.launch.prio = h.launch.prio ∧ (h.since < g.since ∨ h.since = g.since ∧ d.grid < c.grid)

/-- A co-resident grid of which some clusters are saved and some resident (R254). -/
def State.isSplit (s : State) (gid : Nat) : Prop :=
  (∃ g, s.grid gid = some g ∧ g.launch.cores = true ∧ g.abort = none)
  ∧ (∃ p ∈ s.clusters, p.2.grid = gid ∧ p.2.place.isSome = true) ∧ ∃ p ∈ s.clusters, p.2.grid = gid ∧ p.2.place = none

/-- Every lane, control core and queue of a cluster is done, and no request of it is in flight. -/
structure Cluster.AllDone (s : State) (cid : Nat) (c : Cluster) : Prop where
  lanes : ∀ t ∈ c.teams, ∀ g ∈ t.groups, g.handler = none ∧ g.opens = [] ∧ ∀ x ∈ g.lanes, x.wait = .exited
  queues : ∀ t ∈ c.teams, ∀ q ∈ t.queues, q.entries = []
  control : ∀ q ∈ c.quads, (q.control.wait = .exited ∨ q.control.wait = .absent) ∧ q.tasks = []
  requests : ∀ r ∈ s.reqs, r.owner.cid ≠ some cid

/-- A grid with one cluster folded: number n, its task digest and the result that it has posted. -/
def Folds (g h : Grid) (n : Nat) (digest : DWord) (post : Option DWord) : Prop :=
  h.retired = n + 1 ∧ h.digest = mix (mix (g.digest ^^^ BitVec.ofNat 64 n) ^^^ digest)
    ∧ h.result = match post with
      | some x => some (n, x)
      | none => g.result

/-- A grid is over: its record is gone, its node is about to end with a status, RESULT stands in the node where the page
lets it be written. -/
def GridOver (s t : State) (gid : Nat) (g : Grid) (status : Nat) (result : DWord) : Prop :=
  t.grid gid = none ∧ (∀ k, k ≠ gid → t.grid k = s.grid k) ∧ Ends g.node status none s t
    ∧ ∀ p s', s.translateNode ((g.node.addr + 0x70) % 2 ^ 56) true = (s', .ok p) → p.peer = none →
        t.homeNat (p.pa ((g.node.addr + 0x70) % 2 ^ 56)) 8 = result.toNat

/-- What the end of an execution leaves in RRSUM and OVFSL of a determinism block, after the log of a record run is closed; a
re-execution under RRMODE 1 leaves the first's (R333, R343, R344). -/
def State.sums (s : State) (gid : Nat) (g : Grid) (d : DetBlock) : State :=
  if g.launch.rrmode = 1 ∧ g.reex = true then s
  else
    let w := if g.launch.rrmode = 1 then s.closeLogs gid d else s
    let left := if g.launch.rrmode = 2 ∧ s.logLeft gid d = true then 8 else 0
    let over' := if g.launch.rrmode = 0 then 0 else ((w.grid gid).getD g).overflowed.length
    (w.nodeWrite (d.base + 0x30) (toBytesLE 4 (((w.grid gid).getD g).rrstat.toNat + left))).nodeWrite (d.base + 0x34)
      (toBytesLE 4 over')

/-- A grid that ends with a determinism block: its record and its logs are gone, its node is about to end, and memory holds
RESULT over what w has written. -/
def DetOver (s t : State) (gid : Nat) (g : Grid) (w : State) (status : Nat) (result : DWord) : Prop :=
  t.grid gid = none ∧ (∀ k, k ≠ gid → t.grid k = s.grid k) ∧ Ends g.node status none s t
    ∧ (∀ n, (t.sliceAt n).logs.find gid = none)
    ∧ t.mem = (w.nodeWrite (g.node.addr + 0x70) (toBytesLE 8 result.toNat)).mem

/-- The end of a grid all of whose clusters are folded, as h has it: RESULT and DONE; with a determinism block also the digest,
DIGEST or at a re-execution DIGEST2, and the sums. A digest that differs from the recorded one has the grid run again from its
first cluster, and the end of that is DIVERGED, which the black box and the graph's report say (R255, R333, R341, R344). -/
def GridFinishes (s t : State) (gid : Nat) (g h : Grid) : Prop :=
  let result := (h.result.map (·.2)).getD 0
  (g.launch.det = none → GridOver s t gid g 2 result)
  ∧ ∀ d, g.launch.det = some d →
      let w := (s.sums gid g d).nodeWrite (d.base + if g.reex then 0x28 else 0x20) (toBytesLE 8 h.digest.toNat)
      (g.reex = false → d.recv = false ∨ h.digest = d.recdig → DetOver s t gid g w 2 result)
      ∧ (g.reex = true → DetOver s t gid g w 4 result
          ∧ (∃ b, t.blackbox.getLast? = some b ∧ b.kind = 5 ∧ b.cause = 4 ∧ b.detail = d.recdig ++ h.digest)
          ∧ (t.slotOf g.node).map (·.reports) = (s.slotOf g.node).map (fun x => x.reports ++ [.diverged g.node.addr d.recdig h.digest]))
      ∧ (g.reex = false → d.recv = true → h.digest ≠ d.recdig → t.mem = w.mem ∧ (∀ m, t.node m = s.node m)
          ∧ (∀ n, (t.sliceAt n).logs.find gid = none)
          ∧ t.grid gid = some { h with next := 0, retired := 0, ended := [], digest := digestIV, result := none, rrstat := 0,
                                       overflowed := [], reex := true, firstDigest := h.digest, held := 0 })

end Sys2Proof.Machine

/-- R219, R240, R252 to R254, R333, R346: CLUSTER_START starts the grid's next cluster on a slot whose quads are free, under DET on
its own slot of the curve only, and in a re-execution only once no other is left; a co-resident grid starts whole or not at all.
That none starts while the host's pre-emption of its graph is carried out (log 75), or while a co-resident grid is saved in part
(log 84), are the model's choices, as is that bits [1:0] of TENTRY count as 0 (log 65). -/
def Obligations.ClustersStart : Prop :=
  ∀ (s : State) (gid row col : Nat) (g : Grid), s.grid gid = some g → s.cpRuns = true → g.abort = none →
    let l := g.launch
    let i : Instr := .clusterStart gid row col
    let alone : Prop := g.oneByOne = true → s.clustersOf gid = []
    let split : Prop := ∃ k ∈ s.grids.map (·.1), s.isSplit k
    (l.count ≤ g.next ∨ s.hostPreempts g = true ∨ split → exec i s = .next s)
    ∧ (g.next < l.count → l.cores = false ∨ g.oneByOne = true →
        (s.slotFree l (row, col) = false ∨ l.detPlace = true ∧ (row, col) ≠ detAnchor l g.next ∨ ¬alone → exec i s = .next s)
        ∧ (s.slotFree l (row, col) = true → (l.detPlace = true → (row, col) = detAnchor l g.next) → alone → s.hostPreempts g = false →
            ¬split →
            ∃ t h, exec i s = .next t ∧ Starts t s.nextId gid g.next l (row, col)
              ∧ t.grid gid = some h ∧ h.next = g.next + 1 ∧ (∀ c, c ≠ s.nextId → t.cluster c = s.cluster c)
              ∧ Only { device := fun x => { x with nextId := 0, grids := [] } } { s with clusters := t.clusters } t))
    ∧ (g.next < l.count → l.cores = true → g.oneByOne = false →
        (s.coresAnchors l (row, col) = none → exec i s = .next s)
        ∧ ∀ as, s.coresAnchors l (row, col) = some as → s.hostPreempts g = false → ¬split → ∃ t h, exec i s = .next t ∧ t.grid gid = some h
            ∧ h.next = l.count ∧ ∀ n a, as[n]? = some a → Starts t (s.nextId + n) gid n l a)
    ∧ (∀ a b : Nat × Nat, isAnchor l.qr l.qc a = true → isAnchor l.qr l.qc b = true → (1 ≤ l.qr ∧ 1 ≤ l.qc) → a ≠ b →
        a.1 + l.qr ≤ b.1 ∨ b.1 + l.qr ≤ a.1 ∨ a.2 + l.qc ≤ b.2 ∨ b.2 + l.qc ≤ a.2)
    ∧ ((List.range 384).map quadOfPos).Nodup

/-- R253, R255, R299, R300, R333, R341, R344, R350: CLUSTER_END frees the slot of a cluster all of whose parts are done, and
hands its task digest and result to the grid; without DET the grid folds it once every lower index is folded, under DET
CLUSTER_RETIRE does; the last ends the grid. GRID_ABORT discards what is left of an aborted grid; its node ends ABORTED. That an
abort makes two records, TPC with TADDR and TMASK with the group and the node, is the model's choice (log 36), as are the report's
form (log 77) and that the last resident cluster's end ends a pre-emption by the host (log 75). -/
def Obligations.ClustersEnd : Prop :=
  (∀ (s : State) (cid : Nat) (c : Cluster) (g : Grid), s.cluster cid = some c → s.running cid = true →
    s.grid c.grid = some g → c.AllDone s cid →
    let ended : List (Nat × DWord × Option DWord) := g.ended ++ [(c.index, c.taskDigest, c.result)]
    let gone (t : State) : Prop := t.cluster cid = none ∧ (∀ k, k ≠ cid → (t.cluster k).isSome = (s.cluster k).isSome)
      ∧ (s.hostPreempts g = false → ∀ k, k ≠ cid → t.cluster k = s.cluster k)
      ∧ (s.hostPreempts g = true → s.clusters = [(cid, c)] → (t.slotOf g.node).map (·.preempt) = some false)
    let starts (P : State → Grid → Prop) : Prop := ∃ t h, exec (.clusterEnd cid) s = .next t ∧ gone t
      ∧ t.grid c.grid = some h ∧ P t h ∧ ∀ a, Mem.read t.mem a = Mem.read s.mem a
    (g.launch.detPlace = true → starts fun _ h => h = { g with ended := ended })
    ∧ (g.launch.detPlace = false → g.retired < g.launch.count → (∀ e ∈ ended, e.1 ≠ g.retired) →
        starts fun _ h => h = { g with ended := ended })
    ∧ (g.launch.detPlace = false → c.index = g.retired → g.ended = [] → g.retired + 1 < g.launch.count →
        starts fun _ h => h.ended = [] ∧ Folds g h c.index c.taskDigest c.result)
    ∧ (g.launch.detPlace = false → c.index = g.retired → g.ended = [] → g.retired + 1 = g.launch.count → g.abort = none →
        ∃ t h, exec (.clusterEnd cid) s = .next t ∧ gone t ∧ Folds g h c.index c.taskDigest c.result
          ∧ GridFinishes s t c.grid g h))
  ∧ (∀ (s : State) (gid : Nat) (g : Grid) (n : Nat) (digest : DWord) (post : Option DWord) (rest : List (Nat × DWord × Option DWord)),
      s.grid gid = some g → g.launch.detPlace = true → g.retired = n → g.ended = (n, digest, post) :: rest →
      (∀ e ∈ rest, e.1 ≠ n) →
      (n + 1 < g.launch.count → ∃ t h, exec (.clusterRetire gid) s = .next t ∧ t.grid gid = some h
        ∧ Folds g h n digest post ∧ h.ended = rest ∧ Only { device := fun x => { x with grids := [] } } s t)
      ∧ (n + 1 = g.launch.count → g.abort = none → ∃ t h, exec (.clusterRetire gid) s = .next t
          ∧ Folds g h n digest post ∧ GridFinishes s t gid g h))
  ∧ ∀ (s : State) (gid : Nat) (g : Grid) (a : AbortInfo), s.grid gid = some g → g.abort = some a → s.powered = true →
      let mine (r : Req) : Prop := ∃ k c, r.owner.cid = some k ∧ s.cluster k = some c ∧ c.grid = gid
      let left (r : Req) : Prop := r.stage = .atHome ∨ r.stage = .atPeer ∨ ∃ k, r.stage = .inL1 k
      let first : BitVec 128 := a.addr ++ a.pc
      let second : BitVec 128 := BitVec.ofNat 128 (a.mask.toNat + 2 ^ 32 * a.group + 2 ^ 64 * g.node.addr)
      (s.clusters.map (·.1)).Nodup →
      ((∃ r ∈ s.reqs, mine r ∧ left r) → exec (.gridAbort gid) s = .next s)
      ∧ ((∀ r ∈ s.reqs, mine r → ¬left r) → ∃ t, exec (.gridAbort gid) s = .next t
          ∧ (g.launch.det = none → GridOver s t gid g 0x12 (s.postedResult gid g))
          ∧ (∀ d, g.launch.det = some d → DetOver s t gid g (s.sums gid g d) 0x12 (s.postedResult gid g))
          ∧ (s.hostPreempts g = false → ∀ k c, t.cluster k = some c ↔ s.cluster k = some c ∧ c.grid ≠ gid)
          ∧ (∀ r, r ∈ t.reqs ↔ r ∈ s.reqs ∧ ¬mine r)
          ∧ (∃ b1 b2, t.blackbox.reverse.take 2 = [b2, b1] ∧ b1.kind = b2.kind ∧ b1.cause = b2.cause ∧ b1.unit = b2.unit
            ∧ b1.kind = (if a.machineCheck then 2 else 1) ∧ b1.cause = BitVec.ofNat 8 a.cause
            ∧ b1.unit = BitVec.ofNat 16 a.core ∧ b1.detail = first ∧ b2.detail = second)
          ∧ (a.machineCheck = true → t.bar0.lasterr = toBytesLE 16 second.toNat)
          ∧ (t.slotOf g.node).map (·.reports) = (s.slotOf g.node).map (fun x => x.reports ++ [.aborted g.node.addr a]))

/-- R234, R244, R256 to R259, R357: a grid that has held its slots longer than its quantum, while another of its priority
waits, is to give up as many clusters as that one needs; clusters of a lower PRIO, or of the same after its quantum, go for
a grid that waits and fits only without them; a victim whose requests have not left its core, whose traps have been taken, and
whose copies and tasks stand between commands, is saved where the pool has room, its slot freed, and otherwise stays, recorded;
FREEZE 2 saves every resident cluster in ascending slot order until the pool is full; a saved cluster goes on at a free slot,
with its registers, windows and barriers as they were, a co-resident grid whole, and none of its clusters runs until all do. The
host's request takes the clusters that it names in the order of R256. How many clusters an expired quantum gives up, which of several
go, and what a refused save leaves (log 41), that FREEZE 2 freezes at once and reads 1 until its last part (log 42), one step after
the other (log 73), the pool counted by size (log 12), how a request of the host ends (log 75), where a co-resident grid that is
saved in part goes on (log 84), and that saved clusters wait as a starting launch does (log 88) are the model's choices. -/
def Obligations.ClustersMove : Prop :=
  (∀ (s : State) (gid oid : Nat) (g o : Grid), s.grid gid = some g →
    s.grids.find? (fun h => h.1 != gid && h.2.launch.prio == g.launch.prio && s.waitsForSlot h.1 h.2) = some (oid, o) →
    (g.launch.quantum < g.held → g.launch.prio ≠ 7 → ∃ t h, exec (.quantumExpiry gid) s = .next t ∧ t.grid gid = some h
      ∧ h = { g with held := 0, preempt := h.preempt }
      ∧ h.preempt = min (o.launch.count - o.next + ((s.clustersOf oid).filter fun p => p.2.place.isNone).length)
          (s.residents gid).length
      ∧ Only { device := fun x => { x with grids := [] } } s t)
    ∧ (g.held ≤ g.launch.quantum ∨ g.launch.prio = 7 → exec (.quantumExpiry gid) s = .next s))
  ∧ (∀ (s : State) (cid : Nat) (c : Cluster) (g : Grid) (place : Nat × Nat), s.cluster cid = some c → s.grid c.grid = some g →
      s.cpRuns = true → c.place = some place → g.abort = none → g.launch.cores = false →
      (s.hostVictim cid = true ∨ s.outranked cid = true) →
      let boxed (t : State) (cause : Nat) : Prop := ∃ b, t.blackbox.getLast? = some b ∧ b.kind = 6 ∧ b.cause = BitVec.ofNat 8 cause
      let record (t : State) (cause : Nat) : Prop :=
        boxed t cause ∧ t.blackbox.getLast?.map (·.unit) = some (BitVec.ofNat 16 (24 * place.1 + place.2))
      (s.stoppable cid c = false → exec (.clusterPreemption cid) s = .next s)
      ∧ (s.stoppable cid c = true → s.bar0.ctxsize.toNat < s.poolUsed + saveBytes g.launch →
          ∃ t d, exec (.clusterPreemption cid) s = .next t ∧ t.cluster cid = some d ∧ { d with spared := c.spared } = c ∧ record t 1
            ∧ (∀ h, t.grid c.grid = some h → h.preempt = 0)
            ∧ (s.hostPreempts g = true → s.clusters = [(cid, c)] → (t.slotOf g.node).map (·.preempt) = some false))
      ∧ (s.stoppable cid c = true → s.poolUsed + saveBytes g.launch ≤ s.bar0.ctxsize.toNat →
          ∃ t d, exec (.clusterPreemption cid) s = .next t ∧ t.cluster cid = some d ∧ record t 0
            ∧ d.place = none ∧ d.home = place ∧ d.saved = saveBytes g.launch ∧ d.quads = c.quads ∧ d.bars = c.bars
            ∧ d.index = c.index ∧ d.result = c.result
            ∧ (∀ r ∈ t.reqs, r.owner.cid ≠ some cid ∨ (s.heldAtGate r).isSome = true)
            ∧ (∀ k : Nat, (d.teams[k]?).map (fun x : Team => (x.window, x.bars, x.queues)) = (c.teams[k]?).map fun x : Team => (x.window, x.bars, x.queues))
            ∧ (∀ (l : LaneRef) x, l.cid = cid → s.lane l = some x → ∃ y, t.lane l = some y ∧ y.v = x.v ∧ y.cond = x.cond
                ∧ y.lsw = x.lsw ∧ y.link = x.link ∧ y.lastTeam = x.lastTeam ∧ y.lastCluster = x.lastCluster
                ∧ (∀ w, s.group l.gr = some w → w.opens = [] → y.wait = x.wait ∧ y.pc = x.pc ∧ y.pass = x.pass
                    ∧ y.yielded = x.yielded))
            ∧ (∀ (gr : GroupRef) w op, gr.cid = cid → s.group gr = some w → w.opens = [op] → op.gone = false →
                (op.parts.map (·.lane)).Nodup → (∀ r ∈ s.reqs, r.op = op.id → s.heldAtGate r = none) →
                ∃ w', t.group gr = some w' ∧ w'.trap = w.trap ∧ w'.handler = w.handler
                  ∧ ((∃ p ∈ op.parts, p.st.isFailed = true) → w'.opens = [op] ∧ w'.reissue = w.reissue)
                  ∧ ((∀ p ∈ op.parts, p.st.isFailed = false) →
                    let stay := op.parts.filter fun p => p.st == .performed
                    let back := (op.parts.filter fun p => p.st != .performed).map (·.lane)
                    w'.opens = (if stay.isEmpty then [] else [{ op with parts := stay, rest := op.rest ++ back }])
                    ∧ (∀ n, n ∈ w'.reissue ↔ n ∈ w.reissue ∨ n ∈ back)
                    ∧ ∀ p ∈ op.parts, ∀ x, s.lane (gr.at p.lane) = some x → ∃ y, t.lane (gr.at p.lane) = some y ∧ y.pc = x.pc
                        ∧ (p.st = .performed → y.wait = x.wait ∧ y.next = x.next)
                        ∧ (p.st ≠ .performed → y.wait = .ready ∧ y.pass = 0)))
            ∧ (s.hostPreempts g = false → ∀ k, k ≠ cid → t.cluster k = s.cluster k) ∧ ∀ a, Mem.read t.mem a = Mem.read s.mem a))
  ∧ (∀ (s : State) (cid : Nat), (s.clusters.map (·.1)).Nodup → (s.hostVictim cid = true ↔ ∃ c g, s.hostNames cid c g
      ∧ ∀ k d h, s.hostNames k d h → ¬GoesFirst d c h g))
  ∧ (∀ (s : State) (cid : Nat), s.hostVictim cid = false → s.outranked cid = false →
      exec (.clusterPreemption cid) s = .next s)
  ∧ (∀ (s : State) (cid : Nat) (c : Cluster) (g : Grid), s.cluster cid = some c → s.grid c.grid = some g → s.cpRuns = true →
      c.place.isSome = true → g.abort = none → g.launch.cores = true → (s.hostVictim cid = true ∨ s.outranked cid = true) →
      (s.clusters.map (·.1)).Nodup →
      let all := s.residents c.grid
      let need := s.poolUsed + all.length * saveBytes g.launch
      let boxed (t : State) (cause : Nat) : Prop := ∃ b, t.blackbox.getLast? = some b ∧ b.kind = 6 ∧ b.cause = BitVec.ofNat 8 cause
      ((∃ p ∈ all, s.stoppable p.1 p.2 = false) → exec (.clusterPreemption cid) s = .next s)
      ∧ ((∀ p ∈ all, s.stoppable p.1 p.2 = true) →
        (s.bar0.ctxsize.toNat < need → ∃ t, exec (.clusterPreemption cid) s = .next t ∧ boxed t 1
          ∧ ∀ p ∈ all, ∃ d, t.cluster p.1 = some d ∧ { d with spared := p.2.spared } = p.2)
        ∧ (need ≤ s.bar0.ctxsize.toNat → ∃ t, exec (.clusterPreemption cid) s = .next t ∧ boxed t 0
          ∧ ∀ p ∈ all, ∃ d, t.cluster p.1 = some d ∧ d.place = none ∧ p.2.place = some d.home
            ∧ d.saved = saveBytes g.launch ∧ d.quads = p.2.quads ∧ d.bars = p.2.bars)))
  ∧ (∀ (s : State) (cid : Nat) (c : Cluster), s.cluster cid = some c → s.isSplit c.grid → s.running cid = false)
  ∧ (∀ (s : State) (cid row col : Nat) (c : Cluster) (g : Grid), s.cluster cid = some c → s.grid c.grid = some g →
      s.cpRuns = true → c.place = none → g.abort = none → s.hostPreempts g = false → g.launch.cores = true → g.oneByOne = false →
      (s.clusters.map (·.1)).Nodup →
      let saved := (s.clustersOf c.grid).filter fun p => p.2.place.isNone
      let other : Prop := (∃ k ∈ s.grids.map (·.1), s.isSplit k) ∧ ¬s.isSplit c.grid
      (other ∨ s.coresResume g.launch saved (row, col) = none → exec (.clusterResume cid row col) s = .next s)
      ∧ (¬other → ∀ ps, s.coresResume g.launch saved (row, col) = some ps → ps.map (·.1) = saved
          ∧ (∀ p ∈ ps, s.slotFree g.launch p.2 = true) ∧ (s.isSplit c.grid → ∀ p ∈ ps, p.2 = p.1.2.home)
          ∧ (¬s.isSplit c.grid → g.launch.detPlace = true → ∀ p ∈ ps, p.2 = detAnchor g.launch p.1.2.index)
          ∧ ∃ t, exec (.clusterResume cid row col) s = .next t
            ∧ (∀ p ∈ ps, ∃ d, t.cluster p.1.1 = some d ∧ d.place = some p.2 ∧ d.saved = 0 ∧ d.quads = p.1.2.quads
                ∧ d.bars = p.1.2.bars)
            ∧ ∀ k, (∀ p ∈ ps, p.1.1 ≠ k) → t.cluster k = s.cluster k))
  ∧ (∀ (s : State) (cid : Nat), s.outranked cid = true →
      ∃ p ∈ s.clusters, p.1 = cid ∧ p.2.place.isSome = true ∧ ∃ g hid h freed, s.grid p.2.grid = some g ∧ (hid, h) ∈ s.grids
        ∧ p.2.grid ≠ hid ∧ s.waitsForSlot hid h = true ∧ g.abort = none
        ∧ (g.launch.prio < h.launch.prio ∨ g.launch.prio = h.launch.prio ∧ g.preempt ≠ 0)
        ∧ cid ∈ freed ∧ s.fitsIn h.launch (s.nextBatch hid h) freed = true
        ∧ ∃ fewer, (∀ k ∈ fewer, k ∈ freed) ∧ cid ∉ fewer ∧ s.fitsIn h.launch (s.nextBatch hid h) fewer = false)
  ∧ (∀ (s : State) (cid hid : Nat) (c : Cluster) (g h : Grid), s.clusters = [(cid, c)] → c.place.isSome = true →
      s.grid c.grid = some g → (hid, h) ∈ s.grids → c.grid ≠ hid → g.abort = none → g.launch.prio < h.launch.prio →
      s.waitsForSlot hid h = true → s.fitsIn h.launch (s.nextBatch hid h) [cid] = true → s.outranked cid = true)
  ∧ (∀ s : State, (s.clusters.map (·.1)).Nodup → (∀ p ∈ s.clusters, (s.grid p.2.grid).isSome = true
        ∧ ∀ a, p.2.place = some a → p.2.saved = 0 ∧ quadNum a < 384) → (∀ x ∈ s.slots, x.preempt = false) →
      ∃ (t : State) (order : List (Nat × Nat)) (k : Nat), exec .freezeSaveAll s = .next t ∧ t.frozen = true
        ∧ (∀ n cid, (n, cid) ∈ order ↔ ∃ c, s.cluster cid = some c ∧ c.place.map quadNum = some n)
        ∧ order.Pairwise (fun a b => a.1 ≤ b.1) ∧ order.Nodup ∧ k ≤ order.length
        ∧ (let size (p : Nat × Nat) : Nat := ((s.gridOf p.2).map fun g => saveBytes g.launch).getD 0
          let used (j : Nat) : Nat := s.poolUsed + ((order.take j).map size).sum
          (∀ j, j ≤ k → 0 < j → used j ≤ s.bar0.ctxsize.toNat)
          ∧ (∀ p ∈ order.take k, ∃ d, t.cluster p.2 = some d ∧ d.place = none ∧ d.saved = size p ∧ d.home.1 * 24 + d.home.2 = p.1)
          ∧ (∀ cid, cid ∉ (order.take k).map (·.2) → t.cluster cid = s.cluster cid)
          ∧ (k = order.length → t.bar0.frzstat = 2 ∧ t.saving = false)
          ∧ ∀ p, order[k]? = some p →
              (s.bar0.ctxsize.toNat < used k + size p → t.bar0.frzstat = 6 ∧ t.saving = false
                ∧ ∃ b, t.blackbox.getLast? = some b ∧ b.kind = 6 ∧ b.cause = 1 ∧ b.unit = BitVec.ofNat 16 p.1)
              ∧ (used k + size p ≤ s.bar0.ctxsize.toNat → t.bar0.frzstat = 1 ∧ t.saving = true
                ∧ ∀ c, t.cluster p.2 = some c → t.stoppable p.2 c = false)))
  ∧ ∀ (s : State) (cid row col : Nat) (c : Cluster) (g : Grid), s.cluster cid = some c → s.grid c.grid = some g →
      s.cpRuns = true → c.place = none → g.abort = none → s.hostPreempts g = false → g.launch.cores = false →
      let higher : Prop := ∀ p ∈ s.clustersOf c.grid, p.2.place = none → c.index ≤ p.2.index
      let split : Prop := ∃ k ∈ s.grids.map (·.1), s.isSplit k
      let mayGo : Prop := ¬split ∧ higher ∧ s.slotFree g.launch (row, col) = true
        ∧ (g.launch.detPlace = true → (row, col) = detAnchor g.launch c.index)
      (¬mayGo → ∃ t, exec (.clusterResume cid row col) s = .next t ∧ ∀ k, t.cluster k = s.cluster k)
      ∧ (mayGo → ∃ t d, exec (.clusterResume cid row col) s = .next t ∧ t.cluster cid = some d ∧ d.place = some (row, col)
          ∧ d.saved = 0 ∧ d.quads = c.quads ∧ d.bars = c.bars ∧ d.index = c.index ∧ d.result = c.result
          ∧ (∀ k : Nat, (d.teams[k]?).map (fun x : Team => (x.window, x.bars, x.queues)) = (c.teams[k]?).map fun x : Team => (x.window, x.bars, x.queues))
          ∧ (∀ (l : LaneRef), l.cid = cid → t.lane l = (s.lane l).map fun x => { x with acqAt := s.tick, lpr := none })
          ∧ (∀ (gr : GroupRef), gr.cid = cid → t.group gr = (s.group gr).map fun x => { x with
              cached := 0, dirty := 0, lanes := x.lanes.map fun y => { y with acqAt := s.tick, lpr := none } })
          ∧ (∃ h, t.grid c.grid = some h ∧ h = { g with held := 0, preempt := 0 })
          ∧ (∀ k, k ≠ cid → t.cluster k = s.cluster k) ∧ ∀ a, Mem.read t.mem a = Mem.read s.mem a)

/-! ### Store digests (R190, R338 to R341) -/

namespace Sys2Proof.Machine

open Sys2Proof

/-- The record of one aligned 8-byte word at a: a nibble of the mask for each nibble of which a bit is written, and the written bits;
none where nothing is written (R339). byte j is byte j of the word. -/
def IsRecord (a : Nat) (byte : Nat → MByte) (rs : List StoreRecord) : Prop :=
  ∃ (m : BitVec 16) (x : DWord),
    (∀ k, k < 16 → (m.getLsbD k = true ↔ ∃ i, i < 4 ∧ (byte (k / 2)).mask.getLsbD (4 * (k % 2) + i) = true))
    ∧ (∀ k, k < 64 → (x.getLsbD k = true ↔ (byte (k / 8)).mask.getLsbD (k % 8) = true ∧ (byte (k / 8)).val.getLsbD (k % 8) = true))
    ∧ rs = if m = 0 then [] else [(BitVec.ofNat 64 a, m, x)]

/-- A stream under the records of a list: a record's address, mask and data are each added and mixed in (R339). -/
def streamOf (st : DWord) (rs : List StoreRecord) : DWord :=
  rs.foldl (fun st r => mix (mix (mix (st ^^^ r.1) ^^^ r.2.1.zeroExtend 64) ^^^ r.2.2)) st

end Sys2Proof.Machine

/-- R338 to R340: a store makes a record of each aligned word in which it writes a bit, in ascending address; a STG or STN that is
accepted folds them into its lane's store stream, where its grid keeps digests, and a failing one folds nothing; a copy command's records
enter the copy stream once every earlier command of the lane has ended, and a task's the quad's stream once every earlier one has; the
task digest mixes the digests of the lanes, cores and groups ascending, and then the quads' streams. -/
def Obligations.DigestStreams : Prop :=
  (∀ v : DWord, let v1 := (v ^^^ (v >>> 31)) * 0xB7E34C1D92A5F06B
    let v2 := (v1 ^^^ (v1 >>> 29)) * 0x5C2F89D3E14B6A27
    mix v = v2 ^^^ (v2 >>> 32))
  ∧ (∀ (a : Nat) (bs : List MByte), a < 2 ^ 56 → ∃ rs : Nat → List StoreRecord,
      storeRecords a bs = (List.range ((a % 8 + bs.length + 7) / 8)).flatMap rs
      ∧ ∀ k, k < (a % 8 + bs.length + 7) / 8 → IsRecord ((a - a % 8 + 8 * k) % 2 ^ 56)
          (fun j => if 8 * k + j < a % 8 then ⟨0, 0⟩ else bs.getD (8 * k + j - a % 8) ⟨0, 0⟩) (rs k))
  ∧ (∀ (h : Hd) (v md : BitVec 4) (sc : BitVec 3) (a b c : Code) (imm : BitVec 32) (masked : Bool) (s : State) (u : Issue)
      (g : GroupRef) (n : Nat) (x : Lane),
      let i : Instr := if masked then .stn h v md sc a b c imm else .stg h v md sc a b imm
      u.engine = .lane g → u.run = [n] → Ready i s u → Member i s u n → s.Numbered → s.resumed u i = [] →
      s.lane (g.at n) = some x →
      let th : Thread := .lane (g.at n)
      let va := addrOf s th a imm
      let size := widthBytes v
      let bits (j : Nat) : Bool := (s.reg32 th c).getLsbD j
      let data : List MByte := (List.range size).map fun j => if masked then
          ⟨(if bits (2 * j) then 0x0F else 0) ||| (if bits (2 * j + 1) then 0xF0 else 0), byteOf s th b j⟩
        else ⟨0xFF, byteOf s th b j⟩
      let after (t : State) : Option DWord := (t.lane (g.at n)).map (·.st)
      let misaligned : Prop := va % (if masked then 4 else size) ≠ 0
      (misaligned → ∃ t, exec i s = .next t ∧ after t = some x.st)
      ∧ ∀ p, ¬misaligned → va % 128 + size ≤ 128 →
          s.cachedPage (g.at n) (fun p => p.cls != .combining) va true = some p → p.peer = none →
          ∃ t, exec i s = .next t ∧ after t = some (if s.digestOn g.cid then streamOf x.st (storeRecords va data) else x.st))
  ∧ (∀ (s : State) (l : LaneRef) (x : Lane) (id : Nat) (recs : List StoreRecord), s.lane l = some x →
      let copies := x.copies.map fun c => if c.1 = id then (id, some recs) else c
      ∃ ended rest, copies = ended ++ rest ∧ (∀ c ∈ ended, c.2.isSome = true) ∧ (∀ c, rest.head? = some c → c.2 = none)
        ∧ (s.endCopy l id recs).lane l = some { x with
            copies := rest, cp := if s.digestOn l.cid then streamOf x.cp (ended.flatMap fun c => c.2.getD []) else x.cp })
  ∧ (∀ (x : Quad) (digest : Bool), ∃ ended rest, x.folds = ended ++ rest ∧ (∀ c ∈ ended, c.2.isSome = true)
      ∧ (∀ c, rest.head? = some c → c.2 = none)
      ∧ x.foldTasks digest = { x with
          folds := rest, tk := if digest then streamOf x.tk (ended.flatMap fun c => c.2.getD []) else x.tk })
  ∧ ∀ c : Cluster,
      let lanes := c.teams.flatMap fun t => t.groups.flatMap (·.lanes)
      let t := lanes.foldl (fun t x => mix (t ^^^ mix (x.st ^^^ mix x.cp))) 0x2F6BD1E84A93C057
      c.taskDigest = (c.quads.map (·.tk)).foldl (fun t k => mix (t ^^^ k)) t

/-! ### The host's side: registers, submission, the event ring, accesses (R141, R199, R249, R256, R292, R349 to R352, R355) -/

namespace Sys2Proof.Machine

open Sys2Proof

/-- The offsets of the registers that hold what is written to them whole (R350). -/
def plainRegisters : List Nat :=
  [0x18, 0x20, 0x28, 0x30, 0x38, 0x48, 0x58, 0x100, 0x108, 0x110, 0x118, 0x120, 0x128, 0x130, 0x138, 0x158]

/-- The offsets of the registers whose writes act: DOORBELL, PREEMPT, INVLEN, FREEZE, the nonce, ATTREQ, RESET. -/
def commandRegisters : List Nat :=
  [0x140, 0x150, 0x160, 0x180, 0x200, 0x208, 0x210, 0x218, 0x220, 0x228, 0x230, 0x340]

/-- The nodes that a walk from a root reaches without passing one that ends it, each with its bytes; every one is read without a
change of the device, so that the order of the reads does not matter (R249). -/
structure State.GraphFrom (s : State) (root : Nat) (gs : List (Nat × List Byte)) : Prop where
  first : gs.head?.map (·.1) = some root
  once : (gs.map (·.1)).Nodup
  reads : ∀ p ∈ gs, p.1 % 64 = 0 ∧ s.nodeBytes p.1 2 = (s, some p.2) ∧ bytesField p.2 4 4 ≠ 1
  reached : ∀ (i : Nat) p, gs[i]? = some p → 0 < i → ∃ (j : Nat) (q : Nat × List Byte), j < i ∧ gs[j]? = some q ∧ p.1 ∈ nodeNext q.2

/-- A successor of the graph at which the walk ends: misaligned, or one that does not translate, or a node that runs (R249). -/
def State.endsWalk (s : State) (gs : List (Nat × List Byte)) (a : Nat) (bad : Bool) : Prop :=
  (∃ p ∈ gs, a ∈ nodeNext p.2) ∧ a ∉ gs.map (·.1)
    ∧ if bad then a % 64 ≠ 0 ∨ s.nodeBytes a 2 = (s, none)
      else a % 64 = 0 ∧ ∃ bs, s.nodeBytes a 2 = (s, some bs) ∧ bytesField bs 4 4 = 1

/-- The physical bytes that a submission resets: STATUS of every node, and RESULT of every LAUNCH node (R249). -/
def ResetBytes (gs : List (Nat × List Byte)) (at' : Nat → Nat) (x : Nat) : Prop :=
  ∃ p ∈ gs, (at' (p.1 + 4) ≤ x ∧ x < at' (p.1 + 4) + 4)
    ∨ bytesField p.2 0 1 = 1 ∧ at' (p.1 + 0x70) ≤ x ∧ x < at' (p.1 + 0x70) + 8

/-- Every node may be written where at' says, on marked pages of this device whose table entries are none of the bytes that a
submission resets. -/
def State.mayReset (s : State) (gs : List (Nat × List Byte)) (at' : Nat → Nat) : Prop :=
  ∀ p ∈ gs, ∀ off ∈ [4, 0x70], ∃ q : Page, q.peer = none ∧ q.pa ((p.1 + off) % 2 ^ 56) = at' (p.1 + off)
    ∧ ∀ m, Mem.wf m = true → (∀ x, ¬ResetBytes gs at' x → Mem.read m x = Mem.read s.mem x) →
      { s with mem := m }.translateNode ((p.1 + off) % 2 ^ 56) true = ({ s with mem := m }, .ok q)

end Sys2Proof.Machine

/-- R256, R350, R351, R355: a register that software may write reads as written, DEVNUM and EVCTL without their reserved
bits, PEERTO not below 1,300; no other register changes with it; every other offset ignores writes; DOORBELL, PREEMPT,
INVLEN, FREEZE, ATTREQ and RESET act as their steps do. PREEMPT names the clusters of its graphs that are resident. That a graph
with none has nothing to stop (log 75), the order of the two numbers at 0x98 (log 46), what is hashed and signed (log 71), and that
ATTREQ does nothing while the firmware does not run (log 96) are the model's choices. -/
def Obligations.ControlRegisters : Prop :=
  ∀ (s : State) (off : Nat) (v : DWord), s.powered = true → s.bar0.slots.length = 8 →
    let i : Instr := .registerWrite off v
    let holds (x : DWord) : Prop := ∃ t, exec i s = .next t ∧ t.registerRead off = x
      ∧ (∀ o, o ≠ off → t.registerRead o = s.registerRead o) ∧ Only { device := fun x => { x with bar0 := Bar0.reset } } s t
    (off ∈ plainRegisters → holds v)
    ∧ (off = 0x10 → holds (v &&& 0x80003FFF)) ∧ (off = 0x50 → holds (v &&& 0x8000001F))
    ∧ (off = 0x40 → holds (if v.toNat < 1300 then 1300 else v))
    ∧ (off ∉ plainRegisters → off ∉ [0x10, 0x40, 0x50] → off ∉ commandRegisters → exec i s = .next s)
    ∧ (off = 0x140 → ∀ n : Fin 8, n.val = v.toNat % 8 → exec i s = exec (.doorbell n) s)
    ∧ (off = 0x150 → exec i s = exec (.preempt v) s) ∧ (off = 0x160 → exec i s = exec (.invlen v) s)
    ∧ (off = 0x180 → (v = 1 → exec i s = exec .freeze s) ∧ (v = 2 → exec i s = exec .freezeSaveAll s) ∧ (v = 3 → exec i s = exec .freezeResume s))
    ∧ (off = 0x230 → exec i s = exec .attreq s) ∧ (off = 0x340 → v = 1 → exec i s = exec .warmReset s)
    ∧ (let named (k : Nat) : Prop := k < 8 ∧ (v.toNat.testBit 8 = true ∨ k = v.toNat % 8)
       let ofSlot (k : Nat) (c : Cluster) : Prop := c.place.isSome = true ∧ ∃ g, s.grid c.grid = some g ∧ g.node.slot.val = k
       ∃ t, exec (.preempt v) s = .next t
        ∧ Only { device := fun x => { x with slots := [] }, cluster := fun c => { c with spared := false } } s t
        ∧ (∀ (k : Nat) (x : Slot), s.slots[k]? = some x →
            ((named k ∧ ∃ p ∈ s.clusters, ofSlot k p.2) → t.slots[k]? = some { x with preempt := true })
            ∧ (¬(named k ∧ ∃ p ∈ s.clusters, ofSlot k p.2) → t.slots[k]? = some x))
        ∧ ∀ (cid : Nat) (c : Cluster), s.cluster cid = some c →
            ((∃ k, named k ∧ ofSlot k c) → t.cluster cid = some { c with spared := false })
            ∧ ((¬∃ k, named k ∧ ofSlot k c) → t.cluster cid = some c))
    ∧ (let lo := s.bar0.invstart.toNat
       (lo % 2 ^ 14 = 0 → v.toNat % 2 ^ 14 = 0 → ∃ t, exec (.invlen v) s = .next t ∧ t.registerRead 0x168 = 1
         ∧ t.invalidations = s.invalidations ++ [⟨s.nextId, lo % 2 ^ 56, lo % 2 ^ 56 + v.toNat, true, false, []⟩])
       ∧ (lo % 2 ^ 14 ≠ 0 ∨ v.toNat % 2 ^ 14 ≠ 0 → ∃ t, exec (.invlen v) s = .next t
         ∧ t.registerRead 0x168 = s.registerRead 0x168 ||| 2 ∧ t.invalidations = s.invalidations))
    ∧ (s.bar0.fwstat.toNat % 4 ≠ 1 → exec .attreq s = .next s)
    ∧ (s.bar0.fwstat.toNat % 4 = 1 → ∃ t, exec .attreq s = .next t ∧ t.registerRead 0x238 = 1
        ∧ t.registerRead 0x1000 = 0x1000001 ∧ t.bar0.attReport.length = 1024
        ∧ (s.bar0.nonce.length = 48 → (t.bar0.attReport.drop 8).take 48 = s.bar0.nonce)
        ∧ (t.bar0.attReport.drop 0xA0).take 96 = fit 96 (identitySign s.tick (t.bar0.attReport.take 0xA0))
        ∧ (t.bar0.attReport.drop 0x38).take 48 = fit 48 firmwareHash ∧ (t.bar0.attReport.drop 0x68).take 48 = fit 48 configHash
        ∧ t.bar0.attReport.drop 0x100 = fit 0x300 Config.certificate
        ∧ Only { device := fun x => { x with bar0 := Bar0.reset } } s t)

/-- R247, R249, R351: DOORBELL rejects a slot that runs or has rung, a root or a successor that is not a multiple of 64 or does
not translate, whose address the black box keeps, and a graph through a node that runs; otherwise it writes STATUS := PENDING at
every node and RESULT := 0 at every LAUNCH node, and nothing else, latches the root and sets the slot to running. Stated of graphs
whose nodes' pages the tables give and have marked. That a rejected root is a transition of R356 (log 40), and that a doorbell waits
while the command processor does not run (log 50, log 72), are the model's choices. -/
def Obligations.GraphsAreSubmitted : Prop :=
  ∀ (s : State) (slot : Fin 8) (x : Slot), s.slots[slot.val]? = some x → s.bar0.slots.length = 8 →
    s.bar0.slotstat.length = 8 →
    let latched := (s.bar0.slots.getD slot.val 0).toNat
    let root := latched % 2 ^ 56
    let stat (t : State) : Option (BitVec 4) := t.bar0.slotstat[slot.val]?
    let rejects (P : State → Prop) : Prop := ∃ t, exec (.doorbell slot) s = .next t ∧ stat t = some 4 ∧ t.slots = s.slots ∧ P t
    let runs (P : State → Slot → Prop) : Prop := ∃ t y, exec (.doorbell slot) s = .next t ∧ stat t = some 1
      ∧ t.slots[slot.val]? = some y ∧ y.root = latched ∧ y.running = true ∧ y.failed = false ∧ y.preempt = false
      ∧ y.rung = false ∧ (∀ z ∈ y.nodes, z.stage = .pending ∧ z.arrivals = 0 ∧ z.normal = false)
      ∧ (∀ k, k ≠ slot.val → t.slots[k]? = s.slots[k]?) ∧ P t y
    (x.running = true ∨ x.rung = true → rejects (SameMemory s))
    ∧ (s.cpRuns = false → x.running = false → x.rung = false → ∃ t, exec (.doorbell slot) s = .next t ∧ stat t = some 1
        ∧ t.slots[slot.val]? = some { x with root := latched, rung := true } ∧ (∀ k, k ≠ slot.val → t.slots[k]? = s.slots[k]?)
        ∧ SameMemory s t)
    ∧ (s.cpRuns = true → x.running = false → x.rung = false →
      (root % 64 ≠ 0 → rejects fun t => Boxed t 0 root ∧ SameMemory s t)
      ∧ (root % 64 = 0 → ∀ s' r, s.nodeBytes root 2 = (s', r) →
        (r = none → rejects fun t => Boxed t 0 root ∧ SameMemory s' t)
        ∧ ∀ bs, r = some bs → bytesField bs 4 4 = 1 → rejects (SameMemory s'))
      ∧ ∀ gs, s.GraphFrom root gs →
        ((∀ p ∈ gs, ∀ a ∈ nodeNext p.2, a ∈ gs.map (·.1)) →
          (runs fun _ y => (y.nodes.map (·.addr)).Nodup ∧ ∀ a bs, (∃ z ∈ y.nodes, z.addr = a ∧ z.image = bs) ↔ (a, bs) ∈ gs)
          ∧ ∀ at', s.mayReset gs at' → Mem.wf s.mem = true → (∀ line, s.ownerOf line = none) →
            runs fun t _ => ∀ a, (ResetBytes gs at' a → Mem.read t.mem a = 0)
              ∧ (¬ResetBytes gs at' a → Mem.read t.mem a = Mem.read s.mem a))
        ∧ ((∀ p ∈ gs, ∀ a ∈ nodeNext p.2, a ∈ gs.map (·.1) ∨ s.endsWalk gs a true ∨ s.endsWalk gs a false) →
          (∃ a bad, s.endsWalk gs a bad) → rejects fun t => SameMemory s t
            ∧ ∃ a bad, s.endsWalk gs a bad ∧ if bad then Boxed t 0 a else t.blackbox = s.blackbox))

/-- R141, R199, R292, R349, R352, R356: the oldest event that may be written goes to the ring where it has room, payload, INFO
with its phase, source and count, its sender goes on, and the black box keeps a sender's event; a host access reads or writes at
the home; a prefetch of the hardware fills a line, or is dropped and counted; BAR4 shows the records of the ring. That an access
waits while a batch has performed in part (log 69), the record's layout (log 67), that SOURCE is formed as the entry is written
(log 34), where BAR4 shows a record (log 74), that the host's own memory stands at 2^47 and above (log 45), and that a prefetch fills
its line within its step (log 18) are the model's choices. -/
def Obligations.HostTraffic : Prop :=
  (∀ (s : State) (e : HostEvent) (rest : List HostEvent), s.powered = true → s.hostEvents = e :: rest →
    let k := s.bar0.evctl.toNat % 32
    let size := 2 ^ k
    let tail := s.bar0.evtail.toNat
    let enabled : Prop := s.bar0.evctl.toNat.testBit 31 = true ∧ 6 ≤ k ∧ k ≤ 16
    let full : Prop := (s.bar0.evtail - s.bar0.evhead).toNat = size
    let pa := 2 ^ 47 + s.bar0.evbase.toNat + 32 * (tail % size)
    let boxed (source : Word) (t : State) : Prop := t.bbSeq = s.bbSeq + 1
      ∧ t.blackbox.getLast? = some ⟨s.bbSeq + 1, 9, 0, BitVec.ofNat 16 (source.toNat % 2048), s.cpCycle.truncate 32,
          BitVec.ofNat 128 (e.payload.toNat + 2 ^ 64 * (e.info.toNat % 256) + 2 ^ 96 * source.toNat)⟩
    let writes (source : Word) (P : State → Prop) : Prop := ∃ t, exec .eventRingWrite s = .next t ∧ t.hostEvents = rest
      ∧ t.registerRead 0x60 = s.registerRead 0x60 + 1
      ∧ t.homeNat pa 8 = e.payload.toNat ∧ t.homeNat (pa + 8) 4 = (e.info ||| (if tail / size % 2 = 0 then 0x80000000 else 0)).toNat
      ∧ t.homeNat (pa + 12) 4 = source.toNat ∧ t.homeNat (pa + 16) 8 = (s.ringSeq + 1).toNat ∧ t.homeNat (pa + 24) 8 = 0
      ∧ (∀ a, a < pa ∨ pa + 32 ≤ a → Mem.read t.mem a = Mem.read s.mem a) ∧ P t
    (¬enabled ∨ full → exec .eventRingWrite s = .next s)
    ∧ (enabled → ¬full → s.bar0.evbase.toNat % 4096 = 0 → s.bar0.evbase.toNat < 2 ^ 47 →
      (e.sender = none → writes e.source fun t => (∀ c, t.cluster c = s.cluster c) ∧ t.blackbox = s.blackbox)
      ∧ (∀ l x, e.sender = some (.lane l) → s.lane l = some x → s.performed l 5 = true → writes (s.laneSource l) fun t =>
          boxed (s.laneSource l) t ∧ t.lane l = some { x with wait := .ready, pc := x.next, pass := 0 } ∧ ∀ m, m ≠ l → t.lane m = s.lane m)
      ∧ (∀ l, e.sender = some (.lane l) → rest = [] → s.performed l 5 = false → exec .eventRingWrite s = .next s)
      ∧ ∀ q x, e.sender = some (.control q) → s.quad q = some x → writes (s.controlSource q) fun t =>
          boxed (s.controlSource q) t ∧ t.quad q = some { x with control := { x.control with wait := .run, pc := x.control.next } }))
  ∧ (∀ (s : State) (off n : Nat) (d : List Byte), s.powered = true →
      (s.unsplit = false → exec (.hostAccess (.read off n)) s = .next s ∧ exec (.hostAccess (.write off d)) s = .next s)
      ∧ (s.unsplit = true → let reaches (len : Nat) : Prop := off + len ≤ 384 * 2 ^ 30 ∨ 2 ^ 47 ≤ off ∧ off + len ≤ 2 ^ 48
      (¬reaches n → exec (.hostAccess (.read off n)) s = .next s)
      ∧ ((∀ line, s.ownerOf line = none) → exec (.hostAccess (.read off n)) s = .next s)
      ∧ (reaches n → 1 ≤ n → off % 128 + n ≤ 128 → exec (.hostAccess (.read off n)) s = exec (.lineRecall (lineOf off)) s)
      ∧ (¬reaches d.length → exec (.hostAccess (.write off d)) s = .next s)
      ∧ (reaches d.length → ∃ t, exec (.hostAccess (.write off d)) s = .next t
          ∧ (∀ (j : Nat) b, d[j]? = some b → Mem.read t.mem (off + j) = b)
          ∧ ((∀ line, s.ownerOf line = none) → ∀ a, a < off ∨ off + d.length ≤ a → Mem.read t.mem a = Mem.read s.mem a))))
  ∧ (∀ s : State,
      (∀ r ∈ s.blackbox, (∀ q ∈ s.blackbox, (q.seq.toNat + 2047) % 2048 = (r.seq.toNat + 2047) % 2048 → q = r) →
        let b (i : Nat) : Byte := (s.bar4 (32 * ((r.seq.toNat + 2047) % 2048)) 32).getD i 0
        spelt b 0 8 = r.seq.toNat ∧ b 8 = r.kind ∧ b 9 = r.cause ∧ spelt b 10 2 = r.unit.toNat ∧ spelt b 12 4 = r.cycle.toNat
          ∧ spelt b 16 16 = r.detail.toNat)
      ∧ ∀ n, n < 2048 → (∀ r ∈ s.blackbox, (r.seq.toNat + 2047) % 2048 ≠ n) → s.bar4 (32 * n) 32 = List.replicate 32 0)
  ∧ ∀ (s : State) (core va : Nat) (fill : Bool), (s.core core).tlb = [] → (∀ line, s.ownerOf line = none) →
      let i : Instr := .hardwarePrefetch core va fill
      let dropped : Prop := ∃ t, exec i s = .next t ∧ (t.core core).counters.get 0 4 = (s.core core).counters.get 0 4 + 1
        ∧ Only { device := fun x => { x with cores := [] } } s t
      ((∀ p, (s.freshWalk va).out ≠ .mapped p) → dropped)
      ∧ ∀ p, (s.freshWalk va).out = .mapped p →
        let split := s.lineSplit (lineOf (p.pa va))
        (p.peer.isSome = true ∨ fill = true ∧ split = true → dropped)
        ∧ (p.peer = none → fill = false ∨ p.noL1 = true ∧ split = false → exec i s = .next s)
        ∧ (p.peer = none → fill = true → p.noL1 = false → split = false → s.reqs = [] →
          let line := lineOf (p.pa va)
          let at' := s.l1At core line
          (s.core at').l1.length < 1024 → ∃ t x, exec i s = .next t ∧ (t.core at').l1.find line = some x ∧ x.owned = false ∧ x.filledAt = s.tick
            ∧ (∀ j, j < 128 → x.bytes[j]? = some (Mem.read s.mem (128 * line + j)))
            ∧ (∀ n k, n ≠ at' ∨ k ≠ line → (t.core n).l1.find k = (s.core n).l1.find k)
            ∧ Only { device := fun x => { x with cores := [] } } s t)

/-! ### Checks, freezing, resets, power and links (R300, R301, R355 to R358) -/

namespace Sys2Proof.Machine

open Sys2Proof

/-- Host memory as before, and nothing of device memory. -/
def HostMemoryOnly (s t : State) : Prop := ∀ a, Mem.read t.mem a = if 2 ^ 47 ≤ a then Mem.read s.mem a else 0

/-- The boot ROM's verdict on the firmware image: verified and not below the anti-rollback counter. -/
def imageAccepted : Prop := signatureOk = true ∧ Config.rollbackCounter.toNat ≤ imageVersion.toNat

/-- The device booted: FWSTAT says whether the image runs, and its version. -/
def Boots (t : State) : Prop :=
  t.bar0 = { Bar0.reset with fwstat := t.bar0.fwstat }
    ∧ (imageAccepted → t.bar0.fwstat.toNat = 1 + imageVersion.toNat * 2 ^ 16)
    ∧ (¬imageAccepted → t.bar0.fwstat.toNat = 2 + imageVersion.toNat * 2 ^ 16)
    ∧ ∃ b, t.blackbox.getLast? = some b ∧ b.kind = 12

/-- What a reset leaves beside memory, BAR0, the black box, and the model's own counters and agenda (log 1). -/
def State.restOf (x : State) : State :=
  { x with mem := [], bar0 := Bar0.reset, blackbox := [], bbSeq := 0, tick := 0, nextId := 1, agenda := [] }

end Sys2Proof.Machine

/-- R298, R300, R301, R350, R356, R357: an error that an agent of a grid reads, or that meets a context's restoration, is to end
that grid, and the agent's request is gone before it has used the data; in a wave every lane's request is gone, a peer's is
rejected, and a node's ends FAULT, and where all are peers' there is no machine check; an error with no reader is logged, and stands in its
line for the next read; any other freezes the device. FREEZE stops the device, resumption lets it go on; a throttling episode is
recorded where it starts and ends; a thermal trip freezes the device and removes its power. What becomes of a request, and of a wave
that serves several, is the model's choice (log 81). -/
def Obligations.ChecksAndFreezing : Prop :=
  ∀ s : State,
    let boxed (t : State) (kind : Byte) : Prop := ∃ b, t.blackbox.getLast? = some b ∧ b.kind = kind
    let logs (t : State) : Prop := t.registerRead 0x318 = s.registerRead 0x318 + 1
    let boxes : Erase := { device := fun x => { x with
      blackbox := [], bbSeq := 0, frozen := false, powered := false, throttled := false, saving := false, grids := [], reqs := []
      bar0 := { x.bar0 with uec := 0, lasterr := [], frzstat := 0 } } }
    let checked (t : State) (gid : Nat) (g : Grid) : Prop := ∃ h a, t.grid gid = some h ∧ h.abort = some a
      ∧ (g.abort = none → a.machineCheck = true) ∧ (∀ b, g.abort = some b → a = b) ∧ h = { g with abort := some a }
    let ends (t : State) (gid : Nat) (g : Grid) (apart : Req → Prop) : Prop := logs t ∧ boxed t 2 ∧ checked t gid g ∧ t.frozen = s.frozen
      ∧ (∀ k, k ≠ gid → t.grid k = s.grid k) ∧ (∀ r ∈ s.reqs, s.ofGrid gid r = false → apart r → r ∈ t.reqs)
      ∧ ∀ q ∈ t.reqs, t.ofGrid gid q = true → q.hasLeft = true
    (∀ gid g, s.grid gid = some g → ∃ t, exec (.machineCheck (.restoring gid)) s = .next t ∧ Only boxes s t ∧ ends t gid g fun _ => True)
    ∧ (∀ cid c g, s.cluster cid = some c → s.grid c.grid = some g →
        ∃ t, exec (.machineCheck (.readBy (.engine cid))) s = .next t ∧ Only boxes s t ∧ ends t c.grid g fun _ => True)
    ∧ (∀ id r c g, s.req id = some r → (r.owner.cid.bind s.cluster) = some c → s.grid c.grid = some g → s.inWave id = false →
        ∃ t, exec (.machineCheck (.readBy (.request id))) s = .next t ∧ t.req id = none
          ∧ ends t c.grid g (fun q => q.id ≠ id ∧ (∀ j n, q.kind ≠ .corner id j n) ∧ ∀ j v, q.kind ≠ .scatterPart id j v)
          ∧ Only { boxes with slice := fun x => { x with waiting := [], queues := [], split := [] } } s t
          ∧ (∀ n, ∀ b ∈ (t.sliceAt n).waiting, ∀ p ∈ b.reqs, p.1 ≠ id)
          ∧ (∀ n, ∀ q ∈ (t.sliceAt n).queues, ∀ k ∈ q.2, k.req ≠ id)
          ∧ ∀ (l : LaneRef) h a, r.owner = .lane l → g.abort = none → t.grid c.grid = some h → h.abort = some a →
              a.addr = BitVec.ofNat 64 (r.vas.head?.getD 0) ∧ a.core = s.coreOf l.cid l.team ∧ a.group = l.group)
    ∧ (∀ id, s.req id = none ∨ s.inWave id = true ∨ (∃ r, s.req id = some r ∧ r.owner.cid = none) →
        exec (.machineCheck (.readBy (.request id))) s = .next s)
    ∧ (∀ slice w, (s.sliceAt slice).wave = some w → (∀ q ∈ w.reqs, ∀ r, s.req q.req = some r → r.kind.queued = true) → ∃ t, exec (.machineCheck (.readBy (.wave slice))) s = .next t
        ∧ (let peer (q : QueuedReq) : Bool := ((s.req q.req).map fun r => match r.owner with | .peer _ _ => true | _ => false).getD false
           let own : Prop := ∃ q ∈ w.reqs, (s.req q.req).isSome = true ∧ peer q = false
           let counts (n : Nat) : Prop := (w.reqs.map (·.req)).Nodup →
            t.registerRead 0x318 = s.registerRead 0x318 + BitVec.ofNat 64 (n + w.reqs.countP peer)
           (own → counts 1) ∧ (¬own → counts 0 ∧ t.grids = s.grids ∧ ∀ b ∈ t.blackbox, b ∈ s.blackbox ∨ b.kind = 3))
        ∧ (t.sliceAt slice).wave = none
        ∧ (∀ a, Mem.read t.mem a = Mem.read s.mem a)
        ∧ (∀ q ∈ w.reqs, ∀ r (l : LaneRef) c g, s.req q.req = some r → r.owner = .lane l → s.cluster l.cid = some c →
            s.grid c.grid = some g → t.req q.req = none ∧ ∃ h a, t.grid c.grid = some h ∧ h.abort = some a)
        ∧ (∀ q ∈ w.reqs, ∀ r dev seq, s.req q.req = some r → r.owner = .peer dev seq → t.req q.req = none
            ∧ ⟨dev, seq, false, []⟩ ∈ t.peerReplies)
        ∧ (∀ q ∈ w.reqs, ∀ r n y, s.req q.req = some r → r.owner = .node n → s.node n = some y → t.req q.req = none
            ∧ t.node n = some { y with stage := .ending 0x13 none }))
    ∧ (∀ line, ∃ t, exec (.machineCheck (.noReader line)) s = .next t
        ∧ Only { boxes with device := fun x => { boxes.device x with bad := [] } } s t ∧ logs t ∧ boxed t 2 ∧ t.grids = s.grids
        ∧ t.reqs = s.reqs ∧ t.frozen = s.frozen ∧ ∀ a, a ∈ t.bad ↔ a ∈ s.bad ∨ lineOf a = line)
    ∧ (∃ t, exec (.machineCheck .unattributed) s = .next t ∧ Only boxes s t ∧ logs t ∧ boxed t 2 ∧ t.frozen = true
        ∧ t.registerRead 0x188 = 1 ∧ t.grids = s.grids ∧ t.reqs = s.reqs)
    ∧ (∃ t, exec .freeze s = .next t ∧ Only boxes s t ∧ t.frozen = true ∧ t.registerRead 0x188 = 1 ∧ t.grids = s.grids
        ∧ t.powered = s.powered ∧ t.blackbox = s.blackbox ∧ t.reqs = s.reqs)
    ∧ (∃ t, exec .freezeResume s = .next t ∧ Only boxes s t ∧ t.frozen = false ∧ t.saving = false ∧ t.registerRead 0x188 = 0
        ∧ t.grids = s.grids ∧ t.powered = s.powered ∧ t.blackbox = s.blackbox ∧ t.reqs = s.reqs)
    ∧ (∀ on, s.powered = true → s.throttled ≠ on → ∃ t, exec (.throttle on) s = .next t ∧ Only boxes s t
        ∧ t.throttled = on ∧ boxed t 10 ∧ t.grids = s.grids ∧ t.frozen = s.frozen ∧ t.powered = true ∧ t.reqs = s.reqs)
    ∧ (s.powered = true → ∃ t, exec .thermalTrip s = .next t ∧ Only boxes s t ∧ t.frozen = true ∧ t.powered = false
        ∧ boxed t 11 ∧ t.grids = s.grids ∧ t.reqs = s.reqs)

/-- R355, R358: a cold reset and the loss of power leave nothing of the device but host memory, and a cold reset boots the
firmware into an empty black box; a warm reset keeps memory and the black box, verifies the firmware again, and resets the
rest; of a port that retrains, the requests in flight get no completion any more, and no other state is lost. That device
memory does not outlive the loss of power (log 15), how a request that is lost at a retrain times out (log 29), that a throttling
episode outlives a warm reset, which drops what is in flight (log 44), and the layout of the image that the boot verifies (log 71) are
the model's choices. -/
def Obligations.Resets : Prop :=
  ∀ s : State,
    (∃ t, exec .coldReset s = .next t ∧ HostMemoryOnly s t ∧ Boots t ∧ t.blackbox.length = 1
      ∧ (∀ b, t.blackbox.getLast? = some b → b.seq = 1) ∧ t.restOf = State.reset.restOf)
    ∧ (s.powered = true → ∃ t, exec .warmReset s = .next t ∧ Boots t ∧ t.bbSeq = s.bbSeq + 1
      ∧ (s.blackbox.length < 2048 → t.blackbox.take s.blackbox.length = s.blackbox)
      ∧ ((∀ line, s.ownerOf line = none) → SameMemory s t)
      ∧ t.restOf = { State.reset.restOf with throttled := s.throttled, bad := s.bad })
    ∧ (∃ t, exec .powerRemoved s = .next t ∧ HostMemoryOnly s t ∧ t.bar0 = Bar0.reset ∧ t.blackbox = []
      ∧ t.restOf = { State.reset.restOf with powered := false })
    ∧ ∀ port : Fin 5,
      let onPort (r : Req) : Prop := r.stage = .atPeer ∧ (s.tableEntry (s.bar0.peertab.toNat + 16 * r.peer.getD 0 + 8)).toNat % 8 = port.val
      ∃ t, exec (.linkRetrain port) s = .next t ∧ Only { device := fun x => { x with reqs := [] } } s t
        ∧ t.reqs.length = s.reqs.length ∧ ∀ (k : Nat) (r : Req), s.reqs[k]? = some r →
            (onPort r → t.reqs[k]? = some { r with retrained := true }) ∧ (¬onPort r → t.reqs[k]? = some r)

/-! ### Selection (R241 to R243) -/

namespace Sys2Proof.Machine

open Sys2Proof

/-- Lane n of a group is ready, as x (R241). -/
def Group.isReady (g : Group) (n : Nat) (x : Lane) : Prop := n ∈ g.ready ∧ g.lanes[n]? = some x

/-- At least k runs hold a lane that has been passed over p times or more. -/
def Group.late (g : Group) (k p : Nat) : Prop :=
  ∃ pcs : List (BitVec 56), pcs.Nodup ∧ pcs.length = k ∧ ∀ q ∈ pcs, ∃ n x, g.isReady n x ∧ x.pc = q ∧ p ≤ x.pass

/-- Some runs could no longer all be served in time: d + 1 of them hold a lane that at most d more issues may pass over (R242). -/
def Group.isTight (g : Group) : Prop := ∃ d, d < 64 ∧ g.late (d + 1) (63 - d)

/-- Every run can still be served in time: no lane has been passed over more than 63 times, and among any d + 2 runs one may be
passed over d + 1 times more. -/
structure Group.Fair (g : Group) : Prop where
  bound : ∀ n x, g.isReady n x → x.pass ≤ 63
  room : ∀ d, d < 64 → ¬g.late (d + 2) (63 - d)

end Sys2Proof.Machine

/-- R241 to R243: the run that a group issues next is that of the lowest PC without a yield mark, or, where some runs could no
longer all be served in time, that of the lane that has been passed over most often, ties to the lowest PC; it holds every ready lane
at that PC. A selection clears the yield marks, sets the run's pass counts to 0 and adds 1 to those of the other ready lanes.
Every selection keeps every run servable in time, wherever its own lanes go and whichever lanes become ready, so that no ready lane is
ever passed over more than 63 times in a row. A port issues its oldest ready group, ties to the lower number. Stated where
no resumption is left to be issued first (R258). -/
def Obligations.RunsAreServed : Prop :=
  (∀ g : Group, g.reissue = [] → g.Fair →
    ((∀ n x, ¬g.isReady n x) → g.selection = none)
    ∧ ∀ m y, g.isReady m y → ∃ pc run, g.selection = some (pc, run) ∧ (∀ n, n ∈ run ↔ ∃ x, g.isReady n x ∧ x.pc = pc)
      ∧ (∃ n x, g.isReady n x ∧ x.pc = pc)
      ∧ (g.isTight → ∃ n x, g.isReady n x ∧ x.pc = pc
          ∧ ∀ k z, g.isReady k z → z.pass < x.pass ∨ z.pass = x.pass ∧ pc.toNat ≤ z.pc.toNat)
      ∧ (¬g.isTight → (∃ n x, g.isReady n x ∧ x.yielded = false) →
          (∃ n x, g.isReady n x ∧ x.pc = pc ∧ x.yielded = false)
          ∧ ∀ k z, g.isReady k z → z.yielded = false → pc.toNat ≤ z.pc.toNat)
      ∧ (¬g.isTight → (∀ n x, g.isReady n x → x.yielded = true) → ∀ k z, g.isReady k z → pc.toNat ≤ z.pc.toNat))
  ∧ (∀ (g : Group) (run : List Nat) (tick n : Nat) (x : Lane), g.lanes[n]? = some x →
      (g.select run tick).lanes[n]? = some { x with
        yielded := false, pass := if n ∈ g.ready ∧ n ∉ run then x.pass + 1 else 0 })
  ∧ (∀ (g h : Group) (pc : BitVec 56) (run : List Nat), g.reissue = [] → g.Fair → g.selection = some (pc, run) →
      h.lanes.length ≤ 32 →
      (∀ n x, h.isReady n x → x.pass = 0 ∨ n ∉ run ∧ ∃ y, g.isReady n y ∧ x.pc = y.pc ∧ x.pass = y.pass + 1) → h.Fair)
  ∧ (∀ l tick, (Group.start l tick).Fair)
  ∧ ∀ (s : State) (cid team port : Nat) (t : Team), s.team cid team = some t →
      let waits (n : Nat) (x : Group) : Prop := t.groups[n]? = some x ∧ n % 4 = port ∧ s.groupReady ⟨cid, team, n⟩ x = true
      ((∀ n x, ¬waits n x) → s.portGroup cid team port = none)
      ∧ ∀ n x, waits n x →
          (∀ k y, waits k y → x.lastIssue < y.lastIssue ∨ x.lastIssue = y.lastIssue ∧ n ≤ k) →
          s.portGroup cid team port = some (⟨cid, team, n⟩, x)

/-! ### Reset, the step, encodings, and what every step keeps (R8, R17 to R21, R26 to R37, R241 to R243, R350, R358) -/

/-- R197, R350, R358: after a cold reset each control register reads its reset value, every counter is 0, no graph, grid, cluster
or request exists, the black box is empty and the device has power. That an unwritten byte of memory reads 0 (log 3), that local
counters start at 0 (log 21) and that caches and object tables start empty (log 54) is the model's choice. -/
def Obligations.ResetState : Prop :=
  let s := State.reset
  (∀ off, s.registerRead off = if off = 0 then 0x00010009 else if off = 0x40 then 1300000 else 0)
    ∧ s.powered = true ∧ s.frozen = false ∧ s.saving = false ∧ s.blackbox = [] ∧ s.bbSeq = 0 ∧ s.grids = [] ∧ s.reqs = [] ∧ s.hostEvents = []
    ∧ s.invalidations = [] ∧ (∀ c, s.cluster c = none) ∧ (∀ n : Fin 8, s.slots[n.val]?.map (·.running) = some false)
    ∧ (∀ n : Fin 8, s.slots[n.val]?.map (·.rung) = some false)
    ∧ (∀ n, (s.sliceAt n).wave = none ∧ (s.sliceAt n).queues = [] ∧ (s.sliceAt n).l2 = []) ∧ (∀ a, Mem.read s.mem a = 0)
    ∧ (∀ n ctr, (s.core n).counters.get 0 ctr = 0 ∧ (s.quadHw n).counters.get 0 ctr = 0 ∧ (s.sliceAt n).lost = 0)
    ∧ (∀ n, (s.core n).tlb = [] ∧ (s.core n).l1 = [] ∧ (s.quadHw n).tlb = [])
    ∧ s.cpCycle = 0 ∧ (∀ n, (s.core n).cycle = 0 ∧ (s.quadHw n).cycle = 0 ∧ (s.sliceAt n).cycle = 0)
    ∧ s.Sound ∧ s.Numbered

/-- R33, R35 to R38, R195, R241 to R243, R297, R299, R310: a step takes the next turn. A port's turn runs exec of the instruction
whose words stand at the PC of the group and run that the port selects, after the selection and its count; a control core's turn
that at its PC; a wave's turn that of its code. An undefined encoding, or a PC whose words cannot be fetched, is a trap of the
whole run, or of the control core, with cause UNDEF, PAGE or that of the peer that has failed; in a wave it stops the wave; a word
that a peer owes is asked for. A fetch gives the words that its block has kept since the grid's LAUNCH node started, and else those
that stand in memory at the PC. The agenda, which turns it names, and the count of steps are the model's
(log 1), as are how words come to be kept (log 80), that a turn only prepares the trap that TRAP_ENTRY enters, with TADDR 0 for UNDEF
and the word that was not fetched, and asks for a word that a peer owes (log 49), that a control core's
accesses wait while a batch of updates has performed in part (log 69), and how a turn reads an error that stands in memory (log 85). -/
def Obligations.StepRunsDecoded : Prop :=
  (∀ (s : State) (rest : List Turn) (turn : Turn), s.agenda = turn :: rest → s.powered = true → s.bad = [] →
    let s0 : State := { s with agenda := rest, tick := s.tick + 1 }
    let runs (s2 : State) (u : Issue) (i : Instr) : Prop := ∀ t, exec i { s2 with cur := some u } = .next t →
      step s = .next { t with cur := none }
    (∀ cid team port, turn = .port cid team port →
      (s0.running cid = false → step s = .next s0)
      ∧ (s0.running cid = true → let s1 := s0.askWords cid team port
        (s1.portGroup cid team port = none → step s = .next s1)
        ∧ ∀ g x pc run, s1.portGroup cid team port = some (g, x) → x.selection = some (pc, run) →
          let s2 := (s1.modGroup g fun y => y.select run s1.tick).countCore (s1.coreOf g.cid g.team) 0 1
          let from' := s2.fetchCore g.cid g.team
          let opens (s3 : State) (cause : Nat) (addr aux : DWord) : Prop := ∃ t, step s = .next t
            ∧ ∀ y, s3.group g = some y → ∃ z o, t.group g = some z ∧ o ∈ z.opens ∧ o.pc = pc
              ∧ (∀ k ∈ run, ⟨k, .failed cause addr aux⟩ ∈ o.parts)
              ∧ ((∀ old ∈ y.opens, ∀ k ∈ run, k ∉ old.rest) → o.parts = run.map fun k => ⟨k, .failed cause addr aux⟩)
          (∀ s3 ws i, s2.fetch from' pc = (s3, .words ws) → decodeWords ws = .ok i → s2.owedReturn from' x.trap i = none →
            runs s3 ⟨.lane g, run, pc⟩ i)
          ∧ (∀ s3 ws e, s2.fetch from' pc = (s3, .words ws) → decodeWords ws = .error e → opens s3 0x01 0 0)
          ∧ ∀ s3 va cause dev, s2.fetch from' pc = (s3, .fault va cause dev) →
              opens s3 cause (BitVec.ofNat 64 va) (BitVec.ofNat 64 dev)))
    ∧ (∀ q c, turn = .control q → s0.running q.cid = true → (s0.quad q).map (·.control) = some c → c.wait = .run →
      let from' := s0.fetchQuad q
      let waits (cause : Nat) (addr aux : DWord) : Prop := ∃ t, step s = .next t
        ∧ (t.quad q).map (·.control.wait) = some (.trapping cause addr aux false)
      let asks (s2 : State) (target va : Nat) : Prop :=
        step s = .next (s2.askWord (.cluster q.cid) (.quad (s0.quadOf q)) target va)
      (∀ s2 ws i, s0.fetch from' c.pc = (s2, .words ws) → decodeWords ws = .ok i →
        (s0.owedReturn from' c.trap i = none →
          let homes : Prop := (∃ h v m sc d a imm, i = .ldgu h v m sc d a imm) ∨ (∃ h a b, i = .flipv h a b) ∨ ∃ h v a k, i = .evsend h v a k
          (homes ∧ s2.unsplit = false → step s = .next s2)
          ∧ (¬homes ∨ s2.unsplit = true → runs s2 ⟨.control q, [0], c.pc⟩ i))
        ∧ ∀ target va, s0.owedReturn from' c.trap i = some (target, va) → asks s2 target va)
      ∧ (∀ s2 ws e, s0.fetch from' c.pc = (s2, .words ws) → decodeWords ws = .error e → waits 0x01 0 0)
      ∧ (∀ s2 va cause dev, s0.fetch from' c.pc = (s2, .fault va cause dev) →
          waits cause (BitVec.ofNat 64 va) (BitVec.ofNat 64 dev))
      ∧ ∀ s2 target va, s0.fetch from' c.pc = (s2, .owed target va) → asks s2 target va)
    ∧ (∀ slice w pc run, turn = .wave slice → (s0.sliceAt slice).wave = some w → w.stop = none → w.issues < 256 →
      w.selection = some (pc, run) →
      let ws := wordsOfBytes (w.code.drop (pc - w.entry).toNat)
      let s1 := s0.modWave slice fun y => y.select run
      (∀ i, decodeWords ws = .ok i → runs s1 ⟨.method slice, run, pc⟩ i)
      ∧ ∀ e, decodeWords ws = .error e → ∃ t, step s = .next t
        ∧ ((t.sliceAt slice).wave.map (·.stop)) = some (some .undefined))
    ∧ ∀ i, turn = .event i → step s = if i.op.isSome then .next s0 else exec i s0)
  ∧ (∀ (s : State) (rest : List Turn) (turn : Turn) (a b : State), s.agenda = turn :: rest → s.bad ≠ [] →
    let s0 : State := { s with agenda := rest, tick := s.tick + 1 }
    s0.turn turn = .next a → s0.inverted.turn turn = .next b →
    let checks (w : ErrorPlace) : Prop := step s = exec (.machineCheck w) s0
    (a.without s.bad = b.without s.bad → ∃ t, step s = .next t ∧ { t with bad := a.bad } = a
      ∧ ∀ x, x ∈ t.bad ↔ x ∈ a.bad ∧ (x ∈ s.bad → Mem.read a.mem x ≠ Mem.read b.mem x))
    ∧ (a.without s.bad ≠ b.without s.bad →
      (∀ cid team port, turn = .port cid team port → checks (.readBy (.engine cid)))
      ∧ (∀ q, turn = .control q → checks (.readBy (.engine q.cid)))
      ∧ (∀ k, turn = .wave k ∨ turn = .event (.homeAtomicPerform (.home k)) ∨ turn = .event (.waveCommit k) →
          checks (.readBy (.wave k)))
      ∧ (∀ r k l, turn = .event (.loadDataReturn r k) ∨ turn = .event (.storePerform r l) ∨ turn = .event (.promoteReturn r)
          ∨ turn = .event (.pageWalk r) ∨ turn = .event (.homeAtomicPerform (.l1 r)) → checks (.readBy (.request r)))
      ∧ (∀ q, turn = .event (.copyCommandStart q) → checks (.readBy (.engine q.cid)))
      ∧ (∀ q drain, turn = .event (.taskStart q drain) → checks (.readBy (.engine q.cid)))
      ∧ ((∃ x, turn = .evict x) ∨ (∃ k x y, turn = .fillL2 k x y) ∨ (∃ x, turn = .event (.hostAccess x)) → step s = .next s0)))
  ∧ ∀ (s : State) (x : Fetcher) (pc : BitVec 56) (p : Page), (∀ line, s.ownerOf line = none) → p.peer = none →
      (∀ k, k < 5 → x.tr s ((pc.toNat + 4 * k) % 2 ^ 56) = (s, .ok p)) →
      (∀ n c, (s.codeOf x.unit).find n = some c → c.word ≠ none) →
      let va (k : Nat) : Nat := (pc.toNat + 4 * k) % 2 ^ 56
      let kept (k : Nat) : Option Word := match (s.codeOf x.unit).find (p.target (va k) / 4) with
        | some c => if x.since ≤ c.filledAt then c.word else none
        | none => none
      let word (k : Nat) : Word := (kept k).getD (BitVec.ofNat 32 (s.homeNat (p.pa (va k)) 4))
      s.fetch x pc = (s, .words ((List.range (Len.ofBits (slice (word 0) 0 2)).words).map word))

/-- R17 to R21, R27, R34, R50: words written out from the encoding tables decode to the instructions they stand for, and
undefined ones are refused. -/
def Obligations.WordsDecode : Prop :=
  let is (ws : List Word) (i : Instr) : Prop := decodeWords ws = .ok i
  let always (l : Len) : Hd := ⟨l, ⟨7, false⟩⟩
  is [0x1C614004] (.iadd (always .base) 0 5 6 (.reg 7))
    ∧ is [0x0010400A, 1, 0] (.isub (always .lit) 0 1 1 (.lit 1))
    ∧ is [0x0810C100] (.lmul (always .base) 0 0 3 1 (.reg 2))
    ∧ is [0xFFFE8180] (.bra (always .base) 0xFFFFFFFA)
    ∧ is [0x00000181, 0x0000C000, 0xFFFFFFFA] (.bra ⟨.ext, ⟨3, false⟩⟩ 0xFFFFFFFA)
    ∧ is [0x00000181, 0x00028000, 0xF] (.bra ⟨.ext, ⟨2, true⟩⟩ 0xF)
    ∧ is [0x00000198] (.exit (always .base))
    ∧ is [0x004209C1, 0x002DC000, 0x100] (.ldg (always .ext) 2 1 3 8 4 0x100)
    ∧ is [0x502009C5, 0x00110000, 0] (.stg ⟨.ext, ⟨4, false⟩⟩ 2 0 4 2 20 0)
    ∧ (∀ ws ∈ ([[0x00000003], [0x000000E0], [0x00000078], [0x1C614005, 0x0019C000], [0x0810C103], [0x0810CD45], [0x0810C944],
        [0x0010C961]] : List (List Word)), ∃ e, decodeWords ws = .error e)

/-- R17 to R21, R26 to R34: decoding the words of a well-formed instruction, whatever follows them, gives it back, with every
operand; and every sequence that decodes holds the words of its instruction, which is well formed. -/
def Obligations.DecodingInvertsEncoding : Prop :=
  (∀ (i : Instr) (rest : List Word), i.wellFormed = true →
    ∃ ws, encode i = some ws ∧ ws.length = i.len.words ∧ decodeWords (ws ++ rest) = .ok i
      ∧ decode (bytesOfWords (ws ++ rest)) = .ok i)
  ∧ ∀ (ws : List Word) (i : Instr), decodeWords ws = .ok i → i.wellFormed = true ∧ encode i = some (ws.take i.len.words)

/-- R350, and the form of memory: every step, from any state that meets it, keeps memory in its canonical form, leaves no
issue over, and leaves the reserved bits of DEVNUM and EVCTL 0 and PEERTO at 1,300 or more. The model steps always: it
neither faults nor refuses. The canonical form, and that no issue is left over, are the model's own (log 1). -/
def Obligations.StepsKeepSound : Prop := ∀ s : State, s.Sound → ∃ t, step s = .next t ∧ t.Sound

/-- Every step keeps the numbers of requests and open instructions below the next one to be given, so that no two
instructions share a number. The numbers are the model's own (log 1); other statements take this as a premise. -/
def Obligations.NumbersStayFresh : Prop :=
  ∀ s t : State, s.cur = none → s.Numbered → step s = .next t → t.Numbered ∧ s.nextId ≤ t.nextId
end

