-- ==== Sys2Proof/Laws/Tables.lean ====
section
/-! SUPPORT. Tables, lists changed at one place, and memory: what is read after a write, and the canonical form. -/

namespace Sys2Proof.Machine

open Sys2Proof

/-! ### Tables -/

theorem Table.find_set {α : Type} (t : Table α) (n m : Nat) (x : α) :
    (t.set n x).find m = if n = m then some x else t.find m := by
  induction t with
  | nil => simp [Table.set, Table.find]
  | cons p t ih =>
    obtain ⟨k, y⟩ := p
    simp only [Table.set]
    split
    · rename_i h1; subst h1; simp only [Table.find]; split <;> rfl
    · split
      · simp [Table.find]
      · by_cases h : k = m
        · subst h; rename_i h1 _; simp [Table.find, h1]
        · simp [Table.find, h, ih]

theorem Table.find_erase {α : Type} (t : Table α) (n m : Nat) :
    (t.erase n).find m = if n = m then none else t.find m := by
  induction t with
  | nil => simp [Table.erase, Table.find]
  | cons p t ih =>
    obtain ⟨k, y⟩ := p
    by_cases h : n = m <;> by_cases h1 : k = n <;> simp_all [Table.erase, Table.find]

theorem Table.get_set {α : Type} (t : Table α) (d : α) (n m : Nat) (x : α) :
    (t.set n x).get d m = if n = m then x else t.get d m := by
  simp only [Table.get, Table.find_set]; split <;> rfl

theorem Table.get_erase {α : Type} (t : Table α) (d : α) (n m : Nat) :
    (t.erase n).get d m = if n = m then d else t.get d m := by
  simp only [Table.get, Table.find_erase]; split <;> rfl

@[simp] theorem Table.get_set_self {α : Type} (t : Table α) (d : α) (n : Nat) (x : α) : (t.set n x).get d n = x := by
  simp [Table.get_set]

/-! ### Lists changed at one place -/

@[simp] theorem modAt_length {α : Type} (xs : List α) (n : Nat) (f : α → α) : (modAt xs n f).length = xs.length := by
  induction xs generalizing n with
  | nil => rfl
  | cons x xs ih => cases n <;> simp [modAt, ih]

theorem modAt_getElem? {α : Type} (xs : List α) (n m : Nat) (f : α → α) :
    (modAt xs n f)[m]? = if n = m then (xs[n]?).map f else xs[m]? := by
  induction xs generalizing n m with
  | nil => simp [modAt]
  | cons x xs ih => cases n <;> cases m <;> simp [modAt, ih]

/-! ### Memory -/

theorem Mem.read_write (m : List Host.Cell) (a b : Nat) (x : Byte) :
    Mem.read (Mem.write m a x) b = if a = b then x else Mem.read m b := by
  unfold Mem.read Mem.write
  split
  · rename_i h; subst h; rw [Table.get_erase]
  · rw [Table.get_set]

theorem Mem.read_writeBytes_below (m : List Host.Cell) (a b : Nat) (xs : List Byte) (h : b < a) :
    Mem.read (Mem.writeBytes m a xs) b = Mem.read m b := by
  induction xs generalizing m a with
  | nil => rfl
  | cons x xs ih => rw [Mem.writeBytes, ih _ _ (by omega), Mem.read_write, if_neg (by omega)]

/-- What a byte reads after bytes were written from a up. -/
theorem Mem.read_writeBytes (m : List Host.Cell) (a b : Nat) (xs : List Byte) :
    Mem.read (Mem.writeBytes m a xs) b = if a ≤ b then (xs[b - a]?).getD (Mem.read m b) else Mem.read m b := by
  induction xs generalizing m a with
  | nil => simp [Mem.writeBytes]
  | cons x xs ih =>
    rw [Mem.writeBytes, ih, Mem.read_write]
    by_cases h : a = b
    · subst h; simp
    · by_cases h1 : a ≤ b
      · have h2 : a + 1 ≤ b := by omega
        obtain ⟨k, rfl⟩ : ∃ k, b = a + 1 + k := ⟨b - (a + 1), by omega⟩
        have e1 : a + 1 + k - (a + 1) = k := by omega
        have e2 : a + 1 + k - a = k + 1 := by omega
        have e3 : ¬ (a = a + 1 + k) := by omega
        simp [h1, e1, e2, e3]
      · have h2 : ¬ a + 1 ≤ b := by omega
        simp [h, h1, h2]

/-- What a byte reads after masked bytes were written from a up. -/
theorem Mem.read_writeMasked (m : List Host.Cell) (a b : Nat) (xs : List MByte) :
    Mem.read (Mem.writeMasked m a xs) b
      = if a ≤ b then ((xs[b - a]?).map fun x => x.apply (Mem.read m b)).getD (Mem.read m b) else Mem.read m b := by
  induction xs generalizing m a with
  | nil => simp [Mem.writeMasked]
  | cons x xs ih =>
    rw [Mem.writeMasked, ih, Mem.read_write]
    by_cases h : a = b
    · subst h; simp
    · by_cases h1 : a ≤ b
      · have h2 : a + 1 ≤ b := by omega
        obtain ⟨k, rfl⟩ : ∃ k, b = a + 1 + k := ⟨b - (a + 1), by omega⟩
        have e1 : a + 1 + k - (a + 1) = k := by omega
        have e2 : a + 1 + k - a = k + 1 := by omega
        have e3 : ¬ (a = a + 1 + k) := by omega
        simp [h1, e1, e2, e3]
      · have h2 : ¬ a + 1 ≤ b := by omega
        simp [h, h1, h2]

@[simp] theorem Mem.readBytes_length (m : List Host.Cell) (a n : Nat) : (Mem.readBytes m a n).length = n := by
  induction n generalizing a with
  | zero => rfl
  | succ n ih => simp [Mem.readBytes, ih]

theorem Mem.readBytes_getElem? (m : List Host.Cell) (a n i : Nat) :
    (Mem.readBytes m a n)[i]? = if i < n then some (Mem.read m (a + i)) else none := by
  induction n generalizing a i with
  | zero => simp [Mem.readBytes]
  | succ n ih =>
    cases i with
    | zero => simp [Mem.readBytes]
    | succ i => simp [Mem.readBytes, ih, Nat.add_assoc, Nat.add_comm 1 i]

/-- Bytes read back where they were written. -/
theorem Mem.readBytes_writeBytes (m : List Host.Cell) (a : Nat) (xs : List Byte) :
    Mem.readBytes (Mem.writeBytes m a xs) a xs.length = xs := by
  apply List.ext_getElem?
  intro i
  rw [Mem.readBytes_getElem?, Mem.read_writeBytes]
  split
  · rename_i h; simp [h]
  · rename_i h; simp [List.getElem?_eq_none (Nat.le_of_not_lt h)]

/-! ### The canonical form -/

/-- A lower bound of the addresses that a memory lists. -/
def Mem.above (a : Nat) : List Host.Cell → Prop
  | [] => True
  | (b, _) :: _ => a < b

theorem Mem.wf_cons (a : Nat) (x : Byte) (t : List Host.Cell) :
    Mem.wf ((a, x) :: t) = true ↔ x ≠ 0 ∧ Mem.above a t ∧ Mem.wf t = true := by
  cases t with
  | nil => simp [Mem.wf, Mem.above]
  | cons p t => obtain ⟨b, y⟩ := p; simp [Mem.wf, Mem.above, and_assoc]

theorem Mem.above_erase (a n : Nat) (t : List Host.Cell) (h : Mem.above a t) (hw : Mem.wf t = true) :
    Mem.above a (Table.erase t n) := by
  induction t generalizing a with
  | nil => trivial
  | cons p t ih =>
    obtain ⟨b, y⟩ := p
    have hc := (Mem.wf_cons b y t).1 hw
    simp only [Table.erase]
    split
    · apply ih _ _ hc.2.2
      have h1 := hc.2.1
      cases t with
      | nil => trivial
      | cons q t => exact Nat.lt_trans h h1
    · exact h

theorem Mem.wf_erase (m : List Host.Cell) (n : Nat) (h : Mem.wf m = true) : Mem.wf (Table.erase m n) = true := by
  induction m with
  | nil => rfl
  | cons p t ih =>
    obtain ⟨b, y⟩ := p
    have hc := (Mem.wf_cons b y t).1 h
    simp only [Table.erase]
    split
    · exact ih hc.2.2
    · exact (Mem.wf_cons _ _ _).2 ⟨hc.1, Mem.above_erase _ _ _ hc.2.1 hc.2.2, ih hc.2.2⟩

theorem Mem.above_set (a n : Nat) (x : Byte) (t : List Host.Cell) (h : Mem.above a t) (hn : a < n) :
    Mem.above a (Table.set t n x) := by
  cases t with
  | nil => exact hn
  | cons p t =>
    obtain ⟨b, y⟩ := p
    simp only [Table.set]
    split
    · exact hn
    · split
      · exact hn
      · exact h

theorem Mem.wf_set (m : List Host.Cell) (n : Nat) (x : Byte) (hx : x ≠ 0) (h : Mem.wf m = true) :
    Mem.wf (Table.set m n x) = true := by
  induction m with
  | nil => simpa [Table.set, Mem.wf] using hx
  | cons p t ih =>
    obtain ⟨b, y⟩ := p
    have hc := (Mem.wf_cons b y t).1 h
    simp only [Table.set]
    split
    · rename_i e; subst e; exact (Mem.wf_cons _ _ _).2 ⟨hx, hc.2.1, hc.2.2⟩
    · split
      · rename_i hlt; exact (Mem.wf_cons _ _ _).2 ⟨hx, hlt, h⟩
      · exact (Mem.wf_cons _ _ _).2 ⟨hc.1, Mem.above_set _ _ _ _ hc.2.1 (by omega), ih hc.2.2⟩

/-- A byte written keeps the canonical form. -/
theorem Mem.wf_write (m : List Host.Cell) (a : Nat) (x : Byte) (h : Mem.wf m = true) : Mem.wf (Mem.write m a x) = true := by
  unfold Mem.write
  split
  · exact Mem.wf_erase m a h
  · rename_i hx; exact Mem.wf_set m a x hx h

/-- Bytes written keep the canonical form. -/
theorem Mem.wf_writeBytes (m : List Host.Cell) (a : Nat) (xs : List Byte) (h : Mem.wf m = true) :
    Mem.wf (Mem.writeBytes m a xs) = true := by
  induction xs generalizing m a with
  | nil => exact h
  | cons x xs ih => exact ih _ _ (Mem.wf_write _ _ _ h)

/-- Masked bytes written keep the canonical form. -/
theorem Mem.wf_writeMasked (m : List Host.Cell) (a : Nat) (xs : List MByte) (h : Mem.wf m = true) :
    Mem.wf (Mem.writeMasked m a xs) = true := by
  induction xs generalizing m a with
  | nil => exact h
  | cons x xs ih => exact ih _ _ (Mem.wf_write _ _ _ h)

/-- A byte written as it was leaves a memory in canonical form as it is. -/
theorem Mem.write_read (m : List Host.Cell) (a : Nat) (h : Mem.wf m = true) : Mem.write m a (Mem.read m a) = m := by
  have key : ∀ m : List Host.Cell, Mem.wf m = true → (∀ b, Mem.above b m → Table.find m b = none)
      ∧ (∀ y, Table.find m a = some y → y ≠ 0 ∧ Table.set m a y = m) ∧ (Table.find m a = none → Table.erase m a = m) := by
    intro m
    induction m with
    | nil => intro _; exact ⟨fun _ _ => rfl, nofun, fun _ => rfl⟩
    | cons p t ih =>
      obtain ⟨c, x⟩ := p
      intro h
      have hc := (Mem.wf_cons c x t).1 h
      obtain ⟨i1, i2, i3⟩ := ih hc.2.2
      refine ⟨fun b hb => ?_, fun y hy => ?_, fun hn => ?_⟩
      · have hb : b < c := hb
        have : Mem.above b t := by
          cases t with
          | nil => trivial
          | cons q t => exact Nat.lt_trans hb hc.2.1
        simp [Table.find, Nat.ne_of_gt hb, i1 b this]
      · by_cases e : c = a
        · subst e
          simp only [Table.find, if_pos, Option.some.injEq] at hy
          subst hy
          exact ⟨hc.1, by simp [Table.set]⟩
        · have hf : Table.find t a = some y := by simpa [Table.find, e] using hy
          refine ⟨(i2 y hf).1, ?_⟩
          have : ¬a < c := by
            intro hlt
            have : Mem.above a t := by
              cases t with
              | nil => trivial
              | cons q t => exact Nat.lt_trans hlt hc.2.1
            rw [i1 a this] at hf
            cases hf
          simp [Table.set, Ne.symm e, this, (i2 y hf).2]
      · by_cases e : c = a
        · simp [Table.find, e] at hn
        · have hf : Table.find t a = none := by simpa [Table.find, e] using hn
          have := i3 hf
          simp_all [Table.erase]
  unfold Mem.write Mem.read Table.get
  obtain ⟨-, k2, k3⟩ := key m h
  cases hf : Table.find m a with
  | none => simpa using k3 hf
  | some y => exact (if_neg (k2 y hf).1).trans (k2 y hf).2
/-- Cells filtered keep the canonical form. -/
theorem Mem.wf_filter (m : List Host.Cell) (p : Host.Cell → Bool) (h : Mem.wf m = true) : Mem.wf (m.filter p) = true := by
  have key : ∀ m : List Host.Cell, Mem.wf m = true →
      Mem.wf (m.filter p) = true ∧ ∀ a, Mem.above a m → Mem.above a (m.filter p) := by
    intro m
    induction m with
    | nil => intro _; exact ⟨rfl, fun _ h => h⟩
    | cons c t ih =>
      intro h
      obtain ⟨b, y⟩ := c
      have hc := (Mem.wf_cons b y t).1 h
      have hi := ih hc.2.2
      simp only [List.filter_cons]
      split
      · exact ⟨(Mem.wf_cons _ _ _).2 ⟨hc.1, hi.2 _ hc.2.1, hi.1⟩, fun a ha => ha⟩
      · refine ⟨hi.1, fun a ha => hi.2 a ?_⟩
        have h1 := hc.2.1
        cases t with
        | nil => trivial
        | cons q t => exact Nat.lt_trans ha h1
  exact (key m h).1

end Sys2Proof.Machine
end

