-- ==== Sys2Proof/Laws/State.lean ====
section
/-! SUPPORT. What each update of State leaves as it was, field by field. -/

namespace Sys2Proof.Machine

open Sys2Proof

variable (s : State)

/-! setCore -/

@[simp] theorem setCore_mem (n : Nat) (c : CoreHw) : (s.setCore n c).mem = s.mem := rfl
@[simp] theorem setCore_bar0 (n : Nat) (c : CoreHw) : (s.setCore n c).bar0 = s.bar0 := rfl
@[simp] theorem setCore_ringSeq (n : Nat) (c : CoreHw) : (s.setCore n c).ringSeq = s.ringSeq := rfl
@[simp] theorem setCore_hostEvents (n : Nat) (c : CoreHw) : (s.setCore n c).hostEvents = s.hostEvents := rfl
@[simp] theorem setCore_blackbox (n : Nat) (c : CoreHw) : (s.setCore n c).blackbox = s.blackbox := rfl
@[simp] theorem setCore_bbSeq (n : Nat) (c : CoreHw) : (s.setCore n c).bbSeq = s.bbSeq := rfl
@[simp] theorem setCore_powered (n : Nat) (c : CoreHw) : (s.setCore n c).powered = s.powered := rfl
@[simp] theorem setCore_bad (n : Nat) (c : CoreHw) : (s.setCore n c).bad = s.bad := rfl
@[simp] theorem setCore_frozen (n : Nat) (c : CoreHw) : (s.setCore n c).frozen = s.frozen := rfl
@[simp] theorem setCore_saving (n : Nat) (c : CoreHw) : (s.setCore n c).saving = s.saving := rfl
@[simp] theorem setCore_throttled (n : Nat) (c : CoreHw) : (s.setCore n c).throttled = s.throttled := rfl
@[simp] theorem setCore_cpCycle (n : Nat) (c : CoreHw) : (s.setCore n c).cpCycle = s.cpCycle := rfl
@[simp] theorem setCore_quads (n : Nat) (c : CoreHw) : (s.setCore n c).quads = s.quads := rfl
@[simp] theorem setCore_slices (n : Nat) (c : CoreHw) : (s.setCore n c).slices = s.slices := rfl
@[simp] theorem setCore_slots (n : Nat) (c : CoreHw) : (s.setCore n c).slots = s.slots := rfl
@[simp] theorem setCore_grids (n : Nat) (c : CoreHw) : (s.setCore n c).grids = s.grids := rfl
@[simp] theorem setCore_clusters (n : Nat) (c : CoreHw) : (s.setCore n c).clusters = s.clusters := rfl
@[simp] theorem setCore_reqs (n : Nat) (c : CoreHw) : (s.setCore n c).reqs = s.reqs := rfl
@[simp] theorem setCore_invalidations (n : Nat) (c : CoreHw) : (s.setCore n c).invalidations = s.invalidations := rfl
@[simp] theorem setCore_peerReplies (n : Nat) (c : CoreHw) : (s.setCore n c).peerReplies = s.peerReplies := rfl
@[simp] theorem setCore_tick (n : Nat) (c : CoreHw) : (s.setCore n c).tick = s.tick := rfl
@[simp] theorem setCore_nextId (n : Nat) (c : CoreHw) : (s.setCore n c).nextId = s.nextId := rfl
@[simp] theorem setCore_agenda (n : Nat) (c : CoreHw) : (s.setCore n c).agenda = s.agenda := rfl
@[simp] theorem setCore_cur (n : Nat) (c : CoreHw) : (s.setCore n c).cur = s.cur := rfl

/-! setQuadHw -/

@[simp] theorem setQuadHw_mem (n : Nat) (c : QuadHw) : (s.setQuadHw n c).mem = s.mem := rfl
@[simp] theorem setQuadHw_bar0 (n : Nat) (c : QuadHw) : (s.setQuadHw n c).bar0 = s.bar0 := rfl
@[simp] theorem setQuadHw_ringSeq (n : Nat) (c : QuadHw) : (s.setQuadHw n c).ringSeq = s.ringSeq := rfl
@[simp] theorem setQuadHw_hostEvents (n : Nat) (c : QuadHw) : (s.setQuadHw n c).hostEvents = s.hostEvents := rfl
@[simp] theorem setQuadHw_blackbox (n : Nat) (c : QuadHw) : (s.setQuadHw n c).blackbox = s.blackbox := rfl
@[simp] theorem setQuadHw_bbSeq (n : Nat) (c : QuadHw) : (s.setQuadHw n c).bbSeq = s.bbSeq := rfl
@[simp] theorem setQuadHw_powered (n : Nat) (c : QuadHw) : (s.setQuadHw n c).powered = s.powered := rfl
@[simp] theorem setQuadHw_bad (n : Nat) (c : QuadHw) : (s.setQuadHw n c).bad = s.bad := rfl
@[simp] theorem setQuadHw_frozen (n : Nat) (c : QuadHw) : (s.setQuadHw n c).frozen = s.frozen := rfl
@[simp] theorem setQuadHw_saving (n : Nat) (c : QuadHw) : (s.setQuadHw n c).saving = s.saving := rfl
@[simp] theorem setQuadHw_throttled (n : Nat) (c : QuadHw) : (s.setQuadHw n c).throttled = s.throttled := rfl
@[simp] theorem setQuadHw_cpCycle (n : Nat) (c : QuadHw) : (s.setQuadHw n c).cpCycle = s.cpCycle := rfl
@[simp] theorem setQuadHw_cores (n : Nat) (c : QuadHw) : (s.setQuadHw n c).cores = s.cores := rfl
@[simp] theorem setQuadHw_slices (n : Nat) (c : QuadHw) : (s.setQuadHw n c).slices = s.slices := rfl
@[simp] theorem setQuadHw_slots (n : Nat) (c : QuadHw) : (s.setQuadHw n c).slots = s.slots := rfl
@[simp] theorem setQuadHw_grids (n : Nat) (c : QuadHw) : (s.setQuadHw n c).grids = s.grids := rfl
@[simp] theorem setQuadHw_clusters (n : Nat) (c : QuadHw) : (s.setQuadHw n c).clusters = s.clusters := rfl
@[simp] theorem setQuadHw_reqs (n : Nat) (c : QuadHw) : (s.setQuadHw n c).reqs = s.reqs := rfl
@[simp] theorem setQuadHw_invalidations (n : Nat) (c : QuadHw) : (s.setQuadHw n c).invalidations = s.invalidations := rfl
@[simp] theorem setQuadHw_peerReplies (n : Nat) (c : QuadHw) : (s.setQuadHw n c).peerReplies = s.peerReplies := rfl
@[simp] theorem setQuadHw_tick (n : Nat) (c : QuadHw) : (s.setQuadHw n c).tick = s.tick := rfl
@[simp] theorem setQuadHw_nextId (n : Nat) (c : QuadHw) : (s.setQuadHw n c).nextId = s.nextId := rfl
@[simp] theorem setQuadHw_agenda (n : Nat) (c : QuadHw) : (s.setQuadHw n c).agenda = s.agenda := rfl
@[simp] theorem setQuadHw_cur (n : Nat) (c : QuadHw) : (s.setQuadHw n c).cur = s.cur := rfl

/-! setSlice -/

@[simp] theorem setSlice_mem (n : Nat) (x : Slice) : (s.setSlice n x).mem = s.mem := rfl
@[simp] theorem setSlice_bar0 (n : Nat) (x : Slice) : (s.setSlice n x).bar0 = s.bar0 := rfl
@[simp] theorem setSlice_ringSeq (n : Nat) (x : Slice) : (s.setSlice n x).ringSeq = s.ringSeq := rfl
@[simp] theorem setSlice_hostEvents (n : Nat) (x : Slice) : (s.setSlice n x).hostEvents = s.hostEvents := rfl
@[simp] theorem setSlice_blackbox (n : Nat) (x : Slice) : (s.setSlice n x).blackbox = s.blackbox := rfl
@[simp] theorem setSlice_bbSeq (n : Nat) (x : Slice) : (s.setSlice n x).bbSeq = s.bbSeq := rfl
@[simp] theorem setSlice_powered (n : Nat) (x : Slice) : (s.setSlice n x).powered = s.powered := rfl
@[simp] theorem setSlice_bad (n : Nat) (x : Slice) : (s.setSlice n x).bad = s.bad := rfl
@[simp] theorem setSlice_frozen (n : Nat) (x : Slice) : (s.setSlice n x).frozen = s.frozen := rfl
@[simp] theorem setSlice_saving (n : Nat) (x : Slice) : (s.setSlice n x).saving = s.saving := rfl
@[simp] theorem setSlice_throttled (n : Nat) (x : Slice) : (s.setSlice n x).throttled = s.throttled := rfl
@[simp] theorem setSlice_cpCycle (n : Nat) (x : Slice) : (s.setSlice n x).cpCycle = s.cpCycle := rfl
@[simp] theorem setSlice_cores (n : Nat) (x : Slice) : (s.setSlice n x).cores = s.cores := rfl
@[simp] theorem setSlice_quads (n : Nat) (x : Slice) : (s.setSlice n x).quads = s.quads := rfl
@[simp] theorem setSlice_slots (n : Nat) (x : Slice) : (s.setSlice n x).slots = s.slots := rfl
@[simp] theorem setSlice_grids (n : Nat) (x : Slice) : (s.setSlice n x).grids = s.grids := rfl
@[simp] theorem setSlice_clusters (n : Nat) (x : Slice) : (s.setSlice n x).clusters = s.clusters := rfl
@[simp] theorem setSlice_reqs (n : Nat) (x : Slice) : (s.setSlice n x).reqs = s.reqs := rfl
@[simp] theorem setSlice_invalidations (n : Nat) (x : Slice) : (s.setSlice n x).invalidations = s.invalidations := rfl
@[simp] theorem setSlice_peerReplies (n : Nat) (x : Slice) : (s.setSlice n x).peerReplies = s.peerReplies := rfl
@[simp] theorem setSlice_tick (n : Nat) (x : Slice) : (s.setSlice n x).tick = s.tick := rfl
@[simp] theorem setSlice_nextId (n : Nat) (x : Slice) : (s.setSlice n x).nextId = s.nextId := rfl
@[simp] theorem setSlice_agenda (n : Nat) (x : Slice) : (s.setSlice n x).agenda = s.agenda := rfl
@[simp] theorem setSlice_cur (n : Nat) (x : Slice) : (s.setSlice n x).cur = s.cur := rfl

/-! countCore -/

@[simp] theorem countCore_mem (a b n : Nat) : (s.countCore a b n).mem = s.mem := rfl
@[simp] theorem countCore_bar0 (a b n : Nat) : (s.countCore a b n).bar0 = s.bar0 := rfl
@[simp] theorem countCore_ringSeq (a b n : Nat) : (s.countCore a b n).ringSeq = s.ringSeq := rfl
@[simp] theorem countCore_hostEvents (a b n : Nat) : (s.countCore a b n).hostEvents = s.hostEvents := rfl
@[simp] theorem countCore_blackbox (a b n : Nat) : (s.countCore a b n).blackbox = s.blackbox := rfl
@[simp] theorem countCore_bbSeq (a b n : Nat) : (s.countCore a b n).bbSeq = s.bbSeq := rfl
@[simp] theorem countCore_powered (a b n : Nat) : (s.countCore a b n).powered = s.powered := rfl
@[simp] theorem countCore_bad (a b n : Nat) : (s.countCore a b n).bad = s.bad := rfl
@[simp] theorem countCore_frozen (a b n : Nat) : (s.countCore a b n).frozen = s.frozen := rfl
@[simp] theorem countCore_saving (a b n : Nat) : (s.countCore a b n).saving = s.saving := rfl
@[simp] theorem countCore_throttled (a b n : Nat) : (s.countCore a b n).throttled = s.throttled := rfl
@[simp] theorem countCore_cpCycle (a b n : Nat) : (s.countCore a b n).cpCycle = s.cpCycle := rfl
@[simp] theorem countCore_quads (a b n : Nat) : (s.countCore a b n).quads = s.quads := rfl
@[simp] theorem countCore_slices (a b n : Nat) : (s.countCore a b n).slices = s.slices := rfl
@[simp] theorem countCore_slots (a b n : Nat) : (s.countCore a b n).slots = s.slots := rfl
@[simp] theorem countCore_grids (a b n : Nat) : (s.countCore a b n).grids = s.grids := rfl
@[simp] theorem countCore_clusters (a b n : Nat) : (s.countCore a b n).clusters = s.clusters := rfl
@[simp] theorem countCore_reqs (a b n : Nat) : (s.countCore a b n).reqs = s.reqs := rfl
@[simp] theorem countCore_invalidations (a b n : Nat) : (s.countCore a b n).invalidations = s.invalidations := rfl
@[simp] theorem countCore_peerReplies (a b n : Nat) : (s.countCore a b n).peerReplies = s.peerReplies := rfl
@[simp] theorem countCore_tick (a b n : Nat) : (s.countCore a b n).tick = s.tick := rfl
@[simp] theorem countCore_nextId (a b n : Nat) : (s.countCore a b n).nextId = s.nextId := rfl
@[simp] theorem countCore_agenda (a b n : Nat) : (s.countCore a b n).agenda = s.agenda := rfl
@[simp] theorem countCore_cur (a b n : Nat) : (s.countCore a b n).cur = s.cur := rfl

/-! countQuad -/

@[simp] theorem countQuad_mem (a b n : Nat) : (s.countQuad a b n).mem = s.mem := rfl
@[simp] theorem countQuad_bar0 (a b n : Nat) : (s.countQuad a b n).bar0 = s.bar0 := rfl
@[simp] theorem countQuad_ringSeq (a b n : Nat) : (s.countQuad a b n).ringSeq = s.ringSeq := rfl
@[simp] theorem countQuad_hostEvents (a b n : Nat) : (s.countQuad a b n).hostEvents = s.hostEvents := rfl
@[simp] theorem countQuad_blackbox (a b n : Nat) : (s.countQuad a b n).blackbox = s.blackbox := rfl
@[simp] theorem countQuad_bbSeq (a b n : Nat) : (s.countQuad a b n).bbSeq = s.bbSeq := rfl
@[simp] theorem countQuad_powered (a b n : Nat) : (s.countQuad a b n).powered = s.powered := rfl
@[simp] theorem countQuad_bad (a b n : Nat) : (s.countQuad a b n).bad = s.bad := rfl
@[simp] theorem countQuad_frozen (a b n : Nat) : (s.countQuad a b n).frozen = s.frozen := rfl
@[simp] theorem countQuad_saving (a b n : Nat) : (s.countQuad a b n).saving = s.saving := rfl
@[simp] theorem countQuad_throttled (a b n : Nat) : (s.countQuad a b n).throttled = s.throttled := rfl
@[simp] theorem countQuad_cpCycle (a b n : Nat) : (s.countQuad a b n).cpCycle = s.cpCycle := rfl
@[simp] theorem countQuad_cores (a b n : Nat) : (s.countQuad a b n).cores = s.cores := rfl
@[simp] theorem countQuad_slices (a b n : Nat) : (s.countQuad a b n).slices = s.slices := rfl
@[simp] theorem countQuad_slots (a b n : Nat) : (s.countQuad a b n).slots = s.slots := rfl
@[simp] theorem countQuad_grids (a b n : Nat) : (s.countQuad a b n).grids = s.grids := rfl
@[simp] theorem countQuad_clusters (a b n : Nat) : (s.countQuad a b n).clusters = s.clusters := rfl
@[simp] theorem countQuad_reqs (a b n : Nat) : (s.countQuad a b n).reqs = s.reqs := rfl
@[simp] theorem countQuad_invalidations (a b n : Nat) : (s.countQuad a b n).invalidations = s.invalidations := rfl
@[simp] theorem countQuad_peerReplies (a b n : Nat) : (s.countQuad a b n).peerReplies = s.peerReplies := rfl
@[simp] theorem countQuad_tick (a b n : Nat) : (s.countQuad a b n).tick = s.tick := rfl
@[simp] theorem countQuad_nextId (a b n : Nat) : (s.countQuad a b n).nextId = s.nextId := rfl
@[simp] theorem countQuad_agenda (a b n : Nat) : (s.countQuad a b n).agenda = s.agenda := rfl
@[simp] theorem countQuad_cur (a b n : Nat) : (s.countQuad a b n).cur = s.cur := rfl

/-! modReq -/

@[simp] theorem modReq_mem (n : Nat) (f : Req → Req) : (s.modReq n f).mem = s.mem := rfl
@[simp] theorem modReq_bar0 (n : Nat) (f : Req → Req) : (s.modReq n f).bar0 = s.bar0 := rfl
@[simp] theorem modReq_ringSeq (n : Nat) (f : Req → Req) : (s.modReq n f).ringSeq = s.ringSeq := rfl
@[simp] theorem modReq_hostEvents (n : Nat) (f : Req → Req) : (s.modReq n f).hostEvents = s.hostEvents := rfl
@[simp] theorem modReq_blackbox (n : Nat) (f : Req → Req) : (s.modReq n f).blackbox = s.blackbox := rfl
@[simp] theorem modReq_bbSeq (n : Nat) (f : Req → Req) : (s.modReq n f).bbSeq = s.bbSeq := rfl
@[simp] theorem modReq_powered (n : Nat) (f : Req → Req) : (s.modReq n f).powered = s.powered := rfl
@[simp] theorem modReq_bad (n : Nat) (f : Req → Req) : (s.modReq n f).bad = s.bad := rfl
@[simp] theorem modReq_frozen (n : Nat) (f : Req → Req) : (s.modReq n f).frozen = s.frozen := rfl
@[simp] theorem modReq_saving (n : Nat) (f : Req → Req) : (s.modReq n f).saving = s.saving := rfl
@[simp] theorem modReq_throttled (n : Nat) (f : Req → Req) : (s.modReq n f).throttled = s.throttled := rfl
@[simp] theorem modReq_cpCycle (n : Nat) (f : Req → Req) : (s.modReq n f).cpCycle = s.cpCycle := rfl
@[simp] theorem modReq_cores (n : Nat) (f : Req → Req) : (s.modReq n f).cores = s.cores := rfl
@[simp] theorem modReq_quads (n : Nat) (f : Req → Req) : (s.modReq n f).quads = s.quads := rfl
@[simp] theorem modReq_slices (n : Nat) (f : Req → Req) : (s.modReq n f).slices = s.slices := rfl
@[simp] theorem modReq_slots (n : Nat) (f : Req → Req) : (s.modReq n f).slots = s.slots := rfl
@[simp] theorem modReq_grids (n : Nat) (f : Req → Req) : (s.modReq n f).grids = s.grids := rfl
@[simp] theorem modReq_clusters (n : Nat) (f : Req → Req) : (s.modReq n f).clusters = s.clusters := rfl
@[simp] theorem modReq_invalidations (n : Nat) (f : Req → Req) : (s.modReq n f).invalidations = s.invalidations := rfl
@[simp] theorem modReq_peerReplies (n : Nat) (f : Req → Req) : (s.modReq n f).peerReplies = s.peerReplies := rfl
@[simp] theorem modReq_tick (n : Nat) (f : Req → Req) : (s.modReq n f).tick = s.tick := rfl
@[simp] theorem modReq_nextId (n : Nat) (f : Req → Req) : (s.modReq n f).nextId = s.nextId := rfl
@[simp] theorem modReq_agenda (n : Nat) (f : Req → Req) : (s.modReq n f).agenda = s.agenda := rfl
@[simp] theorem modReq_cur (n : Nat) (f : Req → Req) : (s.modReq n f).cur = s.cur := rfl

/-! dropReq -/

@[simp] theorem dropReq_mem (n : Nat) : (s.dropReq n).mem = s.mem := rfl
@[simp] theorem dropReq_bar0 (n : Nat) : (s.dropReq n).bar0 = s.bar0 := rfl
@[simp] theorem dropReq_ringSeq (n : Nat) : (s.dropReq n).ringSeq = s.ringSeq := rfl
@[simp] theorem dropReq_hostEvents (n : Nat) : (s.dropReq n).hostEvents = s.hostEvents := rfl
@[simp] theorem dropReq_blackbox (n : Nat) : (s.dropReq n).blackbox = s.blackbox := rfl
@[simp] theorem dropReq_bbSeq (n : Nat) : (s.dropReq n).bbSeq = s.bbSeq := rfl
@[simp] theorem dropReq_powered (n : Nat) : (s.dropReq n).powered = s.powered := rfl
@[simp] theorem dropReq_bad (n : Nat) : (s.dropReq n).bad = s.bad := rfl
@[simp] theorem dropReq_frozen (n : Nat) : (s.dropReq n).frozen = s.frozen := rfl
@[simp] theorem dropReq_saving (n : Nat) : (s.dropReq n).saving = s.saving := rfl
@[simp] theorem dropReq_throttled (n : Nat) : (s.dropReq n).throttled = s.throttled := rfl
@[simp] theorem dropReq_cpCycle (n : Nat) : (s.dropReq n).cpCycle = s.cpCycle := rfl
@[simp] theorem dropReq_cores (n : Nat) : (s.dropReq n).cores = s.cores := rfl
@[simp] theorem dropReq_quads (n : Nat) : (s.dropReq n).quads = s.quads := rfl
@[simp] theorem dropReq_slices (n : Nat) : (s.dropReq n).slices = s.slices := rfl
@[simp] theorem dropReq_slots (n : Nat) : (s.dropReq n).slots = s.slots := rfl
@[simp] theorem dropReq_grids (n : Nat) : (s.dropReq n).grids = s.grids := rfl
@[simp] theorem dropReq_clusters (n : Nat) : (s.dropReq n).clusters = s.clusters := rfl
@[simp] theorem dropReq_invalidations (n : Nat) : (s.dropReq n).invalidations = s.invalidations := rfl
@[simp] theorem dropReq_peerReplies (n : Nat) : (s.dropReq n).peerReplies = s.peerReplies := rfl
@[simp] theorem dropReq_tick (n : Nat) : (s.dropReq n).tick = s.tick := rfl
@[simp] theorem dropReq_nextId (n : Nat) : (s.dropReq n).nextId = s.nextId := rfl
@[simp] theorem dropReq_agenda (n : Nat) : (s.dropReq n).agenda = s.agenda := rfl
@[simp] theorem dropReq_cur (n : Nat) : (s.dropReq n).cur = s.cur := rfl

/-! record -/

@[simp] theorem record_mem (a b c : Nat) (d : BitVec 128) : (s.record a b c d).mem = s.mem := by dsimp only [State.record]
@[simp] theorem record_bar0 (a b c : Nat) (d : BitVec 128) : (s.record a b c d).bar0 = s.bar0 := by dsimp only [State.record]
@[simp] theorem record_ringSeq (a b c : Nat) (d : BitVec 128) : (s.record a b c d).ringSeq = s.ringSeq := by dsimp only [State.record]
@[simp] theorem record_hostEvents (a b c : Nat) (d : BitVec 128) : (s.record a b c d).hostEvents = s.hostEvents := by dsimp only [State.record]
@[simp] theorem record_powered (a b c : Nat) (d : BitVec 128) : (s.record a b c d).powered = s.powered := by dsimp only [State.record]
@[simp] theorem record_bad (a b c : Nat) (d : BitVec 128) : (s.record a b c d).bad = s.bad := by dsimp only [State.record]
@[simp] theorem record_frozen (a b c : Nat) (d : BitVec 128) : (s.record a b c d).frozen = s.frozen := by dsimp only [State.record]
@[simp] theorem record_saving (a b c : Nat) (d : BitVec 128) : (s.record a b c d).saving = s.saving := by dsimp only [State.record]
@[simp] theorem record_throttled (a b c : Nat) (d : BitVec 128) : (s.record a b c d).throttled = s.throttled := by dsimp only [State.record]
@[simp] theorem record_cpCycle (a b c : Nat) (d : BitVec 128) : (s.record a b c d).cpCycle = s.cpCycle := by dsimp only [State.record]
@[simp] theorem record_cores (a b c : Nat) (d : BitVec 128) : (s.record a b c d).cores = s.cores := by dsimp only [State.record]
@[simp] theorem record_quads (a b c : Nat) (d : BitVec 128) : (s.record a b c d).quads = s.quads := by dsimp only [State.record]
@[simp] theorem record_slices (a b c : Nat) (d : BitVec 128) : (s.record a b c d).slices = s.slices := by dsimp only [State.record]
@[simp] theorem record_slots (a b c : Nat) (d : BitVec 128) : (s.record a b c d).slots = s.slots := by dsimp only [State.record]
@[simp] theorem record_grids (a b c : Nat) (d : BitVec 128) : (s.record a b c d).grids = s.grids := by dsimp only [State.record]
@[simp] theorem record_clusters (a b c : Nat) (d : BitVec 128) : (s.record a b c d).clusters = s.clusters := by dsimp only [State.record]
@[simp] theorem record_reqs (a b c : Nat) (d : BitVec 128) : (s.record a b c d).reqs = s.reqs := by dsimp only [State.record]
@[simp] theorem record_invalidations (a b c : Nat) (d : BitVec 128) : (s.record a b c d).invalidations = s.invalidations := by dsimp only [State.record]
@[simp] theorem record_peerReplies (a b c : Nat) (d : BitVec 128) : (s.record a b c d).peerReplies = s.peerReplies := by dsimp only [State.record]
@[simp] theorem record_tick (a b c : Nat) (d : BitVec 128) : (s.record a b c d).tick = s.tick := by dsimp only [State.record]
@[simp] theorem record_nextId (a b c : Nat) (d : BitVec 128) : (s.record a b c d).nextId = s.nextId := by dsimp only [State.record]
@[simp] theorem record_agenda (a b c : Nat) (d : BitVec 128) : (s.record a b c d).agenda = s.agenda := by dsimp only [State.record]
@[simp] theorem record_cur (a b c : Nat) (d : BitVec 128) : (s.record a b c d).cur = s.cur := by dsimp only [State.record]

/-! postEvent -/

@[simp] theorem postEvent_mem (e : HostEvent) : (s.postEvent e).mem = s.mem := rfl
@[simp] theorem postEvent_bar0 (e : HostEvent) : (s.postEvent e).bar0 = s.bar0 := rfl
@[simp] theorem postEvent_ringSeq (e : HostEvent) : (s.postEvent e).ringSeq = s.ringSeq := rfl
@[simp] theorem postEvent_blackbox (e : HostEvent) : (s.postEvent e).blackbox = s.blackbox := rfl
@[simp] theorem postEvent_bbSeq (e : HostEvent) : (s.postEvent e).bbSeq = s.bbSeq := rfl
@[simp] theorem postEvent_powered (e : HostEvent) : (s.postEvent e).powered = s.powered := rfl
@[simp] theorem postEvent_bad (e : HostEvent) : (s.postEvent e).bad = s.bad := rfl
@[simp] theorem postEvent_frozen (e : HostEvent) : (s.postEvent e).frozen = s.frozen := rfl
@[simp] theorem postEvent_saving (e : HostEvent) : (s.postEvent e).saving = s.saving := rfl
@[simp] theorem postEvent_throttled (e : HostEvent) : (s.postEvent e).throttled = s.throttled := rfl
@[simp] theorem postEvent_cpCycle (e : HostEvent) : (s.postEvent e).cpCycle = s.cpCycle := rfl
@[simp] theorem postEvent_cores (e : HostEvent) : (s.postEvent e).cores = s.cores := rfl
@[simp] theorem postEvent_quads (e : HostEvent) : (s.postEvent e).quads = s.quads := rfl
@[simp] theorem postEvent_slices (e : HostEvent) : (s.postEvent e).slices = s.slices := rfl
@[simp] theorem postEvent_slots (e : HostEvent) : (s.postEvent e).slots = s.slots := rfl
@[simp] theorem postEvent_grids (e : HostEvent) : (s.postEvent e).grids = s.grids := rfl
@[simp] theorem postEvent_clusters (e : HostEvent) : (s.postEvent e).clusters = s.clusters := rfl
@[simp] theorem postEvent_reqs (e : HostEvent) : (s.postEvent e).reqs = s.reqs := rfl
@[simp] theorem postEvent_invalidations (e : HostEvent) : (s.postEvent e).invalidations = s.invalidations := rfl
@[simp] theorem postEvent_peerReplies (e : HostEvent) : (s.postEvent e).peerReplies = s.peerReplies := rfl
@[simp] theorem postEvent_tick (e : HostEvent) : (s.postEvent e).tick = s.tick := rfl
@[simp] theorem postEvent_nextId (e : HostEvent) : (s.postEvent e).nextId = s.nextId := rfl
@[simp] theorem postEvent_agenda (e : HostEvent) : (s.postEvent e).agenda = s.agenda := rfl
@[simp] theorem postEvent_cur (e : HostEvent) : (s.postEvent e).cur = s.cur := rfl

/-! modCluster -/

@[simp] theorem modCluster_mem (c : Nat) (f : Cluster → Cluster) : (s.modCluster c f).mem = s.mem := by unfold State.modCluster; split <;> rfl
@[simp] theorem modCluster_bar0 (c : Nat) (f : Cluster → Cluster) : (s.modCluster c f).bar0 = s.bar0 := by unfold State.modCluster; split <;> rfl
@[simp] theorem modCluster_ringSeq (c : Nat) (f : Cluster → Cluster) : (s.modCluster c f).ringSeq = s.ringSeq := by unfold State.modCluster; split <;> rfl
@[simp] theorem modCluster_hostEvents (c : Nat) (f : Cluster → Cluster) : (s.modCluster c f).hostEvents = s.hostEvents := by unfold State.modCluster; split <;> rfl
@[simp] theorem modCluster_blackbox (c : Nat) (f : Cluster → Cluster) : (s.modCluster c f).blackbox = s.blackbox := by unfold State.modCluster; split <;> rfl
@[simp] theorem modCluster_bbSeq (c : Nat) (f : Cluster → Cluster) : (s.modCluster c f).bbSeq = s.bbSeq := by unfold State.modCluster; split <;> rfl
@[simp] theorem modCluster_powered (c : Nat) (f : Cluster → Cluster) : (s.modCluster c f).powered = s.powered := by unfold State.modCluster; split <;> rfl
@[simp] theorem modCluster_bad (c : Nat) (f : Cluster → Cluster) : (s.modCluster c f).bad = s.bad := by unfold State.modCluster; split <;> rfl
@[simp] theorem modCluster_frozen (c : Nat) (f : Cluster → Cluster) : (s.modCluster c f).frozen = s.frozen := by unfold State.modCluster; split <;> rfl
@[simp] theorem modCluster_saving (c : Nat) (f : Cluster → Cluster) : (s.modCluster c f).saving = s.saving := by unfold State.modCluster; split <;> rfl
@[simp] theorem modCluster_throttled (c : Nat) (f : Cluster → Cluster) : (s.modCluster c f).throttled = s.throttled := by unfold State.modCluster; split <;> rfl
@[simp] theorem modCluster_cpCycle (c : Nat) (f : Cluster → Cluster) : (s.modCluster c f).cpCycle = s.cpCycle := by unfold State.modCluster; split <;> rfl
@[simp] theorem modCluster_cores (c : Nat) (f : Cluster → Cluster) : (s.modCluster c f).cores = s.cores := by unfold State.modCluster; split <;> rfl
@[simp] theorem modCluster_quads (c : Nat) (f : Cluster → Cluster) : (s.modCluster c f).quads = s.quads := by unfold State.modCluster; split <;> rfl
@[simp] theorem modCluster_slices (c : Nat) (f : Cluster → Cluster) : (s.modCluster c f).slices = s.slices := by unfold State.modCluster; split <;> rfl
@[simp] theorem modCluster_slots (c : Nat) (f : Cluster → Cluster) : (s.modCluster c f).slots = s.slots := by unfold State.modCluster; split <;> rfl
@[simp] theorem modCluster_grids (c : Nat) (f : Cluster → Cluster) : (s.modCluster c f).grids = s.grids := by unfold State.modCluster; split <;> rfl
@[simp] theorem modCluster_reqs (c : Nat) (f : Cluster → Cluster) : (s.modCluster c f).reqs = s.reqs := by unfold State.modCluster; split <;> rfl
@[simp] theorem modCluster_invalidations (c : Nat) (f : Cluster → Cluster) : (s.modCluster c f).invalidations = s.invalidations := by unfold State.modCluster; split <;> rfl
@[simp] theorem modCluster_peerReplies (c : Nat) (f : Cluster → Cluster) : (s.modCluster c f).peerReplies = s.peerReplies := by unfold State.modCluster; split <;> rfl
@[simp] theorem modCluster_tick (c : Nat) (f : Cluster → Cluster) : (s.modCluster c f).tick = s.tick := by unfold State.modCluster; split <;> rfl
@[simp] theorem modCluster_nextId (c : Nat) (f : Cluster → Cluster) : (s.modCluster c f).nextId = s.nextId := by unfold State.modCluster; split <;> rfl
@[simp] theorem modCluster_agenda (c : Nat) (f : Cluster → Cluster) : (s.modCluster c f).agenda = s.agenda := by unfold State.modCluster; split <;> rfl
@[simp] theorem modCluster_cur (c : Nat) (f : Cluster → Cluster) : (s.modCluster c f).cur = s.cur := by unfold State.modCluster; split <;> rfl

/-! modGrid -/

@[simp] theorem modGrid_mem (c : Nat) (f : Grid → Grid) : (s.modGrid c f).mem = s.mem := by unfold State.modGrid; split <;> rfl
@[simp] theorem modGrid_bar0 (c : Nat) (f : Grid → Grid) : (s.modGrid c f).bar0 = s.bar0 := by unfold State.modGrid; split <;> rfl
@[simp] theorem modGrid_ringSeq (c : Nat) (f : Grid → Grid) : (s.modGrid c f).ringSeq = s.ringSeq := by unfold State.modGrid; split <;> rfl
@[simp] theorem modGrid_hostEvents (c : Nat) (f : Grid → Grid) : (s.modGrid c f).hostEvents = s.hostEvents := by unfold State.modGrid; split <;> rfl
@[simp] theorem modGrid_blackbox (c : Nat) (f : Grid → Grid) : (s.modGrid c f).blackbox = s.blackbox := by unfold State.modGrid; split <;> rfl
@[simp] theorem modGrid_bbSeq (c : Nat) (f : Grid → Grid) : (s.modGrid c f).bbSeq = s.bbSeq := by unfold State.modGrid; split <;> rfl
@[simp] theorem modGrid_powered (c : Nat) (f : Grid → Grid) : (s.modGrid c f).powered = s.powered := by unfold State.modGrid; split <;> rfl
@[simp] theorem modGrid_bad (c : Nat) (f : Grid → Grid) : (s.modGrid c f).bad = s.bad := by unfold State.modGrid; split <;> rfl
@[simp] theorem modGrid_frozen (c : Nat) (f : Grid → Grid) : (s.modGrid c f).frozen = s.frozen := by unfold State.modGrid; split <;> rfl
@[simp] theorem modGrid_saving (c : Nat) (f : Grid → Grid) : (s.modGrid c f).saving = s.saving := by unfold State.modGrid; split <;> rfl
@[simp] theorem modGrid_throttled (c : Nat) (f : Grid → Grid) : (s.modGrid c f).throttled = s.throttled := by unfold State.modGrid; split <;> rfl
@[simp] theorem modGrid_cpCycle (c : Nat) (f : Grid → Grid) : (s.modGrid c f).cpCycle = s.cpCycle := by unfold State.modGrid; split <;> rfl
@[simp] theorem modGrid_cores (c : Nat) (f : Grid → Grid) : (s.modGrid c f).cores = s.cores := by unfold State.modGrid; split <;> rfl
@[simp] theorem modGrid_quads (c : Nat) (f : Grid → Grid) : (s.modGrid c f).quads = s.quads := by unfold State.modGrid; split <;> rfl
@[simp] theorem modGrid_slices (c : Nat) (f : Grid → Grid) : (s.modGrid c f).slices = s.slices := by unfold State.modGrid; split <;> rfl
@[simp] theorem modGrid_slots (c : Nat) (f : Grid → Grid) : (s.modGrid c f).slots = s.slots := by unfold State.modGrid; split <;> rfl
@[simp] theorem modGrid_clusters (c : Nat) (f : Grid → Grid) : (s.modGrid c f).clusters = s.clusters := by unfold State.modGrid; split <;> rfl
@[simp] theorem modGrid_reqs (c : Nat) (f : Grid → Grid) : (s.modGrid c f).reqs = s.reqs := by unfold State.modGrid; split <;> rfl
@[simp] theorem modGrid_invalidations (c : Nat) (f : Grid → Grid) : (s.modGrid c f).invalidations = s.invalidations := by unfold State.modGrid; split <;> rfl
@[simp] theorem modGrid_peerReplies (c : Nat) (f : Grid → Grid) : (s.modGrid c f).peerReplies = s.peerReplies := by unfold State.modGrid; split <;> rfl
@[simp] theorem modGrid_tick (c : Nat) (f : Grid → Grid) : (s.modGrid c f).tick = s.tick := by unfold State.modGrid; split <;> rfl
@[simp] theorem modGrid_nextId (c : Nat) (f : Grid → Grid) : (s.modGrid c f).nextId = s.nextId := by unfold State.modGrid; split <;> rfl
@[simp] theorem modGrid_agenda (c : Nat) (f : Grid → Grid) : (s.modGrid c f).agenda = s.agenda := by unfold State.modGrid; split <;> rfl
@[simp] theorem modGrid_cur (c : Nat) (f : Grid → Grid) : (s.modGrid c f).cur = s.cur := by unfold State.modGrid; split <;> rfl

/-! modTeam -/

@[simp] theorem modTeam_mem (c k : Nat) (f : Team → Team) : (s.modTeam c k f).mem = s.mem := modCluster_mem s _ _
@[simp] theorem modTeam_bar0 (c k : Nat) (f : Team → Team) : (s.modTeam c k f).bar0 = s.bar0 := modCluster_bar0 s _ _
@[simp] theorem modTeam_ringSeq (c k : Nat) (f : Team → Team) : (s.modTeam c k f).ringSeq = s.ringSeq := modCluster_ringSeq s _ _
@[simp] theorem modTeam_hostEvents (c k : Nat) (f : Team → Team) : (s.modTeam c k f).hostEvents = s.hostEvents := modCluster_hostEvents s _ _
@[simp] theorem modTeam_blackbox (c k : Nat) (f : Team → Team) : (s.modTeam c k f).blackbox = s.blackbox := modCluster_blackbox s _ _
@[simp] theorem modTeam_bbSeq (c k : Nat) (f : Team → Team) : (s.modTeam c k f).bbSeq = s.bbSeq := modCluster_bbSeq s _ _
@[simp] theorem modTeam_powered (c k : Nat) (f : Team → Team) : (s.modTeam c k f).powered = s.powered := modCluster_powered s _ _
@[simp] theorem modTeam_bad (c k : Nat) (f : Team → Team) : (s.modTeam c k f).bad = s.bad := modCluster_bad s _ _
@[simp] theorem modTeam_frozen (c k : Nat) (f : Team → Team) : (s.modTeam c k f).frozen = s.frozen := modCluster_frozen s _ _
@[simp] theorem modTeam_saving (c k : Nat) (f : Team → Team) : (s.modTeam c k f).saving = s.saving := modCluster_saving s _ _
@[simp] theorem modTeam_throttled (c k : Nat) (f : Team → Team) : (s.modTeam c k f).throttled = s.throttled := modCluster_throttled s _ _
@[simp] theorem modTeam_cpCycle (c k : Nat) (f : Team → Team) : (s.modTeam c k f).cpCycle = s.cpCycle := modCluster_cpCycle s _ _
@[simp] theorem modTeam_cores (c k : Nat) (f : Team → Team) : (s.modTeam c k f).cores = s.cores := modCluster_cores s _ _
@[simp] theorem modTeam_quads (c k : Nat) (f : Team → Team) : (s.modTeam c k f).quads = s.quads := modCluster_quads s _ _
@[simp] theorem modTeam_slices (c k : Nat) (f : Team → Team) : (s.modTeam c k f).slices = s.slices := modCluster_slices s _ _
@[simp] theorem modTeam_slots (c k : Nat) (f : Team → Team) : (s.modTeam c k f).slots = s.slots := modCluster_slots s _ _
@[simp] theorem modTeam_grids (c k : Nat) (f : Team → Team) : (s.modTeam c k f).grids = s.grids := modCluster_grids s _ _
@[simp] theorem modTeam_reqs (c k : Nat) (f : Team → Team) : (s.modTeam c k f).reqs = s.reqs := modCluster_reqs s _ _
@[simp] theorem modTeam_invalidations (c k : Nat) (f : Team → Team) : (s.modTeam c k f).invalidations = s.invalidations := modCluster_invalidations s _ _
@[simp] theorem modTeam_peerReplies (c k : Nat) (f : Team → Team) : (s.modTeam c k f).peerReplies = s.peerReplies := modCluster_peerReplies s _ _
@[simp] theorem modTeam_tick (c k : Nat) (f : Team → Team) : (s.modTeam c k f).tick = s.tick := modCluster_tick s _ _
@[simp] theorem modTeam_nextId (c k : Nat) (f : Team → Team) : (s.modTeam c k f).nextId = s.nextId := modCluster_nextId s _ _
@[simp] theorem modTeam_agenda (c k : Nat) (f : Team → Team) : (s.modTeam c k f).agenda = s.agenda := modCluster_agenda s _ _
@[simp] theorem modTeam_cur (c k : Nat) (f : Team → Team) : (s.modTeam c k f).cur = s.cur := modCluster_cur s _ _

/-! modGroup -/

@[simp] theorem modGroup_mem (g : GroupRef) (f : Group → Group) : (s.modGroup g f).mem = s.mem := modTeam_mem s _ _ _
@[simp] theorem modGroup_bar0 (g : GroupRef) (f : Group → Group) : (s.modGroup g f).bar0 = s.bar0 := modTeam_bar0 s _ _ _
@[simp] theorem modGroup_ringSeq (g : GroupRef) (f : Group → Group) : (s.modGroup g f).ringSeq = s.ringSeq := modTeam_ringSeq s _ _ _
@[simp] theorem modGroup_hostEvents (g : GroupRef) (f : Group → Group) : (s.modGroup g f).hostEvents = s.hostEvents := modTeam_hostEvents s _ _ _
@[simp] theorem modGroup_blackbox (g : GroupRef) (f : Group → Group) : (s.modGroup g f).blackbox = s.blackbox := modTeam_blackbox s _ _ _
@[simp] theorem modGroup_bbSeq (g : GroupRef) (f : Group → Group) : (s.modGroup g f).bbSeq = s.bbSeq := modTeam_bbSeq s _ _ _
@[simp] theorem modGroup_powered (g : GroupRef) (f : Group → Group) : (s.modGroup g f).powered = s.powered := modTeam_powered s _ _ _
@[simp] theorem modGroup_bad (g : GroupRef) (f : Group → Group) : (s.modGroup g f).bad = s.bad := modTeam_bad s _ _ _
@[simp] theorem modGroup_frozen (g : GroupRef) (f : Group → Group) : (s.modGroup g f).frozen = s.frozen := modTeam_frozen s _ _ _
@[simp] theorem modGroup_saving (g : GroupRef) (f : Group → Group) : (s.modGroup g f).saving = s.saving := modTeam_saving s _ _ _
@[simp] theorem modGroup_throttled (g : GroupRef) (f : Group → Group) : (s.modGroup g f).throttled = s.throttled := modTeam_throttled s _ _ _
@[simp] theorem modGroup_cpCycle (g : GroupRef) (f : Group → Group) : (s.modGroup g f).cpCycle = s.cpCycle := modTeam_cpCycle s _ _ _
@[simp] theorem modGroup_cores (g : GroupRef) (f : Group → Group) : (s.modGroup g f).cores = s.cores := modTeam_cores s _ _ _
@[simp] theorem modGroup_quads (g : GroupRef) (f : Group → Group) : (s.modGroup g f).quads = s.quads := modTeam_quads s _ _ _
@[simp] theorem modGroup_slices (g : GroupRef) (f : Group → Group) : (s.modGroup g f).slices = s.slices := modTeam_slices s _ _ _
@[simp] theorem modGroup_slots (g : GroupRef) (f : Group → Group) : (s.modGroup g f).slots = s.slots := modTeam_slots s _ _ _
@[simp] theorem modGroup_grids (g : GroupRef) (f : Group → Group) : (s.modGroup g f).grids = s.grids := modTeam_grids s _ _ _
@[simp] theorem modGroup_reqs (g : GroupRef) (f : Group → Group) : (s.modGroup g f).reqs = s.reqs := modTeam_reqs s _ _ _
@[simp] theorem modGroup_invalidations (g : GroupRef) (f : Group → Group) : (s.modGroup g f).invalidations = s.invalidations := modTeam_invalidations s _ _ _
@[simp] theorem modGroup_peerReplies (g : GroupRef) (f : Group → Group) : (s.modGroup g f).peerReplies = s.peerReplies := modTeam_peerReplies s _ _ _
@[simp] theorem modGroup_tick (g : GroupRef) (f : Group → Group) : (s.modGroup g f).tick = s.tick := modTeam_tick s _ _ _
@[simp] theorem modGroup_nextId (g : GroupRef) (f : Group → Group) : (s.modGroup g f).nextId = s.nextId := modTeam_nextId s _ _ _
@[simp] theorem modGroup_agenda (g : GroupRef) (f : Group → Group) : (s.modGroup g f).agenda = s.agenda := modTeam_agenda s _ _ _
@[simp] theorem modGroup_cur (g : GroupRef) (f : Group → Group) : (s.modGroup g f).cur = s.cur := modTeam_cur s _ _ _

/-! modLane -/

@[simp] theorem modLane_mem (l : LaneRef) (f : Lane → Lane) : (s.modLane l f).mem = s.mem := modGroup_mem s _ _
@[simp] theorem modLane_bar0 (l : LaneRef) (f : Lane → Lane) : (s.modLane l f).bar0 = s.bar0 := modGroup_bar0 s _ _
@[simp] theorem modLane_ringSeq (l : LaneRef) (f : Lane → Lane) : (s.modLane l f).ringSeq = s.ringSeq := modGroup_ringSeq s _ _
@[simp] theorem modLane_hostEvents (l : LaneRef) (f : Lane → Lane) : (s.modLane l f).hostEvents = s.hostEvents := modGroup_hostEvents s _ _
@[simp] theorem modLane_blackbox (l : LaneRef) (f : Lane → Lane) : (s.modLane l f).blackbox = s.blackbox := modGroup_blackbox s _ _
@[simp] theorem modLane_bbSeq (l : LaneRef) (f : Lane → Lane) : (s.modLane l f).bbSeq = s.bbSeq := modGroup_bbSeq s _ _
@[simp] theorem modLane_powered (l : LaneRef) (f : Lane → Lane) : (s.modLane l f).powered = s.powered := modGroup_powered s _ _
@[simp] theorem modLane_bad (l : LaneRef) (f : Lane → Lane) : (s.modLane l f).bad = s.bad := modGroup_bad s _ _
@[simp] theorem modLane_frozen (l : LaneRef) (f : Lane → Lane) : (s.modLane l f).frozen = s.frozen := modGroup_frozen s _ _
@[simp] theorem modLane_saving (l : LaneRef) (f : Lane → Lane) : (s.modLane l f).saving = s.saving := modGroup_saving s _ _
@[simp] theorem modLane_throttled (l : LaneRef) (f : Lane → Lane) : (s.modLane l f).throttled = s.throttled := modGroup_throttled s _ _
@[simp] theorem modLane_cpCycle (l : LaneRef) (f : Lane → Lane) : (s.modLane l f).cpCycle = s.cpCycle := modGroup_cpCycle s _ _
@[simp] theorem modLane_cores (l : LaneRef) (f : Lane → Lane) : (s.modLane l f).cores = s.cores := modGroup_cores s _ _
@[simp] theorem modLane_quads (l : LaneRef) (f : Lane → Lane) : (s.modLane l f).quads = s.quads := modGroup_quads s _ _
@[simp] theorem modLane_slices (l : LaneRef) (f : Lane → Lane) : (s.modLane l f).slices = s.slices := modGroup_slices s _ _
@[simp] theorem modLane_slots (l : LaneRef) (f : Lane → Lane) : (s.modLane l f).slots = s.slots := modGroup_slots s _ _
@[simp] theorem modLane_grids (l : LaneRef) (f : Lane → Lane) : (s.modLane l f).grids = s.grids := modGroup_grids s _ _
@[simp] theorem modLane_reqs (l : LaneRef) (f : Lane → Lane) : (s.modLane l f).reqs = s.reqs := modGroup_reqs s _ _
@[simp] theorem modLane_invalidations (l : LaneRef) (f : Lane → Lane) : (s.modLane l f).invalidations = s.invalidations := modGroup_invalidations s _ _
@[simp] theorem modLane_peerReplies (l : LaneRef) (f : Lane → Lane) : (s.modLane l f).peerReplies = s.peerReplies := modGroup_peerReplies s _ _
@[simp] theorem modLane_tick (l : LaneRef) (f : Lane → Lane) : (s.modLane l f).tick = s.tick := modGroup_tick s _ _
@[simp] theorem modLane_nextId (l : LaneRef) (f : Lane → Lane) : (s.modLane l f).nextId = s.nextId := modGroup_nextId s _ _
@[simp] theorem modLane_agenda (l : LaneRef) (f : Lane → Lane) : (s.modLane l f).agenda = s.agenda := modGroup_agenda s _ _
@[simp] theorem modLane_cur (l : LaneRef) (f : Lane → Lane) : (s.modLane l f).cur = s.cur := modGroup_cur s _ _

/-! modQueue -/

@[simp] theorem modQueue_mem (q : QueueRef) (f : CopyQueue → CopyQueue) : (s.modQueue q f).mem = s.mem := modTeam_mem s _ _ _
@[simp] theorem modQueue_bar0 (q : QueueRef) (f : CopyQueue → CopyQueue) : (s.modQueue q f).bar0 = s.bar0 := modTeam_bar0 s _ _ _
@[simp] theorem modQueue_ringSeq (q : QueueRef) (f : CopyQueue → CopyQueue) : (s.modQueue q f).ringSeq = s.ringSeq := modTeam_ringSeq s _ _ _
@[simp] theorem modQueue_hostEvents (q : QueueRef) (f : CopyQueue → CopyQueue) : (s.modQueue q f).hostEvents = s.hostEvents := modTeam_hostEvents s _ _ _
@[simp] theorem modQueue_blackbox (q : QueueRef) (f : CopyQueue → CopyQueue) : (s.modQueue q f).blackbox = s.blackbox := modTeam_blackbox s _ _ _
@[simp] theorem modQueue_bbSeq (q : QueueRef) (f : CopyQueue → CopyQueue) : (s.modQueue q f).bbSeq = s.bbSeq := modTeam_bbSeq s _ _ _
@[simp] theorem modQueue_powered (q : QueueRef) (f : CopyQueue → CopyQueue) : (s.modQueue q f).powered = s.powered := modTeam_powered s _ _ _
@[simp] theorem modQueue_bad (q : QueueRef) (f : CopyQueue → CopyQueue) : (s.modQueue q f).bad = s.bad := modTeam_bad s _ _ _
@[simp] theorem modQueue_frozen (q : QueueRef) (f : CopyQueue → CopyQueue) : (s.modQueue q f).frozen = s.frozen := modTeam_frozen s _ _ _
@[simp] theorem modQueue_saving (q : QueueRef) (f : CopyQueue → CopyQueue) : (s.modQueue q f).saving = s.saving := modTeam_saving s _ _ _
@[simp] theorem modQueue_throttled (q : QueueRef) (f : CopyQueue → CopyQueue) : (s.modQueue q f).throttled = s.throttled := modTeam_throttled s _ _ _
@[simp] theorem modQueue_cpCycle (q : QueueRef) (f : CopyQueue → CopyQueue) : (s.modQueue q f).cpCycle = s.cpCycle := modTeam_cpCycle s _ _ _
@[simp] theorem modQueue_cores (q : QueueRef) (f : CopyQueue → CopyQueue) : (s.modQueue q f).cores = s.cores := modTeam_cores s _ _ _
@[simp] theorem modQueue_quads (q : QueueRef) (f : CopyQueue → CopyQueue) : (s.modQueue q f).quads = s.quads := modTeam_quads s _ _ _
@[simp] theorem modQueue_slices (q : QueueRef) (f : CopyQueue → CopyQueue) : (s.modQueue q f).slices = s.slices := modTeam_slices s _ _ _
@[simp] theorem modQueue_slots (q : QueueRef) (f : CopyQueue → CopyQueue) : (s.modQueue q f).slots = s.slots := modTeam_slots s _ _ _
@[simp] theorem modQueue_grids (q : QueueRef) (f : CopyQueue → CopyQueue) : (s.modQueue q f).grids = s.grids := modTeam_grids s _ _ _
@[simp] theorem modQueue_reqs (q : QueueRef) (f : CopyQueue → CopyQueue) : (s.modQueue q f).reqs = s.reqs := modTeam_reqs s _ _ _
@[simp] theorem modQueue_invalidations (q : QueueRef) (f : CopyQueue → CopyQueue) : (s.modQueue q f).invalidations = s.invalidations := modTeam_invalidations s _ _ _
@[simp] theorem modQueue_peerReplies (q : QueueRef) (f : CopyQueue → CopyQueue) : (s.modQueue q f).peerReplies = s.peerReplies := modTeam_peerReplies s _ _ _
@[simp] theorem modQueue_tick (q : QueueRef) (f : CopyQueue → CopyQueue) : (s.modQueue q f).tick = s.tick := modTeam_tick s _ _ _
@[simp] theorem modQueue_nextId (q : QueueRef) (f : CopyQueue → CopyQueue) : (s.modQueue q f).nextId = s.nextId := modTeam_nextId s _ _ _
@[simp] theorem modQueue_agenda (q : QueueRef) (f : CopyQueue → CopyQueue) : (s.modQueue q f).agenda = s.agenda := modTeam_agenda s _ _ _
@[simp] theorem modQueue_cur (q : QueueRef) (f : CopyQueue → CopyQueue) : (s.modQueue q f).cur = s.cur := modTeam_cur s _ _ _

/-! modQuad -/

@[simp] theorem modQuad_mem (q : QuadRef) (f : Quad → Quad) : (s.modQuad q f).mem = s.mem := modCluster_mem s _ _
@[simp] theorem modQuad_bar0 (q : QuadRef) (f : Quad → Quad) : (s.modQuad q f).bar0 = s.bar0 := modCluster_bar0 s _ _
@[simp] theorem modQuad_ringSeq (q : QuadRef) (f : Quad → Quad) : (s.modQuad q f).ringSeq = s.ringSeq := modCluster_ringSeq s _ _
@[simp] theorem modQuad_hostEvents (q : QuadRef) (f : Quad → Quad) : (s.modQuad q f).hostEvents = s.hostEvents := modCluster_hostEvents s _ _
@[simp] theorem modQuad_blackbox (q : QuadRef) (f : Quad → Quad) : (s.modQuad q f).blackbox = s.blackbox := modCluster_blackbox s _ _
@[simp] theorem modQuad_bbSeq (q : QuadRef) (f : Quad → Quad) : (s.modQuad q f).bbSeq = s.bbSeq := modCluster_bbSeq s _ _
@[simp] theorem modQuad_powered (q : QuadRef) (f : Quad → Quad) : (s.modQuad q f).powered = s.powered := modCluster_powered s _ _
@[simp] theorem modQuad_bad (q : QuadRef) (f : Quad → Quad) : (s.modQuad q f).bad = s.bad := modCluster_bad s _ _
@[simp] theorem modQuad_frozen (q : QuadRef) (f : Quad → Quad) : (s.modQuad q f).frozen = s.frozen := modCluster_frozen s _ _
@[simp] theorem modQuad_saving (q : QuadRef) (f : Quad → Quad) : (s.modQuad q f).saving = s.saving := modCluster_saving s _ _
@[simp] theorem modQuad_throttled (q : QuadRef) (f : Quad → Quad) : (s.modQuad q f).throttled = s.throttled := modCluster_throttled s _ _
@[simp] theorem modQuad_cpCycle (q : QuadRef) (f : Quad → Quad) : (s.modQuad q f).cpCycle = s.cpCycle := modCluster_cpCycle s _ _
@[simp] theorem modQuad_cores (q : QuadRef) (f : Quad → Quad) : (s.modQuad q f).cores = s.cores := modCluster_cores s _ _
@[simp] theorem modQuad_quads (q : QuadRef) (f : Quad → Quad) : (s.modQuad q f).quads = s.quads := modCluster_quads s _ _
@[simp] theorem modQuad_slices (q : QuadRef) (f : Quad → Quad) : (s.modQuad q f).slices = s.slices := modCluster_slices s _ _
@[simp] theorem modQuad_slots (q : QuadRef) (f : Quad → Quad) : (s.modQuad q f).slots = s.slots := modCluster_slots s _ _
@[simp] theorem modQuad_grids (q : QuadRef) (f : Quad → Quad) : (s.modQuad q f).grids = s.grids := modCluster_grids s _ _
@[simp] theorem modQuad_reqs (q : QuadRef) (f : Quad → Quad) : (s.modQuad q f).reqs = s.reqs := modCluster_reqs s _ _
@[simp] theorem modQuad_invalidations (q : QuadRef) (f : Quad → Quad) : (s.modQuad q f).invalidations = s.invalidations := modCluster_invalidations s _ _
@[simp] theorem modQuad_peerReplies (q : QuadRef) (f : Quad → Quad) : (s.modQuad q f).peerReplies = s.peerReplies := modCluster_peerReplies s _ _
@[simp] theorem modQuad_tick (q : QuadRef) (f : Quad → Quad) : (s.modQuad q f).tick = s.tick := modCluster_tick s _ _
@[simp] theorem modQuad_nextId (q : QuadRef) (f : Quad → Quad) : (s.modQuad q f).nextId = s.nextId := modCluster_nextId s _ _
@[simp] theorem modQuad_agenda (q : QuadRef) (f : Quad → Quad) : (s.modQuad q f).agenda = s.agenda := modCluster_agenda s _ _
@[simp] theorem modQuad_cur (q : QuadRef) (f : Quad → Quad) : (s.modQuad q f).cur = s.cur := modCluster_cur s _ _

/-! modControl -/

@[simp] theorem modControl_mem (q : QuadRef) (f : Control → Control) : (s.modControl q f).mem = s.mem := modQuad_mem s _ _
@[simp] theorem modControl_bar0 (q : QuadRef) (f : Control → Control) : (s.modControl q f).bar0 = s.bar0 := modQuad_bar0 s _ _
@[simp] theorem modControl_ringSeq (q : QuadRef) (f : Control → Control) : (s.modControl q f).ringSeq = s.ringSeq := modQuad_ringSeq s _ _
@[simp] theorem modControl_hostEvents (q : QuadRef) (f : Control → Control) : (s.modControl q f).hostEvents = s.hostEvents := modQuad_hostEvents s _ _
@[simp] theorem modControl_blackbox (q : QuadRef) (f : Control → Control) : (s.modControl q f).blackbox = s.blackbox := modQuad_blackbox s _ _
@[simp] theorem modControl_bbSeq (q : QuadRef) (f : Control → Control) : (s.modControl q f).bbSeq = s.bbSeq := modQuad_bbSeq s _ _
@[simp] theorem modControl_powered (q : QuadRef) (f : Control → Control) : (s.modControl q f).powered = s.powered := modQuad_powered s _ _
@[simp] theorem modControl_bad (q : QuadRef) (f : Control → Control) : (s.modControl q f).bad = s.bad := modQuad_bad s _ _
@[simp] theorem modControl_frozen (q : QuadRef) (f : Control → Control) : (s.modControl q f).frozen = s.frozen := modQuad_frozen s _ _
@[simp] theorem modControl_saving (q : QuadRef) (f : Control → Control) : (s.modControl q f).saving = s.saving := modQuad_saving s _ _
@[simp] theorem modControl_throttled (q : QuadRef) (f : Control → Control) : (s.modControl q f).throttled = s.throttled := modQuad_throttled s _ _
@[simp] theorem modControl_cpCycle (q : QuadRef) (f : Control → Control) : (s.modControl q f).cpCycle = s.cpCycle := modQuad_cpCycle s _ _
@[simp] theorem modControl_cores (q : QuadRef) (f : Control → Control) : (s.modControl q f).cores = s.cores := modQuad_cores s _ _
@[simp] theorem modControl_quads (q : QuadRef) (f : Control → Control) : (s.modControl q f).quads = s.quads := modQuad_quads s _ _
@[simp] theorem modControl_slices (q : QuadRef) (f : Control → Control) : (s.modControl q f).slices = s.slices := modQuad_slices s _ _
@[simp] theorem modControl_slots (q : QuadRef) (f : Control → Control) : (s.modControl q f).slots = s.slots := modQuad_slots s _ _
@[simp] theorem modControl_grids (q : QuadRef) (f : Control → Control) : (s.modControl q f).grids = s.grids := modQuad_grids s _ _
@[simp] theorem modControl_reqs (q : QuadRef) (f : Control → Control) : (s.modControl q f).reqs = s.reqs := modQuad_reqs s _ _
@[simp] theorem modControl_invalidations (q : QuadRef) (f : Control → Control) : (s.modControl q f).invalidations = s.invalidations := modQuad_invalidations s _ _
@[simp] theorem modControl_peerReplies (q : QuadRef) (f : Control → Control) : (s.modControl q f).peerReplies = s.peerReplies := modQuad_peerReplies s _ _
@[simp] theorem modControl_tick (q : QuadRef) (f : Control → Control) : (s.modControl q f).tick = s.tick := modQuad_tick s _ _
@[simp] theorem modControl_nextId (q : QuadRef) (f : Control → Control) : (s.modControl q f).nextId = s.nextId := modQuad_nextId s _ _
@[simp] theorem modControl_agenda (q : QuadRef) (f : Control → Control) : (s.modControl q f).agenda = s.agenda := modQuad_agenda s _ _
@[simp] theorem modControl_cur (q : QuadRef) (f : Control → Control) : (s.modControl q f).cur = s.cur := modQuad_cur s _ _

/-! modWave -/

@[simp] theorem modWave_mem (n : Nat) (f : Wave → Wave) : (s.modWave n f).mem = s.mem := by unfold State.modWave; dsimp only; split <;> rfl
@[simp] theorem modWave_bar0 (n : Nat) (f : Wave → Wave) : (s.modWave n f).bar0 = s.bar0 := by unfold State.modWave; dsimp only; split <;> rfl
@[simp] theorem modWave_ringSeq (n : Nat) (f : Wave → Wave) : (s.modWave n f).ringSeq = s.ringSeq := by unfold State.modWave; dsimp only; split <;> rfl
@[simp] theorem modWave_hostEvents (n : Nat) (f : Wave → Wave) : (s.modWave n f).hostEvents = s.hostEvents := by unfold State.modWave; dsimp only; split <;> rfl
@[simp] theorem modWave_blackbox (n : Nat) (f : Wave → Wave) : (s.modWave n f).blackbox = s.blackbox := by unfold State.modWave; dsimp only; split <;> rfl
@[simp] theorem modWave_bbSeq (n : Nat) (f : Wave → Wave) : (s.modWave n f).bbSeq = s.bbSeq := by unfold State.modWave; dsimp only; split <;> rfl
@[simp] theorem modWave_powered (n : Nat) (f : Wave → Wave) : (s.modWave n f).powered = s.powered := by unfold State.modWave; dsimp only; split <;> rfl
@[simp] theorem modWave_bad (n : Nat) (f : Wave → Wave) : (s.modWave n f).bad = s.bad := by unfold State.modWave; dsimp only; split <;> rfl
@[simp] theorem modWave_frozen (n : Nat) (f : Wave → Wave) : (s.modWave n f).frozen = s.frozen := by unfold State.modWave; dsimp only; split <;> rfl
@[simp] theorem modWave_saving (n : Nat) (f : Wave → Wave) : (s.modWave n f).saving = s.saving := by unfold State.modWave; dsimp only; split <;> rfl
@[simp] theorem modWave_throttled (n : Nat) (f : Wave → Wave) : (s.modWave n f).throttled = s.throttled := by unfold State.modWave; dsimp only; split <;> rfl
@[simp] theorem modWave_cpCycle (n : Nat) (f : Wave → Wave) : (s.modWave n f).cpCycle = s.cpCycle := by unfold State.modWave; dsimp only; split <;> rfl
@[simp] theorem modWave_cores (n : Nat) (f : Wave → Wave) : (s.modWave n f).cores = s.cores := by unfold State.modWave; dsimp only; split <;> rfl
@[simp] theorem modWave_quads (n : Nat) (f : Wave → Wave) : (s.modWave n f).quads = s.quads := by unfold State.modWave; dsimp only; split <;> rfl
@[simp] theorem modWave_slots (n : Nat) (f : Wave → Wave) : (s.modWave n f).slots = s.slots := by unfold State.modWave; dsimp only; split <;> rfl
@[simp] theorem modWave_grids (n : Nat) (f : Wave → Wave) : (s.modWave n f).grids = s.grids := by unfold State.modWave; dsimp only; split <;> rfl
@[simp] theorem modWave_clusters (n : Nat) (f : Wave → Wave) : (s.modWave n f).clusters = s.clusters := by unfold State.modWave; dsimp only; split <;> rfl
@[simp] theorem modWave_reqs (n : Nat) (f : Wave → Wave) : (s.modWave n f).reqs = s.reqs := by unfold State.modWave; dsimp only; split <;> rfl
@[simp] theorem modWave_invalidations (n : Nat) (f : Wave → Wave) : (s.modWave n f).invalidations = s.invalidations := by unfold State.modWave; dsimp only; split <;> rfl
@[simp] theorem modWave_peerReplies (n : Nat) (f : Wave → Wave) : (s.modWave n f).peerReplies = s.peerReplies := by unfold State.modWave; dsimp only; split <;> rfl
@[simp] theorem modWave_tick (n : Nat) (f : Wave → Wave) : (s.modWave n f).tick = s.tick := by unfold State.modWave; dsimp only; split <;> rfl
@[simp] theorem modWave_nextId (n : Nat) (f : Wave → Wave) : (s.modWave n f).nextId = s.nextId := by unfold State.modWave; dsimp only; split <;> rfl
@[simp] theorem modWave_agenda (n : Nat) (f : Wave → Wave) : (s.modWave n f).agenda = s.agenda := by unfold State.modWave; dsimp only; split <;> rfl
@[simp] theorem modWave_cur (n : Nat) (f : Wave → Wave) : (s.modWave n f).cur = s.cur := by unfold State.modWave; dsimp only; split <;> rfl

/-! setCode -/

@[simp] theorem setCode_mem (u : FetchUnit) (t : Table CodeWord) : (s.setCode u t).mem = s.mem := by cases u <;> rfl
@[simp] theorem setCode_bar0 (u : FetchUnit) (t : Table CodeWord) : (s.setCode u t).bar0 = s.bar0 := by cases u <;> rfl
@[simp] theorem setCode_ringSeq (u : FetchUnit) (t : Table CodeWord) : (s.setCode u t).ringSeq = s.ringSeq := by cases u <;> rfl
@[simp] theorem setCode_hostEvents (u : FetchUnit) (t : Table CodeWord) : (s.setCode u t).hostEvents = s.hostEvents := by cases u <;> rfl
@[simp] theorem setCode_blackbox (u : FetchUnit) (t : Table CodeWord) : (s.setCode u t).blackbox = s.blackbox := by cases u <;> rfl
@[simp] theorem setCode_bbSeq (u : FetchUnit) (t : Table CodeWord) : (s.setCode u t).bbSeq = s.bbSeq := by cases u <;> rfl
@[simp] theorem setCode_powered (u : FetchUnit) (t : Table CodeWord) : (s.setCode u t).powered = s.powered := by cases u <;> rfl
@[simp] theorem setCode_bad (u : FetchUnit) (t : Table CodeWord) : (s.setCode u t).bad = s.bad := by cases u <;> rfl
@[simp] theorem setCode_frozen (u : FetchUnit) (t : Table CodeWord) : (s.setCode u t).frozen = s.frozen := by cases u <;> rfl
@[simp] theorem setCode_saving (u : FetchUnit) (t : Table CodeWord) : (s.setCode u t).saving = s.saving := by cases u <;> rfl
@[simp] theorem setCode_throttled (u : FetchUnit) (t : Table CodeWord) : (s.setCode u t).throttled = s.throttled := by cases u <;> rfl
@[simp] theorem setCode_cpCycle (u : FetchUnit) (t : Table CodeWord) : (s.setCode u t).cpCycle = s.cpCycle := by cases u <;> rfl
@[simp] theorem setCode_slots (u : FetchUnit) (t : Table CodeWord) : (s.setCode u t).slots = s.slots := by cases u <;> rfl
@[simp] theorem setCode_grids (u : FetchUnit) (t : Table CodeWord) : (s.setCode u t).grids = s.grids := by cases u <;> rfl
@[simp] theorem setCode_clusters (u : FetchUnit) (t : Table CodeWord) : (s.setCode u t).clusters = s.clusters := by cases u <;> rfl
@[simp] theorem setCode_reqs (u : FetchUnit) (t : Table CodeWord) : (s.setCode u t).reqs = s.reqs := by cases u <;> rfl
@[simp] theorem setCode_invalidations (u : FetchUnit) (t : Table CodeWord) : (s.setCode u t).invalidations = s.invalidations := by cases u <;> rfl
@[simp] theorem setCode_peerReplies (u : FetchUnit) (t : Table CodeWord) : (s.setCode u t).peerReplies = s.peerReplies := by cases u <;> rfl
@[simp] theorem setCode_tick (u : FetchUnit) (t : Table CodeWord) : (s.setCode u t).tick = s.tick := by cases u <;> rfl
@[simp] theorem setCode_nextId (u : FetchUnit) (t : Table CodeWord) : (s.setCode u t).nextId = s.nextId := by cases u <;> rfl
@[simp] theorem setCode_agenda (u : FetchUnit) (t : Table CodeWord) : (s.setCode u t).agenda = s.agenda := by cases u <;> rfl
@[simp] theorem setCode_cur (u : FetchUnit) (t : Table CodeWord) : (s.setCode u t).cur = s.cur := by cases u <;> rfl

/-! modWaveLane -/

@[simp] theorem modWaveLane_mem (n i : Nat) (f : WaveLane → WaveLane) : (s.modWaveLane n i f).mem = s.mem := by unfold State.modWaveLane; dsimp only; split <;> rfl
@[simp] theorem modWaveLane_bar0 (n i : Nat) (f : WaveLane → WaveLane) : (s.modWaveLane n i f).bar0 = s.bar0 := by unfold State.modWaveLane; dsimp only; split <;> rfl
@[simp] theorem modWaveLane_ringSeq (n i : Nat) (f : WaveLane → WaveLane) : (s.modWaveLane n i f).ringSeq = s.ringSeq := by unfold State.modWaveLane; dsimp only; split <;> rfl
@[simp] theorem modWaveLane_hostEvents (n i : Nat) (f : WaveLane → WaveLane) : (s.modWaveLane n i f).hostEvents = s.hostEvents := by unfold State.modWaveLane; dsimp only; split <;> rfl
@[simp] theorem modWaveLane_blackbox (n i : Nat) (f : WaveLane → WaveLane) : (s.modWaveLane n i f).blackbox = s.blackbox := by unfold State.modWaveLane; dsimp only; split <;> rfl
@[simp] theorem modWaveLane_bbSeq (n i : Nat) (f : WaveLane → WaveLane) : (s.modWaveLane n i f).bbSeq = s.bbSeq := by unfold State.modWaveLane; dsimp only; split <;> rfl
@[simp] theorem modWaveLane_powered (n i : Nat) (f : WaveLane → WaveLane) : (s.modWaveLane n i f).powered = s.powered := by unfold State.modWaveLane; dsimp only; split <;> rfl
@[simp] theorem modWaveLane_bad (n i : Nat) (f : WaveLane → WaveLane) : (s.modWaveLane n i f).bad = s.bad := by unfold State.modWaveLane; dsimp only; split <;> rfl
@[simp] theorem modWaveLane_frozen (n i : Nat) (f : WaveLane → WaveLane) : (s.modWaveLane n i f).frozen = s.frozen := by unfold State.modWaveLane; dsimp only; split <;> rfl
@[simp] theorem modWaveLane_saving (n i : Nat) (f : WaveLane → WaveLane) : (s.modWaveLane n i f).saving = s.saving := by unfold State.modWaveLane; dsimp only; split <;> rfl
@[simp] theorem modWaveLane_throttled (n i : Nat) (f : WaveLane → WaveLane) : (s.modWaveLane n i f).throttled = s.throttled := by unfold State.modWaveLane; dsimp only; split <;> rfl
@[simp] theorem modWaveLane_cpCycle (n i : Nat) (f : WaveLane → WaveLane) : (s.modWaveLane n i f).cpCycle = s.cpCycle := by unfold State.modWaveLane; dsimp only; split <;> rfl
@[simp] theorem modWaveLane_cores (n i : Nat) (f : WaveLane → WaveLane) : (s.modWaveLane n i f).cores = s.cores := by unfold State.modWaveLane; dsimp only; split <;> rfl
@[simp] theorem modWaveLane_quads (n i : Nat) (f : WaveLane → WaveLane) : (s.modWaveLane n i f).quads = s.quads := by unfold State.modWaveLane; dsimp only; split <;> rfl
@[simp] theorem modWaveLane_slots (n i : Nat) (f : WaveLane → WaveLane) : (s.modWaveLane n i f).slots = s.slots := by unfold State.modWaveLane; dsimp only; split <;> rfl
@[simp] theorem modWaveLane_grids (n i : Nat) (f : WaveLane → WaveLane) : (s.modWaveLane n i f).grids = s.grids := by unfold State.modWaveLane; dsimp only; split <;> rfl
@[simp] theorem modWaveLane_clusters (n i : Nat) (f : WaveLane → WaveLane) : (s.modWaveLane n i f).clusters = s.clusters := by unfold State.modWaveLane; dsimp only; split <;> rfl
@[simp] theorem modWaveLane_reqs (n i : Nat) (f : WaveLane → WaveLane) : (s.modWaveLane n i f).reqs = s.reqs := by unfold State.modWaveLane; dsimp only; split <;> rfl
@[simp] theorem modWaveLane_invalidations (n i : Nat) (f : WaveLane → WaveLane) : (s.modWaveLane n i f).invalidations = s.invalidations := by unfold State.modWaveLane; dsimp only; split <;> rfl
@[simp] theorem modWaveLane_peerReplies (n i : Nat) (f : WaveLane → WaveLane) : (s.modWaveLane n i f).peerReplies = s.peerReplies := by unfold State.modWaveLane; dsimp only; split <;> rfl
@[simp] theorem modWaveLane_tick (n i : Nat) (f : WaveLane → WaveLane) : (s.modWaveLane n i f).tick = s.tick := by unfold State.modWaveLane; dsimp only; split <;> rfl
@[simp] theorem modWaveLane_nextId (n i : Nat) (f : WaveLane → WaveLane) : (s.modWaveLane n i f).nextId = s.nextId := by unfold State.modWaveLane; dsimp only; split <;> rfl
@[simp] theorem modWaveLane_agenda (n i : Nat) (f : WaveLane → WaveLane) : (s.modWaveLane n i f).agenda = s.agenda := by unfold State.modWaveLane; dsimp only; split <;> rfl
@[simp] theorem modWaveLane_cur (n i : Nat) (f : WaveLane → WaveLane) : (s.modWaveLane n i f).cur = s.cur := by unfold State.modWaveLane; dsimp only; split <;> rfl

@[simp] theorem fresh_fst : s.fresh.1 = s.nextId := rfl
@[simp] theorem fresh_mem : s.fresh.2.mem = s.mem := rfl
@[simp] theorem fresh_bar0 : s.fresh.2.bar0 = s.bar0 := rfl
@[simp] theorem fresh_ringSeq : s.fresh.2.ringSeq = s.ringSeq := rfl
@[simp] theorem fresh_hostEvents : s.fresh.2.hostEvents = s.hostEvents := rfl
@[simp] theorem fresh_blackbox : s.fresh.2.blackbox = s.blackbox := rfl
@[simp] theorem fresh_bbSeq : s.fresh.2.bbSeq = s.bbSeq := rfl
@[simp] theorem fresh_powered : s.fresh.2.powered = s.powered := rfl
@[simp] theorem fresh_bad : s.fresh.2.bad = s.bad := rfl
@[simp] theorem fresh_frozen : s.fresh.2.frozen = s.frozen := rfl
@[simp] theorem fresh_saving : s.fresh.2.saving = s.saving := rfl
@[simp] theorem fresh_throttled : s.fresh.2.throttled = s.throttled := rfl
@[simp] theorem fresh_cpCycle : s.fresh.2.cpCycle = s.cpCycle := rfl
@[simp] theorem fresh_cores : s.fresh.2.cores = s.cores := rfl
@[simp] theorem fresh_quads : s.fresh.2.quads = s.quads := rfl
@[simp] theorem fresh_slices : s.fresh.2.slices = s.slices := rfl
@[simp] theorem fresh_slots : s.fresh.2.slots = s.slots := rfl
@[simp] theorem fresh_grids : s.fresh.2.grids = s.grids := rfl
@[simp] theorem fresh_clusters : s.fresh.2.clusters = s.clusters := rfl
@[simp] theorem fresh_reqs : s.fresh.2.reqs = s.reqs := rfl
@[simp] theorem fresh_invalidations : s.fresh.2.invalidations = s.invalidations := rfl
@[simp] theorem fresh_peerReplies : s.fresh.2.peerReplies = s.peerReplies := rfl
@[simp] theorem fresh_tick : s.fresh.2.tick = s.tick := rfl
@[simp] theorem fresh_agenda : s.fresh.2.agenda = s.agenda := rfl
@[simp] theorem fresh_cur : s.fresh.2.cur = s.cur := rfl
@[simp] theorem fresh_nextId : s.fresh.2.nextId = s.nextId + 1 := rfl

end Sys2Proof.Machine
end

