-- ==== Sys2Proof/Laws/Parts.lean ====
section
/-! SUPPORT. What the parts of the device read after one of them has been changed. -/

namespace Sys2Proof.Machine

open Sys2Proof

variable (s : State)

/-! ### Clusters and teams -/

theorem cluster_modCluster (c d : Nat) (f : Cluster → Cluster) :
    (s.modCluster c f).cluster d = if c = d then (s.cluster c).map f else s.cluster d := by
  unfold State.modCluster State.cluster
  split
  · rename_i h; split
    · rename_i h1; subst h1; simp [h]
    · rfl
  · rename_i x h; simp only [Table.find_set, h, Option.map_some]

theorem team_modTeam (c k d j : Nat) (f : Team → Team) :
    (s.modTeam c k f).team d j = if c = d ∧ k = j then (s.team c k).map f else s.team d j := by
  unfold State.modTeam State.team
  rw [cluster_modCluster]
  by_cases h : c = d
  · subst h
    cases hc : s.cluster c with
    | none => simp
    | some x =>
      simp only [if_true, Option.map_some, Option.bind_some, modAt_getElem?, true_and]
  · simp [h]

theorem group_modGroup (g h : GroupRef) (f : Group → Group) :
    (s.modGroup g f).group h = if g = h then (s.group g).map f else s.group h := by
  unfold State.modGroup State.group
  rw [team_modTeam]
  obtain ⟨a, b, c⟩ := g
  obtain ⟨a', b', c'⟩ := h
  by_cases e : a = a' ∧ b = b'
  · obtain ⟨rfl, rfl⟩ := e
    simp only [and_self, if_true, GroupRef.mk.injEq, true_and]
    cases ht : s.team a b with
    | none => simp
    | some x => simp [modAt_getElem?]
  · have : ¬ (GroupRef.mk a b c = GroupRef.mk a' b' c') := by simp; intro h1 h2; exact absurd ⟨h1, h2⟩ e
    simp [e, this]

theorem lane_modLane (l k : LaneRef) (f : Lane → Lane) :
    (s.modLane l f).lane k = if l = k then (s.lane l).map f else s.lane k := by
  unfold State.modLane State.lane
  rw [group_modGroup]
  obtain ⟨a, b, c, d⟩ := l
  obtain ⟨a', b', c', d'⟩ := k
  simp only [LaneRef.gr, GroupRef.mk.injEq, LaneRef.mk.injEq]
  by_cases e : a = a' ∧ b = b' ∧ c = c'
  · obtain ⟨rfl, rfl, rfl⟩ := e
    simp only [and_self, if_true, true_and]
    cases hg : s.group ⟨a, b, c⟩ with
    | none => simp
    | some x => simp [modAt_getElem?]
  · rw [if_neg e, if_neg (fun h => e ⟨h.1, h.2.1, h.2.2.1⟩)]

/-- A group after a lane of it, or of another group, has changed. -/
theorem group_modLane (l : LaneRef) (g : GroupRef) (f : Lane → Lane) :
    (s.modLane l f).group g
      = if l.gr = g then (s.group g).map (fun x => { x with lanes := modAt x.lanes l.lane f }) else s.group g := by
  unfold State.modLane
  rw [group_modGroup]
  split
  · rename_i h; rw [h]
  · rfl

/-- A lane after a group has changed without its lanes. -/
theorem lane_modGroup (g : GroupRef) (l : LaneRef) (f : Group → Group) (hf : ∀ x, (f x).lanes = x.lanes) :
    (s.modGroup g f).lane l = s.lane l := by
  unfold State.lane
  rw [group_modGroup]
  split
  · rename_i h; rw [h]; cases s.group l.gr <;> simp [hf]
  · rfl

/-- A lane after a team has changed without its groups. -/
theorem group_modTeam (c k : Nat) (g : GroupRef) (f : Team → Team) (hf : ∀ x, (f x).groups = x.groups) :
    (s.modTeam c k f).group g = s.group g := by
  unfold State.group
  rw [team_modTeam]
  split
  · rename_i h; obtain ⟨h1, h2⟩ := h; rw [h1, h2]; cases s.team g.cid g.team <;> simp [hf]
  · rfl

theorem lane_modTeam (c k : Nat) (l : LaneRef) (f : Team → Team) (hf : ∀ x, (f x).groups = x.groups) :
    (s.modTeam c k f).lane l = s.lane l := by
  unfold State.lane
  rw [group_modTeam _ _ _ _ _ hf]

/-! ### Quads -/

theorem quad_modQuad (q r : QuadRef) (f : Quad → Quad) :
    (s.modQuad q f).quad r = if q = r then (s.quad q).map f else s.quad r := by
  unfold State.modQuad State.quad
  rw [cluster_modCluster]
  obtain ⟨a, b⟩ := q
  obtain ⟨a', b'⟩ := r
  simp only [QuadRef.mk.injEq]
  by_cases h : a = a'
  · subst h
    cases hc : s.cluster a with
    | none => simp
    | some x => simp only [if_true, Option.map_some, Option.bind_some, modAt_getElem?, true_and]
  · simp [h]

theorem quad_modControl (q r : QuadRef) (f : Control → Control) :
    (s.modControl q f).quad r
      = if q = r then (s.quad q).map (fun x => { x with control := f x.control }) else s.quad r := by
  unfold State.modControl
  rw [quad_modQuad]

/-- A quad after a team has changed. -/
@[simp] theorem quad_modTeam (c k : Nat) (q : QuadRef) (f : Team → Team) : (s.modTeam c k f).quad q = s.quad q := by
  unfold State.modTeam State.quad
  rw [cluster_modCluster]
  split
  · rename_i h; rw [← h]; cases s.cluster c <;> simp
  · rfl

@[simp] theorem quad_modGroup (g : GroupRef) (q : QuadRef) (f : Group → Group) : (s.modGroup g f).quad q = s.quad q :=
  quad_modTeam s _ _ _ _

@[simp] theorem quad_modLane (l : LaneRef) (q : QuadRef) (f : Lane → Lane) : (s.modLane l f).quad q = s.quad q :=
  quad_modGroup s _ _ _

/-- A team after a quad has changed. -/
@[simp] theorem team_modQuad (q : QuadRef) (c k : Nat) (f : Quad → Quad) : (s.modQuad q f).team c k = s.team c k := by
  unfold State.modQuad State.team
  rw [cluster_modCluster]
  split
  · rename_i h; rw [← h]; cases s.cluster q.cid <;> simp
  · rfl

@[simp] theorem group_modQuad (q : QuadRef) (g : GroupRef) (f : Quad → Quad) : (s.modQuad q f).group g = s.group g := by
  unfold State.group; rw [team_modQuad]

@[simp] theorem lane_modQuad (q : QuadRef) (l : LaneRef) (f : Quad → Quad) : (s.modQuad q f).lane l = s.lane l := by
  unfold State.lane; rw [group_modQuad]

@[simp] theorem group_modControl (q : QuadRef) (g : GroupRef) (f : Control → Control) :
    (s.modControl q f).group g = s.group g := group_modQuad s _ _ _

@[simp] theorem lane_modControl (q : QuadRef) (l : LaneRef) (f : Control → Control) :
    (s.modControl q f).lane l = s.lane l := lane_modQuad s _ _ _

/-! ### The other parts, which only fields of State hold -/

/-- Parts that clusters hold are the same where the clusters are. -/
theorem cluster_congr {s t : State} (h : t.clusters = s.clusters) (c : Nat) : t.cluster c = s.cluster c := by
  unfold State.cluster; rw [h]

theorem team_congr {s t : State} (h : t.clusters = s.clusters) (c k : Nat) : t.team c k = s.team c k := by
  unfold State.team; rw [cluster_congr h]

theorem group_congr {s t : State} (h : t.clusters = s.clusters) (g : GroupRef) : t.group g = s.group g := by
  unfold State.group; rw [team_congr h]

theorem lane_congr {s t : State} (h : t.clusters = s.clusters) (l : LaneRef) : t.lane l = s.lane l := by
  unfold State.lane; rw [group_congr h]

theorem quad_congr {s t : State} (h : t.clusters = s.clusters) (q : QuadRef) : t.quad q = s.quad q := by
  unfold State.quad; rw [cluster_congr h]

theorem sliceAt_congr {s t : State} (h : t.slices = s.slices) (n : Nat) : t.sliceAt n = s.sliceAt n := by
  unfold State.sliceAt; rw [h]

theorem core_congr {s t : State} (h : t.cores = s.cores) (n : Nat) : t.core n = s.core n := by
  unfold State.core; rw [h]

theorem quadHw_congr {s t : State} (h : t.quads = s.quads) (n : Nat) : t.quadHw n = s.quadHw n := by
  unfold State.quadHw; rw [h]

theorem sliceAt_setSlice (n m : Nat) (x : Slice) : (s.setSlice n x).sliceAt m = if n = m then x else s.sliceAt m := by
  unfold State.setSlice State.sliceAt; rw [Table.get_set]

theorem core_setCore (n m : Nat) (x : CoreHw) : (s.setCore n x).core m = if n = m then x else s.core m := by
  unfold State.setCore State.core; rw [Table.get_set]

theorem quadHw_setQuadHw (n m : Nat) (x : QuadHw) : (s.setQuadHw n x).quadHw m = if n = m then x else s.quadHw m := by
  unfold State.setQuadHw State.quadHw; rw [Table.get_set]

/-! ### Waves -/

/-- The lane of a slice's wave. -/
def State.waveLaneAt (s : State) (n i : Nat) : Option WaveLane := (s.sliceAt n).wave.bind fun w => w.lanes[i]?

theorem wave_modWave (n m : Nat) (f : Wave → Wave) :
    ((s.modWave n f).sliceAt m).wave = if n = m then (s.sliceAt n).wave.map f else (s.sliceAt m).wave := by
  unfold State.modWave
  dsimp only
  split
  · rename_i h; split
    · rename_i e; subst e; simp [h]
    · rfl
  · rename_i w h; rw [sliceAt_setSlice]; split
    · rename_i e; simp [h]
    · rfl

theorem wave_modWaveLane (n i m : Nat) (f : WaveLane → WaveLane) :
    ((s.modWaveLane n i f).sliceAt m).wave
      = if n = m then (s.sliceAt n).wave.map (fun w => { w with lanes := modAt w.lanes i f }) else (s.sliceAt m).wave := by
  unfold State.modWaveLane
  dsimp only
  split
  · rename_i h; split
    · rename_i e; subst e; simp [h]
    · rfl
  · rename_i w h; rw [sliceAt_setSlice]; split
    · rename_i e; simp [h]
    · rfl

/-! ### Grids and requests -/

theorem grid_modGrid (n m : Nat) (f : Grid → Grid) :
    (s.modGrid n f).grid m = if n = m then (s.grid n).map f else s.grid m := by
  unfold State.modGrid State.grid
  split
  · rename_i h; split
    · rename_i h1; subst h1; simp [h]
    · rfl
  · rename_i x h; simp only [Table.find_set, h, Option.map_some]

theorem grid_congr {s t : State} (h : t.grids = s.grids) (n : Nat) : t.grid n = s.grid n := by
  unfold State.grid; rw [h]

end Sys2Proof.Machine
end

