-- ==== Sys2Proof/Laws/Threads.lean ====
section
/-! SUPPORT. What a thread's registers, condition bits, flags, LINK and PC read after one of them has been written. -/

namespace Sys2Proof.Machine

open Sys2Proof

variable (s : State)

/-! ### The same threads exist -/

@[simp] theorem here_modLane (l : LaneRef) (f : Lane → Lane) (t : Thread) : (s.modLane l f).here t = s.here t := by
  cases t with
  | lane k => simp only [State.here, lane_modLane]; split <;> simp_all
  | control q => simp [State.here]
  | wave n i => simp only [State.here, sliceAt_congr (modLane_slices s l f)]

theorem here_modGroup (g : GroupRef) (f : Group → Group) (hf : ∀ x, (f x).lanes = x.lanes) (t : Thread) :
    (s.modGroup g f).here t = s.here t := by
  cases t with
  | lane k => simp only [State.here, lane_modGroup s g k f hf]
  | control q => simp [State.here]
  | wave n i => simp only [State.here, sliceAt_congr (modGroup_slices s g f)]

@[simp] theorem here_modControl (q : QuadRef) (f : Control → Control) (t : Thread) :
    (s.modControl q f).here t = s.here t := by
  cases t with
  | lane k => simp [State.here]
  | control r => simp only [State.here, quad_modControl]; split <;> simp_all
  | wave n i => simp only [State.here, sliceAt_congr (modControl_slices s q f)]

@[simp] theorem here_modWaveLane (n i : Nat) (f : WaveLane → WaveLane) (t : Thread) :
    (s.modWaveLane n i f).here t = s.here t := by
  cases t with
  | lane k => simp only [State.here, lane_congr (modWaveLane_clusters s n i f)]
  | control q => simp only [State.here, quad_congr (modWaveLane_clusters s n i f)]
  | wave m j =>
    simp only [State.here, wave_modWaveLane]
    split
    · rename_i h; subst h
      cases (s.sliceAt n).wave with
      | none => simp
      | some w => simp only [Option.map_some, Option.bind_some, modAt_getElem?]; split <;> simp_all
    · rfl

theorem here_modWave (n : Nat) (f : Wave → Wave) (hf : ∀ (x : Wave) (i : Nat), ((f x).lanes[i]?).isSome = (x.lanes[i]?).isSome)
    (t : Thread) : (s.modWave n f).here t = s.here t := by
  cases t with
  | lane k => simp only [State.here, lane_congr (modWave_clusters s n f)]
  | control q => simp only [State.here, quad_congr (modWave_clusters s n f)]
  | wave m j =>
    simp only [State.here, wave_modWave]
    split
    · rename_i h; subst h
      cases (s.sliceAt n).wave with
      | none => simp
      | some w => simp [hf]
    · rfl

@[simp] theorem here_setReg32 (t : Thread) (c : Code) (x : Word) (u : Thread) : (s.setReg32 t c x).here u = s.here u := by
  cases t with
  | lane l => simp only [State.setReg32]; split
              · simp
              · exact here_modGroup s _ _ (by intro _; rfl) u
  | control q => simp [State.setReg32]
  | wave n i => simp only [State.setReg32]; split
                · simp
                · exact here_modWave s _ _ (by intro _ _; rfl) u

@[simp] theorem here_setReg64 (t : Thread) (c : Code) (x : DWord) (u : Thread) : (s.setReg64 t c x).here u = s.here u := by
  cases t <;> simp [State.setReg64]

@[simp] theorem here_setCond (t : Thread) (c : CBit) (b : Bool) (u : Thread) : (s.setCond t c b).here u = s.here u := by
  cases t <;> simp [State.setCond]

@[simp] theorem here_setFlags (t : Thread) (f : Word) (u : Thread) : (s.setFlags t f).here u = s.here u := by
  cases t <;> simp [State.setFlags]

@[simp] theorem here_setPc (t : Thread) (pc : BitVec 56) (u : Thread) : (s.setPc t pc).here u = s.here u := by
  cases t with
  | lane l => simp [State.setPc]
  | control q => simp [State.setPc]
  | wave n i =>
    refine here_modWave s _ _ ?_ u
    intro x j
    simp only [modAt_getElem?]
    split
    · rename_i h; subst h; simp
    · rfl

@[simp] theorem here_setLink (t : Thread) (x : DWord) (u : Thread) : (s.setLink t x).here u = s.here u := by
  cases t <;> simp [State.setLink]

@[simp] theorem here_applyWrite (t : Thread) (w : RegWrite) (u : Thread) : (s.applyWrite t w).here u = s.here u := by
  cases w <;> simp [State.applyWrite]

/-! ### Registers -/

/-- The registers of a lane read the same where the lane and its group's registers do. -/
theorem reg_lane_congr {s t : State} (l : LaneRef) (c : Code)
    (hv : (t.lane l).map (fun x : Lane => x.v) = (s.lane l).map (fun x : Lane => x.v))
    (hg : (t.group l.gr).map (fun x : Group => x.g) = (s.group l.gr).map (fun x : Group => x.g)) :
    t.reg (.lane l) c = s.reg (.lane l) c := by
  simp only [State.reg]
  split
  · have := congrArg (fun o : Option (Table Word) => (o.map fun v => v.get 0 c.toNat).getD 0) hv
    simp only [Option.map_map, Function.comp_def] at this
    rw [this]
  · have := congrArg (fun o : Option (Table Word) => (o.map fun v => v.get 0 (c.toNat - 192)).getD 0) hg
    simp only [Option.map_map, Function.comp_def] at this
    rw [this]

theorem reg_control_congr {s t : State} (q : QuadRef) (c : Code)
    (h : (t.quad q).map (fun x : Quad => x.control.k) = (s.quad q).map (fun x : Quad => x.control.k)) :
    t.reg (.control q) c = s.reg (.control q) c := by
  simp only [State.reg]
  have := congrArg (fun o : Option (Table DWord) => (o.map fun v => v.get 0 c.toNat).getD 0) h
  simp only [Option.map_map, Function.comp_def] at this
  exact this

/-- The group registers of a lane's group after a lane has changed. -/
theorem groupRegs_modLane (l : LaneRef) (g : GroupRef) (f : Lane → Lane) :
    ((s.modLane l f).group g).map (fun x : Group => x.g) = (s.group g).map (fun x : Group => x.g) := by
  rw [group_modLane]; split <;> simp [Option.map_map, Function.comp_def]

/-- Registers read the same after a lane has changed without its registers. -/
theorem reg_modLane (l : LaneRef) (f : Lane → Lane) (hf : ∀ x, (f x).v = x.v) (t : Thread) (c : Code) :
    (s.modLane l f).reg t c = s.reg t c := by
  cases t with
  | lane k =>
    refine reg_lane_congr k c ?_ (groupRegs_modLane s l _ f)
    rw [lane_modLane]; split
    · rename_i h; subst h; simp [Option.map_map, Function.comp_def, hf]
    · rfl
  | control q => simp [State.reg]
  | wave n i => simp only [State.reg, sliceAt_congr (modLane_slices s l f)]

theorem reg_modControl (q : QuadRef) (f : Control → Control) (hf : ∀ x, (f x).k = x.k) (t : Thread) (c : Code) :
    (s.modControl q f).reg t c = s.reg t c := by
  cases t with
  | lane k => exact reg_lane_congr k c (by simp) (by simp)
  | control r =>
    refine reg_control_congr r c ?_
    rw [quad_modControl]; split
    · rename_i h; subst h; simp [Option.map_map, Function.comp_def, hf]
    · rfl
  | wave n i => simp only [State.reg, sliceAt_congr (modControl_slices s q f)]

theorem reg_modWave (n : Nat) (f : Wave → Wave)
    (hf : ∀ x : Wave, (f x).g = x.g ∧ ∀ i : Nat, ((f x).lanes[i]?).map (fun y : WaveLane => y.v) = (x.lanes[i]?).map (fun y : WaveLane => y.v))
    (t : Thread) (c : Code) : (s.modWave n f).reg t c = s.reg t c := by
  cases t with
  | lane k =>
    exact reg_lane_congr k c (by rw [lane_congr (modWave_clusters s n f)]) (by rw [group_congr (modWave_clusters s n f)])
  | control q => exact reg_control_congr q c (by rw [quad_congr (modWave_clusters s n f)])
  | wave m j =>
    simp only [State.reg, wave_modWave]
    by_cases h : n = m
    · subst h
      cases (s.sliceAt n).wave with
      | none => simp
      | some w =>
        simp only [if_true, Option.map_some]
        split
        · have := congrArg (fun o : Option (Table Word) => (o.map fun v => v.get 0 c.toNat).getD 0) ((hf w).2 j)
          simp only [Option.map_map, Function.comp_def] at this
          rw [this]
        · rw [(hf w).1]
    · simp only [h, if_false]

theorem modWaveLane_eq (n i : Nat) (f : WaveLane → WaveLane) :
    s.modWaveLane n i f = s.modWave n fun w => { w with lanes := modAt w.lanes i f } := rfl

theorem reg_modWaveLane (n i : Nat) (f : WaveLane → WaveLane) (hf : ∀ x, (f x).v = x.v) (t : Thread) (c : Code) :
    (s.modWaveLane n i f).reg t c = s.reg t c := by
  rw [modWaveLane_eq]
  refine reg_modWave s n _ ?_ t c
  refine fun x => ⟨rfl, fun j => ?_⟩
  simp only [modAt_getElem?]
  split
  · rename_i h; subst h; simp [Option.map_map, Function.comp_def, hf]
  · rfl

@[simp] theorem reg_setCond (t : Thread) (b : CBit) (v : Bool) (u : Thread) (c : Code) :
    (s.setCond t b v).reg u c = s.reg u c := by
  cases t <;> simp only [State.setCond]
  · exact reg_modLane s _ _ (by intro _; rfl) u c
  · exact reg_modControl s _ _ (by intro _; rfl) u c
  · exact reg_modWaveLane s _ _ _ (by intro _; rfl) u c

@[simp] theorem reg_setFlags (t : Thread) (f : Word) (u : Thread) (c : Code) : (s.setFlags t f).reg u c = s.reg u c := by
  cases t <;> simp only [State.setFlags]
  · exact reg_modLane s _ _ (by intro _; rfl) u c
  · exact reg_modWaveLane s _ _ _ (by intro _; rfl) u c

@[simp] theorem reg_setLink (t : Thread) (x : DWord) (u : Thread) (c : Code) : (s.setLink t x).reg u c = s.reg u c := by
  cases t <;> simp only [State.setLink]
  · exact reg_modLane s _ _ (by intro _; rfl) u c
  · exact reg_modControl s _ _ (by intro _; rfl) u c

@[simp] theorem reg_setPc (t : Thread) (pc : BitVec 56) (u : Thread) (c : Code) : (s.setPc t pc).reg u c = s.reg u c := by
  cases t <;> simp only [State.setPc]
  · exact reg_modLane s _ _ (by intro _; rfl) u c
  · exact reg_modControl s _ _ (by intro _; rfl) u c
  · refine reg_modWave s _ _ ?_ u c
    refine fun x => ⟨rfl, fun j => ?_⟩
    simp only [modAt_getElem?]
    split
    · rename_i h; subst h; simp [Option.map_map, Function.comp_def]
    · rfl

theorem code_toNat_inj {c d : Code} : c.toNat = d.toNat ↔ c = d :=
  ⟨fun h => BitVec.eq_of_toNat_eq h, fun h => h ▸ rfl⟩

/-- A register after a 32-bit register has been written. -/
theorem reg_setReg32 (t : Thread) (c : Code) (x : Word) (ht : s.here t = true) (u : Thread) (d : Code) :
    (s.setReg32 t c x).reg u d = if sameReg t u c && c == d then x.zeroExtend 64 else s.reg u d := by
  cases t with
  | lane l =>
    simp only [State.here, Option.isSome_iff_exists] at ht
    obtain ⟨y, hy⟩ := ht
    simp only [State.setReg32]
    split
    · rename_i hc
      cases u with
      | lane k =>
        by_cases hlk : l = k
        · subst hlk
          by_cases hd : d.toNat < 192
          · simp only [State.reg, hd, if_true, lane_modLane, hy, Option.map_some, Option.getD_some, Table.get_set, sameReg,
              hc, beq_self_eq_true, Bool.true_and, code_toNat_inj, beq_iff_eq]
            split <;> rfl
          · have hne : ¬ c = d := fun h => hd (h ▸ hc)
            have : (c == d) = false := by simpa using hne
            simp only [this, Bool.and_false, Bool.false_eq_true, if_false]
            simp only [State.reg, hd, if_false]
            have := congrArg (fun o : Option (Table Word) => (o.map fun v => v.get 0 (d.toNat - 192)).getD 0)
              (groupRegs_modLane s l l.gr (fun y => { y with v := y.v.set c.toNat x }))
            simp only [Option.map_map, Function.comp_def] at this
            rw [this]
        · have h1 : sameReg (.lane l) (.lane k) c = false := by simp [sameReg, hc, hlk]
          rw [h1]
          simp only [Bool.false_and, Bool.false_eq_true, if_false]
          refine reg_lane_congr k d ?_ (groupRegs_modLane s l _ _)
          rw [lane_modLane, if_neg hlk]
      | control q => simp [State.reg, sameReg]
      | wave n i => simp only [State.reg, sliceAt_congr (modLane_slices s l _), sameReg]; simp
    · rename_i hc
      cases u with
      | lane k =>
        have hl : (s.modGroup l.gr (fun g => { g with g := g.g.set (c.toNat - 192) x })).lane k = s.lane k :=
          lane_modGroup s _ _ _ (by intro _; rfl)
        by_cases hd : d.toNat < 192
        · have hne : ¬ c = d := fun h => hc (h ▸ hd)
          have : (c == d) = false := by simpa using hne
          simp only [this, Bool.and_false, Bool.false_eq_true, if_false]
          simp only [State.reg, hd, if_true, hl]
        · by_cases hg : l.gr = k.gr
          · have hgs : ∃ z, s.group l.gr = some z := by
              cases hz : s.group l.gr with
              | none => simp [State.lane, hz] at hy
              | some z => exact ⟨z, rfl⟩
            obtain ⟨z, hz⟩ := hgs
            simp only [State.reg, hd, if_false, group_modGroup, hg, if_true, sameReg, hc, beq_self_eq_true, Bool.true_and]
            rw [← hg, hz]
            simp only [Option.map_some, Option.getD_some, Table.get_set, beq_iff_eq]
            have : (c.toNat - 192 = d.toNat - 192) ↔ c = d := by rw [← code_toNat_inj]; omega
            simp only [this]
            split <;> rfl
          · have h1 : sameReg (.lane l) (.lane k) c = false := by simp [sameReg, hc, hg]
            rw [h1]
            simp only [Bool.false_and, Bool.false_eq_true, if_false]
            refine reg_lane_congr k d (by rw [hl]) ?_
            rw [group_modGroup, if_neg hg]
      | control q => simp [State.reg, sameReg]
      | wave n i => simp only [State.reg, sliceAt_congr (modGroup_slices s l.gr _), sameReg]; simp
  | control q =>
    simp only [State.here, Option.isSome_iff_exists] at ht
    obtain ⟨y, hy⟩ := ht
    simp only [State.setReg32]
    cases u with
    | lane k => simp only [sameReg, Bool.false_and, Bool.false_eq_true, if_false]; exact reg_lane_congr k d (by simp) (by simp)
    | control r =>
      by_cases hqr : q = r
      · subst hqr
        simp only [State.reg, quad_modControl, if_true, hy, Option.map_some, Option.getD_some, Table.get_set, sameReg,
          beq_self_eq_true, Bool.true_and, code_toNat_inj, beq_iff_eq]
      · have h1 : sameReg (.control q) (.control r) c = false := by simp [sameReg, hqr]
        rw [h1]
        simp only [Bool.false_and, Bool.false_eq_true, if_false]
        refine reg_control_congr r d ?_
        rw [quad_modControl, if_neg hqr]
    | wave n i => simp only [State.reg, sliceAt_congr (modControl_slices s q _), sameReg]; simp
  | wave n i =>
    simp only [State.here, Option.isSome_iff_exists] at ht
    obtain ⟨y, hy⟩ := ht
    have hw : ∃ w, (s.sliceAt n).wave = some w ∧ w.lanes[i]? = some y := by
      cases hz : (s.sliceAt n).wave with
      | none => simp [hz] at hy
      | some w => exact ⟨w, rfl, by simpa [hz] using hy⟩
    obtain ⟨w, hw, hyi⟩ := hw
    simp only [State.setReg32]
    split
    · rename_i hc
      cases u with
      | lane k =>
        simp only [sameReg, Bool.false_and, Bool.false_eq_true, if_false]
        exact reg_lane_congr k d (by rw [lane_congr (modWaveLane_clusters s n i _)]) (by rw [group_congr (modWaveLane_clusters s n i _)])
      | control q =>
        simp only [sameReg, Bool.false_and, Bool.false_eq_true, if_false]
        exact reg_control_congr q d (by rw [quad_congr (modWaveLane_clusters s n i _)])
      | wave m j =>
        by_cases hnm : n = m
        · subst hnm
          simp only [State.reg, wave_modWaveLane, if_true, hw, Option.map_some, modAt_getElem?, sameReg, hc, beq_self_eq_true,
            Bool.true_and]
          by_cases hij : i = j
          · subst hij
            simp only [if_true, hyi, Option.map_some, Option.getD_some, beq_self_eq_true, Bool.true_and, Table.get_set,
              code_toNat_inj, beq_iff_eq]
            by_cases hcd : c = d
            · subst hcd; simp [hc]
            · simp [hcd]
          · simp [hij]
        · have h1 : sameReg (.wave n i) (.wave m j) c = false := by simp [sameReg, hc, hnm]
          rw [h1]
          simp only [State.reg, wave_modWaveLane, hnm, if_false, Bool.false_and, Bool.false_eq_true]
    · rename_i hc
      cases u with
      | lane k =>
        simp only [sameReg, Bool.false_and, Bool.false_eq_true, if_false]
        exact reg_lane_congr k d (by rw [lane_congr (modWave_clusters s n _)]) (by rw [group_congr (modWave_clusters s n _)])
      | control q =>
        simp only [sameReg, Bool.false_and, Bool.false_eq_true, if_false]
        exact reg_control_congr q d (by rw [quad_congr (modWave_clusters s n _)])
      | wave m j =>
        by_cases hnm : n = m
        · subst hnm
          simp only [State.reg, wave_modWave, if_true, hw, Option.map_some, sameReg, hc, if_false, beq_self_eq_true,
            Bool.true_and]
          by_cases hd : d.toNat < 192
          · have hne : ¬ c = d := fun h => hc (h ▸ hd)
            simp [hd, hne]
          · have : (c.toNat - 192 = d.toNat - 192) ↔ c = d := by rw [← code_toNat_inj]; omega
            simp only [hd, if_false, Table.get_set, this, beq_iff_eq]
            split <;> rfl
        · have h1 : sameReg (.wave n i) (.wave m j) c = false := by simp [sameReg, hc, hnm]
          rw [h1]
          simp only [State.reg, wave_modWave, hnm, if_false, Bool.false_and, Bool.false_eq_true]

end Sys2Proof.Machine
end

