-- ==== Sys2Proof/Laws/ThreadState.lean ====
section
/-! SUPPORT. What a thread's condition bits, flags and PC read after a part of a thread has been written. -/

namespace Sys2Proof.Machine

open Sys2Proof

variable (s : State)

/-! ### A part of a thread -/

/-- What a thread holds beside its registers and its LINK. -/
structure ThreadView where
  cond : BitVec 8
  lsw : Word
  pc : BitVec 56

/-- Condition bits, flags and PC of a thread. -/
def State.threadView (s : State) : Thread → Option ThreadView
  | .lane l => (s.lane l).map fun x : Lane => ⟨x.cond, x.lsw, x.pc⟩
  | .control q => (s.quad q).map fun x : Quad => ⟨x.control.cond, 0, x.control.pc⟩
  | .wave n i => ((s.sliceAt n).wave.bind fun w => w.lanes[i]?).map fun x : WaveLane => ⟨x.cond, x.lsw, x.pc⟩

theorem here_eq_threadView (t : Thread) : s.here t = (s.threadView t).isSome := by
  cases t <;> simp only [State.here, State.threadView, Option.isSome_map]

theorem condBit_eq (t : Thread) (c : CBit) :
    s.condBit t c = (c == 7 || ((s.threadView t).map fun x => x.cond.getLsbD c.toNat).getD false) := by
  cases t <;> simp [State.condBit, State.threadView, Option.map_map, Function.comp_def]

theorem lswOf_eq (t : Thread) : s.lswOf t = ((s.threadView t).map fun x => x.lsw).getD 0 := by
  cases t
  · simp [State.lswOf, State.threadView, Option.map_map, Function.comp_def]
  · simp only [State.lswOf, State.threadView]; cases s.quad _ <;> rfl
  · simp [State.lswOf, State.threadView, Option.map_map, Function.comp_def]

theorem pcOf_eq (t : Thread) : s.pcOf t = ((s.threadView t).map fun x => x.pc).getD 0 := by
  cases t <;> simp [State.pcOf, State.threadView, Option.map_map, Function.comp_def]

/-- A lane changed. -/
theorem threadView_modLane (l : LaneRef) (f : Lane → Lane) (t : Thread) :
    (s.modLane l f).threadView t
      = if t = .lane l then (s.lane l).map (fun x => ⟨(f x).cond, (f x).lsw, (f x).pc⟩) else s.threadView t := by
  cases t with
  | lane k =>
    simp only [State.threadView, lane_modLane, Thread.lane.injEq]
    by_cases h : l = k
    · subst h; simp [Option.map_map, Function.comp_def]
    · have h' : ¬ k = l := fun e => h e.symm
      simp [h, h']
  | control q => simp [State.threadView]
  | wave n i => simp [State.threadView, sliceAt_congr (modLane_slices s l f)]

theorem threadView_modGroup (g : GroupRef) (f : Group → Group) (hf : ∀ x, (f x).lanes = x.lanes) (t : Thread) :
    (s.modGroup g f).threadView t = s.threadView t := by
  cases t with
  | lane k => simp only [State.threadView, lane_modGroup s g k f hf]
  | control q => simp [State.threadView]
  | wave n i => simp only [State.threadView, sliceAt_congr (modGroup_slices s g f)]

theorem threadView_modControl (q : QuadRef) (f : Control → Control) (t : Thread) :
    (s.modControl q f).threadView t
      = if t = .control q then (s.quad q).map (fun x => ⟨(f x.control).cond, 0, (f x.control).pc⟩) else s.threadView t := by
  cases t with
  | lane k => simp [State.threadView]
  | control r =>
    simp only [State.threadView, quad_modControl, Thread.control.injEq]
    by_cases h : q = r
    · subst h; simp [Option.map_map, Function.comp_def]
    · have h' : ¬ r = q := fun e => h e.symm
      simp [h, h']
  | wave n i => simp [State.threadView, sliceAt_congr (modControl_slices s q f)]

theorem threadView_modWaveLane (n i : Nat) (f : WaveLane → WaveLane) (t : Thread) :
    (s.modWaveLane n i f).threadView t
      = if t = .wave n i then ((s.sliceAt n).wave.bind fun w => w.lanes[i]?).map (fun x => ⟨(f x).cond, (f x).lsw, (f x).pc⟩)
        else s.threadView t := by
  cases t with
  | lane k => simp [State.threadView, lane_congr (modWaveLane_clusters s n i f)]
  | control q => simp [State.threadView, quad_congr (modWaveLane_clusters s n i f)]
  | wave m j =>
    simp only [State.threadView, wave_modWaveLane, Thread.wave.injEq]
    by_cases h : n = m
    · subst h
      cases (s.sliceAt n).wave with
      | none => simp
      | some w =>
        by_cases h1 : i = j
        · subst h1; simp [modAt_getElem?, Option.map_map, Function.comp_def]
        · have h1' : ¬ j = i := fun e => h1 e.symm
          simp [modAt_getElem?, h1, h1']
    · have h' : ¬ m = n := fun e => h e.symm
      simp [h, h']

theorem threadView_modWave (n : Nat) (f : Wave → Wave) (hf : ∀ x : Wave, (f x).lanes = x.lanes) (t : Thread) :
    (s.modWave n f).threadView t = s.threadView t := by
  cases t with
  | lane k => simp [State.threadView, lane_congr (modWave_clusters s n f)]
  | control q => simp [State.threadView, quad_congr (modWave_clusters s n f)]
  | wave m j =>
    simp only [State.threadView, wave_modWave]
    by_cases h : n = m
    · subst h; cases (s.sliceAt n).wave <;> simp [hf]
    · simp [h]

/-! ### Writes of registers, bits, flags, LINK and PC -/

@[simp] theorem threadView_setReg32 (t : Thread) (c : Code) (x : Word) (u : Thread) :
    (s.setReg32 t c x).threadView u = s.threadView u := by
  cases t with
  | lane l =>
    simp only [State.setReg32]
    split
    · rw [threadView_modLane]; split
      · rename_i h; subst h; rfl
      · rfl
    · rw [threadView_modGroup]; intro _; rfl
  | control q =>
    simp only [State.setReg32]
    rw [threadView_modControl]; split
    · rename_i h; subst h; rfl
    · rfl
  | wave n i =>
    simp only [State.setReg32]
    split
    · rw [threadView_modWaveLane]; split
      · rename_i h; subst h; rfl
      · rfl
    · rw [threadView_modWave]; intro _; rfl

@[simp] theorem threadView_setReg64 (t : Thread) (c : Code) (x : DWord) (u : Thread) :
    (s.setReg64 t c x).threadView u = s.threadView u := by
  cases t with
  | control q =>
    simp only [State.setReg64]
    rw [threadView_modControl]; split
    · rename_i h; subst h; rfl
    · rfl
  | lane l => simp [State.setReg64]
  | wave n i => simp [State.setReg64]

@[simp] theorem threadView_applyWrite (t : Thread) (w : RegWrite) (u : Thread) : (s.applyWrite t w).threadView u = s.threadView u := by
  cases w <;> simp [State.applyWrite]

theorem threadView_setCond (t : Thread) (c : CBit) (b : Bool) (u : Thread) :
    (s.setCond t c b).threadView u
      = if u = t then (s.threadView t).map (fun x => { x with cond := putCond x.cond c b }) else s.threadView u := by
  cases t <;> simp only [State.setCond]
  · rw [threadView_modLane]; split
    · simp [State.threadView, Option.map_map, Function.comp_def]
    · rfl
  · rw [threadView_modControl]; split
    · simp [State.threadView, Option.map_map, Function.comp_def]
    · rfl
  · rw [threadView_modWaveLane]; split
    · simp [State.threadView, Option.map_map, Function.comp_def]
    · rfl

theorem threadView_setPc (t : Thread) (pc : BitVec 56) (u : Thread) :
    (s.setPc t pc).threadView u = if u = t then (s.threadView t).map (fun x => { x with pc := pc }) else s.threadView u := by
  cases t with
  | lane l =>
    simp only [State.setPc]
    rw [threadView_modLane]; split
    · simp [State.threadView, Option.map_map, Function.comp_def]
    · rfl
  | control q =>
    simp only [State.setPc]
    rw [threadView_modControl]; split
    · simp [State.threadView, Option.map_map, Function.comp_def]
    · rfl
  | wave n i =>
    simp only [State.setPc]
    cases u with
    | lane k => simp [State.threadView, lane_congr (modWave_clusters s n _)]
    | control q => simp [State.threadView, quad_congr (modWave_clusters s n _)]
    | wave m j =>
      simp only [State.threadView, wave_modWave, Thread.wave.injEq]
      by_cases h : n = m
      · subst h
        cases (s.sliceAt n).wave with
        | none => simp
        | some w =>
          by_cases h1 : i = j
          · subst h1; simp [modAt_getElem?, Option.map_map, Function.comp_def]
          · have h1' : ¬ j = i := fun e => h1 e.symm
            simp [modAt_getElem?, h1, h1']
      · have h' : ¬ m = n := fun e => h e.symm
        simp [h, h']

@[simp] theorem threadView_setLink (t : Thread) (x : DWord) (u : Thread) : (s.setLink t x).threadView u = s.threadView u := by
  cases t <;> simp only [State.setLink]
  · rw [threadView_modLane]; split
    · rename_i h; subst h; rfl
    · rfl
  · rw [threadView_modControl]; split
    · rename_i h; subst h; rfl
    · rfl

/-- Flags are set in a lane or a wave lane; a control core has none. -/
theorem lswOf_setFlags (t : Thread) (f : Word) (ht : s.here t = true) (u : Thread) :
    (s.setFlags t f).lswOf u = if u = t ∧ ¬ t.isControl then s.lswOf u ||| f else s.lswOf u := by
  cases t with
  | control q => simp [State.setFlags, Thread.isControl]
  | lane l =>
    simp only [State.setFlags, Thread.isControl]
    rw [lswOf_eq, threadView_modLane]
    by_cases h : u = .lane l
    · subst h
      simp only [State.here, Option.isSome_iff_exists] at ht
      obtain ⟨y, hy⟩ := ht
      simp [hy, State.lswOf]
    · simp [h, lswOf_eq]
  | wave n i =>
    simp only [State.setFlags, Thread.isControl]
    rw [lswOf_eq, threadView_modWaveLane]
    by_cases h : u = .wave n i
    · subst h
      simp only [State.here, Option.isSome_iff_exists] at ht
      obtain ⟨y, hy⟩ := ht
      simp [hy, State.lswOf]
    · simp [h, lswOf_eq]

theorem condBit_setFlags (t : Thread) (f : Word) (u : Thread) (c : CBit) :
    (s.setFlags t f).condBit u c = s.condBit u c := by
  cases t with
  | control q => rfl
  | lane l =>
    simp only [State.setFlags]
    rw [condBit_eq, threadView_modLane, condBit_eq]
    split
    · rename_i h; subst h; simp [State.threadView, Option.map_map, Function.comp_def]
    · rfl
  | wave n i =>
    simp only [State.setFlags]
    rw [condBit_eq, threadView_modWaveLane, condBit_eq]
    split
    · rename_i h; subst h; simp [State.threadView, Option.map_map, Function.comp_def]
    · rfl

theorem pcOf_setFlags (t : Thread) (f : Word) (u : Thread) : (s.setFlags t f).pcOf u = s.pcOf u := by
  cases t with
  | control q => rfl
  | lane l =>
    simp only [State.setFlags]
    rw [pcOf_eq, threadView_modLane, pcOf_eq]
    split
    · rename_i h; subst h; simp [State.threadView, Option.map_map, Function.comp_def]
    · rfl
  | wave n i =>
    simp only [State.setFlags]
    rw [pcOf_eq, threadView_modWaveLane, pcOf_eq]
    split
    · rename_i h; subst h; simp [State.threadView, Option.map_map, Function.comp_def]
    · rfl

/-! ### Condition bits -/

theorem setBit8_getLsbD (x : BitVec 8) (i j : Nat) (b : Bool) (hi : i < 8) :
    (setBit8 x i b).getLsbD j = if i = j then b else x.getLsbD j := by
  have h1 : ∀ j, (1#8 <<< i).getLsbD j = decide (i = j) := by
    intro j
    simp only [BitVec.getLsbD_shiftLeft, BitVec.getLsbD_one]
    by_cases h : i = j
    · subst h; simp [hi]
    · simp only [h, decide_false, Bool.and_eq_false_iff]
      by_cases hlt : j < i
      · simp [hlt]
      · have : ¬ j - i = 0 := by omega
        simp [this]
  cases b
  · simp only [setBit8, Bool.false_eq_true, if_false, BitVec.getLsbD_and, BitVec.getLsbD_not, h1]
    by_cases h : i = j
    · simp [h]
    · by_cases h8 : j < 8
      · simp [h, h8]
      · simp [h, h8, BitVec.getLsbD_of_ge x j (by omega)]
  · simp only [setBit8, if_true, BitVec.getLsbD_or, h1]
    by_cases h : i = j <;> simp [h]

/-- A condition bit after one has been written; c7 stays 1 (R24, R27). -/
theorem condBit_setCond (t : Thread) (c : CBit) (b : Bool) (ht : s.here t = true) (u : Thread) (d : CBit) :
    (s.setCond t c b).condBit u d = if u = t ∧ d = c ∧ c ≠ 7 then b else s.condBit u d := by
  rw [condBit_eq, threadView_setCond, condBit_eq]
  rw [here_eq_threadView, Option.isSome_iff_exists] at ht
  obtain ⟨y, hy⟩ := ht
  by_cases hu : u = t
  · subst hu
    simp only [if_true, hy, Option.map_some, Option.getD_some, putCond]
    by_cases hc : c = 7
    · subst hc; simp
    · simp only [hc, if_false, true_and, ne_eq, not_false_eq_true, and_true]
      rw [setBit8_getLsbD _ _ _ _ (by omega)]
      by_cases hd : d = c
      · subst hd; simp; exact fun h => absurd h hc
      · have : ¬ c.toNat = d.toNat := fun h => hd (BitVec.eq_of_toNat_eq h.symm)
        simp [hd, this]
  · simp [hu]

@[simp] theorem condBit_setReg32 (t : Thread) (c : Code) (x : Word) (u : Thread) (d : CBit) :
    (s.setReg32 t c x).condBit u d = s.condBit u d := by rw [condBit_eq, threadView_setReg32, ← condBit_eq]

@[simp] theorem condBit_applyWrite (t : Thread) (w : RegWrite) (u : Thread) (d : CBit) :
    (s.applyWrite t w).condBit u d = s.condBit u d := by rw [condBit_eq, threadView_applyWrite, ← condBit_eq]

@[simp] theorem condBit_setPc (t : Thread) (pc : BitVec 56) (u : Thread) (d : CBit) :
    (s.setPc t pc).condBit u d = s.condBit u d := by
  rw [condBit_eq, threadView_setPc, condBit_eq]
  split
  · rename_i h; subst h; simp [Option.map_map, Function.comp_def]
  · rfl

@[simp] theorem lswOf_setReg32 (t : Thread) (c : Code) (x : Word) (u : Thread) :
    (s.setReg32 t c x).lswOf u = s.lswOf u := by rw [lswOf_eq, threadView_setReg32, ← lswOf_eq]

@[simp] theorem lswOf_applyWrite (t : Thread) (w : RegWrite) (u : Thread) :
    (s.applyWrite t w).lswOf u = s.lswOf u := by rw [lswOf_eq, threadView_applyWrite, ← lswOf_eq]

@[simp] theorem lswOf_setCond (t : Thread) (c : CBit) (b : Bool) (u : Thread) :
    (s.setCond t c b).lswOf u = s.lswOf u := by
  rw [lswOf_eq, threadView_setCond, lswOf_eq]
  split
  · rename_i h; subst h; simp [Option.map_map, Function.comp_def]
  · rfl

@[simp] theorem lswOf_setPc (t : Thread) (pc : BitVec 56) (u : Thread) :
    (s.setPc t pc).lswOf u = s.lswOf u := by
  rw [lswOf_eq, threadView_setPc, lswOf_eq]
  split
  · rename_i h; subst h; simp [Option.map_map, Function.comp_def]
  · rfl

@[simp] theorem pcOf_applyWrite (t : Thread) (w : RegWrite) (u : Thread) :
    (s.applyWrite t w).pcOf u = s.pcOf u := by rw [pcOf_eq, threadView_applyWrite, ← pcOf_eq]

@[simp] theorem pcOf_setCond (t : Thread) (c : CBit) (b : Bool) (u : Thread) :
    (s.setCond t c b).pcOf u = s.pcOf u := by
  rw [pcOf_eq, threadView_setCond, pcOf_eq]
  split
  · rename_i h; subst h; simp [Option.map_map, Function.comp_def]
  · rfl

/-- The PC of a thread after one has been set. -/
theorem pcOf_setPc (t : Thread) (pc : BitVec 56) (ht : s.here t = true) (u : Thread) :
    (s.setPc t pc).pcOf u = if u = t then pc else s.pcOf u := by
  rw [pcOf_eq, threadView_setPc, pcOf_eq]
  rw [here_eq_threadView, Option.isSome_iff_exists] at ht
  obtain ⟨y, hy⟩ := ht
  split
  · rename_i h; subst h; simp [hy]
  · rfl

end Sys2Proof.Machine
end

