-- ==== Sys2Proof/Laws/Frames.lean ====
section
/-! SUPPORT. Writing a thread's registers, condition bits, flags or PC changes nothing else. -/

namespace Sys2Proof.Machine

open Sys2Proof

variable {s t : State}

theorem OnlyThreads.refl (s : State) : OnlyThreads s s := ⟨rfl, fun _ => rfl, fun _ => rfl⟩

theorem OnlyThreads.trans {u : State} (h : OnlyThreads s t) (k : OnlyThreads t u) : OnlyThreads s u :=
  ⟨k.outside.trans h.outside, fun c => (k.clusters c).trans (h.clusters c), fun n => (k.slices n).trans (h.slices n)⟩

/-- Each step of a fold touches only threads, so the fold does. -/
theorem OnlyThreads.foldl {α : Type} (f : State → α → State) (hf : ∀ s a, OnlyThreads s (f s a)) (as : List α) (s : State) :
    OnlyThreads s (as.foldl f s) := by
  induction as generalizing s with
  | nil => exact OnlyThreads.refl s
  | cons a as ih => exact (hf s a).trans (ih _)

theorem OnlyThreads.mem (h : OnlyThreads s t) : t.mem = s.mem := by have := congrArg State.mem h.outside; exact this
theorem OnlyThreads.reqs (h : OnlyThreads s t) : t.reqs = s.reqs := by have := congrArg State.reqs h.outside; exact this
theorem OnlyThreads.grids (h : OnlyThreads s t) : t.grids = s.grids := by have := congrArg State.grids h.outside; exact this
theorem OnlyThreads.bar0 (h : OnlyThreads s t) : t.bar0 = s.bar0 := by have := congrArg State.bar0 h.outside; exact this
theorem OnlyThreads.cur (h : OnlyThreads s t) : t.cur = s.cur := by have := congrArg State.cur h.outside; exact this

/-- A part of a list changed in nothing that g keeps. -/
theorem map_modAt {α β : Type} (g : α → β) (f : α → α) (hf : ∀ x, g (f x) = g x) (xs : List α) (n : Nat) :
    (modAt xs n f).map g = xs.map g := by
  induction xs generalizing n with
  | nil => rfl
  | cons x xs ih => cases n <;> simp [modAt, hf, ih]

theorem OnlyThreads.modCluster (c : Nat) (f : Cluster → Cluster) (hf : ∀ x, (f x).fixed = x.fixed) :
    OnlyThreads s (s.modCluster c f) := by
  refine ⟨?_, fun d => ?_, fun n => by rw [sliceAt_congr (modCluster_slices s c f)]⟩
  · unfold State.modCluster; split <;> rfl
  · rw [cluster_modCluster]; split
    · rename_i h; subst h; simp [Option.map_map, Function.comp_def, hf]
    · rfl

theorem OnlyThreads.modGroup (g : GroupRef) (f : Group → Group) (hf : ∀ x, (f x).fixed = x.fixed) :
    OnlyThreads s (s.modGroup g f) := by
  refine OnlyThreads.modCluster _ _ fun x => ?_
  simp only [Cluster.fixed]
  rw [map_modAt]
  intro t
  simp only [Team.fixed]
  rw [map_modAt _ _ hf]

theorem OnlyThreads.modLane (l : LaneRef) (f : Lane → Lane) (hf : ∀ x, (f x).fixed = x.fixed) :
    OnlyThreads s (s.modLane l f) := by
  refine OnlyThreads.modGroup _ _ fun x => ?_
  simp only [Group.fixed]
  rw [map_modAt _ _ hf]

theorem OnlyThreads.modControl (q : QuadRef) (f : Control → Control) (hf : ∀ x, (f x).fixed = x.fixed) :
    OnlyThreads s (s.modControl q f) := by
  refine OnlyThreads.modCluster _ _ fun x => ?_
  simp only [Cluster.fixed]
  rw [map_modAt]
  intro t
  simp only [Quad.fixed, hf]

theorem OnlyThreads.modWave (n : Nat) (f : Wave → Wave)
    (hf : ∀ w : Wave, { f w with lanes := (f w).lanes.map WaveLane.fixed, g := [] }
      = { w with lanes := w.lanes.map WaveLane.fixed, g := [] }) : OnlyThreads s (s.modWave n f) := by
  refine ⟨?_, fun d => by rw [cluster_congr (modWave_clusters s n f)], fun m => ?_⟩
  · unfold State.modWave; dsimp only; split <;> rfl
  · unfold State.modWave
    dsimp only
    split
    · rfl
    · rename_i w h
      rw [sliceAt_setSlice]
      split
      · rename_i e; subst e
        simp only [Slice.fixed, h, Option.map_some, hf]
      · rfl

theorem OnlyThreads.setReg32 (th : Thread) (c : Code) (x : Word) : OnlyThreads s (s.setReg32 th c x) := by
  cases th with
  | lane l =>
    simp only [State.setReg32]; split
    · apply OnlyThreads.modLane; intro _; rfl
    · apply OnlyThreads.modGroup; intro _; rfl
  | control q => simp only [State.setReg32]; apply OnlyThreads.modControl; intro _; rfl
  | wave n i =>
    simp only [State.setReg32]; split
    · rw [modWaveLane_eq]; apply OnlyThreads.modWave; intro w; dsimp only; rw [map_modAt]; intro _; rfl
    · apply OnlyThreads.modWave; intro _; rfl

theorem OnlyThreads.setReg64 (th : Thread) (c : Code) (x : DWord) : OnlyThreads s (s.setReg64 th c x) := by
  cases th with
  | control q => simp only [State.setReg64]; apply OnlyThreads.modControl; intro _; rfl
  | lane l => exact OnlyThreads.trans (OnlyThreads.setReg32 (.lane l) c _) (OnlyThreads.setReg32 (.lane l) (c + 1) _)
  | wave n i => exact OnlyThreads.trans (OnlyThreads.setReg32 (.wave n i) c _) (OnlyThreads.setReg32 (.wave n i) (c + 1) _)

theorem OnlyThreads.setCond (th : Thread) (c : CBit) (b : Bool) : OnlyThreads s (s.setCond th c b) := by
  cases th with
  | lane l => simp only [State.setCond]; apply OnlyThreads.modLane; intro _; rfl
  | control q => simp only [State.setCond]; apply OnlyThreads.modControl; intro _; rfl
  | wave n i =>
    simp only [State.setCond]
    rw [modWaveLane_eq]; apply OnlyThreads.modWave; intro w; dsimp only; rw [map_modAt]; intro _; rfl

theorem OnlyThreads.setFlags (th : Thread) (f : Word) : OnlyThreads s (s.setFlags th f) := by
  cases th with
  | lane l => simp only [State.setFlags]; apply OnlyThreads.modLane; intro _; rfl
  | control q => exact OnlyThreads.refl s
  | wave n i =>
    simp only [State.setFlags]
    rw [modWaveLane_eq]; apply OnlyThreads.modWave; intro w; dsimp only; rw [map_modAt]; intro _; rfl

theorem OnlyThreads.setPc (th : Thread) (pc : BitVec 56) : OnlyThreads s (s.setPc th pc) := by
  cases th with
  | lane l => simp only [State.setPc]; apply OnlyThreads.modLane; intro _; rfl
  | control q => simp only [State.setPc]; apply OnlyThreads.modControl; intro _; rfl
  | wave n i =>
    simp only [State.setPc]
    apply OnlyThreads.modWave; intro w; dsimp only; rw [map_modAt]; intro _; rfl

theorem OnlyThreads.applyWrite (th : Thread) (w : RegWrite) : OnlyThreads s (s.applyWrite th w) := by
  cases w
  · exact OnlyThreads.setReg32 _ _ _
  · exact OnlyThreads.setReg64 _ _ _

theorem OnlyThreads.applyEff (th : Thread) (e : Eff) : OnlyThreads s (s.applyEff th e) := by
  have h1 : OnlyThreads s (e.regs.foldl (fun s w => s.applyWrite th w) s) :=
    OnlyThreads.foldl _ (fun _ _ => OnlyThreads.applyWrite _ _) _ _
  have h2 := h1.trans (OnlyThreads.foldl (fun s (p : CBit × Bool) => s.setCond th p.1 p.2)
    (fun _ _ => OnlyThreads.setCond _ _ _) e.conds _)
  unfold State.applyEff
  dsimp only
  split
  · exact h2
  · exact h2.trans (OnlyThreads.setFlags _ _)

theorem OnlyThreads.applyAll (es : List (Thread × Eff)) : OnlyThreads s (s.applyAll es) :=
  OnlyThreads.foldl _ (fun _ _ => OnlyThreads.applyEff _ _) es s

theorem OnlyThreads.setPcs (ts : List Thread) (pc : BitVec 56) : OnlyThreads s (s.setPcs ts pc) :=
  OnlyThreads.foldl _ (fun _ _ => OnlyThreads.setPc _ _) ts s

theorem OnlyThreads.touchLines (u : Issue) (i : Instr) (ms : List Nat) : OnlyThreads s (s.touchLines u i ms) := by
  unfold State.touchLines
  split
  · split
    · exact OnlyThreads.refl s
    · apply OnlyThreads.modGroup; intro _; rfl
  · exact OnlyThreads.refl s

end Sys2Proof.Machine
end

