-- ==== Sys2Proof/Laws/Issue.lean ====
section
/-! SUPPORT. What an instruction that acts on each member by itself does: its next state, and what each thread's registers,
condition bits, flags and PC read in it. -/

namespace Sys2Proof.Machine

open Sys2Proof

variable (s : State)

/-! ### What an effect writes -/

/-- What a register write leaves in the register of a code, if it writes it; ctl for a control core (R23). -/
def RegWrite.valueAt (w : RegWrite) (ctl : Bool) (c : Code) : Option DWord :=
  match w with
  | .r32 d x => if d = c then some (x.zeroExtend 64) else none
  | .r64 d x =>
    if ctl then (if d = c then some x else none)
    else if d + 1 = c then some ((x.extractLsb' 32 32 : Word).zeroExtend 64)
    else if d = c then some ((x.truncate 32 : Word).zeroExtend 64) else none

/-- What a list of writes leaves in a register, if one writes it. -/
def valueOf (ctl : Bool) (c : Code) : List RegWrite → Option DWord → Option DWord
  | [], o => o
  | w :: ws, o => valueOf ctl c ws ((w.valueAt ctl c).or o)

/-- What an effect leaves in the register of a code, if it writes it. -/
def Eff.valueAt (e : Eff) (ctl : Bool) (c : Code) : Option DWord := valueOf ctl c e.regs none

/-- What a list of writes leaves in a condition bit. -/
def bitOf (c : CBit) : List (CBit × Bool) → Bool → Bool
  | [], b => b
  | p :: ps, b => bitOf c ps (if c = p.1 ∧ p.1 ≠ 7 then p.2 else b)

theorem valueOf_getD (ctl : Bool) (c : Code) (ws : List RegWrite) (o : Option DWord) (x : DWord) :
    (valueOf ctl c ws o).getD x = (valueOf ctl c ws none).getD (o.getD x) := by
  induction ws generalizing o x with
  | nil => rfl
  | cons w ws ih =>
    rw [valueOf, valueOf, ih, ih ((w.valueAt ctl c).or none) (o.getD x)]
    cases w.valueAt ctl c <;> simp

/-- A register after a write. -/
theorem reg_applyWrite (t : Thread) (w : RegWrite) (ht : s.here t = true) (u : Thread) (c : Code) :
    (s.applyWrite t w).reg u c
      = if sameReg t u c then (w.valueAt t.isControl c).getD (s.reg u c) else s.reg u c := by
  have key : ∀ (s : State) (d : Code) (x : Word), s.here t = true →
      (s.setReg32 t d x).reg u c = if sameReg t u c = true ∧ d = c then x.zeroExtend 64 else s.reg u c := by
    intro s d x h
    rw [reg_setReg32 s t d x h u c]
    by_cases hd : d = c
    · subst hd; simp
    · simp [hd]
  cases w with
  | r32 d x =>
    simp only [State.applyWrite, RegWrite.valueAt]
    rw [key s d x ht]
    by_cases h : sameReg t u c <;> by_cases hd : d = c <;> simp [h, hd]
  | r64 d x =>
    simp only [State.applyWrite, RegWrite.valueAt]
    cases t with
    | control q =>
      simp only [State.here, Option.isSome_iff_exists] at ht
      obtain ⟨y, hy⟩ := ht
      simp only [State.setReg64, Thread.isControl, if_true]
      cases u with
      | control r =>
        by_cases hqr : q = r
        · subst hqr
          simp only [State.reg, quad_modControl, if_true, hy, Option.map_some, Option.getD_some, Table.get_set, sameReg,
            beq_self_eq_true, code_toNat_inj]
          split <;> rfl
        · have h1 : sameReg (.control q) (.control r) c = false := by simp [sameReg, hqr]
          rw [h1, if_neg (by simp)]
          refine reg_control_congr r c ?_
          rw [quad_modControl, if_neg hqr]
      | lane k => simp only [sameReg, Bool.false_eq_true, if_false]; exact reg_lane_congr k c (by simp) (by simp)
      | wave n i => simp only [State.reg, sliceAt_congr (modControl_slices s q _), sameReg]; simp
    | lane l =>
      simp only [State.setReg64, Thread.isControl, Bool.false_eq_true, if_false]
      rw [key _ _ _ (by simpa using ht), key _ _ _ ht]
      generalize d + 1 = e
      by_cases h : sameReg (.lane l) u c <;> by_cases hd : e = c <;> by_cases hd' : d = c <;> simp [h, hd, hd']
    | wave n i =>
      simp only [State.setReg64, Thread.isControl, Bool.false_eq_true, if_false]
      rw [key _ _ _ (by simpa using ht), key _ _ _ ht]
      generalize d + 1 = e
      by_cases h : sameReg (.wave n i) u c <;> by_cases hd : e = c <;> by_cases hd' : d = c <;> simp [h, hd, hd']

theorem here_foldl_applyWrite (ws : List RegWrite) (t u : Thread) :
    (ws.foldl (fun s w => s.applyWrite t w) s).here u = s.here u := by
  induction ws generalizing s with
  | nil => rfl
  | cons w ws ih => rw [List.foldl_cons, ih, here_applyWrite]

theorem here_foldl_setCond (ps : List (CBit × Bool)) (t u : Thread) :
    (ps.foldl (fun s p => s.setCond t p.1 p.2) s).here u = s.here u := by
  induction ps generalizing s with
  | nil => rfl
  | cons p ps ih => rw [List.foldl_cons, ih, here_setCond]

@[simp] theorem here_applyEff (t : Thread) (e : Eff) (u : Thread) : (s.applyEff t e).here u = s.here u := by
  unfold State.applyEff
  dsimp only
  split <;> simp [here_foldl_setCond, here_foldl_applyWrite]

/-- A register after an effect. -/
theorem reg_applyEff (t : Thread) (e : Eff) (ht : s.here t = true) (u : Thread) (c : Code) :
    (s.applyEff t e).reg u c
      = if sameReg t u c then (e.valueAt t.isControl c).getD (s.reg u c) else s.reg u c := by
  have h1 : ∀ (ws : List RegWrite) (s : State), s.here t = true →
      (ws.foldl (fun s w => s.applyWrite t w) s).reg u c
        = if sameReg t u c then (valueOf t.isControl c ws none).getD (s.reg u c) else s.reg u c := by
    intro ws
    induction ws with
    | nil => intro s _; simp [valueOf]
    | cons w ws ih =>
      intro s h
      rw [List.foldl_cons, ih _ (by simpa using h), reg_applyWrite s t w h, valueOf, valueOf_getD _ _ _ (Option.or _ _)]
      split
      · simp
      · rfl
  have h2 : ∀ (ps : List (CBit × Bool)) (s : State),
      (ps.foldl (fun s p => s.setCond t p.1 p.2) s).reg u c = s.reg u c := by
    intro ps
    induction ps with
    | nil => intro s; rfl
    | cons p ps ih => intro s; rw [List.foldl_cons, ih, reg_setCond]
  unfold State.applyEff
  dsimp only
  split
  · rw [h2, h1 _ _ ht, Eff.valueAt]
  · rw [reg_setFlags, h2, h1 _ _ ht, Eff.valueAt]

/-- A condition bit after an effect. -/
theorem condBit_applyEff (t : Thread) (e : Eff) (ht : s.here t = true) (u : Thread) (c : CBit) :
    (s.applyEff t e).condBit u c = if u = t then bitOf c e.conds (s.condBit u c) else s.condBit u c := by
  have h1 : ∀ (ws : List RegWrite) (s : State), (ws.foldl (fun s w => s.applyWrite t w) s).condBit u c = s.condBit u c := by
    intro ws
    induction ws with
    | nil => intro s; rfl
    | cons w ws ih => intro s; rw [List.foldl_cons, ih, condBit_applyWrite]
  have h2 : ∀ (ps : List (CBit × Bool)) (s : State), s.here t = true →
      (ps.foldl (fun s p => s.setCond t p.1 p.2) s).condBit u c
        = if u = t then bitOf c ps (s.condBit u c) else s.condBit u c := by
    intro ps
    induction ps with
    | nil => intro s _; simp [bitOf]
    | cons p ps ih =>
      intro s h
      rw [List.foldl_cons, ih _ (by simpa using h), condBit_setCond s t _ _ h]
      by_cases hu : u = t <;> simp [hu, bitOf]
  unfold State.applyEff
  dsimp only
  split
  · rw [h2 _ _ (by rw [here_foldl_applyWrite]; exact ht), h1]
  · rw [condBit_setFlags, h2 _ _ (by rw [here_foldl_applyWrite]; exact ht), h1]

/-- LSW after an effect. -/
theorem lswOf_applyEff (t : Thread) (e : Eff) (ht : s.here t = true) (u : Thread) :
    (s.applyEff t e).lswOf u = if u = t ∧ ¬ t.isControl then s.lswOf u ||| e.flags else s.lswOf u := by
  have h1 : ∀ (ws : List RegWrite) (s : State), (ws.foldl (fun s w => s.applyWrite t w) s).lswOf u = s.lswOf u := by
    intro ws
    induction ws with
    | nil => intro s; rfl
    | cons w ws ih => intro s; rw [List.foldl_cons, ih, lswOf_applyWrite]
  have h2 : ∀ (ps : List (CBit × Bool)) (s : State), (ps.foldl (fun s p => s.setCond t p.1 p.2) s).lswOf u = s.lswOf u := by
    intro ps
    induction ps with
    | nil => intro s; rfl
    | cons w ws ih => intro s; rw [List.foldl_cons, ih, lswOf_setCond]
  unfold State.applyEff
  dsimp only
  split
  · rename_i h; rw [h2, h1, h]; simp
  · rw [lswOf_setFlags _ _ _ (by rw [here_foldl_setCond, here_foldl_applyWrite]; exact ht), h2, h1]

theorem pcOf_applyEff (t : Thread) (e : Eff) (u : Thread) : (s.applyEff t e).pcOf u = s.pcOf u := by
  have h1 : ∀ (ws : List RegWrite) (s : State), (ws.foldl (fun s w => s.applyWrite t w) s).pcOf u = s.pcOf u := by
    intro ws
    induction ws with
    | nil => intro s; rfl
    | cons w ws ih => intro s; rw [List.foldl_cons, ih, pcOf_applyWrite]
  have h2 : ∀ (ps : List (CBit × Bool)) (s : State), (ps.foldl (fun s p => s.setCond t p.1 p.2) s).pcOf u = s.pcOf u := by
    intro ps
    induction ps with
    | nil => intro s; rfl
    | cons w ws ih => intro s; rw [List.foldl_cons, ih, pcOf_setCond]
  unfold State.applyEff
  dsimp only
  split
  · rw [h2, h1]
  · rw [pcOf_setFlags, h2, h1]

/-! ### Effects on several threads -/

theorem here_applyAll (es : List (Thread × Eff)) (u : Thread) : (s.applyAll es).here u = s.here u := by
  unfold State.applyAll
  induction es generalizing s with
  | nil => rfl
  | cons p es ih => rw [List.foldl_cons, ih, here_applyEff]

/-- A register that no effect of the list writes. -/
theorem reg_applyAll_other (es : List (Thread × Eff)) (u : Thread) (c : Code) (hh : ∀ p ∈ es, s.here p.1 = true)
    (hn : ∀ p ∈ es, sameReg p.1 u c = true → p.2.valueAt p.1.isControl c = none) : (s.applyAll es).reg u c = s.reg u c := by
  unfold State.applyAll
  induction es generalizing s with
  | nil => rfl
  | cons p es ih =>
    rw [List.foldl_cons, ih _ (fun q hq => by rw [here_applyEff]; exact hh q (List.mem_cons_of_mem _ hq))
      (fun q hq => hn q (List.mem_cons_of_mem _ hq)), reg_applyEff _ _ _ (hh p List.mem_cons_self)]
    split
    · rename_i h; rw [hn p List.mem_cons_self h]; rfl
    · rfl

/-- A register that some effect of the list writes, all of them with the same value. -/
theorem reg_applyAll (es : List (Thread × Eff)) (u : Thread) (c : Code) (x : DWord) (hh : ∀ p ∈ es, s.here p.1 = true)
    (hv : ∀ p ∈ es, sameReg p.1 u c = true → p.2.valueAt p.1.isControl c = some x)
    (he : ∃ p ∈ es, sameReg p.1 u c = true) : (s.applyAll es).reg u c = x := by
  unfold State.applyAll
  induction es generalizing s with
  | nil => obtain ⟨p, hp, _⟩ := he; cases hp
  | cons p es ih =>
    have hh' : ∀ q ∈ es, (s.applyEff p.1 p.2).here q.1 = true :=
      fun q hq => by rw [here_applyEff]; exact hh q (List.mem_cons_of_mem _ hq)
    by_cases hr : ∃ q ∈ es, sameReg q.1 u c = true
    · rw [List.foldl_cons]
      exact ih _ hh' (fun q hq => hv q (List.mem_cons_of_mem _ hq)) hr
    · have hp : sameReg p.1 u c = true := by
        obtain ⟨q, hq, hs⟩ := he
        rcases List.mem_cons.1 hq with rfl | h
        · exact hs
        · exact absurd ⟨q, h, hs⟩ hr
      have := reg_applyAll_other (s.applyEff p.1 p.2) es u c hh' (fun q hq hs => absurd ⟨q, hq, hs⟩ hr)
      unfold State.applyAll at this
      rw [List.foldl_cons, this, reg_applyEff _ _ _ (hh p List.mem_cons_self), if_pos hp,
        hv p List.mem_cons_self hp]
      rfl

theorem condBit_applyAll_other (es : List (Thread × Eff)) (u : Thread) (c : CBit) (hh : ∀ p ∈ es, s.here p.1 = true)
    (hn : ∀ p ∈ es, u = p.1 → ∀ b, bitOf c p.2.conds b = b) : (s.applyAll es).condBit u c = s.condBit u c := by
  unfold State.applyAll
  induction es generalizing s with
  | nil => rfl
  | cons p es ih =>
    rw [List.foldl_cons, ih _ (fun q hq => by rw [here_applyEff]; exact hh q (List.mem_cons_of_mem _ hq))
      (fun q hq => hn q (List.mem_cons_of_mem _ hq)), condBit_applyEff _ _ _ (hh p List.mem_cons_self)]
    split
    · rename_i h; rw [hn p List.mem_cons_self h]
    · rfl

theorem condBit_applyAll (es : List (Thread × Eff)) (u : Thread) (c : CBit) (x : Bool) (hh : ∀ p ∈ es, s.here p.1 = true)
    (hv : ∀ p ∈ es, u = p.1 → ∀ b, bitOf c p.2.conds b = x) (he : ∃ p ∈ es, u = p.1) :
    (s.applyAll es).condBit u c = x := by
  unfold State.applyAll
  induction es generalizing s with
  | nil => obtain ⟨p, hp, _⟩ := he; cases hp
  | cons p es ih =>
    have hh' : ∀ q ∈ es, (s.applyEff p.1 p.2).here q.1 = true :=
      fun q hq => by rw [here_applyEff]; exact hh q (List.mem_cons_of_mem _ hq)
    by_cases hr : ∃ q ∈ es, u = q.1
    · rw [List.foldl_cons]
      exact ih _ hh' (fun q hq => hv q (List.mem_cons_of_mem _ hq)) hr
    · have hp : u = p.1 := by
        obtain ⟨q, hq, hs⟩ := he
        rcases List.mem_cons.1 hq with rfl | h
        · exact hs
        · exact absurd ⟨q, h, hs⟩ hr
      have := condBit_applyAll_other (s.applyEff p.1 p.2) es u c hh' (fun q hq hs => absurd ⟨q, hq, hs⟩ hr)
      unfold State.applyAll at this
      rw [List.foldl_cons, this, condBit_applyEff _ _ _ (hh p List.mem_cons_self), if_pos hp,
        hv p List.mem_cons_self hp]

theorem lswOf_applyAll_other (es : List (Thread × Eff)) (u : Thread) (hh : ∀ p ∈ es, s.here p.1 = true)
    (hn : ∀ p ∈ es, u = p.1 → p.2.flags = 0) : (s.applyAll es).lswOf u = s.lswOf u := by
  unfold State.applyAll
  induction es generalizing s with
  | nil => rfl
  | cons p es ih =>
    rw [List.foldl_cons, ih _ (fun q hq => by rw [here_applyEff]; exact hh q (List.mem_cons_of_mem _ hq))
      (fun q hq => hn q (List.mem_cons_of_mem _ hq)), lswOf_applyEff _ _ _ (hh p List.mem_cons_self)]
    split
    · rename_i h; rw [hn p List.mem_cons_self h.1]; simp
    · rfl

theorem lswOf_applyAll (es : List (Thread × Eff)) (u : Thread) (f : Word) (hu : ¬ u.isControl = true)
    (hh : ∀ p ∈ es, s.here p.1 = true) (hv : ∀ p ∈ es, u = p.1 → p.2.flags = f) (he : ∃ p ∈ es, u = p.1) :
    (s.applyAll es).lswOf u = s.lswOf u ||| f := by
  unfold State.applyAll
  induction es generalizing s with
  | nil => obtain ⟨p, hp, _⟩ := he; cases hp
  | cons p es ih =>
    have hh' : ∀ q ∈ es, (s.applyEff p.1 p.2).here q.1 = true :=
      fun q hq => by rw [here_applyEff]; exact hh q (List.mem_cons_of_mem _ hq)
    have hstep : (s.applyEff p.1 p.2).lswOf u = if u = p.1 then s.lswOf u ||| f else s.lswOf u := by
      rw [lswOf_applyEff _ _ _ (hh p List.mem_cons_self)]
      by_cases h : u = p.1
      · rw [if_pos ⟨h, h ▸ hu⟩, if_pos h, hv p List.mem_cons_self h]
      · rw [if_neg (fun k => h k.1), if_neg h]
    by_cases hr : ∃ q ∈ es, u = q.1
    · rw [List.foldl_cons, ih _ hh' (fun q hq => hv q (List.mem_cons_of_mem _ hq)) hr, hstep]
      split
      · rw [BitVec.or_assoc, BitVec.or_self]
      · rfl
    · have hp : u = p.1 := by
        obtain ⟨q, hq, hs⟩ := he
        rcases List.mem_cons.1 hq with rfl | h
        · exact hs
        · exact absurd ⟨q, h, hs⟩ hr
      have := lswOf_applyAll_other (s.applyEff p.1 p.2) es u hh' (fun q hq hs => absurd ⟨q, hq, hs⟩ hr)
      unfold State.applyAll at this
      rw [List.foldl_cons, this, hstep, if_pos hp]

theorem pcOf_applyAll (es : List (Thread × Eff)) (u : Thread) : (s.applyAll es).pcOf u = s.pcOf u := by
  unfold State.applyAll
  induction es generalizing s with
  | nil => rfl
  | cons p es ih => rw [List.foldl_cons, ih, pcOf_applyEff]

/-! ### The PCs of a run -/

theorem here_setPcs (ts : List Thread) (pc : BitVec 56) (u : Thread) : (s.setPcs ts pc).here u = s.here u := by
  unfold State.setPcs
  induction ts generalizing s with
  | nil => rfl
  | cons t ts ih => rw [List.foldl_cons, ih, here_setPc]

@[simp] theorem reg_setPcs (ts : List Thread) (pc : BitVec 56) (u : Thread) (c : Code) :
    (s.setPcs ts pc).reg u c = s.reg u c := by
  unfold State.setPcs
  induction ts generalizing s with
  | nil => rfl
  | cons t ts ih => rw [List.foldl_cons, ih, reg_setPc]

@[simp] theorem condBit_setPcs (ts : List Thread) (pc : BitVec 56) (u : Thread) (c : CBit) :
    (s.setPcs ts pc).condBit u c = s.condBit u c := by
  unfold State.setPcs
  induction ts generalizing s with
  | nil => rfl
  | cons t ts ih => rw [List.foldl_cons, ih, condBit_setPc]

@[simp] theorem lswOf_setPcs (ts : List Thread) (pc : BitVec 56) (u : Thread) : (s.setPcs ts pc).lswOf u = s.lswOf u := by
  unfold State.setPcs
  induction ts generalizing s with
  | nil => rfl
  | cons t ts ih => rw [List.foldl_cons, ih, lswOf_setPc]

/-- The PC of a thread of the list is the one set, and of another what it was. -/
theorem pcOf_setPcs (ts : List Thread) (pc : BitVec 56) (u : Thread) (hh : ∀ t ∈ ts, s.here t = true) :
    (s.setPcs ts pc).pcOf u = if u ∈ ts then pc else s.pcOf u := by
  unfold State.setPcs
  induction ts generalizing s with
  | nil => simp
  | cons t ts ih =>
    rw [List.foldl_cons, ih _ (fun v hv => by rw [here_setPc]; exact hh v (List.mem_cons_of_mem _ hv)),
      pcOf_setPc _ _ _ (hh t List.mem_cons_self)]
    by_cases h : u ∈ ts <;> by_cases h1 : u = t <;> simp [h, h1]

/-! ### Marking register lines -/

@[simp] theorem lane_touchLines (u : Issue) (i : Instr) (ms : List Nat) (l : LaneRef) :
    (s.touchLines u i ms).lane l = s.lane l := by
  unfold State.touchLines
  split
  · split
    · rfl
    · rw [lane_modGroup]; intro _; rfl
  · rfl

@[simp] theorem quad_touchLines (u : Issue) (i : Instr) (ms : List Nat) (q : QuadRef) :
    (s.touchLines u i ms).quad q = s.quad q := by
  unfold State.touchLines
  split
  · split
    · rfl
    · rw [quad_modGroup]
  · rfl

@[simp] theorem slices_touchLines (u : Issue) (i : Instr) (ms : List Nat) : (s.touchLines u i ms).slices = s.slices := by
  unfold State.touchLines
  split
  · split
    · rfl
    · rw [modGroup_slices]
  · rfl

@[simp] theorem here_touchLines (u : Issue) (i : Instr) (ms : List Nat) (t : Thread) :
    (s.touchLines u i ms).here t = s.here t := by
  cases t
  · simp [State.here]
  · simp [State.here]
  · simp only [State.here, sliceAt_congr (slices_touchLines s u i ms)]

@[simp] theorem threadView_touchLines (u : Issue) (i : Instr) (ms : List Nat) (t : Thread) :
    (s.touchLines u i ms).threadView t = s.threadView t := by
  cases t
  · simp [State.threadView]
  · simp [State.threadView]
  · simp only [State.threadView, sliceAt_congr (slices_touchLines s u i ms)]

@[simp] theorem condBit_touchLines (u : Issue) (i : Instr) (ms : List Nat) (t : Thread) (c : CBit) :
    (s.touchLines u i ms).condBit t c = s.condBit t c := by
  rw [condBit_eq, threadView_touchLines, ← condBit_eq]

@[simp] theorem lswOf_touchLines (u : Issue) (i : Instr) (ms : List Nat) (t : Thread) :
    (s.touchLines u i ms).lswOf t = s.lswOf t := by rw [lswOf_eq, threadView_touchLines, ← lswOf_eq]

@[simp] theorem pcOf_touchLines (u : Issue) (i : Instr) (ms : List Nat) (t : Thread) :
    (s.touchLines u i ms).pcOf t = s.pcOf t := by rw [pcOf_eq, threadView_touchLines, ← pcOf_eq]

@[simp] theorem reg_touchLines (u : Issue) (i : Instr) (ms : List Nat) (t : Thread) (c : Code) :
    (s.touchLines u i ms).reg t c = s.reg t c := by
  cases t with
  | lane l =>
    refine reg_lane_congr l c (by simp) ?_
    unfold State.touchLines
    split
    · split
      · rfl
      · rw [group_modGroup]; split
        · rename_i h; subst h; simp [Option.map_map, Function.comp_def]
        · rfl
    · rfl
  | control q => exact reg_control_congr q c (by simp)
  | wave n i => simp only [State.reg, sliceAt_congr (slices_touchLines s u _ ms)]

@[simp] theorem reg32_touchLines (u : Issue) (i : Instr) (ms : List Nat) (t : Thread) (c : Code) :
    (s.touchLines u i ms).reg32 t c = s.reg32 t c := by simp [State.reg32]

@[simp] theorem reg64_touchLines (u : Issue) (i : Instr) (ms : List Nat) (t : Thread) (c : Code) :
    (s.touchLines u i ms).reg64 t c = s.reg64 t c := by simp [State.reg64]

@[simp] theorem b32_touchLines (u : Issue) (i : Instr) (ms : List Nat) (t : Thread) (b : SrcB) :
    (s.touchLines u i ms).b32 t b = s.b32 t b := by cases b <;> simp [State.b32]

@[simp] theorem b64_touchLines (u : Issue) (i : Instr) (ms : List Nat) (t : Thread) (b : SrcB) :
    (s.touchLines u i ms).b64 t b = s.b64 t b := by cases b <;> simp [State.b64]

/-! ### Issues -/

/-- A ready issue takes the instruction's effect. -/
theorem issued_next {i : Instr} {s : State} {u : Issue} (h : Ready i s u) (k : Issue → List Nat → State → State) :
    issued i s k = .next (k u (u.members s i) (s.touchLines u i (u.members s i))) := by
  simp [issued, h.cur, h.legal, h.capable]

/-- The state after each member n has had the effect e n and the run has passed the instruction. -/
def effNext (i : Instr) (s : State) (u : Issue) (e : State → Nat → Eff) : State :=
  let ms := u.members s i
  let s' := s.touchLines u i ms
  (s'.applyAll (ms.map fun n => (u.engine.thread n, e s' n))).setPcs u.threads (u.next i)

theorem alu_next {i : Instr} {s : State} {u : Issue} (h : Ready i s u) (f : State → Thread → Eff) :
    alu i f s = .next (effNext i s u fun s n => f s (u.engine.thread n)) := by
  unfold alu; rw [issued_next h]; rfl

variable {s} {i : Instr} {u : Issue}

theorem Member.run {n : Nat} (h : Member i s u n) : n ∈ u.run := (List.mem_filter.1 h).1

theorem effNext_here (h : Ready i s u) (e : State → Nat → Eff) (es) (hes : es = (u.members s i).map
    fun n => (u.engine.thread n, e (s.touchLines u i (u.members s i)) n)) :
    ∀ p ∈ es, (s.touchLines u i (u.members s i)).here p.1 = true := by
  subst hes
  intro p hp
  obtain ⟨n, hn, rfl⟩ := List.mem_map.1 hp
  rw [here_touchLines]
  exact h.here n (Member.run hn)

/-- Only threads change. -/
theorem effNext_only (e : State → Nat → Eff) : OnlyThreads s (effNext i s u e) :=
  ((OnlyThreads.touchLines u i _).trans (OnlyThreads.applyAll _)).trans (OnlyThreads.setPcs _ _)

/-- Every thread of the run goes on past the instruction, and no other thread's PC changes. -/
theorem effNext_pc (h : Ready i s u) (e : State → Nat → Eff) (t : Thread) :
    (effNext i s u e).pcOf t = if t ∈ u.threads then u.next i else s.pcOf t := by
  unfold effNext
  dsimp only
  rw [pcOf_setPcs _ _ _ _ (fun t ht => ?_), pcOf_applyAll, pcOf_touchLines]
  obtain ⟨n, hn, rfl⟩ := List.mem_map.1 ht
  rw [here_applyAll, here_touchLines]
  exact h.here n hn

/-- A register that every member which shares it writes with one value. -/
theorem effNext_reg (h : Ready i s u) (e : State → Nat → Eff) (t : Thread) (c : Code) (x : DWord)
    (hv : ∀ n, Member i s u n → sameReg (u.engine.thread n) t c = true →
      (e (s.touchLines u i (u.members s i)) n).valueAt (u.engine.thread n).isControl c = some x)
    (he : ∃ n, Member i s u n ∧ sameReg (u.engine.thread n) t c = true) :
    (effNext i s u e).reg t c = x := by
  unfold effNext
  dsimp only
  rw [reg_setPcs]
  apply reg_applyAll
  · exact effNext_here h e _ rfl
  · intro p hp hs; obtain ⟨n, hn, rfl⟩ := List.mem_map.1 hp; exact hv n hn hs
  · obtain ⟨n, hn, hs⟩ := he; exact ⟨_, List.mem_map.2 ⟨n, hn, rfl⟩, hs⟩

/-- A register that no member writes. -/
theorem effNext_reg_other (h : Ready i s u) (e : State → Nat → Eff) (t : Thread) (c : Code)
    (hn : ∀ n, Member i s u n → sameReg (u.engine.thread n) t c = true →
      (e (s.touchLines u i (u.members s i)) n).valueAt (u.engine.thread n).isControl c = none) :
    (effNext i s u e).reg t c = s.reg t c := by
  unfold effNext
  dsimp only
  rw [reg_setPcs, reg_applyAll_other, reg_touchLines]
  · exact effNext_here h e _ rfl
  · intro p hp hs; obtain ⟨n, hm, rfl⟩ := List.mem_map.1 hp; exact hn n hm hs

/-- A condition bit that every member which is the thread writes with one value. -/
theorem effNext_cond (h : Ready i s u) (e : State → Nat → Eff) (t : Thread) (c : CBit) (x : Bool)
    (hv : ∀ n, Member i s u n → t = u.engine.thread n →
      ∀ b, bitOf c (e (s.touchLines u i (u.members s i)) n).conds b = x)
    (he : ∃ n, Member i s u n ∧ t = u.engine.thread n) : (effNext i s u e).condBit t c = x := by
  unfold effNext
  dsimp only
  rw [condBit_setPcs]
  apply condBit_applyAll
  · exact effNext_here h e _ rfl
  · intro p hp hs; obtain ⟨n, hn, rfl⟩ := List.mem_map.1 hp; exact hv n hn hs
  · obtain ⟨n, hn, hs⟩ := he; exact ⟨_, List.mem_map.2 ⟨n, hn, rfl⟩, hs⟩

/-- A condition bit that no member writes. -/
theorem effNext_cond_other (h : Ready i s u) (e : State → Nat → Eff) (t : Thread) (c : CBit)
    (hn : ∀ n, Member i s u n → t = u.engine.thread n →
      ∀ b, bitOf c (e (s.touchLines u i (u.members s i)) n).conds b = b) :
    (effNext i s u e).condBit t c = s.condBit t c := by
  unfold effNext
  dsimp only
  rw [condBit_setPcs, condBit_applyAll_other, condBit_touchLines]
  · exact effNext_here h e _ rfl
  · intro p hp hs; obtain ⟨n, hm, rfl⟩ := List.mem_map.1 hp; exact hn n hm hs

/-- The flags of a member are set; a control core has none. -/
theorem effNext_lsw (h : Ready i s u) (e : State → Nat → Eff) (t : Thread) (f : Word) (hc : t.isControl = false)
    (hv : ∀ n, Member i s u n → t = u.engine.thread n → (e (s.touchLines u i (u.members s i)) n).flags = f)
    (he : ∃ n, Member i s u n ∧ t = u.engine.thread n) : (effNext i s u e).lswOf t = s.lswOf t ||| f := by
  unfold effNext
  dsimp only
  rw [lswOf_setPcs, lswOf_applyAll _ _ _ f (by simp [hc]), lswOf_touchLines]
  · exact effNext_here h e _ rfl
  · intro p hp hs; obtain ⟨n, hn, rfl⟩ := List.mem_map.1 hp; exact hv n hn hs
  · obtain ⟨n, hn, hs⟩ := he; exact ⟨_, List.mem_map.2 ⟨n, hn, rfl⟩, hs⟩

/-- Flags that no member sets. -/
theorem effNext_lsw_other (h : Ready i s u) (e : State → Nat → Eff) (t : Thread)
    (hn : ∀ n, Member i s u n → t = u.engine.thread n → (e (s.touchLines u i (u.members s i)) n).flags = 0) :
    (effNext i s u e).lswOf t = s.lswOf t := by
  unfold effNext
  dsimp only
  rw [lswOf_setPcs, lswOf_applyAll_other, lswOf_touchLines]
  · exact effNext_here h e _ rfl
  · intro p hp hs; obtain ⟨n, hm, rfl⟩ := List.mem_map.1 hp; exact hn n hm hs

/-! ### Threads of one engine -/

/-- A code of a thread's own register. -/
def ownCode (t : Thread) (c : Code) : Prop := t.isControl = true ∨ c.toNat < 192

theorem sameReg_self (t : Thread) (c : Code) : sameReg t t c = true := by
  cases t <;> simp only [sameReg] <;> (try split) <;> simp

/-- Two threads of one engine that share an own register are the same thread. -/
theorem thread_of_sameReg (e : Engine) (n m : Nat) (c : Code) (hc : ownCode (e.thread m) c)
    (h : sameReg (e.thread n) (e.thread m) c = true) : e.thread n = e.thread m := by
  cases e with
  | lane g =>
    simp only [Engine.thread, ownCode, Thread.isControl, Bool.false_eq_true, false_or] at hc
    simpa [Engine.thread, sameReg, hc] using h
  | control q => rfl
  | method k =>
    simp only [Engine.thread, ownCode, Thread.isControl, Bool.false_eq_true, false_or] at hc
    simpa [Engine.thread, sameReg, hc] using h

/-- An own register of a member that its effect writes. -/
theorem alu_reg (h : Ready i s u) (f : State → Thread → Eff) (n : Nat) (hn : Member i s u n) (c : Code) (x : DWord)
    (hc : ownCode (u.engine.thread n) c)
    (hv : (f (s.touchLines u i (u.members s i)) (u.engine.thread n)).valueAt (u.engine.thread n).isControl c = some x) :
    (effNext i s u fun s n => f s (u.engine.thread n)).reg (u.engine.thread n) c = x := by
  apply effNext_reg h
  · intro m _ hs
    rw [thread_of_sameReg _ _ _ _ hc hs]
    exact hv
  · exact ⟨n, hn, sameReg_self _ _⟩

/-- A condition bit of a member that its effect writes. -/
theorem alu_cond (h : Ready i s u) (f : State → Thread → Eff) (n : Nat) (hn : Member i s u n) (c : CBit) (x : Bool)
    (hv : ∀ b, bitOf c (f (s.touchLines u i (u.members s i)) (u.engine.thread n)).conds b = x) :
    (effNext i s u fun s n => f s (u.engine.thread n)).condBit (u.engine.thread n) c = x := by
  apply effNext_cond h
  · intro m _ hs b; rw [← hs]; exact hv b
  · exact ⟨n, hn, rfl⟩

/-- The flags of a member. -/
theorem alu_lsw (h : Ready i s u) (f : State → Thread → Eff) (n : Nat) (hn : Member i s u n) (x : Word)
    (hc : (u.engine.thread n).isControl = false)
    (hv : (f (s.touchLines u i (u.members s i)) (u.engine.thread n)).flags = x) :
    (effNext i s u fun s n => f s (u.engine.thread n)).lswOf (u.engine.thread n) = s.lswOf (u.engine.thread n) ||| x := by
  apply effNext_lsw h _ _ _ hc
  · intro m _ hs; rw [← hs]; exact hv
  · exact ⟨n, hn, rfl⟩

/-- Every thread of the run goes on past the instruction. -/
theorem alu_pc (h : Ready i s u) (e : State → Nat → Eff) (n : Nat) (hn : n ∈ u.run) :
    (effNext i s u e).pcOf (u.engine.thread n) = u.next i := by
  rw [effNext_pc h]
  exact if_pos (List.mem_map.2 ⟨n, hn, rfl⟩)

end Sys2Proof.Machine
end

