-- ==== Sys2Proof/Laws/Computes.lean ====
section
/-! SUPPORT. What an instruction over shared operation alu does, in the terms of Computes: its frame, and the values that
its effects leave in each member's thread. -/

namespace Sys2Proof.Machine

open Sys2Proof

variable {s : State} {i : Instr} {u : Issue}

/-- Threads of one engine are all control cores or none. -/
theorem isControl_thread (e : Engine) (n m : Nat) : (e.thread n).isControl = (e.thread m).isControl := by
  cases e <;> rfl

/-- A register that an instruction may name as an ordinary destination is a thread's own. -/
theorem own_of_ready (h : Ready i s u) {o : Opnd} (ho : o ∈ operandsOf (s.hgOf u.engine) i) (hd : o.dest = true)
    (hg : o.groupDest = false) (n : Nat) : ownCode (u.engine.thread n) o.code := by
  have hl := h.legal
  simp only [legalFor, Bool.and_eq_true, List.all_eq_true] at hl
  have := hl.1.2 o ho
  unfold Opnd.legal at this
  cases he : u.engine with
  | control q => exact Or.inl rfl
  | lane g =>
    rw [he] at this
    right
    by_contra hc
    simp [hc, hd, hg] at this
  | method k =>
    rw [he] at this
    right
    by_contra hc
    simp [hc, hd, hg] at this

/-- The upper register of a pair that an instruction may name as an ordinary destination is a thread's own too. -/
theorem own_pair_of_ready (h : Ready i s u) {o : Opnd} (ho : o ∈ operandsOf (s.hgOf u.engine) i) (hd : o.dest = true)
    (hg : o.groupDest = false) (hb : 2 ≤ o.n) (n : Nat) : ownCode (u.engine.thread n) (o.code + 1) := by
  have hl := h.legal
  simp only [legalFor, Bool.and_eq_true, List.all_eq_true] at hl
  have := hl.1.2 o ho
  unfold Opnd.legal at this
  have key : ∀ m : Nat, o.code.toNat + o.n ≤ m → m ≤ 192 → (o.code + 1).toNat < 192 := by
    intro m h1 h2
    rw [BitVec.toNat_add]
    simp
    omega
  cases he : u.engine with
  | control q => exact Or.inl rfl
  | lane g =>
    rw [he] at this
    right
    by_cases hc : o.code.toNat < 192
    · simp [hc] at this
      exact key 192 this.2.1 (by omega)
    · simp [hc, hd, hg] at this
  | method k =>
    rw [he] at this
    right
    by_cases hc : o.code.toNat < 192
    · simp [hc] at this
      exact key 64 this.2.1 (by omega)
    · simp [hc, hd, hg] at this

/-! ### Reading operands after lines have been touched -/

@[simp] theorem intReg_touchLines (ms : List Nat) (t : Thread) (w sg : Bool) (c : Code) :
    (s.touchLines u i ms).intReg t w sg c = s.intReg t w sg c := by simp [State.intReg]

@[simp] theorem intB_touchLines (ms : List Nat) (t : Thread) (w sg : Bool) (b : SrcB) :
    (s.touchLines u i ms).intB t w sg b = s.intB t w sg b := by simp [State.intB]

/-! ### The frame and the values -/

/-- The codes that a register write may change, on a control core and elsewhere. -/
def RegWrite.codes (ctl : Bool) : RegWrite → List Code
  | .r32 c _ => [c]
  | .r64 c _ => if ctl then [c] else [c, c + 1]

theorem RegWrite.valueAt_none (w : RegWrite) (ctl : Bool) (c : Code) (h : c ∉ w.codes ctl) : w.valueAt ctl c = none := by
  cases w with
  | r32 d x =>
    simp only [RegWrite.codes, List.mem_singleton] at h
    exact if_neg fun e => h e.symm
  | r64 d x =>
    unfold RegWrite.valueAt
    cases ctl with
    | true =>
      simp only [RegWrite.codes, if_true, List.mem_singleton] at h
      simpa using fun e : d = c => h e.symm
    | false =>
      simp only [RegWrite.codes, Bool.false_eq_true, if_false, List.mem_cons, List.not_mem_nil, or_false, not_or] at h
      simp only [Bool.false_eq_true, if_false]
      rw [if_neg fun e => h.2 e.symm, if_neg fun e => h.1 e.symm]

theorem valueOf_none (ctl : Bool) (c : Code) (ws : List RegWrite) (h : ∀ w ∈ ws, c ∉ w.codes ctl) (o : Option DWord) :
    valueOf ctl c ws o = o := by
  induction ws generalizing o with
  | nil => rfl
  | cons w ws ih =>
    rw [valueOf, ih (fun x hx => h x (List.mem_cons_of_mem _ hx)),
      RegWrite.valueAt_none _ _ _ (h w (List.mem_cons_self ..))]
    rfl

theorem bitOf_other (c : CBit) (ps : List (CBit × Bool)) (h : c ∉ ps.map Prod.fst) (b : Bool) : bitOf c ps b = b := by
  induction ps generalizing b with
  | nil => rfl
  | cons p ps ih =>
    simp only [List.map_cons, List.mem_cons, not_or] at h
    rw [bitOf, ih h.2, if_neg fun e => h.1 e.1]

theorem memory_of_only {s t : State} (h : OnlyThreads s t) : t.mem = s.mem :=
  show t.outside.mem = s.outside.mem from congrArg State.mem h.outside

/-- The frame of effNext: the effects write no code, condition bit or flag but the listed ones. -/
theorem effNext_frame (h : Ready i s u) (e : State → Nat → Eff) (regs : List Code) (conds : List CBit) (flags : Bool)
    (hr : ∀ s' n, ∀ w ∈ (e s' n).regs, ∀ c ∈ w.codes (u.engine.thread n).isControl, c ∈ regs)
    (hc : ∀ s' n, ∀ p ∈ (e s' n).conds, p.1 ∈ conds)
    (hf : flags = false → ∀ s' n, (e s' n).flags = 0) : RegFrame i s (effNext i s u e) u regs conds flags where
  rest := effNext_only e
  memory := fun a => by rw [memory_of_only (effNext_only e)]
  pcs := fun th => effNext_pc h e th
  regs := fun th c hx => by
    apply effNext_reg_other h
    intro n hn hs
    exact valueOf_none _ _ _ (fun w hw hcw => hx n hn hs (hr _ n w hw c hcw)) _
  conds := fun th c hx => by
    apply effNext_cond_other h
    intro n hn ht b
    apply bitOf_other
    intro hm
    obtain ⟨p, hp, rfl⟩ := List.mem_map.1 hm
    exact hx n hn ht.symm (hc _ n p hp)
  flags := fun th hx => by
    apply effNext_lsw_other h
    intro n hn ht
    cases hfl : flags with
    | false => exact hf hfl _ n
    | true => exact absurd ht.symm (hx hfl n hn)

/-- One 32-bit register written by a member's effect. -/
theorem effNext_r32 (h : Ready i s u) (f : State → Thread → Eff) (n : Nat) (hn : Member i s u n) (d : Code) (x : Word)
    (hc : ownCode (u.engine.thread n) d)
    (hv : (f (s.touchLines u i (u.members s i)) (u.engine.thread n)).regs = [.r32 d x]) :
    (effNext i s u fun s n => f s (u.engine.thread n)).reg (u.engine.thread n) d = x.zeroExtend 64 := by
  apply alu_reg h f n hn d _ hc
  simp [Eff.valueAt, hv, valueOf, RegWrite.valueAt]

/-- One 64-bit operand written by a member's effect. -/
theorem effNext_r64 (h : Ready i s u) (f : State → Thread → Eff) (n : Nat) (hn : Member i s u n) (d : Code) (x : DWord)
    (hc : ownCode (u.engine.thread n) d) (hc' : ownCode (u.engine.thread n) (d + 1))
    (hv : (f (s.touchLines u i (u.members s i)) (u.engine.thread n)).regs = [.r64 d x]) :
    (effNext i s u fun s n => f s (u.engine.thread n)).reg64 (u.engine.thread n) d = x := by
  unfold State.reg64
  cases hctl : (u.engine.thread n).isControl with
  | true =>
    rw [if_pos rfl]
    apply alu_reg h f n hn d _ hc
    simp [Eff.valueAt, hv, valueOf, RegWrite.valueAt, hctl]
  | false =>
    have hne : ¬ d + 1 = d := by
      intro e
      have := congrArg BitVec.toNat e
      rw [BitVec.toNat_add] at this
      simp at this
      omega
    have h1 : (effNext i s u fun s n => f s (u.engine.thread n)).reg (u.engine.thread n) d
        = (x.truncate 32 : Word).zeroExtend 64 := by
      apply alu_reg h f n hn d _ hc
      simp only [Eff.valueAt, hv, valueOf, RegWrite.valueAt, hctl, Bool.false_eq_true, if_false, if_neg hne, if_true]
      rfl
    have h2 : (effNext i s u fun s n => f s (u.engine.thread n)).reg (u.engine.thread n) (d + 1)
        = (x.extractLsb' 32 32 : Word).zeroExtend 64 := by
      apply alu_reg h f n hn (d + 1) _ hc'
      simp only [Eff.valueAt, hv, valueOf, RegWrite.valueAt, hctl, Bool.false_eq_true, if_false, if_true]
      rfl
    unfold State.reg32
    rw [h1, h2]
    have e : ∀ y : Word, (y.zeroExtend 64).truncate 32 = y := by intro y; ext j hj; simp
    show BitVec.truncate 32 _ ++ BitVec.truncate 32 _ = x
    rw [e, e]
    apply BitVec.eq_of_getLsbD_eq
    intro j hj
    rw [BitVec.getLsbD_append]
    split
    · rename_i hl
      simp [hl]
    · rename_i hl
      simp only [BitVec.getLsbD_extractLsb']
      rw [show 32 + (j - 32) = j by omega]
      simp
      omega

/-- An instruction over alu computes, if its effect stays within the frame and its values are as claimed. -/
theorem computes_alu {i : Instr} {wide : Bool} {ds : List Code} {conds : List CBit} {flags : Bool}
    {P : State → State → Thread → Prop} (f : State → Thread → Eff) (hx : ∀ s, exec i s = alu i f s)
    (hr : ∀ s th, ∀ w ∈ (f s th).regs, ∀ c ∈ w.codes th.isControl,
      c ∈ ds.flatMap fun d => if wide && !th.isControl then [d, d + 1] else [d])
    (hc : ∀ s th, ∀ p ∈ (f s th).conds, p.1 ∈ conds)
    (hf : flags = false → ∀ s th, (f s th).flags = 0)
    (hP : ∀ s u, Ready i s u → ∀ n, Member i s u n →
      P s (effNext i s u fun s n => f s (u.engine.thread n)) (u.engine.thread n)) :
    Computes i wide ds conds flags P := by
  intro s u h
  refine ⟨_, (hx s).trans (alu_next h f), ?_, hP s u h⟩
  apply effNext_frame h
  · intro s' n w hw c hcw
    have := hr s' (u.engine.thread n) w hw c hcw
    show c ∈ ds.flatMap fun d => if wide && !(u.engine.thread 0).isControl then [d, d + 1] else [d]
    rw [isControl_thread u.engine 0 n]
    exact this
  · exact fun s' n p hp => hc s' _ p hp
  · exact fun e s' n => hf e s' _

/-- The writes of putInt stay within the destination. -/
theorem putInt_codes (th : Thread) (w : Bool) (d : Code) (x : Int) :
    ∀ r ∈ putInt th w d x, ∀ c ∈ r.codes th.isControl,
      c ∈ [d].flatMap fun d => if w && !th.isControl then [d, d + 1] else [d] := by
  intro r hr c hc
  unfold putInt opWidth at hr
  cases hctl : th.isControl <;> cases w <;> simp_all [RegWrite.codes]

/-- What an instruction leaves in a destination written through putInt. -/
theorem effNext_putInt (h : Ready i s u) (f : State → Thread → Eff) (n : Nat) (hn : Member i s u n) (w : Bool) (d : Code)
    (x : Int) (ho : ∃ o ∈ operandsOf (s.hgOf u.engine) i, o.dest = true ∧ o.groupDest = false ∧ o.code = d
      ∧ (w = true → 2 ≤ o.n))
    (hv : (f (s.touchLines u i (u.members s i)) (u.engine.thread n)).regs = putInt (u.engine.thread n) w d x) :
    (opWidth (u.engine.thread n) w = 64 →
      (effNext i s u fun s n => f s (u.engine.thread n)).reg64 (u.engine.thread n) d = BitVec.ofInt 64 x)
    ∧ (opWidth (u.engine.thread n) w = 32 →
      (effNext i s u fun s n => f s (u.engine.thread n)).reg32 (u.engine.thread n) d = BitVec.ofInt 32 x) := by
  obtain ⟨o, ho, hd, hg, rfl, hw⟩ := ho
  constructor
  · intro e
    apply effNext_r64 h f n hn _ _ (own_of_ready h ho hd hg n)
    · cases w with
      | true => exact own_pair_of_ready h ho hd hg (hw rfl) n
      | false =>
        left
        unfold opWidth at e
        by_contra hc
        simp [hc] at e
    · rw [hv]; unfold putInt; rw [if_pos e]
  · intro e
    have h1 := effNext_r32 h f n hn o.code (BitVec.ofInt 32 x) (own_of_ready h ho hd hg n)
      (by rw [hv]; unfold putInt; rw [e]; rfl)
    unfold State.reg32
    rw [h1]
    ext j hj
    simp

/-- The same, as the numbers that the operation width reads. -/
theorem effNext_putInt_value (h : Ready i s u) (f : State → Thread → Eff) (n : Nat) (hn : Member i s u n) (w sg : Bool)
    (d : Code) (x : Int) (ho : ∃ o ∈ operandsOf (s.hgOf u.engine) i, o.dest = true ∧ o.groupDest = false ∧ o.code = d
      ∧ (w = true → 2 ≤ o.n))
    (hv : (f (s.touchLines u i (u.members s i)) (u.engine.thread n)).regs = putInt (u.engine.thread n) w d x) :
    (effNext i s u fun s n => f s (u.engine.thread n)).intReg (u.engine.thread n) w sg d
      = if sg then x.bmod (2 ^ opWidth (u.engine.thread n) w) else x % 2 ^ opWidth (u.engine.thread n) w := by
  have hp := effNext_putInt h f n hn w d x ho hv
  unfold State.intReg
  have hw : opWidth (u.engine.thread n) w = 64 ∨ opWidth (u.engine.thread n) w = 32 := by
    unfold opWidth; split <;> simp
  rcases hw with e | e
  · rw [if_pos e, hp.1 e, e]
    unfold asInt
    cases sg
    · simp
      omega
    · simp [BitVec.toInt_ofInt]
  · rw [if_neg (by omega), hp.2 e, e]
    unfold asInt
    cases sg
    · simp
      omega
    · simp [BitVec.toInt_ofInt]

end Sys2Proof.Machine
end

