-- ==== Sys2Proof/Laws/Home.lean ====
section
/-! SUPPORT. The home side of memory: what taking a line back, a walk, and a write at a home change, and that they keep memory in
its canonical form. -/

namespace Sys2Proof.Machine

open Sys2Proof

/-- What accesses at homes do: only memory and what the cores hold change, and memory keeps its canonical form. -/
structure AtHome (s t : State) : Prop where
  only : { t with mem := [], cores := [] } = { s with mem := [], cores := [] }
  wf : Mem.wf s.mem = true → Mem.wf t.mem = true

theorem AtHome.refl (s : State) : AtHome s s := ⟨rfl, id⟩

theorem AtHome.trans {s t u : State} (h : AtHome s t) (k : AtHome t u) : AtHome s u := ⟨k.only.trans h.only, k.wf ∘ h.wf⟩

theorem AtHome.foldl {α : Type} (f : State → α → State) (hf : ∀ s a, AtHome s (f s a)) (as : List α) (s : State) :
    AtHome s (as.foldl f s) := by
  induction as generalizing s with
  | nil => exact .refl s
  | cons a as ih => exact (hf s a).trans (ih (f s a))

variable {s t : State}

theorem AtHome.bar0 (h : AtHome s t) : t.bar0 = s.bar0 := by have := congrArg State.bar0 h.only; exact this
theorem AtHome.quads (h : AtHome s t) : t.quads = s.quads := by have := congrArg State.quads h.only; exact this
theorem AtHome.slices (h : AtHome s t) : t.slices = s.slices := by have := congrArg State.slices h.only; exact this
theorem AtHome.slots (h : AtHome s t) : t.slots = s.slots := by have := congrArg State.slots h.only; exact this
theorem AtHome.grids (h : AtHome s t) : t.grids = s.grids := by have := congrArg State.grids h.only; exact this
theorem AtHome.clusters (h : AtHome s t) : t.clusters = s.clusters := by have := congrArg State.clusters h.only; exact this
theorem AtHome.reqs (h : AtHome s t) : t.reqs = s.reqs := by have := congrArg State.reqs h.only; exact this
theorem AtHome.blackbox (h : AtHome s t) : t.blackbox = s.blackbox := by have := congrArg State.blackbox h.only; exact this
theorem AtHome.hostEvents (h : AtHome s t) : t.hostEvents = s.hostEvents := by have := congrArg State.hostEvents h.only; exact this
theorem AtHome.nextId (h : AtHome s t) : t.nextId = s.nextId := by have := congrArg State.nextId h.only; exact this
theorem AtHome.cur (h : AtHome s t) : t.cur = s.cur := by have := congrArg State.cur h.only; exact this

/-- A write to memory, and the core that gives a line up. -/
theorem AtHome.recall (s : State) (line : Nat) : AtHome s (s.recall line) := by
  unfold State.recall
  split
  · exact .refl s
  · dsimp only
    split
    · exact .refl s
    · exact ⟨rfl, fun h => Mem.wf_writeBytes _ _ _ h⟩

theorem AtHome.recallRange (s : State) (pa n : Nat) : AtHome s (s.recallRange pa n) :=
  AtHome.foldl _ (fun s _ => AtHome.recall s _) _ s

theorem AtHome.walked (s : State) (w : Walked) : AtHome s (s.walked w) := AtHome.foldl _ (fun s _ => AtHome.recall s _) _ s

/-- A write of memory alone that keeps its canonical form. -/
theorem AtHome.mem (s : State) (m : List Host.Cell) (h : Mem.wf s.mem = true → Mem.wf m = true) : AtHome s { s with mem := m } :=
  ⟨rfl, h⟩

theorem AtHome.homeWrite (s : State) (pa : Nat) (bs : List MByte) : AtHome s (s.homeWrite pa bs) :=
  (AtHome.recallRange s pa bs.length).trans (AtHome.mem _ _ (Mem.wf_writeMasked _ _ _))

theorem AtHome.markLeaf (s : State) (pa : Nat) (w : Bool) : AtHome s (s.markLeaf pa w) :=
  (AtHome.recall s _).trans (AtHome.mem _ _ (Mem.wf_write _ _ _))

/-- What a walk leaves (R280, R288). -/
theorem AtHome.afterWalk (s : State) (w : Bool) (x : Walked × Except TransFault Page) : AtHome s (s.afterWalk w x).1 := by
  obtain ⟨y, _ | p⟩ := x
  · exact .walked s y
  · exact (AtHome.walked s y).trans (.markLeaf _ _ _)

/-- A translation by the command processor or a home slice (R283, R288). -/
theorem AtHome.translateNode (s : State) (va : Nat) (w : Bool) : AtHome s (s.translateNode va w).1 := .afterWalk s w _

theorem AtHome.nodeStore (va : Nat) (bs : List Byte) (x : State × Except TransFault Page) :
    AtHome x.1 (State.nodeStore va bs x) := by
  obtain ⟨t, _ | p⟩ := x
  · exact .refl t
  · dsimp only [State.nodeStore]
    split
    · exact .refl t
    · exact .homeWrite t _ _

theorem AtHome.nodeWrite (s : State) (va : Nat) (bs : List Byte) : AtHome s (s.nodeWrite va bs) :=
  (AtHome.translateNode s _ true).trans (.nodeStore _ bs _)

theorem AtHome.putStatus (s : State) (addr status : Nat) : AtHome s (s.putStatus addr status) := .nodeWrite s _ _

theorem AtHome.logStore (va : Nat) (bs : List Byte) (x : State × Except TransFault Page) :
    AtHome x.1 (State.logStore va bs x) := by
  obtain ⟨t, _ | p⟩ := x
  · exact .refl t
  · dsimp only [State.logStore]
    split
    · exact .homeWrite t _ _
    · exact .refl t

theorem AtHome.logWrite (s : State) (va : Nat) (bs : List Byte) : AtHome s (s.logWrite va bs) :=
  (AtHome.translateNode s _ true).trans (.logStore va bs _)

theorem AtHome.flipRegion (s : State) (va : Nat) : AtHome s (s.flipRegion va) := by
  unfold State.flipRegion
  dsimp only
  split
  · exact (AtHome.recall s _).trans (AtHome.mem _ _ (Mem.wf_write _ _ _))
  · exact .refl s

theorem AtHome.flipRegions (s : State) (r n : Nat) : AtHome s (s.flipRegions r n) := AtHome.foldl _ (fun s _ => .flipRegion s _) _ s

end Sys2Proof.Machine
end

