-- ==== Sys2Proof/Laws/PerInstr.lean ====
section
/-! SUPPORT. Per-instruction laws. Family RoundTrip: the fields of a well-formed instruction build that instruction
again, so no operand is dropped or moved between the encoder and the decoder; a device step has no encoding and is
well formed as no instruction. -/

namespace Sys2Proof.Laws

/-- A condition-bit index survives its code (R24). -/
@[simp] theorem cbit_code (c : CBit) : Code.cbit (CBit.code c) = c := by revert c; decide

/-- The low bits of a widened field are the field. -/
theorem slice_zeroExtend {n w : Nat} (x : BitVec n) (hn : n ≤ w) : slice (x.zeroExtend w) 0 n = x := by
  ext i hi
  have h1 : i < w := by omega
  simp [slice, h1, hi]

/-- The low field of a joined pair. -/
theorem slice_append_low {m n : Nat} (x : BitVec m) (y : BitVec n) : slice (x ++ y) 0 n = y := by
  ext i hi
  simp [slice, BitVec.getLsbD_append, hi]

/-- The middle field of an immediate of three fields. -/
theorem slice_append_mid {l m n : Nat} (x : BitVec l) (y : BitVec m) (z : BitVec n) :
    slice (x ++ y ++ z) n m = y := by
  ext i hi
  simp only [slice, BitVec.getElem_extractLsb', BitVec.getLsbD_append]
  have h1 : ¬ n + i < n := by omega
  simp only [h1, if_false, Nat.add_sub_cancel_left, hi, if_true, BitVec.getLsbD_eq_getElem]

/-- The task field survives its immediate (R163). -/
theorem taskField_imm (t : TaskField) : TaskField.ofImm t.toImm = t := by
  rcases t with ⟨tile, quiet, tag⟩
  simp only [TaskField.ofImm, TaskField.toImm, TaskField.mk.injEq]
  refine ⟨?_, ?_, ?_⟩
  · exact slice_append_low _ _
  · rw [BitVec.getLsbD_append, BitVec.getLsbD_append]
    simp
  · ext i hi
    simp only [slice, BitVec.getElem_extractLsb', BitVec.getLsbD_append]
    have h1 : ¬ 16 + i < 8 := by omega
    have h2 : ¬ 16 + i - 8 < 1 := by omega
    have h3 : ¬ 16 + i - 8 - 1 < 7 := by omega
    simp only [h1, h2, h3, if_false]
    rw [show 16 + i - 8 - 1 - 7 = i by omega, BitVec.getLsbD_eq_getElem]

/-- What an accepted instruction's form says about its operand B (R31). -/
theorem srcB_of_accepts {i : Instr} {f : Fields} {b : SrcB} (h : i.accepts = true) (hf : i.fields = some f)
    (hb : i.srcB? = some b) (hc : f.b = b.code) (hl : f.lit = b.literal) : f.srcB = b := by
  unfold Instr.accepts at h
  rw [hf, hb] at h
  cases hs : i.shape with
  | none => rw [hs] at h; simp at h
  | some s =>
    rw [hs] at h
    cases b with
    | reg c => simp at h; simp [Fields.srcB, h.2, hc, SrcB.code]
    | lit v => simp at h; simp [Fields.srcB, h.2, hl, SrcB.literal]

/-- What an accepted instruction's form says about its scope (R28). -/
theorem scope_of_accepts {i : Instr} {f : Fields} {sc : BitVec 3} (h : i.accepts = true) (hf : i.fields = some f)
    (hs : i.scope? = some sc) (hc : f.sc = scField f.len sc) : f.scope = sc := by
  unfold Instr.accepts at h
  rw [hf, hs] at h
  cases hp : i.shape with
  | none => rw [hp] at h; simp at h
  | some s =>
    rw [hp] at h
    simp at h
    unfold Fields.scope
    rw [hc]
    unfold scField
    cases hx : f.len.hasExt with
    | true => simp
    | false =>
      have h2 := h.1.2.2
      rw [hx] at h2
      have h3 : sc = 4 := by simpa using h2
      simp [h3]

/-- An accepted instruction's SUB is one that its entry defines (R29). -/
theorem sub_of_accepts {i : Instr} {f : Fields} {s : Shape} (h : i.accepts = true) (hf : i.fields = some f)
    (hs : i.shape = some s) : s.subs.getLsbD f.sub.toNat = true := by
  unfold Instr.accepts at h
  rw [hf, hs] at h
  simp only [Shape.ok, Bool.and_eq_true] at h
  exact h.1.1.1.2.1.2

/-- An accepted instruction passes its entry's own checks. -/
theorem entry_of_accepts {i : Instr} (h : i.accepts = true) : i.entryOk = true := by
  unfold Instr.accepts at h
  cases hf : i.fields with
  | none => rw [hf] at h; simp at h
  | some f =>
    cases hs : i.shape with
    | none => rw [hf, hs] at h; simp at h
    | some s => rw [hf, hs] at h; simp only [Bool.and_eq_true] at h; exact h.1.1.2

/-- A displacement that a base form can hold is the sign extension of its low 18 bits, split over three fields. -/
theorem disp_joined (d : Word) :
    (slice ((0 : BitVec 2) ++ slice d 12 6) 0 6 ++ slice ((0 : BitVec 2) ++ slice d 6 6) 0 6
      ++ slice ((0 : BitVec 2) ++ slice d 0 6) 0 6 : BitVec 18) = slice d 0 18 := by
  rw [slice_append_low, slice_append_low, slice_append_low]
  ext i hi
  simp only [slice, BitVec.getElem_append, BitVec.getElem_extractLsb']
  split
  · rfl
  · split
    · simp; congr 1; omega
    · congr 1; omega

/-- The mask of LIVE, split over four fields (R103). -/
theorem live_joined (m : BitVec 48) :
    (slice ((0 : BitVec 4) ++ slice m 44 4) 0 4 ++ slice ((0 : BitVec 2) ++ slice m 38 6) 0 6
      ++ slice ((0 : BitVec 2) ++ slice m 32 6) 0 6 ++ slice m 0 32 : BitVec 48) = m := by
  rw [slice_append_low, slice_append_low, slice_append_low]
  ext i hi
  simp only [slice, BitVec.getElem_append, BitVec.getElem_extractLsb']
  split
  · rw [BitVec.getLsbD_eq_getElem (by omega)]; congr 1; omega
  · split
    · rw [BitVec.getLsbD_eq_getElem (by omega)]; congr 1; omega
    · split
      · rw [BitVec.getLsbD_eq_getElem (by omega)]; congr 1; omega
      · rw [BitVec.getLsbD_eq_getElem (by omega)]; congr 1; omega

/-- BRA and CALL read their displacement back (R93). -/
theorem dispFields_disp (h : Hd) (op : BitVec 8) (d : Word)
    (hd : (h.len.hasExt || d == (slice d 0 18).signExtend 32) = true) : (dispFields h op d).disp = d := by
  unfold dispFields
  cases hx : h.len.hasExt with
  | true => rw [if_pos rfl]; unfold Fields.disp; exact if_pos hx
  | false =>
    rw [if_neg (by decide)]
    unfold Fields.disp
    rw [hx] at hd
    refine (if_neg (by show ¬ h.len.hasExt = true; rw [hx]; decide)).trans ?_
    exact (congrArg (BitVec.signExtend 32) (disp_joined d)).trans (eq_of_beq (by simpa using hd)).symm

/-- BRA's and CALL's head and opcode (R93). -/
theorem dispFields_head (h : Hd) (op : BitVec 8) (d : Word) :
    (dispFields h op d).hd = h ∧ (dispFields h op d).op = op := by
  unfold dispFields
  split <;> exact ⟨rfl, rfl⟩

namespace RoundTrip

/-- The fields of a well-formed instruction build that instruction again. -/
def Statement (i : Instr) : Prop := i.wellFormed = true → i.fields.bind Fields.build = some i

theorem nop (h : Hd) : Statement (.nop h) := by
  intro hw
  rfl
theorem iadd (h : Hd) (v : BitVec 4) (d a : Code) (b : SrcB) : Statement (.iadd h v d a b) := by
  intro hw
  have hb := srcB_of_accepts hw rfl rfl rfl rfl
  exact congrArg some (congrArg (Instr.iadd h v d a) hb)
theorem isub (h : Hd) (v : BitVec 4) (d a : Code) (b : SrcB) : Statement (.isub h v d a b) := by
  intro hw
  have hb := srcB_of_accepts hw rfl rfl rfl rfl
  exact congrArg some (congrArg (Instr.isub h v d a) hb)
theorem imul (h : Hd) (v : BitVec 4) (d a : Code) (b : SrcB) : Statement (.imul h v d a b) := by
  intro hw
  have hb := srcB_of_accepts hw rfl rfl rfl rfl
  exact congrArg some (congrArg (Instr.imul h v d a) hb)
theorem imulh (h : Hd) (v : BitVec 4) (d a : Code) (b : SrcB) : Statement (.imulh h v d a b) := by
  intro hw
  have hb := srcB_of_accepts hw rfl rfl rfl rfl
  exact congrArg some (congrArg (Instr.imulh h v d a) hb)
theorem imad (h : Hd) (v : BitVec 4) (d a : Code) (b : SrcB) (c : Code) : Statement (.imad h v d a b c) := by
  intro hw
  have hb := srcB_of_accepts hw rfl rfl rfl rfl
  exact congrArg some (congrFun (congrArg (Instr.imad h v d a) hb) c)
theorem imin (h : Hd) (v : BitVec 4) (d a : Code) (b : SrcB) : Statement (.imin h v d a b) := by
  intro hw
  have hb := srcB_of_accepts hw rfl rfl rfl rfl
  exact congrArg some (congrArg (Instr.imin h v d a) hb)
theorem imax (h : Hd) (v : BitVec 4) (d a : Code) (b : SrcB) : Statement (.imax h v d a b) := by
  intro hw
  have hb := srcB_of_accepts hw rfl rfl rfl rfl
  exact congrArg some (congrArg (Instr.imax h v d a) hb)
theorem iabs (h : Hd) (v : BitVec 4) (d a : Code) : Statement (.iabs h v d a) := by
  intro hw
  rfl
theorem ineg (h : Hd) (v : BitVec 4) (d a : Code) : Statement (.ineg h v d a) := by
  intro hw
  rfl
theorem icmp (h : Hd) (v md : BitVec 4) (cd : CBit) (a : Code) (b : SrcB) : Statement (.icmp h v md cd a b) := by
  intro hw
  have hb := srcB_of_accepts hw rfl rfl rfl rfl
  exact congrArg some (congr (congrFun (congrArg (Instr.icmp h v md) (cbit_code _)) a) hb)
theorem iaddc (h : Hd) (v : BitVec 4) (d a : Code) (b : SrcB) (cc : CBit) : Statement (.iaddc h v d a b cc) := by
  intro hw
  have hb := srcB_of_accepts hw rfl rfl rfl rfl
  exact congrArg some (congr (congrArg (Instr.iaddc h v d a) hb) (cbit_code _))
theorem lea (h : Hd) (v : BitVec 4) (d a : Code) (b : SrcB) : Statement (.lea h v d a b) := by
  intro hw
  have hb := srcB_of_accepts hw rfl rfl rfl rfl
  exact congrArg some (congrArg (Instr.lea h v d a) hb)
theorem and (h : Hd) (v : BitVec 4) (d a : Code) (b : SrcB) : Statement (.and h v d a b) := by
  intro hw
  have hb := srcB_of_accepts hw rfl rfl rfl rfl
  exact congrArg some (congrArg (Instr.and h v d a) hb)
theorem or (h : Hd) (v : BitVec 4) (d a : Code) (b : SrcB) : Statement (.or h v d a b) := by
  intro hw
  have hb := srcB_of_accepts hw rfl rfl rfl rfl
  exact congrArg some (congrArg (Instr.or h v d a) hb)
theorem xor (h : Hd) (v : BitVec 4) (d a : Code) (b : SrcB) : Statement (.xor h v d a b) := by
  intro hw
  have hb := srcB_of_accepts hw rfl rfl rfl rfl
  exact congrArg some (congrArg (Instr.xor h v d a) hb)
theorem andn (h : Hd) (v : BitVec 4) (d a : Code) (b : SrcB) : Statement (.andn h v d a b) := by
  intro hw
  have hb := srcB_of_accepts hw rfl rfl rfl rfl
  exact congrArg some (congrArg (Instr.andn h v d a) hb)
theorem not (h : Hd) (v : BitVec 4) (d a : Code) : Statement (.not h v d a) := by
  intro hw
  rfl
theorem shl (h : Hd) (v : BitVec 4) (d a : Code) (b : SrcB) : Statement (.shl h v d a b) := by
  intro hw
  have hb := srcB_of_accepts hw rfl rfl rfl rfl
  exact congrArg some (congrArg (Instr.shl h v d a) hb)
theorem shr (h : Hd) (v : BitVec 4) (d a : Code) (b : SrcB) : Statement (.shr h v d a b) := by
  intro hw
  have hb := srcB_of_accepts hw rfl rfl rfl rfl
  exact congrArg some (congrArg (Instr.shr h v d a) hb)
theorem sar (h : Hd) (v : BitVec 4) (d a : Code) (b : SrcB) : Statement (.sar h v d a b) := by
  intro hw
  have hb := srcB_of_accepts hw rfl rfl rfl rfl
  exact congrArg some (congrArg (Instr.sar h v d a) hb)
theorem rotl (h : Hd) (v : BitVec 4) (d a : Code) (b : SrcB) : Statement (.rotl h v d a b) := by
  intro hw
  have hb := srcB_of_accepts hw rfl rfl rfl rfl
  exact congrArg some (congrArg (Instr.rotl h v d a) hb)
theorem bfx (h : Hd) (v : BitVec 4) (d a : Code) (b : SrcB) : Statement (.bfx h v d a b) := by
  intro hw
  have hb := srcB_of_accepts hw rfl rfl rfl rfl
  exact congrArg some (congrArg (Instr.bfx h v d a) hb)
theorem bfi (h : Hd) (v : BitVec 4) (d a : Code) (b : SrcB) (c : Code) : Statement (.bfi h v d a b c) := by
  intro hw
  have hb := srcB_of_accepts hw rfl rfl rfl rfl
  exact congrArg some (congrFun (congrArg (Instr.bfi h v d a) hb) c)
theorem popc (h : Hd) (v : BitVec 4) (d a : Code) : Statement (.popc h v d a) := by
  intro hw
  rfl
theorem clz (h : Hd) (v : BitVec 4) (d a : Code) : Statement (.clz h v d a) := by
  intro hw
  rfl
theorem ctz (h : Hd) (v : BitVec 4) (d a : Code) : Statement (.ctz h v d a) := by
  intro hw
  rfl
theorem brev (h : Hd) (v : BitVec 4) (d a : Code) : Statement (.brev h v d a) := by
  intro hw
  rfl
theorem sel (h : Hd) (v : BitVec 4) (d a : Code) (b : SrcB) : Statement (.sel h v d a b) := by
  intro hw
  have hb := srcB_of_accepts hw rfl rfl rfl rfl
  exact congrArg some (congrArg (Instr.sel h v d a) hb)
theorem mov (h : Hd) (v : BitVec 4) (d a : Code) : Statement (.mov h v d a) := by
  intro hw
  rfl
theorem movi (h : Hd) (v : BitVec 4) (d : Code) (k : BitVec 64) : Statement (.movi h v d k) := by
  intro hw
  have he := entry_of_accepts hw
  rcases h with ⟨len, g⟩
  cases hx : len.hasLit with
  | true => simp [Instr.fields, hx, Fields.build, Hd.fields, Fields.hd, Fields.constant]
  | false =>
    simp [Instr.entryOk, hx] at he
    simp [Instr.fields, hx, Fields.build, Hd.fields, Fields.hd, Fields.constant]
    apply BitVec.eq_of_toNat_eq
    simp [slice]
    omega
theorem cbit (h : Hd) (v : BitVec 4) (cd ca cb : CBit) : Statement (.cbit h v cd ca cb) := by
  intro hw
  exact congrArg some (congr (congr (congrArg (Instr.cbit h v) (cbit_code _)) (cbit_code _)) (cbit_code _))
theorem padd2 (h : Hd) (v : BitVec 4) (d a : Code) (b : SrcB) : Statement (.padd2 h v d a b) := by
  intro hw
  have hb := srcB_of_accepts hw rfl rfl rfl rfl
  exact congrArg some (congrArg (Instr.padd2 h v d a) hb)
theorem psub2 (h : Hd) (v : BitVec 4) (d a : Code) (b : SrcB) : Statement (.psub2 h v d a b) := by
  intro hw
  have hb := srcB_of_accepts hw rfl rfl rfl rfl
  exact congrArg some (congrArg (Instr.psub2 h v d a) hb)
theorem pmul2 (h : Hd) (v : BitVec 4) (d a : Code) (b : SrcB) : Statement (.pmul2 h v d a b) := by
  intro hw
  have hb := srcB_of_accepts hw rfl rfl rfl rfl
  exact congrArg some (congrArg (Instr.pmul2 h v d a) hb)
theorem pmac2 (h : Hd) (d a : Code) (b : SrcB) : Statement (.pmac2 h d a b) := by
  intro hw
  have hb := srcB_of_accepts hw rfl rfl rfl rfl
  exact congrArg some (congrArg (Instr.pmac2 h d a) hb)
theorem pmin2 (h : Hd) (v : BitVec 4) (d a : Code) (b : SrcB) : Statement (.pmin2 h v d a b) := by
  intro hw
  have hb := srcB_of_accepts hw rfl rfl rfl rfl
  exact congrArg some (congrArg (Instr.pmin2 h v d a) hb)
theorem pmax2 (h : Hd) (v : BitVec 4) (d a : Code) (b : SrcB) : Statement (.pmax2 h v d a b) := by
  intro hw
  have hb := srcB_of_accepts hw rfl rfl rfl rfl
  exact congrArg some (congrArg (Instr.pmax2 h v d a) hb)
theorem pshr2 (h : Hd) (v : BitVec 4) (d a : Code) (b : SrcB) : Statement (.pshr2 h v d a b) := by
  intro hw
  have hb := srcB_of_accepts hw rfl rfl rfl rfl
  exact congrArg some (congrArg (Instr.pshr2 h v d a) hb)
theorem pnarrow (h : Hd) (v : BitVec 4) (d a : Code) (b : SrcB) : Statement (.pnarrow h v d a b) := by
  intro hw
  have hb := srcB_of_accepts hw rfl rfl rfl rfl
  exact congrArg some (congrArg (Instr.pnarrow h v d a) hb)
theorem punpk (h : Hd) (v : BitVec 4) (d a : Code) : Statement (.punpk h v d a) := by
  intro hw
  rfl
theorem padd4 (h : Hd) (v : BitVec 4) (d a : Code) (b : SrcB) : Statement (.padd4 h v d a b) := by
  intro hw
  have hb := srcB_of_accepts hw rfl rfl rfl rfl
  exact congrArg some (congrArg (Instr.padd4 h v d a) hb)
theorem pdot4 (h : Hd) (v : BitVec 4) (d a : Code) (b : SrcB) : Statement (.pdot4 h v d a b) := by
  intro hw
  have hb := srcB_of_accepts hw rfl rfl rfl rfl
  exact congrArg some (congrArg (Instr.pdot4 h v d a) hb)
theorem pcmp2 (h : Hd) (v : BitVec 4) (d a : Code) (b : SrcB) : Statement (.pcmp2 h v d a b) := by
  intro hw
  have hb := srcB_of_accepts hw rfl rfl rfl rfl
  exact congrArg some (congrArg (Instr.pcmp2 h v d a) hb)
theorem bcmp (h : Hd) (v : BitVec 4) (d a : Code) (b : SrcB) : Statement (.bcmp h v d a b) := by
  intro hw
  have hb := srcB_of_accepts hw rfl rfl rfl rfl
  exact congrArg some (congrArg (Instr.bcmp h v d a) hb)
theorem bfind (h : Hd) (v : BitVec 4) (d a : Code) (b : SrcB) : Statement (.bfind h v d a b) := by
  intro hw
  have hb := srcB_of_accepts hw rfl rfl rfl rfl
  exact congrArg some (congrArg (Instr.bfind h v d a) hb)
theorem bhash (h : Hd) (v : BitVec 4) (d a : Code) : Statement (.bhash h v d a) := by
  intro hw
  rfl
theorem bcrc (h : Hd) (v : BitVec 4) (d a : Code) : Statement (.bcrc h v d a) := by
  intro hw
  rfl
theorem shfl (h : Hd) (v : BitVec 4) (d a b : Code) (dist : BitVec 5) : Statement (.shfl h v d a b dist) := by
  intro hw
  exact congrArg some (congrArg (Instr.shfl h v d a b) (slice_zeroExtend _ (by decide)))
theorem slide (h : Hd) (v : BitVec 4) (d a b : Code) : Statement (.slide h v d a b) := by
  intro hw
  rfl
theorem vote (h : Hd) (v : BitVec 4) (d : Code) (ca : CBit) : Statement (.vote h v d ca) := by
  intro hw
  exact congrArg some (congrArg (Instr.vote h v d) (cbit_code _))
theorem scan (h : Hd) (v md : BitVec 4) (d a : Code) : Statement (.scan h v md d a) := by
  intro hw
  rfl
theorem redux (h : Hd) (v : BitVec 4) (d a : Code) : Statement (.redux h v d a) := by
  intro hw
  rfl
theorem matchLanes (h : Hd) (v : BitVec 4) (d a : Code) : Statement (.matchLanes h v d a) := by
  intro hw
  rfl
theorem bcast (h : Hd) (v : BitVec 4) (d a : Code) : Statement (.bcast h v d a) := by
  intro hw
  rfl
theorem gmov (h : Hd) (d b : Code) : Statement (.gmov h d b) := by
  intro hw
  rfl
theorem lmul (h : Hd) (v md : BitVec 4) (d a : Code) (b : SrcB) : Statement (.lmul h v md d a b) := by
  intro hw
  have hb := srcB_of_accepts hw rfl rfl rfl rfl
  exact congrArg some (congrArg (Instr.lmul h v md d a) hb)
theorem ldiv (h : Hd) (v md : BitVec 4) (d a : Code) (b : SrcB) : Statement (.ldiv h v md d a b) := by
  intro hw
  have hb := srcB_of_accepts hw rfl rfl rfl rfl
  exact congrArg some (congrArg (Instr.ldiv h v md d a) hb)
theorem ladd (h : Hd) (v md : BitVec 4) (d a : Code) (b : SrcB) : Statement (.ladd h v md d a b) := by
  intro hw
  have hb := srcB_of_accepts hw rfl rfl rfl rfl
  exact congrArg some (congrArg (Instr.ladd h v md d a) hb)
theorem lsub (h : Hd) (v md : BitVec 4) (d a : Code) (b : SrcB) : Statement (.lsub h v md d a b) := by
  intro hw
  have hb := srcB_of_accepts hw rfl rfl rfl rfl
  exact congrArg some (congrArg (Instr.lsub h v md d a) hb)
theorem lmad (h : Hd) (v md : BitVec 4) (d a : Code) (b : SrcB) (c : Code) : Statement (.lmad h v md d a b c) := by
  intro hw
  have hb := srcB_of_accepts hw rfl rfl rfl rfl
  exact congrArg some (congrFun (congrArg (Instr.lmad h v md d a) hb) c)
theorem lmsb (h : Hd) (v md : BitVec 4) (d a : Code) (b : SrcB) (c : Code) : Statement (.lmsb h v md d a b c) := by
  intro hw
  have hb := srcB_of_accepts hw rfl rfl rfl rfl
  exact congrArg some (congrFun (congrArg (Instr.lmsb h v md d a) hb) c)
theorem lsqrt (h : Hd) (v : BitVec 4) (d a : Code) : Statement (.lsqrt h v d a) := by
  intro hw
  rfl
theorem lrsqrt (h : Hd) (v md : BitVec 4) (d a : Code) : Statement (.lrsqrt h v md d a) := by
  intro hw
  rfl
theorem lsqr (h : Hd) (v md : BitVec 4) (d a : Code) : Statement (.lsqr h v md d a) := by
  intro hw
  rfl
theorem lrcp (h : Hd) (v md : BitVec 4) (d a : Code) : Statement (.lrcp h v md d a) := by
  intro hw
  rfl
theorem lpowi (h : Hd) (v md : BitVec 4) (d a : Code) (b : SrcB) : Statement (.lpowi h v md d a b) := by
  intro hw
  have hb := srcB_of_accepts hw rfl rfl rfl rfl
  exact congrArg some (congrArg (Instr.lpowi h v md d a) hb)
theorem lpowf (h : Hd) (v md : BitVec 4) (d a : Code) (b : SrcB) : Statement (.lpowf h v md d a b) := by
  intro hw
  have hb := srcB_of_accepts hw rfl rfl rfl rfl
  exact congrArg some (congrArg (Instr.lpowf h v md d a) hb)
theorem lscale (h : Hd) (v md : BitVec 4) (d a : Code) (b : SrcB) : Statement (.lscale h v md d a b) := by
  intro hw
  have hb := srcB_of_accepts hw rfl rfl rfl rfl
  exact congrArg some (congrArg (Instr.lscale h v md d a) hb)
theorem labs (h : Hd) (v : BitVec 4) (d a : Code) : Statement (.labs h v d a) := by
  intro hw
  rfl
theorem lneg (h : Hd) (v : BitVec 4) (d a : Code) : Statement (.lneg h v d a) := by
  intro hw
  rfl
theorem lmin (h : Hd) (v : BitVec 4) (d a : Code) (b : SrcB) : Statement (.lmin h v d a b) := by
  intro hw
  have hb := srcB_of_accepts hw rfl rfl rfl rfl
  exact congrArg some (congrArg (Instr.lmin h v d a) hb)
theorem lmax (h : Hd) (v : BitVec 4) (d a : Code) (b : SrcB) : Statement (.lmax h v d a b) := by
  intro hw
  have hb := srcB_of_accepts hw rfl rfl rfl rfl
  exact congrArg some (congrArg (Instr.lmax h v d a) hb)
theorem lcmp (h : Hd) (v md : BitVec 4) (cd : CBit) (a : Code) (b : SrcB) : Statement (.lcmp h v md cd a b) := by
  intro hw
  have hb := srcB_of_accepts hw rfl rfl rfl rfl
  exact congrArg some (congr (congrFun (congrArg (Instr.lcmp h v md) (cbit_code _)) a) hb)
theorem lclass (h : Hd) (v : BitVec 4) (cd : CBit) (a : Code) (mask : BitVec 6) : Statement (.lclass h v cd a mask) := by
  intro hw
  exact congrArg some (congr (congrFun (congrArg (Instr.lclass h v) (cbit_code _)) a) (slice_zeroExtend _ (by decide)))
theorem lexp2 (h : Hd) (v md : BitVec 4) (d a : Code) : Statement (.lexp2 h v md d a) := by
  intro hw
  rfl
theorem llog2 (h : Hd) (v md : BitVec 4) (d a : Code) : Statement (.llog2 h v md d a) := by
  intro hw
  rfl
theorem lclamp (h : Hd) (v : BitVec 4) (d a : Code) (b : SrcB) : Statement (.lclamp h v d a b) := by
  intro hw
  have hb := srcB_of_accepts hw rfl rfl rfl rfl
  exact congrArg some (congrArg (Instr.lclamp h v d a) hb)
theorem cvtfl (h : Hd) (v md : BitVec 4) (d a b : Code) : Statement (.cvtfl h v md d a b) := by
  intro hw
  rfl
theorem cvtlf (h : Hd) (v : BitVec 4) (d a : Code) : Statement (.cvtlf h v d a) := by
  intro hw
  rfl
theorem cvtil (h : Hd) (v : BitVec 4) (d a : Code) : Statement (.cvtil h v d a) := by
  intro hw
  rfl
theorem cvtli (h : Hd) (v md : BitVec 4) (d a : Code) : Statement (.cvtli h v md d a) := by
  intro hw
  rfl
theorem cvtll (h : Hd) (v : BitVec 4) (d a b : Code) : Statement (.cvtll h v d a b) := by
  intro hw
  rfl
theorem cvtxl (h : Hd) (v : BitVec 4) (d a : Code) (q : BitVec 6) : Statement (.cvtxl h v d a q) := by
  intro hw
  exact congrArg some (congrArg (Instr.cvtxl h v d a) (slice_zeroExtend _ (by decide)))
theorem cvtlx (h : Hd) (v md : BitVec 4) (d a : Code) (q : BitVec 6) : Statement (.cvtlx h v md d a q) := by
  intro hw
  exact congrArg some (congrArg (Instr.cvtlx h v md d a) (slice_zeroExtend _ (by decide)))
theorem lfld (h : Hd) (v : BitVec 4) (d a b : Code) : Statement (.lfld h v d a b) := by
  intro hw
  rfl
theorem bra (h : Hd) (disp : BitVec 32) : Statement (.bra h disp) := by
  intro hw
  have he := entry_of_accepts hw
  show Fields.build (dispFields h _ disp) = _
  unfold Fields.build
  rw [(dispFields_head h _ disp).2, (dispFields_head h _ disp).1, dispFields_disp h _ disp he]
  rfl
theorem jmp (h : Hd) (a : Code) : Statement (.jmp h a) := by
  intro hw
  rfl
theorem call (h : Hd) (disp : BitVec 32) : Statement (.call h disp) := by
  intro hw
  have he := entry_of_accepts hw
  show Fields.build (dispFields h _ disp) = _
  unfold Fields.build
  rw [(dispFields_head h _ disp).2, (dispFields_head h _ disp).1, dispFields_disp h _ disp he]
  rfl
theorem callr (h : Hd) (a : Code) : Statement (.callr h a) := by
  intro hw
  rfl
theorem ret (h : Hd) : Statement (.ret h) := by
  intro hw
  rfl
theorem exit (h : Hd) : Statement (.exit h) := by
  intro hw
  rfl
theorem yield (h : Hd) : Statement (.yield h) := by
  intro hw
  rfl
theorem pause (h : Hd) (v : BitVec 4) (a : Code) (n : BitVec 32) : Statement (.pause h v a n) := by
  intro hw
  rfl
theorem bar (h : Hd) (v : BitVec 4) (cd : CBit) (bar : BitVec 4) (n : BitVec 14) : Statement (.bar h v cd bar n) := by
  intro hw
  exact congrArg some (congr (congr (congrArg (Instr.bar h v) (cbit_code _)) (slice_append_low _ _)) (slice_append_mid _ _ _))
theorem barc (h : Hd) (v : BitVec 4) (cd : CBit) (bar : BitVec 4) (n : BitVec 14) : Statement (.barc h v cd bar n) := by
  intro hw
  exact congrArg some (congr (congr (congrArg (Instr.barc h v) (cbit_code _)) (slice_append_low _ _)) (slice_append_mid _ _ _))
theorem twait (h : Hd) (a : Code) (tok : BitVec 9) : Statement (.twait h a tok) := by
  intro hw
  exact congrArg some (congrArg (Instr.twait h a) (slice_zeroExtend _ (by decide)))
theorem tsignal (h : Hd) (v : BitVec 4) (a : Code) (tok : BitVec 9) : Statement (.tsignal h v a tok) := by
  intro hw
  exact congrArg some (congrArg (Instr.tsignal h v a) (slice_zeroExtend _ (by decide)))
theorem live (h : Hd) (mask : BitVec 48) : Statement (.live h mask) := by
  intro hw
  exact congrArg some (congrArg (Instr.live h) (live_joined mask))
theorem trap (h : Hd) (k : BitVec 32) : Statement (.trap h k) := by
  intro hw
  rfl
theorem brk (h : Hd) (k : BitVec 32) : Statement (.brk h k) := by
  intro hw
  rfl
theorem ldg (h : Hd) (v md : BitVec 4) (sc : BitVec 3) (d a : Code) (imm : BitVec 32) : Statement (.ldg h v md sc d a imm) := by
  intro hw
  have hs := scope_of_accepts hw rfl rfl rfl
  exact congrArg some (congrFun (congrFun (congrFun (congrArg (Instr.ldg h v md) hs) d) a) imm)
theorem ldgRc (h : Hd) (v md : BitVec 4) (sc : BitVec 3) (rc : CBit) (d a : Code) (imm : BitVec 32) : Statement (.ldgRc h v md sc rc d a imm) := by
  intro hw
  have hs := scope_of_accepts hw rfl rfl rfl
  exact congrArg some (congrFun (congrFun (congrFun (congrFun (congrArg (Instr.ldgRc h v md) hs) rc) d) a) imm)
theorem stg (h : Hd) (v md : BitVec 4) (sc : BitVec 3) (a b : Code) (imm : BitVec 32) : Statement (.stg h v md sc a b imm) := by
  intro hw
  have hs := scope_of_accepts hw rfl rfl rfl
  exact congrArg some (congrFun (congrFun (congrFun (congrArg (Instr.stg h v md) hs) a) b) imm)
theorem lds (h : Hd) (v md : BitVec 4) (d a : Code) (imm : BitVec 32) : Statement (.lds h v md d a imm) := by
  intro hw
  rfl
theorem sts (h : Hd) (v md : BitVec 4) (a b : Code) (imm : BitVec 32) : Statement (.sts h v md a b imm) := by
  intro hw
  rfl
theorem ldc (h : Hd) (v md : BitVec 4) (d a : Code) (core : BitVec 4) (off : BitVec 16) : Statement (.ldc h v md d a core off) := by
  intro hw
  exact congrArg some (congr (congrArg (Instr.ldc h v md d a) (slice_append_mid _ _ _)) (slice_append_low _ _))
theorem stc (h : Hd) (v md : BitVec 4) (a b : Code) (core : BitVec 4) (off : BitVec 16) : Statement (.stc h v md a b core off) := by
  intro hw
  exact congrArg some (congr (congrArg (Instr.stc h v md a b) (slice_append_mid _ _ _)) (slice_append_low _ _))
theorem stn (h : Hd) (v md : BitVec 4) (sc : BitVec 3) (a b c : Code) (imm : BitVec 32) : Statement (.stn h v md sc a b c imm) := by
  intro hw
  have hs := scope_of_accepts hw rfl rfl rfl
  exact congrArg some (congrFun (congrFun (congrFun (congrFun (congrArg (Instr.stn h v md) hs) a) b) c) imm)
theorem ldgu (h : Hd) (v md : BitVec 4) (sc : BitVec 3) (d a : Code) (imm : BitVec 32) : Statement (.ldgu h v md sc d a imm) := by
  intro hw
  have hs := scope_of_accepts hw rfl rfl rfl
  exact congrArg some (congrFun (congrFun (congrFun (congrArg (Instr.ldgu h v md) hs) d) a) imm)
theorem pref (h : Hd) (v : BitVec 4) (a : Code) (imm : BitVec 32) : Statement (.pref h v a imm) := by
  intro hw
  rfl
theorem touch (h : Hd) (cd : CBit) (a : Code) (imm : BitVec 32) : Statement (.touch h cd a imm) := by
  intro hw
  exact congrArg some (congrFun (congrFun (congrArg (Instr.touch h) (cbit_code _)) a) imm)
theorem cctl (h : Hd) (v : BitVec 4) (a : Code) (imm : BitVec 32) : Statement (.cctl h v a imm) := by
  intro hw
  rfl
theorem fence (h : Hd) (md : BitVec 4) (sc : BitVec 3) : Statement (.fence h md sc) := by
  intro hw
  have hs := scope_of_accepts hw rfl rfl rfl
  exact congrArg some (congrArg (Instr.fence h md) hs)
theorem promote (h : Hd) (v : BitVec 4) (sc : BitVec 3) (d a : Code) (imm : BitVec 32) : Statement (.promote h v sc d a imm) := by
  intro hw
  have hs := scope_of_accepts hw rfl rfl rfl
  exact congrArg some (congrFun (congrFun (congrFun (congrArg (Instr.promote h v) hs) d) a) imm)
theorem atom (h : Hd) (v md : BitVec 4) (sc : BitVec 3) (d a b c : Code) (imm : BitVec 32) : Statement (.atom h v md sc d a b c imm) := by
  intro hw
  have hs := scope_of_accepts hw rfl rfl rfl
  exact congrArg some (congrFun (congrFun (congrFun (congrFun (congrFun (congrArg (Instr.atom h v md) hs) d) a) b) c) imm)
theorem red (h : Hd) (v md : BitVec 4) (sc : BitVec 3) (a b : Code) (imm : BitVec 32) : Statement (.red h v md sc a b imm) := by
  intro hw
  have hs := scope_of_accepts hw rfl rfl rfl
  exact congrArg some (congrFun (congrFun (congrFun (congrArg (Instr.red h v md) hs) a) b) imm)
theorem atoms (h : Hd) (v md : BitVec 4) (d a b c : Code) (imm : BitVec 32) : Statement (.atoms h v md d a b c imm) := by
  intro hw
  rfl
theorem comb (h : Hd) (v md : BitVec 4) (sc : BitVec 3) (d a b c : Code) (m : BitVec 5) : Statement (.comb h v md sc d a b c m) := by
  intro hw
  have hs := scope_of_accepts hw rfl rfl rfl
  exact congrArg some (congr (congrFun (congrFun (congrFun (congrFun (congrArg (Instr.comb h v md) hs) d) a) b) c) (slice_zeroExtend _ (by decide)))
theorem combr (h : Hd) (v md : BitVec 4) (sc : BitVec 3) (a b c : Code) (m : BitVec 5) : Statement (.combr h v md sc a b c m) := by
  intro hw
  have hs := scope_of_accepts hw rfl rfl rfl
  exact congrArg some (congr (congrFun (congrFun (congrFun (congrArg (Instr.combr h v md) hs) a) b) c) (slice_zeroExtend _ (by decide)))
theorem objld (h : Hd) (v : BitVec 4) (d a : Code) (imm : BitVec 32) : Statement (.objld h v d a imm) := by
  intro hw
  rfl
theorem objst (h : Hd) (v : BitVec 4) (a b : Code) (imm : BitVec 32) : Statement (.objst h v a b imm) := by
  intro hw
  rfl
theorem reply (h : Hd) (a : Code) : Statement (.reply h a) := by
  intro hw
  rfl
theorem mabort (h : Hd) : Statement (.mabort h) := by
  intro hw
  rfl
theorem hgcfg (h : Hd) (a : Code) (imm : BitVec 32) : Statement (.hgcfg h a imm) := by
  intro hw
  rfl
theorem hgld (h : Hd) (d a : Code) : Statement (.hgld h d a) := by
  intro hw
  rfl
theorem hgscat (h : Hd) (a b : Code) : Statement (.hgscat h a b) := by
  intro hw
  rfl
theorem hgidx (h : Hd) (v : BitVec 4) (d a : Code) (level : BitVec 4) (corner : BitVec 8) : Statement (.hgidx h v d a level corner) := by
  intro hw
  exact congrArg some (congr (congrArg (Instr.hgidx h v d a) (slice_append_low _ _)) (slice_append_mid _ _ _))
theorem cpy (h : Hd) (q : BitVec 2) (a : Code) (imm : BitVec 32) : Statement (.cpy h q a imm) := by
  intro hw
  exact congrArg some (congrFun (congrFun (congrArg (Instr.cpy h) (slice_zeroExtend _ (by decide))) a) imm)
theorem cpyb (h : Hd) (q : BitVec 2) (a : Code) (bar : BitVec 4) (n : BitVec 14) : Statement (.cpyb h q a bar n) := by
  intro hw
  exact congrArg some (congr (congr (congrFun (congrArg (Instr.cpyb h) (slice_zeroExtend _ (by decide))) a) (slice_append_low _ _)) (slice_append_mid _ _ _))
theorem qfence (h : Hd) (q : BitVec 2) (md mask : BitVec 4) : Statement (.qfence h q md mask) := by
  intro hw
  exact congrArg some (congr (congrFun (congrArg (Instr.qfence h) (slice_zeroExtend _ (by decide))) md) (slice_zeroExtend _ (by decide)))
theorem qwait (h : Hd) (q : BitVec 2) (cd : CBit) : Statement (.qwait h q cd) := by
  intro hw
  exact congrArg some (congr (congrArg (Instr.qwait h) (slice_zeroExtend _ (by decide))) (cbit_code _))
theorem qstat (h : Hd) (q : BitVec 2) (d : Code) : Statement (.qstat h q d) := by
  intro hw
  exact congrArg some (congrFun (congrArg (Instr.qstat h) (slice_zeroExtend _ (by decide))) d)
theorem qreset (h : Hd) (q : BitVec 2) : Statement (.qreset h q) := by
  intro hw
  exact congrArg some (congrArg (Instr.qreset h) (slice_zeroExtend _ (by decide)))
theorem cpyt (h : Hd) (q : BitVec 2) (a b : Code) (tok : BitVec 9) : Statement (.cpyt h q a b tok) := by
  intro hw
  exact congrArg some (congr (congrFun (congrFun (congrArg (Instr.cpyt h) (slice_zeroExtend _ (by decide))) a) b) (slice_zeroExtend _ (by decide)))
theorem tmma (h : Hd) (v : BitVec 4) (a b c : Code) (t : TaskField) : Statement (.tmma h v a b c t) := by
  intro hw
  exact congrArg some (congrArg (Instr.tmma h v a b c) (taskField_imm _))
theorem tmmas (h : Hd) (v : BitVec 4) (a b c : Code) (t : TaskField) : Statement (.tmmas h v a b c t) := by
  intro hw
  exact congrArg some (congrArg (Instr.tmmas h v a b c) (taskField_imm _))
theorem tzero (h : Hd) (t : TaskField) : Statement (.tzero h t) := by
  intro hw
  exact congrArg some (congrArg (Instr.tzero h) (taskField_imm _))
theorem tdrain (h : Hd) (a b c : Code) (t : TaskField) : Statement (.tdrain h a b c t) := by
  intro hw
  exact congrArg some (congrArg (Instr.tdrain h a b c) (taskField_imm _))
theorem tdapply (h : Hd) (a b c : Code) (t : TaskField) : Statement (.tdapply h a b c t) := by
  intro hw
  exact congrArg some (congrArg (Instr.tdapply h a b c) (taskField_imm _))
theorem tloadacc (h : Hd) (a : Code) (t : TaskField) : Statement (.tloadacc h a t) := by
  intro hw
  exact congrArg some (congrArg (Instr.tloadacc h a) (taskField_imm _))
theorem tamax (h : Hd) (v : BitVec 4) (d : Code) (n : BitVec 4) : Statement (.tamax h v d n) := by
  intro hw
  exact congrArg some (congrArg (Instr.tamax h v d) (slice_zeroExtend _ (by decide)))
theorem tfence (h : Hd) (t : TaskField) : Statement (.tfence h t) := by
  intro hw
  exact congrArg some (congrArg (Instr.tfence h) (taskField_imm t))
theorem tfenceW (h : Hd) : Statement (.tfenceW h) := by
  intro hw
  rfl
theorem evpop (h : Hd) (d : Code) (cc : CBit) : Statement (.evpop h d cc) := by
  intro hw
  exact congrArg some (congrArg (Instr.evpop h d) (cbit_code _))
theorem evwait (h : Hd) (d : Code) : Statement (.evwait h d) := by
  intro hw
  rfl
theorem ttok (h : Hd) (v : BitVec 4) (d a : Code) (tok : BitVec 6) : Statement (.ttok h v d a tok) := by
  intro hw
  have hv := sub_of_accepts hw rfl rfl
  have hn : ¬ v = 5 := fun e => by
    change (31#16).getLsbD v.toNat = true at hv
    rw [e] at hv
    exact absurd hv (by decide)
  refine congrArg some ((if_neg hn).trans ?_)
  exact congrArg (Instr.ttok h v d a) (slice_zeroExtend tok (by decide))
theorem ttokClr (h : Hd) : Statement (.ttokClr h) := by
  intro hw
  rfl
theorem flipv (h : Hd) (a b : Code) : Statement (.flipv h a b) := by
  intro hw
  rfl
theorem dgst (h : Hd) (d : Code) : Statement (.dgst h d) := by
  intro hw
  rfl
theorem postr (h : Hd) (a : Code) : Statement (.postr h a) := by
  intro hw
  rfl
theorem sread (h : Hd) (v : BitVec 4) (d : Code) (n : BitVec 8) : Statement (.sread h v d n) := by
  intro hw
  exact congrArg some (congrArg (Instr.sread h v d) (slice_zeroExtend _ (by decide)))
theorem swrite (h : Hd) (a : Code) (n : BitVec 8) : Statement (.swrite h a n) := by
  intro hw
  exact congrArg some (congrArg (Instr.swrite h a) (slice_zeroExtend _ (by decide)))
theorem rte (h : Hd) : Statement (.rte h) := by
  intro hw
  rfl
theorem tlbinv (h : Hd) (a b : Code) : Statement (.tlbinv h a b) := by
  intro hw
  rfl
theorem pcnt (h : Hd) (v : BitVec 4) (d : Code) (n : BitVec 8) : Statement (.pcnt h v d n) := by
  intro hw
  exact congrArg some (congrArg (Instr.pcnt h v d) (slice_zeroExtend _ (by decide)))
theorem halt (h : Hd) : Statement (.halt h) := by
  intro hw
  rfl
theorem evsend (h : Hd) (v : BitVec 4) (a : Code) (code : BitVec 8) : Statement (.evsend h v a code) := by
  intro hw
  exact congrArg some (congrArg (Instr.evsend h v a) (slice_zeroExtend _ (by decide)))
theorem loadDataReturn (req : Nat) (place : LoadPlace) : Statement (.loadDataReturn req place) := by
  intro hw; exact Bool.noConfusion hw
theorem storePerform (req : Nat) (place : StorePlace) : Statement (.storePerform req place) := by
  intro hw; exact Bool.noConfusion hw
theorem homeAtomicPerform (place : AtomPlace) : Statement (.homeAtomicPerform place) := by
  intro hw; exact Bool.noConfusion hw
theorem registerLineFill (g : GroupRef) (line : Nat) (victim : Option VictimLine) : Statement (.registerLineFill g line victim) := by
  intro hw; exact Bool.noConfusion hw
theorem pauseExpiry (l : LaneRef) : Statement (.pauseExpiry l) := by
  intro hw; exact Bool.noConfusion hw
theorem barrierArrival (l : LaneRef) : Statement (.barrierArrival l) := by
  intro hw; exact Bool.noConfusion hw
theorem trapEntry (g : GroupRef) : Statement (.trapEntry g) := by
  intro hw; exact Bool.noConfusion hw
theorem controlCoreTrapEntry (q : QuadRef) : Statement (.controlCoreTrapEntry q) := by
  intro hw; exact Bool.noConfusion hw
theorem pageWalk (req : Nat) : Statement (.pageWalk req) := by
  intro hw; exact Bool.noConfusion hw
theorem invalidationComplete (id : Nat) : Statement (.invalidationComplete id) := by
  intro hw; exact Bool.noConfusion hw
theorem pushToHome (req core : Nat) : Statement (.pushToHome req core) := by
  intro hw; exact Bool.noConfusion hw
theorem promoteReturn (req : Nat) : Statement (.promoteReturn req) := by
  intro hw; exact Bool.noConfusion hw
theorem lineRecall (line : Nat) : Statement (.lineRecall line) := by
  intro hw; exact Bool.noConfusion hw
theorem peerCompletion (req : Nat) (ok : Bool) (data : List Byte) : Statement (.peerCompletion req ok data) := by
  intro hw; exact Bool.noConfusion hw
theorem peerTimeout (req : Nat) : Statement (.peerTimeout req) := by
  intro hw; exact Bool.noConfusion hw
theorem peerRequest (r : PeerAccess) : Statement (.peerRequest r) := by
  intro hw; exact Bool.noConfusion hw
theorem queueEntryAccept (l : LaneRef) : Statement (.queueEntryAccept l) := by
  intro hw; exact Bool.noConfusion hw
theorem copyCommandStart (q : QueueRef) : Statement (.copyCommandStart q) := by
  intro hw; exact Bool.noConfusion hw
theorem copyCommandEnd (q : QueueRef) : Statement (.copyCommandEnd q) := by
  intro hw; exact Bool.noConfusion hw
theorem qfenceComplete (q : QueueRef) : Statement (.qfenceComplete q) := by
  intro hw; exact Bool.noConfusion hw
theorem taskTableEntry (q : QuadRef) : Statement (.taskTableEntry q) := by
  intro hw; exact Bool.noConfusion hw
theorem taskStart (q : QuadRef) (drain : Bool) : Statement (.taskStart q drain) := by
  intro hw; exact Bool.noConfusion hw
theorem taskFinish (q : QuadRef) (task : Nat) : Statement (.taskFinish q task) := by
  intro hw; exact Bool.noConfusion hw
theorem taskComplete (q : QuadRef) (task : Nat) : Statement (.taskComplete q task) := by
  intro hw; exact Bool.noConfusion hw
theorem batchAccept (batch : Nat) : Statement (.batchAccept batch) := by
  intro hw; exact Bool.noConfusion hw
theorem gateAdmit (batch : Nat) : Statement (.gateAdmit batch) := by
  intro hw; exact Bool.noConfusion hw
theorem gateDivergence (slice line : Nat) : Statement (.gateDivergence slice line) := by
  intro hw; exact Bool.noConfusion hw
theorem waveForm (slice : Nat) : Statement (.waveForm slice) := by
  intro hw; exact Bool.noConfusion hw
theorem waveBudgetExceeded (slice : Nat) : Statement (.waveBudgetExceeded slice) := by
  intro hw; exact Bool.noConfusion hw
theorem waveCommit (slice : Nat) : Statement (.waveCommit slice) := by
  intro hw; exact Bool.noConfusion hw
theorem waveFault (slice : Nat) : Statement (.waveFault slice) := by
  intro hw; exact Bool.noConfusion hw
theorem combReply (req : Nat) : Statement (.combReply req) := by
  intro hw; exact Bool.noConfusion hw
theorem eventRingWrite : Statement (.eventRingWrite) := by
  intro hw; exact Bool.noConfusion hw
theorem doorbell (slot : Fin 8) : Statement (.doorbell slot) := by
  intro hw; exact Bool.noConfusion hw
theorem preempt (v : DWord) : Statement (.preempt v) := by
  intro hw; exact Bool.noConfusion hw
theorem nodeStart (n : NodeRef) : Statement (.nodeStart n) := by
  intro hw; exact Bool.noConfusion hw
theorem launch (n : NodeRef) : Statement (.launch n) := by
  intro hw; exact Bool.noConfusion hw
theorem bulk (n : NodeRef) : Statement (.bulk n) := by
  intro hw; exact Bool.noConfusion hw
theorem flip (n : NodeRef) : Statement (.flip n) := by
  intro hw; exact Bool.noConfusion hw
theorem signal (n : NodeRef) : Statement (.signal n) := by
  intro hw; exact Bool.noConfusion hw
theorem waitw (n : NodeRef) : Statement (.waitw n) := by
  intro hw; exact Bool.noConfusion hw
theorem waitwTimeout (n : NodeRef) : Statement (.waitwTimeout n) := by
  intro hw; exact Bool.noConfusion hw
theorem branch (n : NodeRef) : Statement (.branch n) := by
  intro hw; exact Bool.noConfusion hw
theorem nodeEnd (n : NodeRef) : Statement (.nodeEnd n) := by
  intro hw; exact Bool.noConfusion hw
theorem clusterStart (grid row col : Nat) : Statement (.clusterStart grid row col) := by
  intro hw; exact Bool.noConfusion hw
theorem clusterEnd (cid : Nat) : Statement (.clusterEnd cid) := by
  intro hw; exact Bool.noConfusion hw
theorem clusterRetire (grid : Nat) : Statement (.clusterRetire grid) := by
  intro hw; exact Bool.noConfusion hw
theorem gridAbort (grid : Nat) : Statement (.gridAbort grid) := by
  intro hw; exact Bool.noConfusion hw
theorem quantumExpiry (grid : Nat) : Statement (.quantumExpiry grid) := by
  intro hw; exact Bool.noConfusion hw
theorem clusterPreemption (cid : Nat) : Statement (.clusterPreemption cid) := by
  intro hw; exact Bool.noConfusion hw
theorem clusterResume (cid row col : Nat) : Statement (.clusterResume cid row col) := by
  intro hw; exact Bool.noConfusion hw
theorem machineCheck (w : ErrorPlace) : Statement (.machineCheck w) := by
  intro hw; exact Bool.noConfusion hw
theorem throttle (on : Bool) : Statement (.throttle on) := by
  intro hw; exact Bool.noConfusion hw
theorem thermalTrip : Statement (.thermalTrip) := by
  intro hw; exact Bool.noConfusion hw
theorem freeze : Statement (.freeze) := by
  intro hw; exact Bool.noConfusion hw
theorem freezeSaveAll : Statement (.freezeSaveAll) := by
  intro hw; exact Bool.noConfusion hw
theorem freezeResume : Statement (.freezeResume) := by
  intro hw; exact Bool.noConfusion hw
theorem invlen (v : DWord) : Statement (.invlen v) := by
  intro hw; exact Bool.noConfusion hw
theorem attreq : Statement (.attreq) := by
  intro hw; exact Bool.noConfusion hw
theorem registerWrite (off : Nat) (v : DWord) : Statement (.registerWrite off v) := by
  intro hw; exact Bool.noConfusion hw
theorem hostAccess (a : HostMove) : Statement (.hostAccess a) := by
  intro hw; exact Bool.noConfusion hw
theorem coldReset : Statement (.coldReset) := by
  intro hw; exact Bool.noConfusion hw
theorem warmReset : Statement (.warmReset) := by
  intro hw; exact Bool.noConfusion hw
theorem linkRetrain (port : Fin 5) : Statement (.linkRetrain port) := by
  intro hw; exact Bool.noConfusion hw
theorem hardwarePrefetch (core va : Nat) (fill : Bool) : Statement (.hardwarePrefetch core va fill) := by
  intro hw; exact Bool.noConfusion hw
theorem powerRemoved : Statement (.powerRemoved) := by
  intro hw; exact Bool.noConfusion hw

end RoundTrip

end Sys2Proof.Laws
end

