-- ==== Sys2Proof/Tests/Slice0.lean ====
section
/-! SUPPORT. Tests: words of the spec decoded, ill-formed terms refused, examples of the spec computed, and for each
statement with hypotheses a state that meets them. Expected values are the spec's examples, or hand calculation from its
rules. -/

namespace Sys2Proof.Tests

open Sys2Proof Sys2Proof.Machine

/-! ### Decoding: words written out from the encoding tables (R17 to R21, R50) -/

/-- A head without a guard. -/
def hd (l : Len) : Hd := ⟨l, ⟨7, false⟩⟩

theorem test_word_iadd : decodeWords [0x1C614004] = .ok (.iadd (hd .base) 0 5 6 (.reg 7)) := by decide
theorem test_word_isub : decodeWords [0x0010400A, 1, 0] = .ok (.isub (hd .lit) 0 1 1 (.lit 1)) := by decide
theorem test_word_bra : decodeWords [0xFFFE8180] = .ok (.bra (hd .base) 0xFFFFFFFA) := by decide
theorem test_word_bra_guard : decodeWords [0x00000181, 0x00028000, 0xF] = .ok (.bra ⟨.ext, ⟨2, true⟩⟩ 0xF) := by decide
theorem test_word_exit : decodeWords [0x00000198] = .ok (.exit (hd .base)) := by decide
theorem test_word_pause : decodeWords [0x000005A1, 0x4000, 0x7D0] = .ok (.pause ⟨.ext, ⟨1, false⟩⟩ 1 0 0x7D0) := by decide
theorem test_word_ldg : decodeWords [0x004209C1, 0x002DC000, 0x100] = .ok (.ldg (hd .ext) 2 1 3 8 4 0x100) := by decide
theorem test_word_stg : decodeWords [0x502009C5, 0x00110000, 0] = .ok (.stg ⟨.ext, ⟨4, false⟩⟩ 2 0 4 2 20 0) := by decide
theorem test_word_dgst : decodeWords [0x00030301, 0x10000, 0] = .ok (.dgst ⟨.ext, ⟨4, false⟩⟩ 12) := by decide
theorem test_word_lrcp : (decodeWords [0x00720125, 0x0021C000, 0]).toOption.isSome = true := by decide

/-! ### Well-formedness: one ill-formed term per check -/

theorem test_wf_good : (Instr.iadd (hd .base) 0 5 6 (.reg 7)).wellFormed = true := by decide
/-- A base form has no guard but c7 (R18). -/
theorem test_wf_guard : (Instr.iadd ⟨.base, ⟨1, false⟩⟩ 0 5 6 (.reg 7)).wellFormed = false := by decide
/-- A base form reaches codes below 64 only. -/
theorem test_wf_code : (Instr.iadd (hd .base) 0 64 6 (.reg 7)).wellFormed = false := by decide
/-- A literal form carries a literal (R31). -/
theorem test_wf_literal : (Instr.iadd (hd .lit) 0 5 6 (.reg 7)).wellFormed = false := by decide
/-- SUB 3 of IADD is undefined (R69). -/
theorem test_wf_sub : (Instr.iadd (hd .base) 3 5 6 (.reg 7)).wellFormed = false := by decide
/-- IMAD is extended-only (R70). -/
theorem test_wf_len : (Instr.imad (hd .base) 0 5 6 (.reg 7) 8).wellFormed = false := by decide
/-- Scopes 6 and 7 are undefined (R28). -/
theorem test_wf_scope : (Instr.ldg (hd .ext) 2 0 6 8 4 0).wellFormed = false := by decide
/-- An acquire at lane scope is undefined (R131). -/
theorem test_wf_acquire : (Instr.ldg (hd .ext) 2 1 0 8 4 0).wellFormed = false := by decide
/-- BRA's base form reaches 18 bits (R93). -/
theorem test_wf_disp : (Instr.bra (hd .base) 0x20000).wellFormed = false := by decide
/-- A device step has no encoding. -/
theorem test_wf_step : Instr.coldReset.wellFormed = false := by decide

/-! ### Small states -/

/-- A page of 16 KiB in the device. -/
def page (base frame : Nat) (cls : RegionClass) : Page := ⟨base, false, frame, true, true, cls, false, none, false⟩

/-- The pages that the tests' TLBs hold: normal, combining, hashed grid. -/
def pages : List Page :=
  [page 0x10000 0x300000 .normal, page 0x14000 0x304000 .combining, page 0x18000 0x308000 .hashedGrid]

/-- One cluster of one quad: teams of one group of four lanes, a trap vector, both capabilities. -/
def launch : Launch := { placedLaunch with shape := 0x10445, tvec := 0x10100, param := 0x0000001000010000 }

/-- The device with that cluster at quad 0. -/
def dev : State :=
  { State.reset with
    bar0 := { Bar0.reset with fwstat := 1, ptroot := 0x80000 }
    grids := [(1, Grid.start ⟨0, 0x4000⟩ launch 0 0)]
    clusters := [(2, Cluster.start 1 0 launch (0, 0) 0)]
    cores := [(0, { CoreHw.reset with tlb := pages })]
    quads := [(0, { QuadHw.reset with tlb := pages })]
    nextId := 8 }

/-- The group that the tests issue from, two of its lanes. -/
def grp : GroupRef := ⟨2, 0, 0⟩
/-- Lane 0 of it. -/
def lane0 : LaneRef := ⟨2, 0, 0, 0⟩
/-- Lane 1 of it. -/
def lane1 : LaneRef := ⟨2, 0, 0, 1⟩
/-- The quad of the cluster. -/
def quad0 : QuadRef := ⟨2, 0⟩
/-- An issue of two lanes. -/
def lanes : Issue := ⟨.lane grp, [0, 1], 0x10000⟩
/-- An issue of one lane. -/
def single : Issue := ⟨.lane grp, [0], 0x10000⟩
/-- An issue of the control core. -/
def control : Issue := ⟨.control quad0, [0], 0x10000⟩
/-- An issue of a wave of one lane. -/
def waves : Issue := ⟨.method 0, [0], 0⟩

/-- An issue now executing. -/
def issuing (s : State) (u : Issue) : State := { s with cur := some u }

/-- A wave at slice 0. -/
def withWave (s : State) : State := s.setSlice 0 { s.sliceAt 0 with wave := some (placedWave []) }

/-- Ready, as a test. -/
def readyB (i : Instr) (s : State) (u : Issue) : Bool :=
  s.cur == some u && legalFor u.engine (s.hgOf u.engine) (s.inHandlerOf u.engine) i && s.capable u.engine i
    && u.run.all fun n => s.here (u.engine.thread n)

theorem ready_of {i : Instr} {s : State} {u : Issue} (h : readyB i s u = true) : Ready i s u := by
  simp only [readyB, Bool.and_eq_true, beq_iff_eq, List.all_eq_true] at h
  exact ⟨h.1.1.1, h.1.1.2, h.1.2, h.2⟩

/-- Every instruction of a list is ready in an issue of dev, and has a member. -/
def allReady (u : Issue) (is : List Instr) : Bool :=
  is.all fun i => readyB i (issuing (withWave dev) u) u && !(u.members (issuing (withWave dev) u) i).isEmpty

theorem ready_of_all {u : Issue} {is : List Instr} (h : allReady u is = true) (i : Instr) (hi : i ∈ is) :
    Ready i (issuing (withWave dev) u) u ∧ ∃ n, Member i (issuing (withWave dev) u) u n := by
  have := (List.all_eq_true.mp h) i hi
  simp only [Bool.and_eq_true, Bool.not_eq_true', List.isEmpty_eq_false_iff] at this
  exact ⟨ready_of this.1, List.exists_mem_of_ne_nil _ this.2⟩

/-! ### Witnesses: the hypotheses of the statements about encoded instructions -/

/-- A register of the lane. -/
abbrev B (c : Code) : SrcB := .reg c

/-- IntegerOperations, CarriesAndBytes, LogicAndShifts, FieldsAndChoices: on lanes, on a control core and in a wave. -/
def integers : List Instr :=
  let h := hd .base
  let x := hd .ext
  [.iadd h 0 4 5 (B 6), .isub h 1 4 5 (B 6), .imul h 2 4 5 (B 6), .imulh h 0 4 5 (B 6), .imad x 6 4 6 (B 8) 10,
   .imin h 4 4 6 (B 8), .imax h 6 4 6 (B 8), .iabs h 5 4 6, .ineg h 4 4 6, .icmp h 9 0 3 4 (B 5), .iaddc x 1 4 5 (B 6) 2,
   .lea h 15 4 6 (B 8), .and h 0 4 5 (B 6), .or h 4 4 6 (B 8), .xor h 0 4 5 (B 6), .andn h 0 4 5 (B 6), .not h 0 4 5,
   .shl h 0 4 5 (B 6), .shr h 4 4 6 (B 8), .sar h 0 4 5 (B 6), .rotl h 0 4 5 (B 6), .bfx h 5 4 6 (B 8), .bfi x 0 4 5 (B 6) 7,
   .popc h 4 4 6, .clz h 0 4 5, .ctz h 0 4 5, .brev h 0 4 5, .mov h 4 4 6, .sel h 15 4 6 (B 8), .movi x 2 4 5,
   .cbit h 6 1 2 3, .nop h]

theorem ready_integers_lanes : allReady lanes integers = true := by decide
theorem ready_integers_control : allReady control integers = true := by decide
theorem ready_integers_wave : allReady waves integers = true := by decide

/-- PackedOperations, CarriesAndBytes. -/
def packed : List Instr :=
  let h := hd .base
  [.padd2 h 0 4 5 (B 6), .psub2 h 1 4 5 (B 6), .pmul2 h 1 4 5 (B 6), .padd4 h 1 4 5 (B 6), .pmin2 h 0 4 5 (B 6),
   .pmax2 h 2 4 5 (B 6), .pcmp2 h 5 4 5 (B 6), .pmac2 h 4 5 (B 6), .pdot4 h 1 4 5 (B 6), .pshr2 h 0 4 5 (B 6),
   .pnarrow h 0 4 5 (B 6), .punpk h 0 4 5, .bcmp h 0 4 5 (B 6), .bfind h 0 4 5 (B 6), .bhash h 0 4 5, .bcrc h 0 4 5]

/-- LaneExchanges. -/
def crossLane : List Instr :=
  let h := hd .base
  let x := hd .ext
  [.shfl h 0 4 5 6 0, .shfl x 15 4 6 0 31, .slide x 3 4 5 0xC0, .bcast x 1 0xC4 5, .gmov h 4 5, .vote h 2 4 1, .vote h 0 1 2,
   .matchLanes h 4 4 6, .scan x 0 1 4 5, .redux x 0 0xC4 5]

/-- LogFunctions, LogAdditive, LogOrder, Conversions. -/
def logs : List Instr :=
  let h := hd .base
  let x := hd .ext
  [.lmul h 0 0 4 5 (B 6), .ldiv x 1 1 4 5 (B 6), .lsqrt h 2 4 5, .lrsqrt h 0 0 4 5, .lsqr h 1 0 4 5, .lrcp x 1 1 4 5,
   .lpowi h 0 0 4 5 (B 6), .lpowf h 0 0 4 5 (B 6), .lscale h 0 0 4 5 (B 6), .lexp2 h 0 0 4 5, .llog2 h 0 0 4 5,
   .ladd h 0 0 4 5 (B 6), .lsub h 1 0 4 5 (B 6), .lmad x 0 0 4 5 (B 6) 7, .lmsb x 0 0 4 5 (B 6) 7, .labs h 0 4 5,
   .lneg h 2 4 5, .lmin h 0 4 5 (B 6), .lmax h 1 4 5 (B 6), .lclamp h 0 4 5 (B 6), .lcmp h 0 0 3 5 (B 6), .lclass x 0 3 5 63,
   .cvtfl h 0 0 4 5 0, .cvtlf h 0 4 5, .cvtil h 0 4 5, .cvtli x 0 0 4 5, .cvtll h 0 4 5 0, .cvtxl x 0 4 5 32,
   .cvtlx x 0 0 4 5 32, .lfld h 0 4 5 0]

theorem ready_packed : allReady lanes packed = true := by decide
theorem ready_bytes_wave : allReady waves (packed.drop 12) = true := by decide
theorem ready_crossLane : allReady lanes crossLane = true := by decide
theorem ready_logs : allReady lanes logs = true := by decide
theorem ready_logs_wave : allReady waves (logs.take 22) = true := by decide

/-- ControlFlow, BarriersAndTokens, GroupTraps, SpecialRegisters, and the memory and engine statements, on lanes. -/
def laneOnly : List Instr :=
  let h := hd .base
  let x := hd .ext
  [.bra h 4, .jmp h 4, .call h 4, .callr h 4, .ret h, .exit h, .yield h, .pause x 1 0 2000, .live x 0xFFFFFFFF0000, .trap x 5,
   .brk x 6, .bar x 0 0 1 2, .bar x 1 3 1 0, .bar x 2 3 15 1024, .barc x 2 3 3 12288, .twait x 4 0x101, .tsignal x 0 4 5,
   .tsignal x 1 4 5, .sread x 0 4 8, .sread x 1 4 0x0A, .swrite x 4 0x0B,
   .ldg x 2 0 4 8 4 0, .ldg h 0 0 4 8 4 0, .ldgRc x 2 1 5 3 8 4 0, .promote x 2 5 8 4 0, .stg x 2 1 4 4 8 0,
   .stn x 4 0 4 4 8 12 0, .atom x 8 0 4 8 4 12 16 0, .atom x 0 15 5 8 4 12 0 0, .red x 0 0 4 4 12 0, .comb x 2 0 4 8 4 12 13 31,
   .combr x 0 0 4 4 0 0 0, .lds x 2 1 8 4 0, .ldc x 2 0 8 4 3 0, .sts x 2 0 4 8 0, .stc x 2 0 4 8 3 0,
   .atoms x 0 0 8 4 12 0 0, .ldgu x 2 0 4 0xC4 0xC0 0, .hgcfg x 0xC0 0, .fence x 2 4, .pref x 1 4 0, .touch x 3 4 0, .cctl x 1 0 0,
   .cpy x 3 4 0, .cpyb x 0 4 1 1024, .cpyt x 0 4 6 5, .qfence x 0 1 15, .qwait x 0 3, .qstat x 0 8, .qreset x 0,
   .flipv x 4 6, .tlbinv x 4 6, .dgst x 8, .postr x 4, .pcnt x 1 8 1, .evsend x 1 4 7, .evsend x 0 4 7]

/-- The same on a control core. -/
def controlOnly : List Instr :=
  let h := hd .base
  let x := hd .ext
  [.bra h 4, .jmp h 4, .call h 4, .callr h 4, .ret h, .exit h, .trap x 5, .sread x 0 4 8, .swrite x 4 0x0B, .ldgu x 3 0 4 8 4 0,
   .fence x 2 4, .tmma x 1 4 5 6 ⟨3, true, 9⟩, .tmmas x 0 4 5 6 ⟨3, false, 9⟩, .tzero x ⟨3, false, 9⟩,
   .tdrain x 4 5 6 ⟨3, false, 9⟩, .tdapply x 4 5 6 ⟨3, false, 9⟩, .tloadacc x 4 ⟨3, false, 9⟩, .tfence x ⟨0, false, 9⟩,
   .tfenceW x, .tamax x 1 4 15, .evpop x 4 3, .evwait x 4, .ttok x 0 4 0 63, .ttok x 4 0 4 63, .ttokClr x, .halt h,
   .flipv x 4 5, .tlbinv x 4 5, .dgst x 4, .postr x 4, .pcnt x 1 4 0, .evsend x 0 4 7]

/-- In a wave. -/
def waveOnly : List Instr :=
  let h := hd .base
  let x := hd .ext
  [.bra h 4, .objld h 2 8 4 0, .objst x 2 4 8 124, .reply x 4, .mabort x]

theorem ready_laneOnly : allReady lanes laneOnly = true := by decide
theorem ready_controlOnly : allReady control controlOnly = true := by decide
theorem ready_waveOnly : allReady waves waveOnly = true := by decide

/-! ### Witnesses: clauses about lanes and traps -/

/-- A request of a lane, translated, in flight. -/
def req (id : Nat) (l : LaneRef) (kind : ReqKind) (pa : Nat) (stage : Stage) : Req :=
  { Req.make id (.lane l) id 0 kind { sc := 4, acq := false, rel := false } [pa] 0 with pas := [pa], stage := stage, left := 1 }

/-- The device with requests in flight. -/
def withReqs (s : State) (rs : List Req) : State := { s with reqs := rs }

/-- A store of lane 0 that has not performed. -/
def pending : Req := req 3 lane0 (.store [⟨0xFF, 7⟩]) 0x300040 .ready
/-- The same store of lane 1. -/
def pending1 : Req := req 4 lane1 (.store [⟨0xFF, 7⟩]) 0x300040 .ready

/-- ControlFlow: a method may branch to its end, not past it. -/
theorem witness_bra_method :
    ((withWave dev).sliceAt 0).wave.map (fun w => (w.entry.toNat, w.entry.toNat + w.code.length)) = some (0, 0)
      ∧ (BitVec.ofInt 56 ((waves.pc.toNat : Int) + 4 * (0 : BitVec 32).toInt)).toNat = 0
      ∧ (BitVec.ofInt 56 ((waves.pc.toNat : Int) + 4 * (1 : BitVec 32).toInt)).toNat = 4 := by decide

/-- BarriersAndTokens: members that have performed and that have not; fewer members than the count, and as many; a phase
that is open, and one that is over. -/
theorem witness_barriers :
    dev.performed lane0 2 = true ∧ (withReqs dev [pending, pending1]).performed lane0 2 = false
      ∧ (withReqs dev [pending, pending1]).performed lane1 2 = false
      ∧ (dev.barrier lane0 false 1).count = 0 ∧ (dev.barrier lane0 false 1).phase = 0
      ∧ (lanes.members (issuing dev lanes) (.bar (hd .ext) 0 0 1 2)).length = 2
      ∧ ((dev.modTeam 2 0 fun t => { t with bars := [(1, ⟨1, 0, 0, false, []⟩)] }).barrier lane0 false 1).phase = 1 := by
  decide

theorem witness_tokens :
    dev.tokenQuad 2 0 0x140 = none ∧ dev.tokenQuad 2 0 0x100 = some 0 ∧ dev.tokenQuad 2 0 5 = some 0
      ∧ (dev.token quad0 0 - 1).toInt < 0 ∧ 0 ≤ (dev.token quad0 0 - 0).toInt ∧ dev.unperformed [lane0, lane1] = []
      ∧ (withReqs dev [pending, pending1]).unperformed [lane0] ≠ [] := by decide

/-- A launch without the capabilities, and one without a trap vector. -/
def devPlain : State := { dev with grids := [(1, Grid.start ⟨0, 0x4000⟩ { launch with flags := 0, tvec := 0 } 0 0)] }

/-- GroupTraps: undefined on the engine, without the capability, with and without a vector. -/
theorem witness_illegal :
    legalFor lanes.engine none false (.tzero (hd .ext) ⟨0, false, 0⟩) = false
      ∧ legalFor control.engine none false (.yield (hd .base)) = false
      ∧ legalFor waves.engine none false (.exit (hd .base)) = false
      ∧ legalFor lanes.engine none false (.flipv (hd .ext) 4 6) = true ∧ devPlain.capable lanes.engine (.flipv (hd .ext) 4 6) = false
      ∧ dev.tvec 2 ≠ 0 ∧ dev.inHandlerOf lanes.engine = false ∧ devPlain.tvec 2 = 0 := by decide

/-- A value in v4 of lane 0. -/
def with4 (s : State) (x : Word) : State := s.modLane lane0 fun y => { y with v := [(4, x)] }

theorem witness_misaligned_jump :
    let s := issuing (with4 dev 0x10002) single
    readyB (.jmp (hd .base) 4) s single = true ∧ ((s.reg64 (.lane lane0) 4).truncate 56 : BitVec 56).toNat % 4 ≠ 0 := by decide

/-- A group, and a control core, in the handler: after BRK, every lane done, and after a fault, none. -/
def inHandler (done : Word) : State :=
  ({ dev with mem := placedMemory [] (tableBytes 0x00000198) }.modGroup grp fun g =>
    { g with handler := some [0, 1], trap := ⟨0x0F, 0x10000, 3, done, 0⟩ }).modControl quad0 fun c =>
    { c with inHandler := true, trap := ⟨0x0F, 0x10000, 1, done &&& 1, 0⟩ }

/-- HandlersReturn. -/
theorem witness_rte :
    readyB (.rte (hd .base)) (issuing (inHandler 3) lanes) lanes = true
      ∧ readyB (.rte (hd .base)) (issuing (inHandler 0) control) control = true
      ∧ ((inHandler 3).fetchWord ((inHandler 3).fetchCore 2 0) 0x10000).2 = .words [0x00000198]
      ∧ ((inHandler 3).fetchWord ((inHandler 3).fetchQuad quad0) 0x10000).2 = .words [0x00000198]
      ∧ (inHandler 0).tvec 2 ≠ 0 := by decide

/-! ### Witnesses: memory and scratch -/

/-- Numbered, as a test. -/
def numberedB (s : State) : Bool :=
  decide (0 < s.nextId) && (s.reqs.all fun r => decide (r.id < s.nextId) && decide (r.op < s.nextId) && decide (r.issue < s.nextId))
    && s.clusters.all fun p => p.2.teams.all fun t => t.groups.all fun g =>
      (g.opens.all fun o => decide (o.id < s.nextId)) && g.lanes.all fun l =>
        match l.wait with
        | .enqueue op _ _ _ => decide (op < s.nextId)
        | _ => true

theorem mem_of_find {α : Type} (t : Table α) (n : Nat) (x : α) (h : t.find n = some x) : (n, x) ∈ t := by
  induction t with
  | nil => simp [Table.find] at h
  | cons p t ih =>
    obtain ⟨k, y⟩ := p
    simp only [Table.find] at h
    split at h
    · rename_i hk; simp_all
    · exact List.mem_cons_of_mem _ (ih h)

theorem numbered_of {s : State} (h : numberedB s = true) : s.Numbered := by
  simp only [numberedB, Bool.and_eq_true, decide_eq_true_eq, List.all_eq_true] at h
  obtain ⟨⟨h1, h2⟩, h3⟩ := h
  refine ⟨h1, fun r hr => ⟨(h2 r hr).1.1, (h2 r hr).1.2, (h2 r hr).2⟩, fun c x hc t ht g hg => ?_⟩
  obtain ⟨ho, hl⟩ := h3 (c, x) (mem_of_find _ _ _ hc) t ht g hg
  refine ⟨ho, fun l hl' op q d e hw => ?_⟩
  have := hl l hl'
  rw [hw] at this
  simpa using this

theorem numbered_dev : dev.Numbered := numbered_of (by decide)

/-- LoadsRequest, StoresRequest, AtomicsRequest: an aligned address on a cached page, a misaligned one, one on no cached page,
and pages of the wrong class. -/
theorem witness_requests :
    let va (x : Word) (imm : BitVec 32) : Nat := addrOf (with4 dev x) (.lane lane0) 4 imm
    va 0x10000 4 % 4 = 0 ∧ dev.cachedPage lane0 anyPage (va 0x10000 4) false = some (page 0x10000 0x300000 .normal)
      ∧ va 0x10000 2 % 4 ≠ 0 ∧ dev.cachedPage lane0 anyPage (va 0x20000 0) false = none
      ∧ dev.cachedPage lane0 anyPage (va 0x14000 0) true = some (page 0x14000 0x304000 .combining)
      ∧ dev.cachedPage lane0 storePage (va 0x14000 0) true = none
      ∧ va 0 0xFFFFFFFF = 0xFFFFFFFFFFFFFF ∧ launch.methods[0]? = none := by decide

/-- StoresRequest: accesses of 16 bytes that end at a line boundary and one word past it, the second within a page and
across one; what STN of lane 0 then makes of it (R136). -/
theorem test_stn_crosses_line :
    let va (x : Word) : Nat := addrOf (with4 dev x) (.lane lane0) 4 0
    let s := exec (.stn (hd .ext) 4 0 4 4 8 12 0) (issuing (with4 dev 0x10074) single)
    va 0x10070 % 128 + 16 ≤ 128 ∧ ¬va 0x10074 % 128 + 16 ≤ 128 ∧ ¬va 0x13FFC % 128 + 16 ≤ 128
      ∧ (match s with
          | .next t => t.reqs.map fun r => (r.vas, r.pas, r.kind.bytes)
          | _ => []) = [([0x10074], [0x300074], 12), ([0x10080], [0x300080], 4)] := by decide

/-- ScratchWindows: the last word of the window, one past it, and a misaligned one; a core outside the cluster. -/
theorem witness_scratch :
    dev.winSize 2 = 4096 ∧ ((dev.cluster 2).map (·.teams.length)) = some 4
      ∧ ((with4 dev 4092).reg32 (.lane lane0) 4).toNat + 4 ≤ dev.winSize 2
      ∧ ¬((with4 dev 4096).reg32 (.lane lane0) 4).toNat + 4 ≤ dev.winSize 2
      ∧ ((with4 dev 2).reg32 (.lane lane0) 4).toNat % 4 ≠ 0 ∧ ¬(4 : BitVec 4).toNat < 4 := by decide

/-- MethodObjects: the object's last word, one past it, an abort before and after a store. -/
theorem witness_objects :
    let s (x : Nat) : State := (withWave dev).modWave 0 fun w => { w with lanes := w.lanes.map fun y => { y with v := [(4, BitVec.ofNat 32 x)] } }
    ((s 124).reg32 (.wave 0 0) 4).toNat + 4 ≤ 128 ∧ ¬((s 128).reg32 (.wave 0 0) 4).toNat + 4 ≤ 128
      ∧ (((s 0).sliceAt 0).wave.bind fun w => w.lanes[0]?).map (·.stored) = some false
      ∧ ((((s 0).modWave 0 fun w => { w with lanes := w.lanes.map fun y => { y with stored := true } }).sliceAt 0).wave.bind
          fun w => w.lanes[0]?).map (·.stored) = some true := by decide

theorem home_dev : dev.homeCurrent := ⟨fun _ => rfl, by intro r hr; simp [dev, State.reset] at hr⟩

/-- A descriptor of one level, one dimension, two features. -/
def descBytes : List Byte := List.replicate 64 0

/-- The device with a word in u0 and u1 that addresses the hashed-grid page. -/
def withG (s : State) (x : Word) : State := s.modGroup grp fun g => { g with g := [(0, x)] }

/-- UniformLoadsAndFences: the cached page of the group's address; what a fence waits for, and not. -/
theorem witness_uniform :
    addrOf (withG dev 0x10000) (.lane lane0) 0xC0 0 = 0x10000
      ∧ cachedFor (dev.core (dev.coreOf 2 0)).tlb anyPage 0x10000 false = some (page 0x10000 0x300000 .normal)
      ∧ addrOf (withG dev 0x18000) (.lane lane0) 0xC0 0 % 64 = 0
      ∧ (cachedFor (dev.core (dev.coreOf 2 0)).tlb anyPage 0x18000 false).map (·.cls) = some .hashedGrid
      ∧ dev.fenceDone lane0 0 4 = true ∧ (withReqs dev [pending]).fenceDone lane0 0 4 = false := by decide

/-- CacheHints. -/
theorem witness_caches : (∀ line, dev.ownerOf line = none) ∧ dev.ringRoom = false
    ∧ (dev.peekLane lane0 0x10000).isSome = true := ⟨fun _ => rfl, by decide, by decide⟩

/-! ### Witnesses: engines -/

/-- CopiesEnter: four parts on a cached page; a queue with room and one without; a token's quad. -/
theorem witness_copies :
    ((List.range 4).all fun j => (cachedFor (dev.core 0).tlb anyPage ((0x10000 + 64 * j) % 2 ^ 56) false).isSome) = true
      ∧ ((dev.queue ⟨2, 0, 3⟩).map (·.entries.length)) = some 0 ∧ dev.tokenQuad 2 0 0x100 = some 0 := by decide

/-- A queue as a list of entries. -/
def withQueue (s : State) (f : CopyQueue → CopyQueue) : State := s.modQueue ⟨2, 0, 0⟩ f

/-- CopyQueues: a full queue; a held one; one that has performed all and one that has not. -/
theorem witness_queues :
    ((withQueue dev fun x => { x with entries := List.replicate 16 (.fence [] []) }).queue ⟨2, 0, 0⟩).map (·.entries.length) = some 16
      ∧ ((withQueue dev fun x => { x with state := 2 }).queue ⟨2, 0, 0⟩).map (·.held) = some true
      ∧ ((withQueue dev fun x => { x with accepted := 2, performed := 1 }).queue ⟨2, 0, 0⟩).map (fun x => decide (x.performed < x.accepted))
          = some true
      ∧ (dev.queue ⟨2, 0, 0⟩).map (fun x => decide (x.accepted ≤ x.performed)) = some true := by decide

/-- A task. -/
def task (id : Nat) (kind : TaskKind) (stage : TaskStage) : Task :=
  ⟨id, kind, false, 0, 0, 0, ⟨0, false, 1⟩, none, none, none, stage, 0, none, 0⟩

/-- The device with tasks and records at its quad. -/
def withTasks (s : State) (ts : List Task) (es : List DWord) : State := s.modQuad quad0 fun q => { q with tasks := ts, events := es }

/-- TasksEnter, ControlCoreOperations: a table with room and one without; tasks that have and have not finished; an empty
queue of records, one with a plain record and one with OPFMT. -/
theorem witness_control :
    ((dev.quad quad0).map fun x => (x.tasks.length, x.events)) = some (0, [])
      ∧ ((withTasks dev (List.replicate 32 (task 3 .tzero .waiting)) []).quad quad0).map (·.tasks.length) = some 32
      ∧ ((withTasks dev [task 3 .tzero .finished] [0, 0x1000]).quad quad0).map (fun x => x.events.head?) = some (some 0)
      ∧ (0x1000 : DWord).toNat / 2 ^ 12 % 16 = 1 := by decide

/-- DigestsCountersEvents: a lane whose copies are folded and one whose are not; one that has performed at system scope and
one that has not. -/
theorem witness_system :
    dev.copiesFolded lane0 = true
      ∧ (dev.modLane lane0 fun x => { x with copies := [(3, none)] }).copiesFolded lane0 = false
      ∧ dev.performed lane0 5 = true ∧ (withReqs dev [pending, pending1]).performed lane1 5 = false
      ∧ dev.lowerSends lane0 = false := by decide

/-- SweepsBegin: aligned and misaligned ranges of one region and of one page. -/
theorem witness_sweeps :
    let s (x : Word) : State := with4 dev x
    ((s 0x800000).reg64 (.lane lane0) 4).toNat % 2 ^ 23 = 0 ∧ ((s 0x4000).reg64 (.lane lane0) 4).toNat % 2 ^ 23 ≠ 0
      ∧ ((s 0x4000).reg64 (.lane lane0) 4).toNat % 2 ^ 14 = 0 ∧ dev.releases [lane0, lane1] = []
      ∧ (withReqs dev [pending]).releases [lane0] ≠ [] := by decide

/-- Every lane of a state passes a test. -/
def lanesB (s : State) (f : Lane → Bool) : Bool :=
  s.clusters.all fun p => p.2.teams.all fun t => t.groups.all fun g => g.lanes.all f

theorem lanes_of {s : State} {f : Lane → Bool} (h : lanesB s f = true) (l : LaneRef) (x : Lane) (hx : s.lane l = some x) :
    f x = true := by
  simp only [lanesB, List.all_eq_true] at h
  simp only [State.lane, State.group, State.team, State.cluster, Option.bind_eq_some_iff] at hx
  obtain ⟨g, ⟨t, ⟨c, hc, ht⟩, hg⟩, hl⟩ := hx
  exact h _ (mem_of_find _ _ _ hc) t (List.mem_of_getElem? ht) g (List.mem_of_getElem? hg) x (List.mem_of_getElem? hl)

/-- A lane that waits for nothing. -/
def readyLane (x : Lane) : Bool := x.wait == .ready

/-- No lane waits for a digest, an event or a signal where every lane is ready. -/
theorem wait_of {s : State} (h : lanesB s readyLane = true) (l : LaneRef) (x : Lane) (hx : s.lane l = some x) :
    x.wait = .ready := by
  simpa [readyLane] using lanes_of h l x hx

theorem quiet_of {s : State} (h : lanesB s readyLane = true) : s.noDigestWait := by
  intro l x d ls hx
  rw [wait_of h l x hx]
  exact nofun

theorem quiet_dev : dev.noDigestWait := quiet_of (by decide)

/-! ### Witnesses: requests in flight, walks and peers -/

/-- The device with a line in core 0's L1, filled with one byte. -/
def withLine (s : State) (line : Nat) (owned : Bool) (b : Byte) : State :=
  s.setCore 0 { s.core 0 with l1 := [(line, ⟨owned, List.replicate 128 b, 0⟩)] }

/-- A 4-byte load of lane 0, at lane scope. -/
def load0 : Req := { req 3 lane0 (.load 8 4 false false none) 0x300040 .ready with scope := 0 }
/-- The line of the tests' requests. -/
def line0 : Nat := lineOf 0x300040

/-- LoadsReturn: a copy in the L1, no copy, an atomic's reply, a line of entries, a promotion that every core has pushed. -/
theorem witness_loads_return :
    let s := withReqs dev [load0]
    s.req 3 = some load0 ∧ (s.lane lane0).isSome = true ∧ s.mayPerform load0 = true
      ∧ (s.l1Hit load0 lane0 0x300040 false).isNone = true ∧ s.ownerOf line0 = none
      ∧ ((withLine s line0 false 5).l1Hit load0 lane0 0x300040 false).isSome = true
      ∧ (withReqs dev [req 3 lane0 (.atomic 0 0 (some 8) 1 0) 0x300040 (.replied 5 0)]).noDigestWait
      ∧ (let r := req 3 lane0 (.hgld 8 0 [0]) 0x308000 .ready
         (withReqs dev [r]).mayPerform r = true
           ∧ (8 : Code).toNat + (hgResults 0 [0] [(withReqs dev [r]).homeSeen r lane0 0x308000 (2 * hgF 0)]).1.length ≤ 192)
      ∧ (let r := req 3 lane0 (.promote 8 4) 0x300040 .ready
         (withReqs dev [r]).mayPerform r = true ∧ (withReqs dev [r]).pushTargets 0x300040 = []) :=
  ⟨by decide, by decide, by decide, by decide, by decide, by decide, quiet_of (by decide), by decide +kernel, by decide⟩

/-- StoresPerform: a store at its home, into an L1 that does not own and that owns its line, a promotion that pushes one
store, an owned line to recall and a line that nothing owns. -/
theorem witness_stores_perform :
    let held := { pending with stage := .inL1 0 }
    let s := withReqs dev [held, req 4 lane1 (.promote 8 4) 0x300040 .ready]
    (withReqs dev [pending]).storeReachesHome { pending with noL1 := true } 0x300040 = true
      ∧ inDevice 0x300040 = true ∧ (withReqs dev [pending]).mayPerform pending = true
      ∧ (withReqs dev [pending]).ownerOf line0 ≠ some (dev.l1Of 2 0 line0)
      ∧ (let t := withLine (withReqs dev [pending]) line0 true 5
         t.ownerOf line0 = some (t.l1Of 2 0 line0) ∧ t.relDrained pending = true ∧ ((t.core 0).l1.find line0).isSome = true)
      ∧ s.stagedIn 0 = [held] ∧ (s.reqs.find? fun r => r.id == 4 && s.mayPerform r).isSome = true
      ∧ (∀ line, s.ownerOf line = none) :=
  ⟨by decide, by decide, by decide, by decide, by decide, by decide, by decide, fun _ => rfl⟩

/-- A group whose open instruction has failed at lane 1 and performed at lane 0. -/
def failing : State :=
  dev.modGroup grp fun g => { g with opens := [⟨5, 0x10000, false, false, false, [⟨0, .performed⟩, ⟨1, .failed 4 0x20000 0⟩], []⟩], live := 1 }

/-- LaneEvents: a register line to fill with room and with a victim; a pause at its end; an arrival that counts and one that
waits; traps of a group with and without a vector, and of a control core. -/
theorem witness_lane_events :
    (failing.group grp).map (fun x => (x.live.getLsbD 0, x.cached.getLsbD 0)) = some (true, false)
      ∧ failing.cachedLines 2 0 < 512
      ∧ ((dev.modLane lane0 fun x => { x with wait := .paused 0 }).lane lane0).map (·.wait) = some (.paused 0)
      ∧ (dev.modLane lane0 fun x => { x with wait := .arriving false 1 2 none }).performed lane0 2 = true
      ∧ ((withReqs dev [pending, pending1]).modLane lane0 fun x => { x with wait := .arriving false 1 2 none }).performed lane0 2 = false
      ∧ ((failing.group grp).bind (·.trapDue)).map (fun o => o.parts.map (·.lane)) = some [0, 1]
      ∧ failing.tvec 2 ≠ 0 ∧ (failing.group grp).map (·.handler) = some none
      ∧ devPlain.tvec 2 = 0 ∧ (devPlain.gridOf 2).map (fun g => g.abort.isNone) = some true
      ∧ ((dev.modControl quad0 fun c => { c with wait := .trapping 1 0 0 false }).quad quad0).map (·.control.inHandler)
          = some false := by decide

/-- The device whose page at 0x10000 has the leaf entry e, with nothing cached. -/
def walking (e : DWord) (rs : List Req) : State :=
  let m := Mem.writeBytes (placedMemory [] []) 0x200020 (toBytesLE 8 e.toNat)
  { dev with mem := m, cores := [], quads := [], reqs := rs }

/-- A request that waits for a walk. -/
def walker (kind : ReqKind) : Req := { req 3 lane0 kind 0 .walk with vas := [0x10000], pas := [] }

/-- A walk that maps a page of which f holds. -/
def mapsTo (f : Page → Bool) : Walk → Bool
  | .mapped p => f p
  | _ => false

/-- WalksAndSweeps: a mapped page, one of the wrong class for HGLD, one that is read-only, one unmapped, one not resident; a
sweep of one page. -/
theorem witness_walks :
    let out (e : DWord) : Walk := ((walking e []).freshWalk 0x10000).out
    let load : ReqKind := .load 8 4 false false none
    let sweep : Invalidation := ⟨3, 0x10000, 0x14000, false, false, []⟩
    (walking 0x30000D [walker load]).req 3 = some (walker load)
      ∧ mapsTo (fun p => p.writable && (dev.classFault lane0 load p 0x10000).isNone
          && (dev.classFault lane0 (.hgld 8 0 [0]) p 0x10000).isSome) (out 0x30000D) = true
      ∧ mapsTo (fun p => !p.writable) (out 0x300005) = true
      ∧ out 0x30000C = .unmapped ∧ (match out 0x300009 with | .absent _ => true | _ => false) = true
      ∧ (walking 0x30000D []).cachedPage lane0 anyPage 0x10000 true = none
      ∧ ({ dev with invalidations := [sweep] }).sweepReady sweep = true := by decide

/-- A device whose peers 5 and 6 it may reach, through port 1. -/
def networked : State :=
  { dev with
    bar0 := { dev.bar0 with devnum := 0x80000001, peertab := 0x400000, inbound := 0x500000, peerto := 1300 }
    mem := Mem.writeBytes (Mem.writeBytes [] 0x400058 (toBytesLE 8 0x8000000000000001)) 0x500000 [0x20] }

/-- Peers: a completion, an error, a timeout that is due and one that is not, a late completion; a request that is allowed
in, one that is not, and one at the last device address. -/
theorem witness_peers :
    let r (st : Stage) (n : Nat) : Req := { req 3 lane0 (.load 8 4 false false none) 0 st with peer := some 5, waited := n }
    networked.peerReachable 5 = true ∧ networked.peerReachable 6 = false ∧ networked.peerReachable 1 = false
      ∧ (withReqs networked [r .atPeer 1300]).req 3 = some (r .atPeer 1300)
      ∧ networked.bar0.peerto.toNat ≤ (r .atPeer 1300).waited ∧ (r .atPeer 1299).waited < networked.bar0.peerto.toNat
      ∧ networked.inboundFrom 5 = true ∧ networked.inboundFrom 6 = false
      ∧ 0x5FFFFFFFFC + peerBytes (.read 4) ≤ 0x6000000000 ∧ ¬0x5FFFFFFFFD + peerBytes (.read 4) ≤ 0x6000000000 := by decide

/-! ### Witnesses: engines and waves -/

/-- A descriptor of one 32-bit element, from byte 0 to byte 16 of the issuing core's window. -/
def copyOne : List Byte :=
  List.replicate 8 0 ++ toBytesLE 8 16 ++ toBytesLE 4 0x50001 ++ List.replicate 76 0 ++ toBytesLE 4 1 ++ List.replicate 156 0

/-- A queue whose head is a command. -/
def copying (bytes : List Byte) (run : Option CopyRun) : State :=
  withQueue dev fun x => { x with entries := [.command 3 lane0 bytes .cpy run] }

/-- CopyQueueSteps: a held command with room, a full queue; a descriptor that is legal, one that is not and one that overlaps;
a finished command; a fence that is done and one that waits. -/
theorem witness_copy_steps :
    let d := CopyDesc.parse copyOne 0
    let ovl := CopyDesc.parse (copyOne.take 8 ++ [4] ++ (copyOne.drop 9).take 87 ++ [2, 0, 0, 0, 1, 0, 0, 0, 0, 0, 1] ++ copyOne.drop 107) 0
    dev.running 2 = true ∧ ((copying copyOne none).queue ⟨2, 0, 0⟩).map (·.state) = some 0
      ∧ d.ok 4 = true ∧ d.overlaps = false ∧ d.total = 1 ∧ d.mode = 0 ∧ d.sse = false ∧ d.src.space ≠ 0 ∧ d.dst.space ≠ 0
      ∧ (dev.readElem lane0 d.src (d.positions 0 0).1).2.toOption = some 0 ∧ (d.positions 0 0).2 / 8 + 4 ≤ dev.winSize 2
      ∧ ovl.ok 4 = true ∧ ovl.overlaps = true ∧ (CopyDesc.parse (List.replicate 256 0) 0).ok 4 = false
      ∧ dev.mayEnd 2 = true
      ∧ (dev.group grp).map (fun g => g.lowerWaits 3 0) = some false
      ∧ ((withQueue dev fun x => { x with entries := [.fence [(1, 0, 0)] []] }).queue ⟨2, 0, 1⟩).map (fun y => decide (0 ≤ y.performed))
          = some true
      ∧ ((withQueue dev fun x => { x with entries := [.fence [(1, 1, 0)] []] }).queue ⟨2, 0, 1⟩).map (fun y => decide (y.performed < 1))
          = some true := by decide +kernel

/-- TileSteps: a table with room and a full one, one task to start and none, one that runs, one that has finished, and a
TFENCE; operands that are reserved and that are legal. -/
theorem witness_tile_steps :
    let start (k : TaskKind) := ((withTasks dev [task 3 k .waiting] []).quad quad0).bind fun x => x.startable false
    start .tzero = some (task 3 .tzero .waiting) ∧ start .tmma = some (task 3 .tmma .waiting)
      ∧ start .tloadacc = some (task 3 .tloadacc .waiting)
      ∧ ((dev.quad quad0).bind fun x => x.startable false) = none
      ∧ ((withTasks dev [task 3 .tfence .waiting] []).quad quad0).map (fun x => x.taskReady (task 3 .tfence .waiting)) = some true
      ∧ bitsAt (0x100000000 : DWord).toNat 32 32 ≠ 0
      ∧ (let a := TileOp.parse (0 : DWord) true
         let b := TileOp.parse (0 : DWord) false
         a.fmt = b.fmt ∧ dev.tileOk 2 a true false = true ∧ dev.tileOk 2 b false false = true
           ∧ dev.tileOk 2 a true true = true ∧ dev.tileOk 2 (TileOp.parse (0x100000 : DWord) false) false true = true)
      ∧ 4096 ≤ dev.winSize 2 ∧ ((dev.cluster 2).map (·.teams.length)) = some 4
      ∧ ((dev.quad quad0).map fun x => decide (x.events.length < 64)) = some true := by decide

/-- An atomic add of lane 0 at its core, one that waits at the home, and the same with an operand. -/
def adder (id : Nat) (st : Stage) : Req := req id lane0 (.atomic 0 0 (some 8) 1 0) 0x300040 st

/-- The batch that holds one request. -/
def batch0 : Batch := ⟨3 * 65536, line0, homeSlice 0x300040, [(3, 0)], 0, false⟩

/-- SlicesAdmit: a batch that leaves its core. -/
theorem witness_slices :
    (withReqs dev [adder 3 .ready]).leavingBatch (3 * 65536) = some { batch0 with id := 3 * 65536 }
      ∧ (withReqs dev [adder 3 .ready]).waitingAt (3 * 65536) = none := by
  decide

/-- A slice with nothing takes a batch, where a batch of the line has begun it does not, and behind an earlier one that waits
for the same it has no room. -/
theorem witness_takes :
    (dev.sliceAt (homeSlice 0x300040)).takes [] [] line0
      ∧ ¬(dev.sliceAt 0).takes [{ batch0 with begun := true }] [] line0 ∧ ¬(dev.sliceAt 0).roomFor [batch0] line0 := by
  refine ⟨⟨fun _ h => absurd h List.not_mem_nil, fun _ h => absurd h nofun,
    fun _ => ⟨by decide, fun _ h => absurd h List.not_mem_nil⟩⟩, fun h => ?_, fun h => ?_⟩
  · exact absurd (h.1 _ (List.mem_singleton.mpr rfl) rfl) (by decide)
  · exact (h.2 rfl).2 _ (List.mem_singleton.mpr rfl) rfl

/-- A slice of dev with a wave of one request. -/
def waving (key : WaveKey) (r : Req) (f : Wave → Wave) : State :=
  let k := homeSlice 0x300040
  let s := withReqs dev [r]
  s.setSlice k { s.sliceAt k with wave := some (f ⟨line0, key, [⟨r.id, 0, 0, 0⟩], 0x100, [],
    [⟨0x100, [], 0, 0, 0, false, 0, false, false, true⟩], [], List.replicate 128 0, [], 0, none⟩) }

/-- A COMB of lane 0 at the home. -/
def comber (st : Stage) : Req := req 3 lane0 (.comb 0 (some 8) 1 2) 0x300000 st

/-- WavesPerform: a queue that forms a wave; a wave at its budget; a wave that commits, one that faults; replies and losses. -/
theorem witness_waves :
    let k := homeSlice 0x300040
    let x : Slice := { dev.sliceAt k with queues := [(line0, [⟨3, 0, 0, 0⟩])] }
    oldestQueue x.queues = some (line0, [⟨3, 0, 0, 0⟩])
      ∧ ((withReqs dev [adder 3 .atHome]).waveRun [⟨3, 0, 0, 0⟩]) = some (.builtin 0 0, [⟨3, 0, 0, 0⟩])
      ∧ ((withReqs dev [comber .atHome]).waveRun [⟨3, 0, 0, 0⟩]).map (·.2) = some [⟨3, 0, 0, 0⟩]
      ∧ ((waving (.builtin 0 0) (adder 3 .atHome) id).sliceAt k).wave.map (·.line) = some line0
      ∧ ((waving (.user 0 1) (comber .atHome) fun w => { w with issues := 256 }).sliceAt k).wave.map (fun w => decide (256 ≤ w.issues)) = some true
      ∧ (withLine (withReqs dev [adder 3 .ready]) line0 true 0).ownerOf line0 = some (dev.l1Of 2 0 line0)
      ∧ (withReqs dev [adder 3 .ready]).mayPerform (adder 3 .ready) = true
      ∧ (dev.gridOf 2).map (·.launch.rrmode) = some 0
      ∧ (withReqs dev [comber (.replied 7 0)]).req 3 = some (comber (.replied 7 0))
      ∧ (withReqs dev [comber (.lost true)]).req 3 = some (comber (.lost true)) := by decide

/-! ### Witnesses: graphs, clusters and the host -/

/-- 128 bytes of a node: its first, and fields of given lengths at given offsets above them, in order. -/
def image : List (Nat × Nat × Nat) → Nat → List Byte
  | [], n => List.replicate (128 - n) 0
  | (off, k, x) :: fs, n => List.replicate (off - n) 0 ++ toBytesLE k x ++ image fs (off + k)

/-- The node that the tests use, at the mapped page. -/
def node0 : NodeRef := ⟨0, 0x10000⟩

/-- The device with a graph of that node in slot 0, its image in memory. -/
def graph (stage : NodeStage) (bs : List Byte) : State :=
  let s := walking 0x30000D []
  { s with
    mem := Mem.writeBytes s.mem 0x300000 bs
    slots := s.slots.set 0 ⟨0x10000, true, false, false, false, [⟨0x10000, 0, false, stage, bs, 0, none⟩], []⟩ }

/-- A WAITW node for a word that is 0, and one of an unknown kind. -/
def waitNode : List Byte := image [(0, 1, 5), (0x28, 8, 0x10080)] 0
/-- The same with a kind that no node has. -/
def badNode : List Byte := image [(0, 1, 7)] 0
/-- A BULK node of one byte. -/
def bulkNode : List Byte := image [(0, 1, 2), (0x28, 8, 0x10100), (0x30, 8, 0x10200), (0x38, 8, 1)] 0
/-- A LAUNCH node of one cluster. -/
def launchNode : List Byte :=
  image [(0, 1, 1), (0x28, 8, 0x10000), (0x48, 4, 1), (0x4C, 4, 1), (0x50, 4, 1), (0x54, 4, 0x10445), (0x58, 4, 0x300)] 0

/-- The device's answer when it reads the node. -/
def reads (s : State) (bs : List Byte) : Bool := (s.nodeBytes 0x10000 2).2 == some bs

/-- NodesStartAndEnd: the root of a legal node and of an illegal one; a node that does not translate; nodes that end, with
and without a successor. -/
theorem witness_nodes :
    (graph .pending waitNode).cpRuns = true
      ∧ ((graph .pending waitNode).slotOf node0).map (fun x => (x.root, x.running, x.failed)) = some (0x10000, true, false)
      ∧ reads (graph .pending waitNode) waitNode = true ∧ reads (graph .pending badNode) badNode = true
      ∧ (bytesField waitNode 0 1, bytesField waitNode 3 1, bytesField badNode 0 1) = (5, 0, 7)
      ∧ (({ graph .pending waitNode with mem := [] }).nodeBytes 0x10000 2).2 = none
      ∧ ((graph (.ending 2 none) waitNode).node node0).map (fun y => (y.stage, y.image.length)) = some (.ending 2 none, 128)
      ∧ nodeNext waitNode = [] ∧ nodeNext (image [(0, 1, 5), (2, 1, 1), (8, 8, 0x10080)] 0) = [0x10080] := by decide +kernel

/-- NodesAct: one running node of each kind with legal fields. -/
theorem witness_node_acts :
    let s := graph .running bulkNode
    let t := (s.translateNode 0x10100 false).1
    let word := graph .running waitNode
    s.cpRuns = true ∧ (s.node node0).map (·.stage) = some .running ∧ (∀ b ∈ bulkNode.drop 0x40, b = 0)
      ∧ ((s.translateNode 0x10100 false).2.toOption.map fun p => (p.peer, p.pa 0x10100)) = some (none, 0x300100)
      ∧ ((t.translateNode 0x10200 true).2.toOption.map fun p => (p.peer, p.cls, p.pa 0x10200)) = some (none, .normal, 0x300200)
      ∧ ((word.translateNode 0x10080 false).1).homeNat 0x300080 8 &&& 0 = 0
      ∧ ((s.translateNode 0x20000 false).2.toOption).isNone = true := by decide +kernel

/-- LaunchesStart: legal fields, with room for the grid, and one field outside its limits. -/
theorem witness_launch :
    let at' (bs : List Byte) (off k : Nat) : Nat := bytesField bs off k
    let s := graph .running launchNode
    launchNode.length = 128 ∧ at' launchNode 0 1 = 1 ∧ at' launchNode 0x54 4 = 0x10445 ∧ at' launchNode 0x68 8 = 0
      ∧ at' launchNode 0x60 8 = 0 ∧ (∀ p ∈ ({ s with grids := [] }).grids, p.2.node ≠ node0)
      ∧ ¬(16 / 1 * (24 / 1) < 1) ∧ at' badNode 0x48 4 = 0 := by decide +kernel

/-- The device before its grid's cluster has started. -/
def starting : State := { dev with clusters := [] }

/-- ClustersStart: a free slot, one that is not, under DET the curve's first; a co-resident grid. -/
theorem witness_clusters_start :
    (starting.grid 1).map (fun g => (g.next, g.launch.count, g.launch.cores, g.oneByOne)) = some (0, 1, false, false)
      ∧ starting.slotFree launch (0, 0) = true ∧ dev.slotFree launch (0, 0) = false ∧ detAnchor launch 0 = (0, 0)
      ∧ starting.coresAnchors launch (3, 5) = some [(3, 5)] ∧ isAnchor 1 1 (15, 23) = true ∧ isAnchor 1 1 (16, 0) = false := by
  decide

/-- The device whose one cluster is done. -/
def doneCluster : State :=
  { dev with clusters := [(2, { Cluster.start 1 0 launch (0, 0) 0 with teams := [⟨[], [], [], []⟩], quads := [] })] }

/-- ClustersEnd: a cluster that is done; a grid that is to end; one whose clusters have not left. -/
theorem witness_clusters_end :
    (∃ c, doneCluster.cluster 2 = some c ∧ c.AllDone doneCluster 2) ∧ doneCluster.running 2 = true
      ∧ (doneCluster.grid 1).map (fun g => (g.retired, g.launch.count, g.ended.length, g.launch.detPlace)) = some (0, 1, 0, false)
      ∧ ((withReqs dev [comber .atHome]).gridOf 2).map (fun g => g.launch.det.isNone) = some true
      ∧ (dev.clusters.map (·.1)).Nodup :=
  ⟨⟨_, rfl, ⟨by decide, by decide, by decide, by intro r hr; simp [doneCluster, dev, State.reset] at hr⟩⟩, by decide,
    by decide, by decide, by decide⟩

/-- The device whose grid is to give up its cluster for another of its priority, with a pool of n bytes. -/
def crowdedDev (n : Nat) : State :=
  { dev with
    bar0 := { dev.bar0 with ctxsize := BitVec.ofNat 64 n }
    grids := [(1, { Grid.start ⟨0, 0x4000⟩ launch 0 0 with next := 1, held := 5, preempt := 1 })] }

/-- ClustersMove: a grid that another waits for; a victim that may stop, with and without room; one whose request has left;
a cluster that is saved and one that may go on. -/
theorem witness_clusters_move :
    (crowdedDev 0).stoppable 2 (Cluster.start 1 0 launch (0, 0) 0) = true
      ∧ (crowdedDev 0).poolUsed = 0 ∧ saveBytes launch = 1024 * 1204
      ∧ (withReqs dev [comber .atHome]).stoppable 2 (Cluster.start 1 0 launch (0, 0) 0) = false
      ∧ (crowdedDev 0).cpRuns = true
      ∧ ((crowdedDev 0).grid 1).map (fun g => (g.preempt, g.abort.isNone, g.launch.prio, (crowdedDev 0).hostPreempts g)) = some (1, true, 0, false)
      ∧ (crowdedDev 0).waitsForSlot 5 (Grid.start ⟨1, 0⟩ { launch with flags := 0x301 } 0 0) = true
      ∧ starting.slotFree launch (0, 0) = true := by decide

/-- The device with a second grid that waits for slot 0 under DET, of PRIO p. -/
def rivalDev (p : BitVec 32) : State :=
  { dev with grids := dev.grids ++ [(5, Grid.start ⟨1, 0x5000⟩ { launch with flags := 1 ||| p <<< 16 } 0 0)] }

/-- ClustersMove: the resident cluster goes for a grid of a higher PRIO, and stays for one of its own (R256). -/
theorem test_victim :
    (rivalDev 1).outranked 2 = true ∧ (rivalDev 0).outranked 2 = false := by decide +kernel

/-- ControlRegisters, GraphsAreSubmitted, HostTraffic: a slot that may be used; a ring with room and a full one; an event of
a lane that has performed; accesses at the two ends. -/
theorem witness_host :
    dev.bar0.slots.length = 8 ∧ dev.bar0.slotstat.length = 8 ∧ (dev.slots[0]?).map (·.running) = some false
      ∧ dev.bar0.slots.getD 0 0 = 0 ∧ dev.powered = true
      ∧ ((graph .pending waitNode).slots[0]?).map (·.running) = some true
      ∧ reads { graph .pending waitNode with slots := State.reset.slots } waitNode = true
      ∧ bytesField waitNode 4 4 ≠ 1 ∧ bytesField waitNode 2 1 = 0
      ∧ (0x80000006 : DWord).toNat.testBit 31 = true ∧ 6 ≤ (0x80000006 : DWord).toNat % 32
      ∧ ((0 : DWord) - 0).toNat ≠ 2 ^ 6 ∧ ((64 : DWord) - 0).toNat = 2 ^ 6
      ∧ dev.performed lane0 5 = true ∧ (withReqs dev [pending]).performed lane0 5 = false
      ∧ 0x5FFFFFFF80 + 128 ≤ 384 * 2 ^ 30 ∧ ¬0x5FFFFFFF81 + 128 ≤ 384 * 2 ^ 30
      ∧ ((walking 0x30000D []).core 0).tlb = [] := by decide +kernel

/-- ChecksAndFreezing, Resets: a grid to end; a request at a port, and none. -/
theorem witness_device :
    dev.grid 1 ≠ none ∧ dev.throttled = false ∧ dev.blackbox.length < 2048
      ∧ (networked.tableEntry (networked.bar0.peertab.toNat + 16 * 5 + 8)).toNat % 8 = 1 ∧ (∀ r ∈ networked.reqs, r.stage ≠ .atPeer)
      ∧ lanesB networked readyLane = true := by decide

/-- The device with a group, a control core and a wave about to take their turns. -/
def turning (t : Turn) (code : List Word) : State :=
  { withWave dev with agenda := [t], mem := placedMemory [] (bytesOfWords code) }

/-- StepRunsDecoded: a group, a control core and a wave that may issue, at words that decode and at words that do not. -/
theorem witness_turns :
    let s := turning (.port 2 0 0) [0x1C614004]
    s.running 2 = true ∧ (s.portGroup 2 0 0).map (·.1) = some grp
      ∧ ((s.portGroup 2 0 0).bind fun p => p.2.selection) = some (0x10000, [0, 1, 2, 3])
      ∧ (match (s.fetch (s.fetchCore 2 0) 0x10000).2 with | .words ws => decide (ws = [0x1C614004]) | _ => false) = true
      ∧ (({ s with bar0 := dev.bar0, cores := [] }).fetch (s.fetchCore 2 0) 0x20000).2 = .fault 0x20000 causePAGE 0
      ∧ ((s.quad quad0).map fun q => q.control.wait) = some .run
      ∧ ((s.sliceAt 0).wave.bind fun w => w.selection) = some (0, [0])
      ∧ (decodeWords [0x00000003]).toOption = none := by decide +kernel

/-- StepsKeepSound, NumbersStayFresh: the invariants hold at reset. -/
theorem witness_sound : State.reset.Sound ∧ State.reset.Numbered ∧ State.reset.cur = none :=
  ⟨⟨by decide, by decide, by decide, by decide, by decide⟩, numbered_of (by decide), rfl⟩

/-! ### Witnesses: clauses over several elements, agents and parts -/

/-- Lane 3 waits for a phase of the cluster's barrier 1, at which one lane has arrived of n that are asked for. -/
def joining (n : Nat) : State :=
  (dev.modCluster 2 fun c => { c with bars := [(1, ⟨0, 1, n, false, []⟩)] }).modLane (grp.at 3) fun x =>
    { x with wait := .barrier true 1 0 4 }

/-- BarriersAndTokens, LaneEvents: arrivals at a phase with one counted, short of its number and completing it, beside a lane
that waits; a lower lane of the run that has performed counts first. -/
theorem witness_arrivals :
    (joining 3).awaitsPhases 2 ∧ ((joining 4).barrier lane0 true 1).count + [lane0, lane1].length < 4
      ∧ ((joining 3).barrier lane0 true 1).count + [lane0, lane1].length = 3
      ∧ ([lane0, lane1].map fun l => ((joining 3).lane l).map (·.wait)) = [some .ready, some .ready]
      ∧ ((joining 3).lane (grp.at 3)).map (·.wait) = some (.barrier true 1 0 4) := by
  refine ⟨fun l x hx hc => ?_, by decide, by decide, by decide, by decide⟩
  have h := lanes_of (s := joining 3) (f := fun x => x.wait.still || x.wait == .barrier true 1 0 4) (by decide) l x hx
  simp only [Bool.or_eq_true, beq_iff_eq] at h
  refine h.imp id fun h => ⟨true, 1, 0, 4, h, ?_⟩
  obtain ⟨c, t, g, k⟩ := l
  subst hc
  exact Nat.le_refl 0

/-- A lane that waits for a token, and one whose add brings it there. -/
def awaiting : State :=
  (dev.modLane lane1 fun x => { x with wait := .token 0 5 3 }).modQuad quad0 fun y => { y with tokens := [(5, 2)] }

/-- BarriersAndTokens, ControlCoreOperations: an add that reaches what a lane waits for, and one that does not; a control core
that halts. -/
theorem witness_waits :
    (∀ l x, awaiting.lane l = some x → x.wait.still = true ∨ ∃ r k y, x.wait = .token r k y)
      ∧ 0 ≤ ((awaiting.token quad0 5 + 1 : Word) - 3).toInt ∧ ((awaiting.token quad0 5 + 0 : Word) - 3).toInt < 0
      ∧ (awaiting.quad quad0).isSome = true ∧ (awaiting.quad quad0).map (·.control.wait) = some .run := by
  refine ⟨fun l x hx => ?_, by decide, by decide, by decide, by decide⟩
  have h := lanes_of (s := awaiting) (f := fun x => x.wait.still || x.wait == .token 0 5 3) (by decide) l x hx
  simp only [Bool.or_eq_true, beq_iff_eq] at h
  exact h.imp id fun h => ⟨0, 5, 3, h⟩

/-- CacheHints: a ring with room for one entry of two; a page that is not resident and one that is not mapped. -/
theorem witness_ring :
    let b := { dev.bar0 with evctl := 0x80000006, evtail := 63 }
    b.evctl.getLsbD 31 = true ∧ 6 ≤ b.evctl.toNat % 32 ∧ (b.evtail - b.evhead).toNat ≤ 2 ^ 6 ∧ min 2 (2 ^ 6 - (b.evtail - b.evhead).toNat) = 1
      ∧ (match ((walking 0x300009 []).freshWalk 0x10000).out with | .absent p => p.peer | _ => some 0) = none
      ∧ ((walking 0x300009 []).freshWalk 0x20000).out = .unmapped
      ∧ ((walking 0x300009 []).freshWalk 0x20000).leaf.getLsbD 49 = false
      ∧ ((walking 0x2000000300009 []).freshWalk 0x10000).leaf.getLsbD 49 = true := by decide

/-- A descriptor of one dimension of n elements: its control word, the bases and the scale array of the destination. -/
def copyBytes (ctrl src dst dscale n : Nat) : List Byte :=
  toBytesLE 8 src ++ toBytesLE 8 dst ++ toBytesLE 4 ctrl ++ List.replicate 12 0 ++ toBytesLE 8 dscale ++ List.replicate 56 0
    ++ toBytesLE 4 n ++ toBytesLE 6 1 ++ toBytesLE 6 1 ++ List.replicate 144 0

/-- The device with no table that a walk could read. -/
def unwalked : State := { dev with bar0 := { dev.bar0 with ptroot := 0x600000000000 } }

/-- Whether the first k elements can be moved, as a test. -/
def movesB (s : State) (d : CopyDesc) (k : Nat) : Bool :=
  (List.range k).all fun e => (s.from' lane0 d e).isSome && (s.into' lane0 d e).isSome
    && (!d.sse || (s.scaleBytes lane0 d d.src false e).isSome)
    && (!((d.mode == 2 || d.mode == 4) && e + 1 == d.firstOf e + d.lengthOf e) || (s.scaleBytes lane0 d d.dst true e).isSome)

theorem moves_of {s : State} {d : CopyDesc} {k : Nat} (h : movesB s d k = true) (e : Nat) (he : e < k) :
    s.canMove lane0 d e := by
  have := List.all_eq_true.mp h e (List.mem_range.mpr he)
  simp only [Bool.and_eq_true, Bool.or_eq_true, Bool.not_eq_true', Bool.and_eq_false_iff, Bool.or_eq_false_iff,
    beq_eq_false_iff_ne] at this
  obtain ⟨⟨⟨h1, h2⟩, h3⟩, h4⟩ := this
  refine ⟨h1, h2, fun hs => ?_, fun hm => ?_⟩
  · rcases h3 with h | h
    · rw [h] at hs; simp at hs
    · exact h
  · rcases h4 with h | h
    · rcases h with h | h
      · exact absurd hm.1 (by simp [h.1, h.2])
      · exact absurd hm.2 h
    · exact h

/-- CopyQueueSteps: two elements between global pages, a block with its scale in scratch, one whose second element leaves the
window, one whose scale array does. -/
theorem witness_copy_moves :
    let d1 := CopyDesc.parse (copyBytes 1 0x10000 0x10100 0 2) 0
    let d2 := CopyDesc.parse (copyBytes 0x10052501 0 64 128 2) 0
    let d3 := CopyDesc.parse (copyBytes 0x50001 4092 0 0 2) 0
    let d4 := CopyDesc.parse (copyBytes 0x10052501 0 64 4096 2) 0
    (d1.ok 4 = true ∧ d1.overlaps = false ∧ d1.total = 2 ∧ movesB dev d1 2 = true)
      ∧ (d2.ok 4 = true ∧ d2.overlaps = false ∧ d2.mode = 2 ∧ movesB dev d2 2 = true)
      ∧ (d3.ok 4 = true ∧ d3.overlaps = false ∧ movesB dev d3 1 = true ∧ dev.from' lane0 d3 1 = none ∧ d3.src.space ≠ 0)
      ∧ (d4.ok 4 = true ∧ movesB dev d4 1 = true ∧ 1 + 1 = d4.firstOf 1 + d4.lengthOf 1 ∧ dev.scaleBytes lane0 d4 d4.dst true 1 = none) := by
  decide +kernel

/-- CopyQueueSteps, TileSteps: a walk that fails whatever the bytes hold. -/
theorem witness_walk_fails :
    unwalked.walkFails (unwalked.quadHw 0).walk anyPage 0x30000 false .unmapped (fun _ => True)
      ∧ (let d := CopyDesc.parse (copyBytes 1 0x10000 0x30000 0 2) 0
         cachedFor (unwalked.core 0).tlb storePage 0x30000 true = none ∧ unwalked.into' lane0 d 0 = none
           ∧ (unwalked.from' lane0 d 0).isSome = true) :=
  by
  refine ⟨fun m _ => ?_, by decide +kernel⟩
  have h : (unwalked.quadHw 0).walk = ⟨[], []⟩ := by decide
  have h2 : ¬unwalked.bar0.ptroot.toNat / 524288 * 524288 < deviceBytes := by decide
  have h3 : level1Ok (0#64) = false := by decide
  simp [State.walkAccess, State.walkWith, h, h2, h3, Table.find]

/-- TileSteps: every write of a drain with block scales into scratch, and every weight of a TDAPPLY at a global block, is
reached; a drain whose last row leaves the window. -/
theorem witness_drains :
    let a : DWord := 2 + 0x4000 + 0x80000000000000
    let at' (pos n : Nat) : Bool := (dev.lieAt 2 (dev.quadHw 0).tlb (some (0, 0)) true pos n).isSome
    (a.toNat % 8, a.getLsbD 3, a.getLsbD 14, a.toNat / 2 ^ 40) = (2, false, true, 0x8000)
      ∧ ((List.range 32).all fun r => at' (2048 + 2 * r) 2 && (List.range 32).all fun c => at' (r * 32 + c) 1) = true
      ∧ ¬(0 : Nat) + 31 * 132 + 4 * 32 ≤ dev.winSize 2
      ∧ ((List.range 1024).all fun k => [true, false].all fun w =>
          (dev.lieAt 2 (dev.quadHw 0).tlb none w (0x10000 + k / 32 * 64 + k % 32 * 2 : Nat) 2).isSome) = true := by
  decide +kernel

/-- TileSteps: outside twin regions, whatever memory holds. -/
theorem witness_single (m : List Host.Cell) (va : Nat) :
    ({ unwalked with mem := m }.walkWith (unwalked.quadHw 0).walk true va).region.getLsbD 3 = false := by
  have h : (unwalked.quadHw 0).walk = ⟨[], []⟩ := by decide
  have h2 : ¬unwalked.bar0.ptroot.toNat / 524288 * 524288 < deviceBytes := by decide
  have h3 : level1Ok (0#64) = false := by decide
  simp [State.walkWith, h, h2, h3, Table.find]

/-- TileSteps: a task that a peer keeps waiting, before PEERTO and after it. -/
theorem witness_owed :
    let t (n : Nat) : Task := { task 3 .tdrain .running with owed := some (0x10000, 5), waited := n }
    ((withTasks networked [t 1299] []).quad quad0).map (fun x => x.tasks.find? fun z => z.id == 3 && z.stage == .running)
        = some (some (t 1299))
      ∧ (t 1299).waited < networked.bar0.peerto.toNat ∧ networked.bar0.peerto.toNat ≤ (t 1300).waited := by decide

/-- Three requests of a built-in wave for one word: a COMBR, a scatter of two products and a peer's COMB. -/
def mixed : List Req :=
  [{ comber .atHome with id := 3, kind := .comb 0 none 1 2 },
    { req 4 lane1 (.hgscat [(.zero, .fin false 0), (.fin true 512, .zero)] 8) 0x300040 .atHome with pas := [0x300040, 0x300044], left := 2 },
    { req 5 lane0 (.comb 12 (some 0) 1 2) 0x300040 .atHome with owner := .peer 5 9 }]

/-- The requests of the wave, in queue order. -/
def mixedRun : List QueuedReq := [⟨3, 0, 0, 0⟩, ⟨4, 0, 1, 0⟩, ⟨4, 1, 1, 0⟩, ⟨5, 0, 2, 0⟩]

/-- WavesPerform: the wave of those requests, and of a graph node's add. -/
theorem witness_mixed_wave :
    let s := withReqs dev mixed
    (mixedRun.all fun q => (s.req q.req).any fun r => (r.pas[q.idx]?).isSome
        && (r.kind.isScatter || (askedOf r.kind).any fun x => decide (x.2.2.1 < if x.2.1 = 1 then 2 ^ 64 else 2 ^ 32))) = true
      ∧ mixedRun.Nodup ∧ mixedRun.countP (fun k => k.req == 4) ≤ 2
      ∧ askedOf (.comb 12 (some 0) 1 2) = some (0, 1, 0x200000001, 0, true)
      ∧ askedOf (.atomic 0 1 none 1 0) = some (0, 1, 1, 0, false) ∧ s.ownerOf line0 = none
      ∧ (∀ q ∈ mixedRun, ∀ k ∈ mixedRun, q.req = k.req → q = k ∨ q.req = 4) := by decide

/-- The determinism block of a grid whose log is at the mapped page, two chunks to a slice, with a gate of 1 cycle. -/
def block : DetBlock := ⟨0x600000, 0x10000, 0x3000, 1, false, 0⟩

/-- A grid that replays that log, of which the slice of line0 reads the two words, with one batch at the gate. -/
def logged (w0 w1 : DWord) (waited : Nat) : State :=
  let k := homeSlice 0x300040
  let s := walking 0x30000D [adder 3 .atHome]
  let s := { s with
    mem := Mem.writeBytes s.mem (0x300000 + block.area * k) (toBytesLE 8 w0.toNat ++ toBytesLE 8 w1.toNat)
    grids := [(1, { Grid.start ⟨0, 0x4000⟩ { launch with flags := 0x320, det := some block } 0 0 with rrstat := 0 })] }
  s.setSlice k { s.sliceAt k with waiting := [batch0], logs := [(1, ⟨0, [], false, [(line0, ⟨0, 0, waited⟩)]⟩)] }

/-- SlicesAdmit: a head that names the waiting request, one that names another, an overflow terminator, the end of the log; a
timer that has run out. -/
theorem witness_gate :
    let k := homeSlice 0x300040
    let ws := Chunk.words ⟨line0, ⟨0, 0, 0, 0, 0⟩, 1, false⟩
    let other := Chunk.words ⟨line0, ⟨0, 0, 0, 1, 0⟩, 1, false⟩
    let names (w : DWord × DWord) : Option Bool :=
      (((logged w.1 w.2 0).req 3).bind (logged w.1 w.2 0).requester).map fun who => matchesHead w 0 who
    (logged ws.1 ws.2 0).waitingAt (3 * 65536) = some (k, batch0)
      ∧ (logged ws.1 ws.2 0).gateHead 1 block k line0 = (block.area * k, some ws, false)
      ∧ names ws = some true ∧ names other = some false
      ∧ (logged 0 0xFFFFFFFFFFFFFFFF 0).gateHead 1 block k line0 = (block.area * k, none, true)
      ∧ (logged 0 0 0).gateHead 1 block k line0 = (block.area * k, none, false)
      ∧ (logged other.1 other.2 1).gateStuck k 1 line0 = true ∧ (logged ws.1 ws.2 1).gateStuck k 1 line0 = false
      ∧ ((logged ws.1 ws.2 0).grid 1).map (·.logMode) = some 2 := by decide +kernel

/-- A page in the device, which may be stored to. -/
def fits (r : Except TransFault Page) : Bool :=
  match r with
  | .ok p => decide (p.peer = none) && decide (p.cls ≠ .combining)
  | .error _ => false

theorem fits_page {r : Except TransFault Page} (h : fits r = true) : ∃ p, r = .ok p ∧ p.peer = none ∧ p.cls ≠ .combining := by
  cases r with
  | error f => cases h
  | ok p => exact ⟨p, rfl, by simpa [fits] using h⟩

theorem moves_one {s s1 s2 : State} {src dst : Nat} {p q : Page} (h1 : s.translateNode (src % 2 ^ 56) false = (s1, .ok p))
    (hp : p.peer = none) (h2 : s1.translateNode (dst % 2 ^ 56) true = (s2, .ok q)) (hq : q.peer = none) (hc : q.cls ≠ .combining)
    (m : Nat → List Host.Cell) (h0 : m 0 = s.mem)
    (hm : m 1 = Mem.write s2.mem (q.pa (dst % 2 ^ 56)) (Mem.read s1.mem (p.pa (src % 2 ^ 56)))) : BulkMoved s src dst 1 m := by
  refine ⟨h0, fun i hi => ?_⟩
  obtain rfl : i = 0 := by omega
  rw [h0, Nat.add_zero, Nat.add_zero, Nat.zero_add]
  exact ⟨s1, p, s2, q, h1, hp, h2, hq, hc, hm⟩

theorem moves_byte {s : State} {src dst : Nat} (hs : fits (s.translateNode (src % 2 ^ 56) false).2 = true)
    (hd : fits ((s.translateNode (src % 2 ^ 56) false).1.translateNode (dst % 2 ^ 56) true).2 = true) :
    ∃ m, BulkMoved s src dst 1 m := by
  rcases h1 : s.translateNode (src % 2 ^ 56) false with ⟨s1, r⟩
  rw [h1] at hs hd
  rcases h2 : s1.translateNode (dst % 2 ^ 56) true with ⟨s2, r2⟩
  rw [h2] at hd
  obtain ⟨p, rfl, hp, -⟩ := fits_page hs
  obtain ⟨q, rfl, hq, hc⟩ := fits_page hd
  exact ⟨_, moves_one h1 hp h2 hq hc (fun i => match i with
    | 0 => s.mem
    | _ + 1 => Mem.write s2.mem (q.pa (dst % 2 ^ 56)) (Mem.read s1.mem (p.pa (src % 2 ^ 56)))) rfl rfl⟩

/-- NodesAct: a BULK of one byte that moves; before the first byte nothing has moved. -/
theorem witness_bulk :
    BulkMoved (graph .running bulkNode) 0x10100 0x10200 0 (fun _ => (graph .running bulkNode).mem)
      ∧ ∃ m, BulkMoved (graph .running bulkNode) 0x10100 0x10200 1 m :=
  ⟨⟨rfl, fun i hi => absurd hi (Nat.not_lt_zero i)⟩, moves_byte (by decide +kernel) (by decide +kernel)⟩

/-- A page table whose one region is a twin region. -/
def twin : State :=
  let s := walking 0x30000D []
  { s with mem := Mem.write s.mem 0x100000 (Mem.read s.mem 0x100000 ||| 8) }

/-- SweepsBegin, WalksAndSweeps, NodesAct: one twin region and one that is not mapped, whose entries lie apart. -/
theorem witness_twin :
    twin.isTwin 0 ∧ ¬twin.isTwin 1 ∧ twin.regionAt 0 + 8 ≤ twin.regionAt 1
      ∧ (∀ j, j < 2 → twin.regionAt 0 < twin.level1At j ∨ twin.level1At j + 8 ≤ twin.regionAt 0) := by
  unfold State.isTwin
  decide +kernel

/-- A launch of that node with a determinism block, which stands behind the node. -/
def detLaunch (size : Nat) : State :=
  let s := graph .running (launchNode.take 0x58 ++ toBytesLE 4 0x310 ++ (launchNode.drop 0x5C).take 12 ++ toBytesLE 8 0x10100
    ++ launchNode.drop 0x70)
  { s with mem := Mem.writeBytes s.mem 0x300108 (toBytesLE 8 size), grids := [] }

/-- LaunchesStart: a determinism block within its limits, and one whose log is too small. -/
theorem witness_det_launch :
    let bs (size : Nat) : Option (List Byte) := ((detLaunch size).nodeBytes 0x10100 1).2
    (bs 12288).map (fun b => (bytesField b 0 8, bytesField b 8 8, bytesField b 0x14 4, bytesField b 0x38 8)) = some (0, 12288, 0, 0)
      ∧ (bs 12287).map (fun b => bytesField b 8 8) = some 12287
      ∧ ((detLaunch 12288).node node0).map (fun y => (y.image.length, bytesField y.image 0x58 4, bytesField y.image 0x68 8))
          = some (128, 0x310, 0x10100) := by decide +kernel

/-- Two clusters of one grid, with a pool for n bytes. -/
def pair (n : Nat) : State :=
  { crowdedDev n with clusters := [(2, Cluster.start 1 0 launch (0, 1) 0), (3, Cluster.start 1 1 launch (0, 0) 0)] }

/-- ClustersMove: FREEZE 2 with two clusters, and a pool for one of them. -/
theorem witness_freeze :
    ((pair 1232896).clusters.map (·.1)).Nodup
      ∧ (∀ p ∈ (pair 1232896).clusters, ((pair 1232896).grid p.2.grid).isSome = true
        ∧ ∀ a, p.2.place = some a → p.2.saved = 0 ∧ quadNum a < 384)
      ∧ (∀ x ∈ (pair 1232896).slots, x.preempt = false) ∧ saveBytes launch = 1232896 := by
  refine ⟨by decide, fun p hp => ?_, by decide, by decide⟩
  simp only [pair, List.mem_cons, List.not_mem_nil, or_false] at hp
  rcases hp with rfl | rfl <;> refine ⟨by decide, fun a ha => ?_⟩ <;> cases ha <;> decide

/-- A group whose open instruction has performed at lane 1 and waits at lane 0. -/
def halfway : State :=
  dev.modGroup grp fun g => { g with opens := [⟨5, 0x10000, false, false, false, [⟨0, .waiting⟩, ⟨1, .performed⟩], []⟩] }

/-- ClustersMove: clusters that may stop with an open instruction: one whose trap waits for the end of a handler, and one
that is issued anew; one whose trap is due may not. -/
theorem witness_saves :
    let late := failing.modGroup grp fun g => { g with handler := some [2] }
    late.stoppable 2 ((late.cluster 2).getD default) = true
      ∧ failing.stoppable 2 ((failing.cluster 2).getD default) = false ∧ halfway.stoppable 2 ((halfway.cluster 2).getD default) = true
      ∧ ((failing.group grp).map fun g => g.opens.map fun o => (o.gone, o.parts.any fun p => p.st.isFailed)) = some [(false, true)]
      ∧ ((halfway.group grp).map fun g => g.opens.map fun o => o.parts.map (·.lane)) = some [[0, 1]] := by decide

/-- LoadsReturn, LaneEvents: a register line that a load, or a digest, waits for, and one that an instruction about to issue
names. -/
theorem witness_fills :
    let live (s : State) (m : BitVec 48) : State := s.modGroup grp fun g => { g with live := m }
    let s := live (withReqs dev [load0]) 4
    s.resident 2 = true ∧ (s.group grp).map (fun x => (x.live.getLsbD 2, x.cached.getLsbD 2)) = some (true, false)
      ∧ load0.kind.dests = [(8, 1)] ∧ s.canDeliver load0 = false ∧ (withReqs dev [load0]).canDeliver load0 = true
      ∧ (let t := live (turning (.port 2 0 0) [0x1C614004]) 2
         (t.group grp).bind (·.selection) = some (0x10000, [0, 1, 2, 3])
           ∧ (match (t.engineDecode (t.fetchCore 2 0) ⟨0, 0, 0, 0, 0⟩ 0x10000).2 with | .instr i => i.op | _ => none) = some 1
           ∧ (linesOf (operandsOf none (.iadd (hd .base) 0 5 6 (.reg 7))) false).getLsbD 1 = true) := by decide +kernel

/-- StepRunsDecoded: the fetcher of a core whose TLB serves every word, with a word kept and none. -/
theorem witness_fetch :
    (∀ k, k < 5 → (dev.fetchCore 2 0).tr dev (0x10000 + 4 * k) = (dev, .ok (page 0x10000 0x300000 .normal)))
      ∧ dev.codeOf (dev.fetchCore 2 0).unit = []
      ∧ ((dev.setCore 0 { dev.core 0 with code := [(0xC0000, ⟨some 5, 0, 0, 0⟩)] }).fetchWord (dev.fetchCore 2 0) 0x10000).2
          = .words [5] := by decide +kernel

/-- WalksAndSweeps: a request that a free slot takes, one that waits behind a second walk of its instruction, and a store
across two pages. -/
theorem witness_walking :
    let store : ReqKind := .store (List.replicate 8 ⟨0xFF, 7⟩)
    let r := walker (.load 8 4 false false none)
    let q (st : Stage) (id issue : Nat) : Req := { r with id := id, issue := issue, stage := st }
    let two : Req := { walker store with vas := [0x13FFC, 0x14000], stage := .walking 0 }
    let s (rs : List Req) : State := walking 0x30000D rs
    (s [r]).walkNext r 0 = true ∧ (s [q (.walking 1) 2 9, r, q .walk 4 9]).walkNext (q .walk 4 9) 0 = false
      ∧ (s [r]).walkRegion r lane0 = 0
      ∧ servedPages [page 0x10000 0x300000 .normal] (fun _ _ => true) true [] two.vas = [page 0x10000 0x300000 .normal]
      ∧ (∀ q ∈ (s [two]).reqs, q.issue = two.issue → q.stage = .walking 0 → q = two) := by decide

/-- Peers, HashedGridRequests: a request and its part at a peer, whose data comes, and an add whose request has failed. -/
theorem witness_parts :
    let whole : Req := req 3 lane0 (.hgld 8 0 [0]) 0x308000 .ready
    let part : Req := { req 4 lane0 (.corner 3 0 4) 0x308000 .atPeer with peer := some 5 }
    let s := withReqs networked [whole, part]
    s.req 4 = some part ∧ s.req 3 = some whole ∧ s.canDeliver part = true ∧ part.retrained = false ∧ whole.fail = none
      ∧ whole.kind.apart = true ∧ load0.kind.apart = false ∧ networked.unsplit = true
      ∧ ((networked.setSlice 0 { networked.sliceAt 0 with split := [(line0, 7)] })).unsplit = false := by decide +kernel

/-- ChecksAndFreezing: a request of the grid outside every wave; one within a wave, whose requests are all queued ones. -/
theorem witness_checks :
    let s := withReqs dev [adder 3 .atHome]
    s.inWave 3 = false ∧ ((adder 3 .atHome).owner.cid.bind s.cluster).map (·.grid) = some 1
      ∧ (let t := waving (.builtin 0 0) (adder 3 .atHome) id
         t.inWave 3 = true ∧ (t.req 3).map (·.kind.queued) = some true) := by decide

/-- GraphsAreSubmitted, HostTraffic: a doorbell that the command processor is not there to take; a record that BAR4 shows. -/
theorem witness_latched :
    ({ dev with frozen := true }).cpRuns = false ∧ (dev.slots[0]?).map (fun x => (x.running, x.rung)) = some (false, false)
      ∧ ((dev.record 9 0 7 5).bar4 0 32).take 12 = [1, 0, 0, 0, 0, 0, 0, 0, 9, 0, 7, 0] := by decide +kernel

/-- WavesPerform: an atomic in a line that its L1 owns; where no L1 owns it, the predictor may let it. -/
theorem witness_owned :
    let r := adder 3 .ready
    let s := withReqs dev [r]
    (withLine s line0 true 5).mayOwn (dev.l1Of 2 0 line0) line0 = true ∧ (withLine s line0 true 5).ownWritesDone r = true
      ∧ (Config.fewRecalls 0 = true → s.mayOwn (dev.l1Of 2 0 line0) line0 = true) := by
  refine ⟨by decide, by decide, fun h => ?_⟩
  have h1 : (withReqs dev [adder 3 .ready]).ownerOf line0 = none := by decide
  have h2 : ((withReqs dev [adder 3 .ready]).core (dev.l1Of 2 0 line0)).predictor.get 0 (predictorIndex line0) = 0 := by decide
  simp only [State.mayOwn, h1, h2, h]
  decide

/-- WavesPerform: a wave whose object has changed since it began. -/
theorem witness_restart :
    let s := waving (.user 0 1) (comber .atHome) id
    ((s.sliceAt (homeSlice 0x300040)).wave.map fun w => decide (w.object = Mem.readBytes s.mem (128 * w.line) 128)) = some true
      ∧ (let t := { s with mem := Mem.write s.mem 0x300040 1 }
         (t.sliceAt (homeSlice 0x300040)).wave.map fun w => decide (w.object = Mem.readBytes t.mem (128 * w.line) 128)) = some false := by
  decide

/-- ClustersEnd: a grid whose determinism block asks for a digest that its own does not give. -/
theorem witness_det_over :
    let g : Grid := Grid.start ⟨0, 0x4000⟩ { launch with flags := 0x318, det := some ⟨0x600000, 0, 0, 0, true, 7⟩ } 0 0
    (g.launch.det.map fun d => (d.recv, decide (g.digest = d.recdig))) = some (true, false) ∧ g.reex = false
      ∧ g.launch.rrmode = 1 ∧ g.launch.detPlace = false := by decide



/-! ### Witnesses: resumptions, fused clusters, selection, digests and errors in memory -/

/-- The group of dev, lane 0 of which is to issue anew what lane 1 has performed of and waits in. -/
def rejoining : State :=
  dev.modGroup grp fun g => { g with
    opens := [⟨5, 0x10000, false, false, false, [⟨1, .performed⟩], [0]⟩], reissue := [0]
    lanes := modAt g.lanes 1 fun x => { x with wait := .held 5, next := 0x10004 } }

/-- The statements about memory and engine instructions: no resumption to be taken up, and one. -/
theorem witness_resumed :
    let i : Instr := .ldg (hd .base) 0 0 4 8 4 0
    let s := issuing rejoining single
    (issuing dev single).resumed single i = [] ∧ s.resumed single i ≠ [] ∧ readyB i s single = true ∧ numberedB s = true
      ∧ (∀ o ∈ s.resumed single i, ∀ p ∈ o.parts,
          p.lane ∉ single.members s i ∧ (s.lane (grp.at p.lane)).map (·.wait) = some (.held o.id))
      ∧ (rejoining.group grp).map (·.choices) = some [0] := by decide

/-- The device with a page of peer 5 at 0x1C000. -/
def peerDev : State :=
  let far : Page := { page 0x1C000 0 .normal with peer := some 5 }
  { networked with cores := [(0, { CoreHw.reset with tlb := pages ++ [far, { far with base := 0x20000, cls := .hashedGrid }] })]
                   quads := [(0, { QuadHw.reset with tlb := pages ++ [far] })] }

/-- UniformLoadsAndFences, HashedGridRequests, CopiesEnter: pages of a peer that may be asked; a misaligned address; one that no
walk finds. -/
theorem witness_peer_pages :
    let i : Instr := .ldgu (hd .ext) 2 0 4 0xC4 0xC0 0
    let s := issuing (withG peerDev 0x1C000) lanes
    readyB i s lanes = true ∧ s.resumed lanes i = [] ∧ addrOf s (.lane lane0) 0xC0 0 = 0x1C000
      ∧ (cachedFor (peerDev.core 0).tlb anyPage 0x1C000 false).map (·.peer) = some (some 5) ∧ peerDev.peerReachable 5 = true
      ∧ (cachedFor (peerDev.core 0).tlb (fun p => p.cls == .hashedGrid) 0x20000 false).map (·.peer) = some (some 5)
      ∧ ((List.range 4).all fun j => (cachedFor (peerDev.core 0).tlb anyPage (0x1C000 + 64 * j) false).any (·.peer.isSome)) = true
      ∧ addrOf (withG dev 0x10002) (.lane lane0) 0xC0 0 % 4 ≠ 0 ∧ dev.tvec 2 ≠ 0 ∧ dev.inHandlerOf lanes.engine = false
      ∧ (dev.quadHw 0).walk = ⟨[], []⟩ ∧ (dev.freshWalk 0x30000).out = .unmapped := by decide +kernel

/-- A fused device: its one cluster of quads shares an L1 scope. -/
def fusedDev : State :=
  { dev with grids := [(1, Grid.start ⟨0, 0x4000⟩ { launch with flags := launch.flags ||| 4 } 0 0)] }

/-- StoresPerform, TileSteps, SweepsBegin, DigestsCountersEvents: what the L1s of a fused cluster hold, and that of one core. -/
theorem witness_fused :
    let held := { pending with stage := .inL1 0 }
    let s := withReqs fusedDev [held]
    s.fused 2 = true ∧ s.fusedCores 2 = s.coresOf 2 ∧ s.stagedAt (s.fusedCores 2) = [held] ∧ s.pushGroup 0 = s.coresOf 2
      ∧ dev.pushGroup 0 = [0] ∧ held.kind = .store [⟨0xFF, 7⟩] ∧ held.pas = [0x300040] ∧ s.unsplit = true := by decide

/-- TileSteps: the oldest ready task, behind one that names its tile. -/
theorem witness_startable :
    let t (id : Nat) (n : Nat) : Task := { task id .tzero .waiting with field := ⟨0, false, 1⟩, w0 := if n = 0 then none else some (5, 1) }
    ((withTasks dev [t 3 1, t 4 0] []).quad quad0).map (fun x => (x.startable false).map (·.id)) = some none
      ∧ ((withTasks dev [t 3 0, t 4 0] []).quad quad0).map (fun x => (x.startable false).map (·.id)) = some (some 3)
      ∧ ((withTasks dev [t 3 0] []).quad quad0).map (fun x => (x.tasks.map (·.id)).length) = some 1 := by decide

/-- WalksAndSweeps: what a page's class refuses, and what it does not. -/
theorem witness_classes :
    let p (c : RegionClass) : Page := page 0x10000 0x300000 c
    dev.refusedBy lane0 (.store []) (p .combining) 0x10000 = some 5 ∧ dev.refusedBy lane0 (.store []) (p .normal) 0x10000 = none
      ∧ dev.refusedBy lane0 (.comb 0 none 1 2) (p .combining) 0x10000 = none
      ∧ dev.refusedBy lane0 (.comb 0 none 1 2) (p .combining) 0x10040 = some 9
      ∧ dev.refusedBy lane0 (.comb 20 none 1 2) (p .combining) 0x10000 = some 9
      ∧ dev.refusedBy lane0 (.config [0]) (p .normal) 0x10000 = some 16 := by decide

/-- NodesAct: a BRANCH whose SRCN names a LAUNCH node that has ended and leads to it. -/
theorem witness_joined :
    let src : Node := ⟨0x10080, 0, true, .ended, image [(0, 1, 1), (2, 1, 1), (8, 8, 0x10000)] 0, 0, none⟩
    let branch : Node := ⟨0x10000, 1, false, .running, image [(0, 1, 6)] 0, 0, none⟩
    let x : Slot := ⟨0x10080, true, false, false, false, [src, branch], []⟩
    let s : State := { dev with slots := dev.slots.set 0 x }
    (s.node ⟨0, 0x10080⟩).map (·.stage) = some .ended ∧ bytesField src.image 0 1 = 1 ∧ nodeNext src.image = [0x10000]
      ∧ (s.node node0).map (fun y => (y.stage, y.owed.isNone)) = some (.running, true) ∧ s.unsplit = true
      ∧ x.nodes.map (·.addr) = [0x10080, node0.addr] := by decide

/-- ClustersMove: a host's request for a cluster that it names alone. -/
theorem witness_host_victim :
    let s : State := { dev with slots := dev.slots.set 0 ⟨0x4000, true, false, true, false, [], []⟩ }
    s.hostVictim 2 = true ∧ (s.grid 1).map s.hostPreempts = some true
      ∧ (s.cluster 2).map (fun c => (c.grid, c.place.isSome, c.spared)) = some (1, true, false) := by decide

/-- Two clusters of one co-resident grid, the second saved. -/
def splitDev : State :=
  let l : Launch := { launch with flags := launch.flags ||| 0x2 }
  { dev with
    grids := [(1, { Grid.start ⟨0, 0x4000⟩ l 0 0 with next := 2 })]
    clusters := [(2, Cluster.start 1 0 l (0, 0) 0), (3, { Cluster.start 1 1 l (0, 1) 0 with place := none, home := (0, 1), saved := 1 })] }

/-- ClustersStart, ClustersMove: a co-resident grid that is saved in part, which goes on at its clusters' homes. -/
theorem witness_split :
    splitDev.isSplit 1 ∧ splitDev.running 2 = false
      ∧ ((splitDev.grid 1).map fun g => (splitDev.coresResume g.launch ((splitDev.clustersOf 1).filter fun p => p.2.place.isNone)
          (0, 1)).map fun ps => ps.map fun p => (p.1.1, p.2)) = some (some [(3, (0, 1))]) := by
  refine ⟨⟨⟨_, rfl, by decide, by decide⟩, ⟨_, List.mem_cons_self, by decide, by decide⟩,
    ⟨_, List.mem_cons_of_mem _ (List.mem_singleton.mpr rfl), by decide, by decide⟩⟩, by decide, by decide⟩

/-- StepRunsDecoded: an error in a word that the next turn fetches, and one in a word that it does not. -/
theorem witness_bad :
    let s (a : Nat) : State := { turning (.port 2 0 0) [0x1C614004] with bad := [a] }
    (s 0x300001).agenda = [.port 2 0 0] ∧ (s 0x300001).bad ≠ []
      ∧ ({ dev with agenda := [.port 2 0 0] }).bad = [] ∧ Mem.read (s 0x300001).inverted.mem 0x300001 = 0xBF := by decide +kernel

/-- ChecksAndFreezing: a wave of a peer's requests only, and one of a node's. -/
theorem witness_wave_owners :
    let peer : Req := { comber .atHome with owner := .peer 5 9 }
    let node : Req := { comber .atHome with owner := .node node0 }
    ((waving (.builtin 0 0) peer id).sliceAt (homeSlice 0x300040)).wave.map (fun w => w.reqs.map (·.req)) = some [3]
      ∧ ((waving (.builtin 0 0) peer id).req 3).map (·.owner) = some (.peer 5 9)
      ∧ ((waving (.builtin 0 0) node id).req 3).map (·.owner) = some (.node node0) := by decide


/-- LogAddRounding: differences on both sides of the bounds. -/
theorem witness_differences : ((9 : Nat) = 9 ∨ (9 : Nat) = 12) ∧ (0 : Int) ≤ 0 ∧ (-1 : Int) < 0 := by decide

/-- RunsAreServed: a group of one ready lane, which every selection serves. -/
theorem witness_fair :
    let g : Group := { Group.start launch 0 with lanes := [Lane.start 0x10000 0] }
    g.reissue = [] ∧ g.Fair ∧ g.selection = some (0x10000, [0]) := by
  intro g
  have hl : ∀ (n : Nat) (x : Lane), g.lanes[n]? = some x → x = Lane.start 0x10000 0 := by
    intro n x h
    match n, h with
    | 0, h => exact (Option.some.inj h).symm
    | n + 1, h => simp [g] at h
  refine ⟨rfl, ⟨fun n x h => ?_, fun d hd h => ?_⟩, by decide⟩
  · rw [hl n x h.2]
    decide
  · obtain ⟨pcs, h1, h2, h3⟩ := h
    have key : ∀ q ∈ pcs, q = 0x10000 := fun q hq => by
      obtain ⟨n, x, hr, hp, -⟩ := h3 q hq
      rw [← hp, hl n x hr.2]
      rfl
    match pcs, h1, h2, key with
    | a :: b :: _, h1, _, key =>
      have ha := key a (by simp)
      have hb := key b (by simp)
      simp [ha, hb] at h1
    | [_], _, h2, _ => simp at h2
    | [], _, h2, _ => simp at h2

/-- DigestStreams: a store of a lane of a grid that keeps digests; a copy stream whose first command has not ended. -/
theorem witness_digests :
    let s : State := { dev with grids := [(1, Grid.start ⟨0, 0x4000⟩ { launch with flags := launch.flags ||| 8 } 0 0)] }
    let i : Instr := .stg (hd .ext) 2 0 4 4 8 0
    let u := issuing (with4 s 0x10000) single
    s.digestOn 2 = true ∧ readyB i u single = true ∧ single.members u i = [0] ∧ numberedB u = true ∧ u.resumed single i = []
      ∧ addrOf u (.lane lane0) 4 0 = 0x10000
      ∧ (u.cachedPage lane0 (fun p => p.cls != .combining) 0x10000 true).map (·.peer) = some none := by decide

/-- SlicesAdmit: a batch that the gate holds, the request of it that the log names, and one that no log holds. -/
theorem witness_named :
    let ws := Chunk.words ⟨line0, ⟨0, 0, 0, 0, 0⟩, 1, false⟩
    let other := Chunk.words ⟨line0, ⟨0, 0, 0, 1, 0⟩, 1, false⟩
    (logged ws.1 ws.2 0).holdsBatch batch0 = true ∧ (logged ws.1 ws.2 0).namedBy ws 0 batch0 = some (3, 0)
      ∧ (logged ws.1 ws.2 0).namedBy other 0 batch0 = none ∧ (withReqs dev [adder 3 .atHome]).holdsBatch batch0 = false := by decide +kernel


/-- The device before its one graph is submitted: a node that nothing follows, on a page that is marked. -/
def unsubmitted : State :=
  let s := walking 0x30003D []
  { s with mem := Mem.writeBytes s.mem 0x300000 waitNode }

/-- Where a node's bytes lie. -/
def nodePa (a : Nat) : Nat := 0x2F0000 + a

/-- A walk reads the same of any memory that differs in the bytes that a submission resets alone. -/
theorem entries_same {m : List Host.Cell}
    (h : ∀ x, ¬ResetBytes [(0x10000, waitNode)] nodePa x → Mem.read m x = Mem.read unsubmitted.mem x) (pa : Nat)
    (hp : pa + 8 ≤ 0x300000) :
    ({ unsubmitted with mem := m }).tableEntry pa = unsubmitted.tableEntry pa := by
  generalize unsubmitted = s at h ⊢
  unfold State.tableEntry State.homeByte
  refine congrArg _ (congrArg _ (List.map_congr_left fun i hi => ?_))
  have hm : Mem.read m (pa + i) = Mem.read s.mem (pa + i) := h _ fun hr => by
    have := List.mem_range.mp hi
    obtain ⟨p, hp', hr⟩ := hr
    rw [List.mem_singleton.mp hp'] at hr
    simp only [nodePa] at hr
    omega
  change (match (s.ownerOf (lineOf (pa + i))).bind fun n => (s.core n).l1.find (lineOf (pa + i)) with
    | some x => x.bytes.getD ((pa + i) % 128) 0
    | none => Mem.read m (pa + i)) = _
  cases (s.ownerOf (lineOf (pa + i))).bind fun n => (s.core n).l1.find (lineOf (pa + i)) with
  | none => exact hm
  | some x => rfl

theorem walk_same {m : List Host.Cell}
    (h : ∀ x, ¬ResetBytes [(0x10000, waitNode)] nodePa x → Mem.read m x = Mem.read unsubmitted.mem x) (va : Nat)
    (hv : va = 0x10004 ∨ va = 0x10070) :
    { unsubmitted with mem := m }.walkWith ⟨[], []⟩ none va
      = ⟨.mapped (pageOf 0x200001 0x30003D false va), 0x200020, 0x30003D, 0x100001, 0x200001, [0x80000, 0x100000, 0x200020]⟩ := by
  have e1 := (entries_same h 0x80000 (by decide)).trans (show unsubmitted.tableEntry 0x80000 = 0x100001 by decide +kernel)
  have e2 := (entries_same h 0x100000 (by decide)).trans (show unsubmitted.tableEntry 0x100000 = 0x200001 by decide +kernel)
  have e3 := (entries_same h 0x200020 (by decide)).trans (show unsubmitted.tableEntry 0x200020 = 0x30003D by decide +kernel)
  have b : unsubmitted.bar0.ptroot.toNat / 2 ^ 19 * 2 ^ 19 = 0x80000 := by decide
  have c : bitsAt va 40 16 = 0 ∧ bitsAt va 23 17 = 0 ∧ bitsAt va 20 3 = 0 ∧ bitsAt va 14 9 = 4 := by
    rcases hv with rfl | rfl <;> decide
  unfold State.walkWith
  generalize State.tableEntry { unsubmitted with mem := m } = f at e1 e2 e3 ⊢
  simp only [Table.find, b, c.1, c.2.1, c.2.2.1, c.2.2.2]
  simp only [if_pos (show 0x80000 < deviceBytes by decide), show f (0x80000 + 8 * 0) = 0x100001 from e1]
  rw [if_neg (by decide)]
  simp only [show f (field (0x100001 : DWord) 47 20 * 2 ^ 20 + 8 * 0) = 0x200001 from e2]
  rw [if_neg (by decide)]
  simp only [show f (leafBase (0x200001 : DWord) ((none : Option Bool).getD (regionVer 0x200001))
    + 8 * if (field (0x200001 : DWord) 4 4 == 1) = true then 0 else 4) = 0x30003D from e3]
  rw [if_neg (by decide), if_pos (by decide)]
  rfl
/-- GraphsAreSubmitted: a graph of one node, whose page the table gives and has marked, and what ends a walk. -/
theorem witness_submitted :
    unsubmitted.GraphFrom 0x10000 [(0x10000, waitNode)] ∧ unsubmitted.mayReset [(0x10000, waitNode)] nodePa
      ∧ Mem.wf unsubmitted.mem = true ∧ (∀ line, unsubmitted.ownerOf line = none) ∧ nodeNext waitNode = []
      ∧ unsubmitted.cpRuns = true ∧ (unsubmitted.slots[0]?).map (fun x => (x.running, x.rung)) = some (false, false)
      ∧ unsubmitted.endsWalk [(0x10000, image [(0, 1, 5), (2, 1, 1), (8, 8, 0x10020)] 0)] 0x10020 true := by
  refine ⟨⟨rfl, by decide, fun p hp => ?_, fun i p hi h0 => ?_⟩, fun p hp off ho => ?_, by decide +kernel, fun _ => rfl,
    by decide +kernel, by decide, by decide +kernel, ⟨_, List.mem_singleton.mpr rfl, by decide +kernel⟩, by decide, Or.inl (by decide)⟩
  · rw [List.mem_singleton.mp hp]
    exact ⟨by decide, by decide +kernel, by decide +kernel⟩
  · match i, h0, hi with
    | i + 1, _, hi => simp at hi
  · rw [List.mem_singleton.mp hp]
    have hv : 0x10000 + off = 0x10004 ∨ 0x10000 + off = 0x10070 := by
      rcases List.mem_cons.mp ho with rfl | ho
      · exact .inl rfl
      · exact .inr (by rw [List.mem_singleton.mp ho])
    have hm : (0x10000 + off) % 2 ^ 56 = 0x10000 + off := by omega
    simp only [hm]
    refine ⟨pageOf 0x200001 0x30003D false (0x10000 + off), ?_, ?_, fun m hw h => ?_⟩
    · rcases hv with e | e <;> rw [e] <;> decide
    · rcases hv with e | e <;> rw [e] <;> decide
    · have hj : (pageOf 0x200001 0x30003D false (0x10000 + off)).writable = true := by
        rcases hv with e | e <;> rw [e] <;> decide
      have hr : ∀ line, State.recall { unsubmitted with mem := m } line = { unsubmitted with mem := m } := fun _ => rfl
      have hb : Mem.read m 0x200020 = 0x3D := by
        refine (h _ fun hx => ?_).trans (by decide +kernel)
        obtain ⟨p, hp', hx⟩ := hx
        rw [List.mem_singleton.mp hp'] at hx
        simp only [nodePa] at hx
        omega
      have hs := Mem.write_read m 0x200020 hw
      rw [hb] at hs
      unfold State.translateNode State.walkAccess
      simp only [walk_same h _ hv, hj, Bool.not_true, Bool.and_false, Bool.false_eq_true, if_false, anyPage, if_true,
        State.afterWalk, State.walked, State.markLeaf, List.foldl, hr, hb]
      exact congrArg (fun k => (({ unsubmitted with mem := k } : State), Except.ok _)) hs

/-! ### More words of the spec (its examples and program listings) -/

/-- A head with a guard. -/
def hdg (l : Len) (b : BitVec 3) (neg : Bool) : Hd := ⟨l, ⟨b, neg⟩⟩

theorem test_words_log :
    decodeWords [0x10318101, 0x00028031, 0] = .ok (.lmul (hdg .ext 2 true) 0 0 70 3 (.reg 0xC4))
      ∧ decodeWords [0x00204102, 0x004AE00D, 0] = .ok (.lmul (hd .lit) 0 0 1 2 (.lit 0x4AE00D))
      ∧ decodeWords [0x0810C108] = .ok (.ladd (hd .base) 0 0 3 1 (.reg 2))
      ∧ decodeWords [0x0011412E, 0x8000, 0] = .ok (.lpowf (hd .lit) 0 0 5 1 (.lit 0x8000))
      ∧ decodeWords [0x00720125, 0x0021C000, 0] = .ok (.lrcp (hd .ext) 0 1 8 7)
      ∧ decodeWords [0x0022C16D, 0x0061C000, 0] = .ok (.cvtli (hd .ext) 0 3 11 2) := by decide

theorem test_words_compare : decodeWords [0x0010C42A, 0, 0] = .ok (.icmp (hd .lit) 1 0 3 1 (.lit 0)) := by decide

theorem test_words_cross :
    decodeWords [0x083100C5, 0x0001C030, 0] = .ok (.slide (hd .ext) 0 4 3 0xC2)
      ∧ decodeWords [0x000108D1, 0x0001C003, 0] = .ok (.redux (hd .ext) 2 0xC4 0)
      ∧ decodeWords [0x0001C8CD, 0x0021C000, 0] = .ok (.scan (hd .ext) 2 1 7 0) := by decide

theorem test_words_memory :
    decodeWords [0x18200DCD, 0x0041C000, 0x10] = .ok (.sts (hd .ext) 3 2 2 6 0x10)
      ∧ decodeWords [0x1C4009C5, 0x0029C000, 0x80] = .ok (.stg (hd .ext) 2 1 2 4 7 0x80)
      ∧ decodeWords [0x0042C9F1, 0x0011C000, 0x80] = .ok (.promote (hd .ext) 2 4 11 4 0x80)
      ∧ decodeWords [0x18229E00] = .ok (.atom (hd .base) 7 0 4 10 2 6 0 0)
      ∧ decodeWords [0x30235E01, 0x0071C000, 0] = .ok (.atom (hd .ext) 7 3 4 13 2 12 0 0) := by decide

theorem test_words_waves :
    decodeWords [0x00414A20] = .ok (.objld (hd .base) 2 5 4 0)
      ∧ decodeWords [0x28400A25, 0x0001C000, 4] = .ok (.objst (hd .ext) 2 4 10 4)
      ∧ decodeWords [0x00C00228] = .ok (.reply (hd .base) 12)
      ∧ decodeWords [0x0000022D, 0x4000, 0] = .ok (.mabort (hdg .ext 1 false)) := by decide

theorem test_words_engines :
    decodeWords [0x0000C9A9, 0x0001C000, 0x21] = .ok (.barc (hd .ext) 2 3 1 2)
      ∧ decodeWords [0x00C00305, 0x00010000, 0] = .ok (.postr (hdg .ext 4 false) 12)
      ∧ decodeWords [0x00828244] = .ok (.hgld (hd .base) 10 8)
      ∧ decodeWords [0x00850A4D, 0x0001C000, 0x31] = .ok (.hgidx (hd .ext) 2 20 8 1 3)
      ∧ decodeWords [0x103006C1, 0x0001C140, 0x00010000] = .ok (.tmma (hd .ext) 1 3 4 5 ⟨0, false, 1⟩) := by decide

/-! ### Computed examples of the spec -/

/-- R85: CRC-32C of "1234", with the inversions of the program. -/
theorem test_crc : crcBytes 0xFFFFFFFF 0x34333231 4 ^^^ 0xFFFFFFFF = 0xF63AF4EE := by decide +kernel

/-- FIPS 180-4's own example: the digest of "abc". -/
theorem test_sha384 :
    ofBytesBE (sha384 [0x61, 0x62, 0x63])
      = 0xcb00753f45a35e8bb5a03d699ac65007272c32ab0eded1631a8b605a43ff5bed8086072ba1e7cc2358baeca134c825a7 := by decide +kernel

/-- R254: the curve's first quads. -/
theorem test_curve : (List.range 6).map quadOfPos = [(0, 0), (1, 0), (1, 1), (0, 1), (0, 2), (0, 3)] := by decide

/-- R263: two lines' home slices. -/
theorem test_home : homeSlice 0x1000 = 288 ∧ homeSlice 0x1080 = 33 := by decide

/-- The descriptor of the hashed-grid example: two levels of 16 entries, two dimensions, two features. -/
def descExample : BitVec 512 := 0x4480000007F1 + 0x84 * 2 ^ 48 + 0x08000003 * 2 ^ 128

/-- R325, R327: corner (3, 2) of level 1 is hashed to entry 15. -/
theorem test_hashed : hgIndex descExample 1 [3, 2] = 15 ∧ hgEntry descExample 0x4000800000 1 15 = 0x4000804004 := by decide +kernel

/-- HashedGridRequests, UniformLoadsAndFences: a group with that descriptor, and one without; the descriptor may be loaded. -/
theorem witness_hashed :
    let s := { dev.modGroup grp (fun g => { g with hg := some descExample, hgAt := 0x18000 }) with
      cores := [(0, { CoreHw.reset with tlb := [page 0x18000 0x308000 .hashedGrid] })], cur := some lanes }
    readyB (.hgld (hd .base) 8 4) s lanes = true ∧ readyB (.hgscat (hd .base) 4 8) s lanes = true
      ∧ readyB (.hgidx (hd .ext) 2 8 4 1 3) s lanes = true ∧ (dev.group grp).map (·.hg.isNone) = some true
      ∧ readyB (.hgld (hd .base) 8 4) (issuing dev lanes) lanes = true
      ∧ (∀ p ∈ (s.core 0).tlb, p.cls = .hashedGrid ∧ p.peer = none) ∧ numberedB s = true
      ∧ hgOk descExample 0x18000 = true ∧ 1 < hgLevels descExample ∧ 3 < 2 ^ hgD descExample := by decide +kernel

/-- HashedGridArithmetic: a level whose corners fit its table and one whose corners do not; coordinates that leave no weight and
that leave one; entries of two bytes for each feature. -/
theorem witness_grid :
    let d := descExample
    ([0x40000000, 0x40000000] : List Word).length = hgD d ∧ hgN d 0 ≠ 0 ∧ hgN d 1 ≠ 0
      ∧ (hgN d 0 + 1) ^ hgD d ≤ 2 ^ hgT d 0 ∧ 2 ^ hgT d 1 < (hgN d 1 + 1) ^ hgD d
      ∧ hgFC d ≠ 0 ∧ (List.replicate (hgLevels d * 2 ^ hgD d) (List.replicate (2 * hgF d) (0 : Byte))).length = hgLevels d * 2 ^ hgD d
      ∧ 0 * hgN d 0 % 2 ^ 32 ≤ 1 ∧ ¬0x40000000 * hgN d 0 % 2 ^ 32 ≤ 1 := by decide +kernel

end Sys2Proof.Tests
end

section
/-! SUPPORT. What an instruction over alu leaves in a member's thread, stated once for the two shapes of destination (an
integer of the operation width, a 32-bit word), for a condition bit and for the flags. -/

namespace Sys2Proof.Machine

open Sys2Proof

/-! ### Effects of one destination -/

/-- Some operand of the instruction is a destination with code d that may be no group register; a pair where it is wide (R23,
R25). -/
def OrdinaryDest (i : Instr) (wide : Bool) (d : Code) : Prop :=
  ∀ hg, ∃ o ∈ operandsOf hg i, o.dest = true ∧ o.groupDest = false ∧ o.code = d ∧ (wide = true → 2 ≤ o.n)

/-- An instruction whose first operand is a destination of n registers. -/
theorem ordinaryDest_of_head {i : Instr} {wide : Bool} {d : Code} {n : Nat} {os : Option (BitVec 512) → List Opnd}
    (h : ∀ hg, operandsOf hg i = dst d n :: os hg) (hn : wide = true → 2 ≤ n) : OrdinaryDest i wide d :=
  fun hg => ⟨dst d n, by simp [h hg], rfl, rfl, rfl, hn⟩

/-- An instruction whose first operand is a destination of the operation width. -/
theorem ordinaryDest_w64 {i : Instr} {v : BitVec 4} {d : Code} {os : Option (BitVec 512) → List Opnd}
    (h : ∀ hg, operandsOf hg i = dst d (w64 v) :: os hg) : OrdinaryDest i (isWide v) d :=
  ordinaryDest_of_head h fun hw => by simp [w64, show v.getLsbD 2 = true from hw]

/-- An instruction whose first operand is a destination of one register. -/
theorem ordinaryDest_one {i : Instr} {d : Code} {os : Option (BitVec 512) → List Opnd}
    (h : ∀ hg, operandsOf hg i = dst d 1 :: os hg) : OrdinaryDest i false d :=
  ordinaryDest_of_head h fun hw => absurd hw Bool.false_ne_true

/-- The effect does not depend on the marks of register lines. -/
def Steady (i : Instr) (f : State → Thread → Eff) : Prop :=
  ∀ (s : State) (u : Issue) (ms : List Nat) (th : Thread), f (s.touchLines u i ms) th = f s th

/-- What an effect of at most one register and one condition bit leaves in the thread that has had it. -/
structure Eff.Done (e : Eff) (i : Instr) (s t : State) (th : Thread) : Prop where
  int : ∀ wide d x, OrdinaryDest i wide d → e.regs = putInt th wide d x → ∀ sg, t.intReg th wide sg d
    = if sg then x.bmod (2 ^ opWidth th wide) else x % 2 ^ opWidth th wide
  word : ∀ d x, OrdinaryDest i false d → e.regs = [.r32 d x] → t.reg32 th d = x
  bit : ∀ c b, e.conds = [(c, b)] → t.condBit th c = (decide (c = 7) || b)
  flags : t.lswOf th = s.lswOf th ||| (if th.isControl then 0 else e.flags)

theorem reg32_of_reg {t : State} {th : Thread} {d : Code} {x : Word} (h : t.reg th d = x.zeroExtend 64) :
    t.reg32 th d = x := by
  rw [State.reg32, h]
  exact BitVec.setWidth_setWidth_of_le x (by decide)

theorem condBit_seven (s : State) (th : Thread) : s.condBit th 7 = true := rfl

theorem lswOf_of_control (s : State) {th : Thread} (h : th.isControl = true) : s.lswOf th = 0 := by
  cases th with
  | control q => rfl
  | lane l => simp [Thread.isControl] at h
  | wave n i => simp [Thread.isControl] at h

variable {s : State} {i : Instr} {u : Issue}

/-- A member's thread stands as its effect leaves it. -/
theorem effNext_done (h : Ready i s u) (f : State → Thread → Eff) (hf : Steady i f) (n : Nat) (hn : Member i s u n) :
    (f s (u.engine.thread n)).Done i s (effNext i s u fun s n => f s (u.engine.thread n)) (u.engine.thread n) where
  int := fun wide d x hd hr sg => effNext_putInt_value h f n hn wide sg d x (hd _) (by rw [hf]; exact hr)
  word := fun d x hd hr => by
    obtain ⟨o, ho, h1, h2, rfl, -⟩ := hd (s.hgOf u.engine)
    exact reg32_of_reg (effNext_r32 h f n hn _ x (own_of_ready h ho h1 h2 n) (by rw [hf]; exact hr))
  bit := fun c b hc => by
    by_cases h7 : c = 7
    · subst h7; exact condBit_seven _ _
    · rw [decide_eq_false h7, Bool.false_or]
      exact alu_cond h f n hn c b fun x => by rw [hf, hc]; exact if_pos ⟨rfl, h7⟩
  flags := by
    cases hctl : (u.engine.thread n).isControl with
    | true => simp [lswOf_of_control _ hctl]
    | false => exact alu_lsw h f n hn _ hctl (by rw [hf]; rfl)

/-- What holds of an instruction and a thread, where an issue may execute it there: it is well formed, and a control core takes
it (R33, R34, R50). -/
structure Runs (i : Instr) (th : Thread) : Prop where
  wellFormed : i.wellFormed = true
  engine : th.isControl = true → (enginesOf i).control = true

theorem runs_of_ready (h : Ready i s u) (n : Nat) : Runs i (u.engine.thread n) := by
  have hl := h.legal
  simp only [legalFor, Bool.and_eq_true] at hl
  obtain ⟨⟨⟨hw, he⟩, -⟩, -⟩ := hl
  refine ⟨hw, fun hc => ?_⟩
  cases hu : u.engine with
  | control q => rwa [hu] at he
  | lane g => rw [hu] at hc; exact absurd hc Bool.false_ne_true
  | method k => rw [hu] at hc; exact absurd hc Bool.false_ne_true

/-- The threads of an instruction that a control core does not take have flags. -/
theorem Runs.not_control {th : Thread} (h : Runs i th) (he : (enginesOf i).control = false) : th.isControl = false :=
  Bool.eq_false_iff.2 fun hc => by simp [h.engine hc] at he

/-- An instruction over alu computes what its effects leave, if they stay within the frame. -/
theorem computes_done {i : Instr} {wide : Bool} {ds : List Code} {conds : List CBit} {flags : Bool}
    {P : State → State → Thread → Prop} (f : State → Thread → Eff) (hx : ∀ s, exec i s = alu i f s) (hf : Steady i f)
    (hr : ∀ s th, ∀ w ∈ (f s th).regs, ∀ c ∈ w.codes th.isControl,
      c ∈ ds.flatMap fun d => if wide && !th.isControl then [d, d + 1] else [d])
    (hc : ∀ s th, ∀ p ∈ (f s th).conds, p.1 ∈ conds)
    (hfl : flags = false → ∀ s th, (f s th).flags = 0)
    (hP : ∀ s t th, Runs i th → (f s th).Done i s t th → P s t th) : Computes i wide ds conds flags P :=
  computes_alu f hx hr hc hfl fun s _ h n hn => hP s _ _ (runs_of_ready h n) (effNext_done h f hf n hn)

/-- An instruction that writes an integer of the operation width, and sets no flag. -/
theorem computes_int {i : Instr} {wide : Bool} {d : Code} {P : State → State → Thread → Prop} (x : State → Thread → Int)
    (hx : ∀ s, exec i s = alu i (fun s th => { regs := putInt th wide d (x s th) }) s)
    (hf : ∀ s u ms th, x (s.touchLines u i ms) th = x s th) (hd : OrdinaryDest i wide d)
    (hP : ∀ s t th, Runs i th → (∀ sg, t.intReg th wide sg d
      = if sg then (x s th).bmod (2 ^ opWidth th wide) else x s th % 2 ^ opWidth th wide) → P s t th) :
    Computes i wide [d] [] false P :=
  computes_done _ hx (fun s u ms th => by simp only [hf]) (fun s th => putInt_codes th wide d (x s th))
    (fun _ _ _ hp => absurd hp List.not_mem_nil) (fun _ _ _ => rfl)
    fun s t th hw h => hP s t th hw (h.int wide d _ hd rfl)

/-- What an instruction computes may be weakened, under what its legality gives. -/
theorem Computes.imp {i : Instr} {wide : Bool} {ds : List Code} {conds : List CBit} {flags : Bool}
    {P Q : State → State → Thread → Prop} (h : Computes i wide ds conds flags P)
    (hPQ : ∀ s t th, Runs i th → P s t th → Q s t th) : Computes i wide ds conds flags Q := fun s u hr => by
  obtain ⟨t, ht, hframe, hP⟩ := h s u hr
  exact ⟨t, ht, hframe, fun n hn => hPQ s t _ (runs_of_ready hr n) (hP n hn)⟩

/-- The write of one 32-bit word stays within the destination. -/
theorem r32_codes {d : Code} (th : Thread) (x : Word) : ∀ w ∈ [RegWrite.r32 d x], ∀ c ∈ w.codes th.isControl,
    c ∈ [d].flatMap fun d => if false && !th.isControl then [d, d + 1] else [d] := by
  intro w hw c hc
  rw [List.mem_singleton.1 hw] at hc
  simpa [RegWrite.codes] using hc

/-- An instruction that writes one 32-bit word and sets flags. -/
theorem computes_word_flags {i : Instr} {d : Code} {P : State → State → Thread → Prop} (x fl : State → Thread → Word)
    (hx : ∀ s, exec i s = alu i (fun s th => { regs := [.r32 d (x s th)], flags := fl s th }) s)
    (hf : ∀ s u ms th, x (s.touchLines u i ms) th = x s th ∧ fl (s.touchLines u i ms) th = fl s th)
    (hd : OrdinaryDest i false d)
    (hP : ∀ s t th, Runs i th → t.reg32 th d = x s th →
      t.lswOf th = s.lswOf th ||| (if th.isControl then 0 else fl s th) → P s t th) : Computes i false [d] [] true P :=
  computes_done _ hx (fun s u ms th => by simp only [(hf s u ms th).1, (hf s u ms th).2]) (fun s th => r32_codes th _)
    (fun _ _ _ hp => absurd hp List.not_mem_nil) (fun h => absurd h (by decide))
    fun s t th hw h => hP s t th hw (h.word d _ hd rfl) h.flags

/-- An instruction that writes one 32-bit word and sets no flag. -/
theorem computes_word {i : Instr} {d : Code} {P : State → State → Thread → Prop} (x : State → Thread → Word)
    (hx : ∀ s, exec i s = alu i (fun s th => { regs := [.r32 d (x s th)] }) s)
    (hf : ∀ s u ms th, x (s.touchLines u i ms) th = x s th) (hd : OrdinaryDest i false d)
    (hP : ∀ s t th, Runs i th → t.reg32 th d = x s th → P s t th) : Computes i false [d] [] false P :=
  computes_done _ hx (fun s u ms th => by simp only [hf]) (fun s th => r32_codes th _)
    (fun _ _ _ hp => absurd hp List.not_mem_nil) (fun _ _ _ => rfl) fun s t th hw h => hP s t th hw (h.word d _ hd rfl)

/-- An instruction that writes one condition bit. -/
theorem computes_bit {i : Instr} {c : CBit} {P : State → State → Thread → Prop} (b : State → Thread → Bool)
    (hx : ∀ s, exec i s = alu i (fun s th => { conds := [(c, b s th)] }) s)
    (hf : ∀ s u ms th, b (s.touchLines u i ms) th = b s th)
    (hP : ∀ s t th, Runs i th → t.condBit th c = (decide (c = 7) || b s th) → P s t th) :
    Computes i false [] [c] false P :=
  computes_done _ hx (fun s u ms th => by simp only [hf]) (fun _ _ _ hw => absurd hw List.not_mem_nil)
    (fun s th p hp => by rw [List.mem_singleton.1 hp]; exact List.mem_singleton_self c) (fun _ _ _ => rfl)
    fun s t th hw h => hP s t th hw (h.bit c _ rfl)

end Sys2Proof.Machine
end

section
/-! SUPPORT. IntegerOperations (R69, R70): ranges of the operation width, the finish of an exact integer, and the forms that an
entry does not define. -/

namespace Sys2Proof.Machine

open Sys2Proof

/-! ### Ranges -/

/-- x is a number of w bits, signed or unsigned. -/
def InRange (sg : Bool) (w : Nat) (x : Int) : Prop :=
  if sg then -(2 ^ (w - 1)) ≤ x ∧ x < 2 ^ (w - 1) else 0 ≤ x ∧ x < 2 ^ w

theorem two_pow_eq_double {w : Nat} (hw : 0 < w) : (2 : Int) ^ w = 2 * 2 ^ (w - 1) := by
  obtain ⟨k, rfl⟩ : ∃ k, w = k + 1 := ⟨w - 1, by omega⟩
  rw [Nat.add_sub_cancel, pow_succ, mul_comm]

/-- Wrapping keeps a number of the width. -/
theorem wrap_of_inRange {sg : Bool} {w : Nat} {x : Int} (hw : 0 < w) (h : InRange sg w x) :
    (if sg then x.bmod (2 ^ w) else x % 2 ^ w) = x := by
  cases sg with
  | true =>
    obtain ⟨h1, h2⟩ : -(2 ^ (w - 1)) ≤ x ∧ x < 2 ^ (w - 1) := h
    have hp := two_pow_eq_double hw
    rw [if_pos rfl]
    apply Int.bmod_eq_of_le <;> push_cast <;> omega
  | false => exact Int.emod_eq_of_lt h.1 h.2

theorem InRange.min {sg : Bool} {w : Nat} {x y : Int} (hx : InRange sg w x) (hy : InRange sg w y) :
    InRange sg w (min x y) := by
  rcases min_choice x y with e | e <;> rwa [e]

theorem InRange.max {sg : Bool} {w : Nat} {x y : Int} (hx : InRange sg w x) (hy : InRange sg w y) :
    InRange sg w (max x y) := by
  rcases max_choice x y with e | e <;> rwa [e]

theorem asInt_inRange {w : Nat} (sg : Bool) (x : BitVec w) : InRange sg w (asInt sg x) := by
  cases sg with
  | true => exact ⟨BitVec.le_toInt x, BitVec.toInt_lt⟩
  | false =>
    have : (x.toNat : Int) < 2 ^ w := mod_cast x.isLt
    exact ⟨Int.natCast_nonneg _, this⟩

theorem opWidth_pos (th : Thread) (wide : Bool) : 0 < opWidth th wide := by unfold opWidth; split <;> decide

theorem opWidth_cases (th : Thread) (wide : Bool) : opWidth th wide = 64 ∨ opWidth th wide = 32 := by
  unfold opWidth; split <;> simp

theorem intReg_inRange (s : State) (th : Thread) (wide sg : Bool) (c : Code) :
    InRange sg (opWidth th wide) (s.intReg th wide sg c) := by
  unfold State.intReg
  rcases opWidth_cases th wide with h | h <;> rw [h] <;> exact asInt_inRange sg _

theorem intB_inRange (s : State) (th : Thread) (wide sg : Bool) (b : SrcB) :
    InRange sg (opWidth th wide) (s.intB th wide sg b) := by
  unfold State.intB
  rcases opWidth_cases th wide with h | h <;> rw [h] <;> exact asInt_inRange sg _

/-! ### Saturation (R69) -/

theorem clampInt_eq {lo hi : Int} (h : lo ≤ hi) (x : Int) : clampInt lo hi x = max lo (min hi x) := by
  unfold clampInt; split_ifs <;> omega

theorem satS_eq (w : Nat) (x : Int) : satS w x = max (-(2 ^ (w - 1))) (min (2 ^ (w - 1) - 1) x) :=
  have : (0 : Int) < 2 ^ (w - 1) := by positivity
  clampInt_eq (by omega) x

theorem satU_eq (w : Nat) (x : Int) : satU w x = max 0 (min (2 ^ w - 1) x) :=
  have : (0 : Int) < 2 ^ w := by positivity
  clampInt_eq (by omega) x

theorem satS_inRange (w : Nat) (x : Int) : InRange true w (satS w x) := by
  have : (0 : Int) < 2 ^ (w - 1) := by positivity
  rw [satS_eq]
  exact ⟨by omega, by omega⟩

theorem satU_inRange (w : Nat) (x : Int) : InRange false w (satU w x) := by
  have : (0 : Int) < 2 ^ w := by positivity
  rw [satU_eq]
  exact ⟨by omega, by omega⟩

/-! ### The finish of an exact integer (R69) -/

/-- SAT, save on a control core, which has no flags. -/
theorem sat_flag (p : Prop) [Decidable p] (ctl : Bool) :
    (if ctl then 0 else if p then flagSAT else 0) = if p ∧ ctl = false then (0x10 : Word) else 0 := by
  cases ctl <;> simp [flagSAT]

/-- An instruction that finishes the exact integer x. -/
theorem computes_finished {i : Instr} {v : BitVec 4} {d : Code} (x : State → Thread → Int)
    (hx : ∀ s, exec i s = alu i (fun s th => intResult th v d (x s th)) s)
    (hf : ∀ s u ms th, x (s.touchLines u i ms) th = x s th) (hd : OrdinaryDest i (isWide v) d) :
    Computes i (isWide v) [d] [] true fun s t th => Finished v d (x s th) s t th := by
  refine computes_done _ hx (fun s u ms th => by simp only [hf]) (fun s th => putInt_codes th _ d _)
    (fun _ _ _ hp => absurd hp List.not_mem_nil) (fun h => absurd h (by decide)) fun s t th _ h => ?_
  have hreg := h.int _ d _ hd rfl
  have hlsw := h.flags
  have hw := opWidth_pos th (isWide v)
  unfold Finished
  unfold intResult intFinish at hreg hlsw
  by_cases h0 : slice v 0 2 = 0
  · simp only [h0, if_true] at hreg hlsw ⊢
    exact ⟨hreg false, by simpa using hlsw⟩
  · simp only [h0, if_false] at hreg hlsw ⊢
    by_cases h1 : slice v 0 2 = 1
    · simp only [h1, if_true] at hreg hlsw ⊢
      rw [← satS_eq]
      exact ⟨(hreg true).trans (wrap_of_inRange hw (satS_inRange _ _)), hlsw.trans (by rw [sat_flag])⟩
    · simp only [h1, if_false] at hreg hlsw ⊢
      rw [← satU_eq]
      refine ⟨?_, hlsw.trans (by rw [sat_flag])⟩
      rw [beq_false_of_ne h1]
      exact (hreg false).trans (wrap_of_inRange hw (satU_inRange _ _))

/-- An instruction that writes one of the numbers of its width, whatever the reading. -/
theorem computes_inRange {i : Instr} {wide sg : Bool} {d : Code} (x : State → Thread → Int)
    (hx : ∀ s, exec i s = alu i (fun s th => { regs := putInt th wide d (x s th) }) s)
    (hf : ∀ s u ms th, x (s.touchLines u i ms) th = x s th) (hd : OrdinaryDest i wide d)
    (hr : ∀ s th, InRange sg (opWidth th wide) (x s th)) :
    Computes i wide [d] [] false fun s t th => t.intReg th wide sg d = x s th :=
  computes_int x hx hf hd fun s _ th _ h => (h sg).trans (wrap_of_inRange (opWidth_pos th wide) (hr s th))

/-! ### Forms that an entry does not define (R29, R31) -/

/-- LEN and MD of a well-formed instruction are values that its entry defines; for SUB, see Laws.sub_of_accepts. -/
theorem len_md_of_wellFormed {i : Instr} {f : Fields} {p : Shape} (h : i.wellFormed = true) (hf : i.fields = some f)
    (hp : i.shape = some p) : p.lens.getLsbD f.len.toBits.toNat = true ∧ p.mds.getLsbD f.md.toNat = true := by
  unfold Instr.wellFormed Instr.accepts at h
  rw [hf, hp] at h
  simp only [Shape.ok, Bool.and_eq_true] at h
  obtain ⟨⟨⟨⟨-, ⟨hlen, -⟩, hmd⟩, -⟩, -⟩, -⟩ := h
  exact ⟨hlen, hmd⟩

theorem not_wellFormed_of_sub {i : Instr} {f : Fields} {p : Shape} (hf : i.fields = some f) (hp : i.shape = some p)
    (h : p.subs.getLsbD f.sub.toNat = false) : i.wellFormed = false :=
  Bool.eq_false_iff.2 fun hw => by simp [Laws.sub_of_accepts hw hf hp] at h

theorem not_wellFormed_of_md {i : Instr} {f : Fields} {p : Shape} (hf : i.fields = some f) (hp : i.shape = some p)
    (h : p.mds.getLsbD f.md.toNat = false) : i.wellFormed = false :=
  Bool.eq_false_iff.2 fun hw => by simp [(len_md_of_wellFormed hw hf hp).2] at h

theorem not_wellFormed_of_len {i : Instr} {f : Fields} {p : Shape} (hf : i.fields = some f) (hp : i.shape = some p)
    (h : p.lens.getLsbD f.len.toBits.toNat = false) : i.wellFormed = false :=
  Bool.eq_false_iff.2 fun hw => by simp [(len_md_of_wellFormed hw hf hp).1] at h

theorem not_wellFormed_of_entry {i : Instr} (h : i.entryOk = false) : i.wellFormed = false :=
  Bool.eq_false_iff.2 fun hw => by simp [Laws.entry_of_accepts hw] at h

/-- An entry that defines the SUB or MD values below k leaves the others out. -/
theorem getLsbD_of_le {k : Nat} {v : BitVec 4} (h : k ≤ v.toNat) : (BitVec.ofNat 16 (2 ^ k - 1)).getLsbD v.toNat = false := by
  rw [BitVec.getLsbD_ofNat, Nat.testBit_two_pow_sub_one]
  simp [h.not_gt]

/-- An entry that defines SUB 0 and 1 at 32 and at 64 bits. -/
theorem getLsbD_two_forms : ∀ v : BitVec 4, v ∉ ([0, 1, 4, 5] : List (BitVec 4)) →
    (0x33 : BitVec 16).getLsbD v.toNat = false := by decide

/-- An entry whose forms are the two with an extension word. -/
theorem lens_extended {l : Len} (h : l = .base ∨ l = .lit) : (10 : BitVec 4).getLsbD l.toBits.toNat = false := by
  rcases h with rfl | rfl <;> rfl

/-- An entry whose forms are the two without a literal. -/
theorem lens_noLiteral {l : Len} (h : l = .lit ∨ l = .extLit) : (3 : BitVec 4).getLsbD l.toBits.toNat = false := by
  rcases h with rfl | rfl <;> rfl

/-! ### The statements -/

/-- R69, R70: each of the six effects is intResult of its exact integer. -/
theorem integerArithmetic : Claims.IntegerArithmetic := by
  intro h v d a c b
  refine ⟨?add, ?sub, ?mul, ?mad, ?abs, ?neg⟩
  case abs =>
    exact computes_finished _ (fun _ => by simp only [Int.abs_eq_natAbs]; rfl) (by simp) (ordinaryDest_w64 fun _ => rfl)
  all_goals exact computes_finished _ (fun _ => rfl) (by simp) (ordinaryDest_w64 fun _ => rfl)

/-- R70: the high product is wrapped; the smaller and the larger source are numbers of the width as they are. -/
theorem integerHighAndOrder : Claims.IntegerHighAndOrder := by
  intro h v d a b w sg
  refine ⟨?high, ?min, ?max⟩
  case high =>
    exact computes_int (fun s th => s.intReg th w sg a * s.intB th w sg b / 2 ^ opWidth th w) (fun _ => rfl) (by simp)
      (ordinaryDest_w64 fun _ => rfl) fun _ _ _ _ hr => hr false
  case min =>
    refine computes_inRange (sg := sg) _ (fun _ => ?_) (by simp) (ordinaryDest_w64 fun _ => rfl) fun s th =>
      (intReg_inRange s th w sg a).min (intB_inRange s th w sg b)
    simp only [min_comm (State.intReg ..), min_def_lt]
    rfl
  case max =>
    refine computes_inRange (sg := sg) _ (fun _ => ?_) (by simp) (ordinaryDest_w64 fun _ => rfl) fun s th =>
      (intReg_inRange s th w sg a).max (intB_inRange s th w sg b)
    simp only [max_def_lt]
    rfl

/-- R69, R70: undefined SUB values and forms. -/
theorem integerForms : Claims.IntegerForms := by
  intro h v d a c b none'
  have six : ∀ v : BitVec 4, v ∉ ([0, 1, 2, 4, 5, 6] : List (BitVec 4)) → (0x77 : BitVec 16).getLsbD v.toNat = false := by
    decide
  have even : ∀ v : BitVec 4, v ∉ ([0, 2, 4, 6] : List (BitVec 4)) → (0x55 : BitVec 16).getLsbD v.toNat = false := by decide
  refine ⟨fun hv => ?_, fun hv => ?_, fun hv => ?_, fun hl => ?_, fun hl => ?_⟩ <;>
    simp only [none', List.forall_mem_cons, List.not_mem_nil, false_imp_iff, implies_true, and_true]
  · exact ⟨not_wellFormed_of_sub rfl rfl (six v hv), not_wellFormed_of_sub rfl rfl (six v hv),
      not_wellFormed_of_sub rfl rfl (six v hv), not_wellFormed_of_sub rfl rfl (six v hv)⟩
  · exact ⟨not_wellFormed_of_sub rfl rfl (even v hv), not_wellFormed_of_sub rfl rfl (even v hv),
      not_wellFormed_of_sub rfl rfl (even v hv)⟩
  · exact ⟨not_wellFormed_of_sub rfl rfl (getLsbD_two_forms v hv), not_wellFormed_of_sub rfl rfl (getLsbD_two_forms v hv)⟩
  · exact not_wellFormed_of_len rfl rfl (lens_extended hl)
  · exact ⟨not_wellFormed_of_len rfl rfl (lens_noLiteral hl), not_wellFormed_of_len rfl rfl (lens_noLiteral hl)⟩

/-- Settles O5: each instruction is an alu effect whose exact integer is finished once, or a number of its width. -/
theorem integerOperations : Obligations.IntegerOperations :=
  ⟨integerArithmetic, integerHighAndOrder, integerForms⟩

end Sys2Proof.Machine
end

section
/-! SUPPORT. CarriesAndBytes (R71 to R73, R83 to R85): sums with a carry, scaled addresses, comparisons, and the bytes of a
word. -/

namespace Sys2Proof.Machine

open Sys2Proof

/-! ### Carries, addresses and comparisons (R71 to R73) -/

/-- IADDC's exact sum with the carry, or difference with the borrow (R71). -/
def carrySum (v : BitVec 4) (a : Code) (b : SrcB) (cc : CBit) (s : State) (th : Thread) : Int :=
  let ci : Int := if s.condBit th cc then 1 else 0
  if v.getLsbD 0 then s.intReg th (isWide v) false a - s.intB th (isWide v) false b - ci
  else s.intReg th (isWide v) false a + s.intB th (isWide v) false b + ci

/-- The carry or borrow that an exact sum or difference leaves (R71). -/
def carryOut (v : BitVec 4) (th : Thread) (x : Int) : Bool :=
  if v.getLsbD 0 then decide (x < 0) else decide (2 ^ opWidth th (isWide v) ≤ x)

/-- IADDC with its two forms as one effect. -/
theorem execIaddc_eq (h : Hd) (v : BitVec 4) (d a : Code) (b : SrcB) (cc : CBit) (s : State) :
    exec (.iaddc h v d a b cc) s = alu (.iaddc h v d a b cc) (fun s th =>
      { regs := putInt th (isWide v) d (carrySum v a b cc s th),
        conds := [(cc, carryOut v th (carrySum v a b cc s th))] }) s := by
  show execIaddc h v d a b cc s = _
  unfold execIaddc
  congr 1
  funext s th
  unfold carrySum carryOut
  cases v.getLsbD 0 <;> rfl

/-- Adding y shifted left by n adds z · 2^n modulo 2^64, where y stands for z (R72). -/
theorem toNat_add_shiftLeft (x y : DWord) (z : Int) (n : Nat) (h : (y.toNat : Int) ≡ z [ZMOD 2 ^ 64]) :
    ((x + y <<< n).toNat : Int) = (x.toNat + z * 2 ^ n) % 2 ^ 64 := by
  rw [BitVec.toNat_add, BitVec.toNat_shiftLeft, Nat.shiftLeft_eq, Nat.add_mod_mod]
  push_cast
  exact (h.mul_right (2 ^ n)).add_left _

theorem toNat_modEq_toInt {w : Nat} (x : BitVec w) : (x.toNat : Int) ≡ x.toInt [ZMOD 2 ^ w] := by
  rw [BitVec.toInt_eq_toNat_bmod]
  have := Int.bmod_emod (x := (x.toNat : Int)) (m := 2 ^ w)
  push_cast at this
  exact this.symm

/-- A sign-extended word stands for its signed number. -/
theorem toNat_signExtend_modEq (x : Word) : ((x.signExtend 64).toNat : Int) ≡ x.toInt [ZMOD 2 ^ 64] := by
  rw [← BitVec.toInt_signExtend_of_le (x := x) (show 32 ≤ 64 by decide)]
  exact toNat_modEq_toInt _

theorem opWidth_wide (th : Thread) : opWidth th true = 64 := by simp [opWidth]

theorem intReg_wide (s : State) (th : Thread) (c : Code) : s.intReg th true false c = (s.reg64 th c).toNat := by
  simp [State.intReg, opWidth, asInt]

theorem putInt_toNat (th : Thread) (d : Code) (x : DWord) : putInt th true d x.toNat = [.r64 d x] := by
  simp [putInt, opWidth]

/-- R71 to R73. -/
theorem carryAddressCompare : Claims.CarryAddressCompare := by
  intro h v md d a b cc w
  refine ⟨?iaddc, ?lea, ?icmp, fun hv => ?iaddcForms, fun hv => ?icmpForms⟩
  case iaddc =>
    refine computes_done _ (execIaddc_eq h v d a b cc) (fun s u ms th => by simp [carrySum]) (fun s th => putInt_codes th _ d _)
      (fun s th p hp => by rw [List.mem_singleton.1 hp]; exact List.mem_singleton_self cc) (fun _ _ _ => rfl)
      fun s t th _ hd => ?_
    exact ⟨hd.int w d _ (ordinaryDest_w64 fun _ => rfl) rfl false, hd.bit cc _ rfl⟩
  case lea =>
    refine computes_int (fun s th => ((s.reg64 th a + (if v.getLsbD 3 then (s.b32 th b).zeroExtend 64
      else (s.b32 th b).signExtend 64) <<< (slice v 0 3).toNat).toNat : Int)) (fun s => ?_) (by simp)
      (ordinaryDest_of_head (fun _ => rfl) fun _ => le_rfl) fun s t th _ hd => ?_
    · simp only [putInt_toNat]; rfl
    · have hx := hd false
      rw [intReg_wide, if_neg Bool.false_ne_true, opWidth_wide, toNat_add_shiftLeft _ _ (if v.getLsbD 3 then
        ((s.b32 th b).toNat : Int) else (s.b32 th b).toInt), Int.emod_emod] at hx
      · exact hx
      · split
        · rw [BitVec.toNat_setWidth_of_le (by decide)]
        · exact toNat_signExtend_modEq _
  case icmp =>
    refine computes_bit (fun s th => icmpHolds v (s.intReg th (md == 1) true a) (s.intB th (md == 1) true b)
      (s.intReg th (md == 1) false a) (s.intB th (md == 1) false b)) (fun _ => rfl) (by simp) fun s t th _ hb => ?_
    refine ⟨?_, ?_, ?_, ?_, ?_, ?_, ?_, ?_, ?_, ?_⟩ <;> rintro rfl <;> exact hb
  case iaddcForms =>
    rcases hv with hv | hl
    · exact not_wellFormed_of_sub rfl rfl (getLsbD_two_forms v hv)
    · exact not_wellFormed_of_len rfl rfl (lens_extended hl)
  case icmpForms =>
    rcases hv with hv | hm
    · exact not_wellFormed_of_sub rfl rfl (getLsbD_of_le hv)
    · exact not_wellFormed_of_md rfl rfl (getLsbD_of_le hm)

/-! ### Searches and masks -/

/-- The first number below n that p marks, or n. -/
theorem find_range_getD (p : Nat → Bool) (n : Nat) : ∃ k, ((List.range n).find? p).getD n = k ∧ k ≤ n
    ∧ (k < n → p k = true) ∧ ∀ j, j < k → p j = false := by
  cases hf : (List.range n).find? p with
  | none =>
    refine ⟨n, rfl, le_rfl, fun h => absurd h (lt_irrefl n), fun j hj => ?_⟩
    simpa using List.find?_eq_none.1 hf j (List.mem_range.2 hj)
  | some k =>
    obtain ⟨hk, hm, hlt⟩ := List.find?_range_eq_some.1 hf
    refine ⟨k, rfl, (List.mem_range.1 hm).le, fun _ => hk, fun j hj => ?_⟩
    simpa using hlt j hj

theorem getLsbD_maskOf (ls : List Nat) (j : Nat) : (maskOf ls).getLsbD j = decide (j < 32 ∧ j ∈ ls) := by
  have key : ∀ (ls : List Nat) (m : Word), (ls.foldl (fun m i => m ||| (1#32 <<< i)) m).getLsbD j
      = (m.getLsbD j || decide (j < 32 ∧ j ∈ ls)) := by
    intro ls
    induction ls with
    | nil => simp
    | cons i ls ih =>
      intro m
      rw [List.foldl_cons, ih]
      have hi : (1#32 <<< i).getLsbD j = decide (j < 32 ∧ j = i) := by
        rw [BitVec.getLsbD_shiftLeft, BitVec.getLsbD_one]
        simp only [← Bool.decide_and, ← decide_not]
        exact decide_eq_decide.2 (by omega)
      simp only [BitVec.getLsbD_or, hi, List.mem_cons, Bool.or_assoc, ← Bool.decide_or, ← and_or_left]
  simp [maskOf, key]

/-- A mask of numbers below n is a number of n bits. -/
theorem toNat_maskOf_lt {ls : List Nat} {n : Nat} (h : ∀ j ∈ ls, j < n) : (maskOf ls).toNat < 2 ^ n :=
  Nat.lt_pow_two_of_testBit _ fun j hj => by
    rw [← BitVec.getLsbD, getLsbD_maskOf]
    exact decide_eq_false fun hm => absurd (h j hm.2) (by omega)

/-! ### Bytes (R83 to R85) -/

theorem bitsAt_eq_div_mod (x lo n : Nat) : bitsAt x lo n = x / 2 ^ lo % 2 ^ n := by
  rw [bitsAt, Nat.shiftRight_eq_div_pow]

theorem byteAt_eq (x : Word) (j : Nat) : byteAt x j = x.toNat / 2 ^ (8 * j) % 256 := bitsAt_eq_div_mod _ _ _

/-- The bit steps of the CRC, from the low end, are one function applied again and again (R85). -/
theorem crcBits_eq_foldl (x : Word) (n : Nat) : crcBits x n
    = (List.range n).foldl (fun (x : Word) _ => if x.toNat % 2 = 1 then (x >>> 1) ^^^ 0x82F63B78 else x >>> 1) x := by
  rw [List.foldl_const, List.length_range]
  induction n generalizing x with
  | zero => rfl
  | succ n ih =>
    rw [crcBits, ih, Function.iterate_succ_apply]
    simp only [BitVec.getLsbD, Nat.testBit_zero, decide_eq_true_eq]

/-- The bytes of x that BCMP marks under y (R83). -/
def bcmpHit (v : BitVec 4) (x y : Word) (j : Nat) : Bool :=
  if v = 0 then byteAt x j == byteAt y j else if v = 1 then byteAt x j == byteAt y 0 else inByteRange y (byteAt x j)

/-- The bytes of x that BFIND looks for under y (R83). -/
def bfindHit (v : BitVec 4) (x y : Word) (j : Nat) : Bool :=
  if v = 0 then byteAt x j == byteAt y 0 else inByteRange y (byteAt x j)

/-- The SUB values of an entry that defines three, and of one that defines two. -/
theorem sub_lt_three : ∀ v : BitVec 4, (0x7 : BitVec 16).getLsbD v.toNat = true ↔ v = 0 ∨ v = 1 ∨ v = 2 := by decide

theorem sub_lt_two : ∀ v : BitVec 4, (0x3 : BitVec 16).getLsbD v.toNat = true ↔ v = 0 ∨ v = 1 := by decide

/-- R83 to R85. -/
theorem bytesAndHashes : Claims.BytesAndHashes := by
  intro h v d a b byte range crcBit
  have hbyte : ∀ x j, byteAt x j = byte x j := byteAt_eq
  have hrange : ∀ x y, inByteRange y x = true ↔ range x y := fun x y => by simp [inByteRange, range, hbyte]
  refine ⟨?bcmp, ?bfind, ?bhash, ?bcrc, fun hv => ?three, fun hv => ?two⟩
  case bcmp =>
    refine computes_word (fun s th => maskOf ((List.range 4).filter (bcmpHit v (s.reg32 th a) (s.b32 th b)))) (fun _ => rfl)
      (fun s u ms th => by simp) (ordinaryDest_one fun _ => rfl) fun s t th hr hd => ?_
    have hv := (sub_lt_three v).1 (Laws.sub_of_accepts hr.wellFormed rfl rfl)
    simp only [hd]
    refine ⟨toNat_maskOf_lt (n := 4) fun j hj => List.mem_range.1 (List.mem_filter.1 hj).1, fun j hj => ?_⟩
    have hm : bcmpHit v (s.reg32 th a) (s.b32 th b) j = true ↔ (v = 0 ∧ byte (s.reg32 th a) j = byte (s.b32 th b) j)
        ∨ (v = 1 ∧ byte (s.reg32 th a) j = byte (s.b32 th b) 0) ∨ (v = 2 ∧ range (byte (s.reg32 th a) j) (s.b32 th b)) := by
      rcases hv with rfl | rfl | rfl <;> simp [bcmpHit, hbyte, hrange]
    rw [← hm, getLsbD_maskOf]
    simp [hj, show j < 32 by omega]
  case bfind =>
    refine computes_word (fun s th => BitVec.ofNat 32 (((List.range 4).find? (bfindHit v (s.reg32 th a) (s.b32 th b))).getD 4))
      (fun _ => rfl) (fun s u ms th => by simp) (ordinaryDest_one fun _ => rfl) fun s t th hr hd => ?_
    have hv := (sub_lt_two v).1 (Laws.sub_of_accepts hr.wellFormed rfl rfl)
    have hm : ∀ j, bfindHit v (s.reg32 th a) (s.b32 th b) j = true ↔ (v = 0 ∧ byte (s.reg32 th a) j = byte (s.b32 th b) 0)
        ∨ (v = 1 ∧ range (byte (s.reg32 th a) j) (s.b32 th b)) := fun j => by
      rcases hv with rfl | rfl <;> simp [bfindHit, hbyte, hrange]
    obtain ⟨k, hk, hle, hit, hmiss⟩ := find_range_getD (bfindHit v (s.reg32 th a) (s.b32 th b)) 4
    have hkn : (t.reg32 th d).toNat = k := by
      rw [hd, hk, BitVec.toNat_ofNat, Nat.mod_eq_of_lt (by omega)]
    simp only [hkn, ← hm]
    exact ⟨hle, hit, fun j hj => by simp [hmiss j hj]⟩
  case bhash =>
    refine computes_word (fun s th => stringHash (v == 1) (s.reg32 th d) (s.reg32 th a)) (fun _ => rfl)
      (fun s u ms th => by simp) (ordinaryDest_one fun _ => rfl) fun s t th _ hd => ?_
    exact ⟨by rintro rfl; exact hd, by rintro rfl; exact hd⟩
  case bcrc =>
    refine computes_word (fun s th => crcBytes (s.reg32 th d) (s.reg32 th a) (if v = 0 then 4 else v.toNat)) (fun _ => rfl)
      (fun s u ms th => by simp) (ordinaryDest_one fun _ => rfl) fun s t th _ hd => ?_
    rw [hd]
    simp only [crcBytes, crcBits_eq_foldl, hbyte]
    rfl
  case three =>
    exact ⟨not_wellFormed_of_sub rfl rfl (getLsbD_of_le hv), not_wellFormed_of_sub rfl rfl (getLsbD_of_le hv)⟩
  case two =>
    exact ⟨not_wellFormed_of_sub rfl rfl (getLsbD_of_le hv), not_wellFormed_of_sub rfl rfl (getLsbD_of_le hv)⟩

/-- Settles O4: sums with their carries, comparisons by case, masks and searches over the four bytes, and the hashes. -/
theorem carriesAndBytes : Obligations.CarriesAndBytes := ⟨carryAddressCompare, bytesAndHashes⟩

end Sys2Proof.Machine
end

section
/-! SUPPORT. FieldsAndChoices (R74 to R78): bit counts, bit fields, selection, constants and condition bits. -/

namespace Sys2Proof.Machine

open Sys2Proof

/-! ### Bit counts (R74) -/

/-- Counting by a running total is the length of the filtered list. -/
theorem foldl_count (p : Nat → Bool) (ls : List Nat) (k : Nat) :
    ls.foldl (fun k i => if p i then k + 1 else k) k = k + (ls.filter p).length := by
  induction ls generalizing k with
  | nil => rfl
  | cons i ls ih =>
    rw [List.foldl_cons, ih, List.filter_cons]
    split
    · rw [List.length_cons]; omega
    · rfl

theorem popCount_eq (x n : Nat) : popCount x n = ((List.range n).filter fun j => x.testBit j).length :=
  (foldl_count _ _ _).trans (Nat.zero_add _)

theorem popCount_le (x n : Nat) : popCount x n ≤ n := by
  rw [popCount_eq]
  exact (List.length_filter_le _ _).trans_eq List.length_range

/-- leadingZeros is the place of the highest 1 bit, counted from the top (R74). -/
theorem leadingZeros_spec {w x : Nat} (hx : x < 2 ^ w) : leadingZeros w x ≤ w ∧ x < 2 ^ (w - leadingZeros w x)
    ∧ (leadingZeros w x < w → x.testBit (w - 1 - leadingZeros w x) = true) := by
  unfold leadingZeros
  split
  · next h0 => subst h0; simp
  · next h0 =>
    have hl : Nat.log2 x < w := (Nat.log2_lt h0).2 hx
    refine ⟨by omega, ?_, fun _ => ?_⟩
    · rw [show w - (w - 1 - x.log2) = x.log2 + 1 by omega]
      exact Nat.lt_log2_self
    · rw [show w - 1 - (w - 1 - x.log2) = x.log2 by omega]
      exact Nat.testBit_log2 h0

/-- trailingZeros is the place of the lowest 1 bit (R74). -/
theorem trailingZeros_spec (w x : Nat) : trailingZeros w x ≤ w ∧ x % 2 ^ trailingZeros w x = 0
    ∧ (trailingZeros w x < w → x.testBit (trailingZeros w x) = true) := by
  obtain ⟨k, hk, hle, hit, hmiss⟩ := find_range_getD (fun i => x.testBit i) w
  rw [show trailingZeros w x = k from hk]
  refine ⟨hle, Nat.eq_of_testBit_eq fun j => ?_, hit⟩
  rw [Nat.testBit_mod_two_pow, Nat.zero_testBit]
  by_cases hj : j < k
  · simp [hmiss j hj]
  · simp [hj]

theorem intReg_toNat_lt (s : State) (th : Thread) (wide : Bool) (c : Code) :
    (s.intReg th wide false c).toNat < 2 ^ opWidth th wide := by
  obtain ⟨h0, h1⟩ : 0 ≤ s.intReg th wide false c ∧ s.intReg th wide false c < 2 ^ opWidth th wide :=
    intReg_inRange s th wide false c
  rw [Int.toNat_lt h0]
  exact_mod_cast h1

/-- A count of bits is written as it is. -/
theorem toNat_count {n : Nat} {th : Thread} {wide : Bool} (h : n ≤ opWidth th wide) : (BitVec.ofNat 32 n).toNat = n := by
  rw [BitVec.toNat_ofNat]
  refine Nat.mod_eq_of_lt (lt_of_le_of_lt h ?_)
  rcases opWidth_cases th wide with e | e <;> rw [e] <;> decide

/-! ### Bit fields (R75) -/

/-- Position and length of the field that b names: the length is clipped to the width. -/
theorem bitField_eq (w : Nat) (b : Word) :
    bitField w b = (b.toNat % 64, min (b.toNat / 256 % 64) (w - b.toNat % 64)) := by
  have hs : ∀ lo, (slice b lo 6).toNat = b.toNat / 2 ^ lo % 64 := fun lo => by
    rw [slice, BitVec.extractLsb'_toNat, Nat.shiftRight_eq_div_pow]
  unfold bitField
  simp only [hs, pow_zero, Nat.div_one, Prod.mk.injEq, true_and]
  split_ifs <;> omega

/-- BFX's field: the number of its bits, less 2^len where it is signed and its top bit is 1 (R75). -/
theorem extractField_eq (w : Nat) (sg : Bool) (x : Nat) (b : Word) :
    let pos := b.toNat % 64
    let len := min (b.toNat / 256 % 64) (w - pos)
    let y := x / 2 ^ pos % 2 ^ len
    extractField w sg x b = if sg = true ∧ 0 < len ∧ 2 ^ (len - 1) ≤ y then (y : Int) - 2 ^ len else y := by
  intro pos len y
  simp only [extractField, bitField_eq, bitsAt_eq_div_mod]
  change (if len = 0 then (0 : Int) else if sg then sextNat len y else y) = _
  rcases Nat.eq_zero_or_pos len with h0 | h0
  · have hy : y = 0 := by simp only [y, h0, pow_zero, Nat.mod_one]
    simp [h0, hy]
  · rw [if_neg h0.ne']
    cases sg with
    | false => simp
    | true =>
      have hy : y % 2 ^ len = y := Nat.mod_mod _ _
      simp only [sextNat, hy, if_true, true_and, h0]
      by_cases hlt : y < 2 ^ (len - 1)
      · rw [if_pos hlt, if_neg hlt.not_ge]
      · rw [if_neg hlt, if_pos (not_lt.1 hlt)]
        push_cast
        rfl

/-- BFI bit by bit: the bits of y inside the field, those of x outside it (R75). -/
theorem testBit_insertField (w x y : Nat) (b : Word) (j : Nat) :
    let pos := b.toNat % 64
    let len := min (b.toNat / 256 % 64) (w - pos)
    (insertField w x y b).testBit j = if pos ≤ j ∧ j < pos + len then y.testBit (j - pos) else x.testBit j := by
  intro pos len
  simp only [insertField, bitField_eq, bitsAt_eq_div_mod, pow_zero, Nat.div_one]
  change (x - x / 2 ^ pos % 2 ^ len * 2 ^ pos + y % 2 ^ len * 2 ^ pos).testBit j = _
  have hlo : x % 2 ^ pos < 2 ^ pos := Nat.mod_lt _ (by positivity)
  have hy : y % 2 ^ len < 2 ^ len := Nat.mod_lt _ (by positivity)
  have hf : x - x / 2 ^ pos % 2 ^ len * 2 ^ pos + y % 2 ^ len * 2 ^ pos
      = 2 ^ pos * (2 ^ len * (x / 2 ^ pos / 2 ^ len) + y % 2 ^ len) + x % 2 ^ pos := by
    have h1 := Nat.div_add_mod x (2 ^ pos)
    have h2 := congrArg (2 ^ pos * ·) (Nat.div_add_mod (x / 2 ^ pos) (2 ^ len))
    simp only [mul_add] at h2 ⊢
    rw [mul_comm _ (2 ^ pos), mul_comm _ (2 ^ pos)]
    omega
  rw [hf, Nat.testBit_two_pow_mul_add _ hlo, Nat.testBit_two_pow_mul_add _ hy]
  simp only [Nat.testBit_mod_two_pow, Nat.testBit_div_two_pow]
  by_cases h1 : j < pos
  · simp [h1, h1.not_ge]
  · by_cases h2 : j - pos < len
    · rw [if_neg h1, if_pos h2, if_pos (by omega)]
      simp [h2]
    · rw [if_neg h1, if_neg h2, if_neg (by omega)]
      congr 1
      omega

/-! ### Constants (R77) -/

/-- Every member writes the same effect into a register, so that it holds whatever members share the register (R25). -/
theorem effNext_reg_constant {s : State} {i : Instr} {u : Issue} (h : Ready i s u) (e : Eff) {n : Nat} (hn : Member i s u n)
    {c : Code} {x : DWord} (hv : e.valueAt (u.engine.thread n).isControl c = some x) :
    (effNext i s u fun _ _ => e).reg (u.engine.thread n) c = x :=
  effNext_reg h _ _ c x (fun m _ _ => by rw [isControl_thread _ m n]; exact hv) ⟨n, hn, sameReg_self _ _⟩

theorem append_halves (x : DWord) : (x.extractLsb' 32 32 : Word) ++ (x.truncate 32 : Word) = x := by
  rw [BitVec.truncate_eq_setWidth, BitVec.setWidth_eq_extractLsb' (by decide),
    BitVec.extractLsb'_append_extractLsb'_eq_extractLsb' (show 32 = 0 + 32 from rfl)]
  exact BitVec.extractLsb'_eq_self

/-- A constant pair, or k register (R23). -/
theorem effNext_reg64_constant {s : State} {i : Instr} {u : Issue} (h : Ready i s u) {n : Nat} (hn : Member i s u n)
    (d : Code) (x : DWord) :
    (effNext i s u fun _ _ => { regs := [.r64 d x] }).reg64 (u.engine.thread n) d = x := by
  have hne : d + 1 ≠ d := by simp
  cases hctl : (u.engine.thread n).isControl with
  | true =>
    rw [State.reg64, if_pos hctl]
    exact effNext_reg_constant h _ hn (by simp [Eff.valueAt, valueOf, RegWrite.valueAt, hctl])
  | false =>
    have hlow := effNext_reg_constant h { regs := [.r64 d x] } hn (c := d) (x := (x.truncate 32 : Word).zeroExtend 64)
      (by simp [Eff.valueAt, valueOf, RegWrite.valueAt, hctl])
    have hhigh := effNext_reg_constant h { regs := [.r64 d x] } hn (c := d + 1)
      (x := (x.extractLsb' 32 32 : Word).zeroExtend 64) (by simp [Eff.valueAt, valueOf, RegWrite.valueAt, hctl])
    rw [State.reg64, hctl, if_neg Bool.false_ne_true, reg32_of_reg hlow, reg32_of_reg hhigh]
    exact append_halves x

/-- The effect of MOVI: one constant word or pair (R77). -/
def moviEff (h : Hd) (v : BitVec 4) (d : Code) (k : DWord) : Eff :=
  if v = 0 then { regs := [.r32 d (k.truncate 32)] } else { regs := [.r64 d (moviValue h v k)] }

/-- MOVI leaves its constant in each member's register, a group register too (R25, R77). -/
theorem computes_movi (h : Hd) (v : BitVec 4) (d : Code) (k : DWord) :
    Computes (.movi h v d k) (v != 0) [d] [] false fun _ t th =>
      (v = 0 → t.reg th d = (k.truncate 32 : Word).zeroExtend 64) ∧ (v ≠ 0 → t.reg64 th d = moviValue h v k) := by
  refine computes_alu (fun _ _ => moviEff h v d k) (fun _ => rfl) (fun _ th => ?_) (fun _ _ p hp => ?_) (fun _ _ _ => ?_)
    fun s u hr n hn => ⟨?_, fun hv => ?_⟩
  · intro w hw c hc
    unfold moviEff at hw
    split at hw
    · next hv =>
      rw [List.mem_singleton.1 hw] at hc
      simpa [hv, RegWrite.codes] using hc
    · next hv =>
      rw [List.mem_singleton.1 hw] at hc
      rw [bne_iff_ne.2 hv]
      cases hctl : th.isControl <;> simpa [hctl, RegWrite.codes] using hc
  · unfold moviEff at hp; split at hp <;> exact absurd hp List.not_mem_nil
  · unfold moviEff; split <;> rfl
  · rintro rfl
    exact effNext_reg_constant hr _ hn (by simp [moviEff, Eff.valueAt, valueOf, RegWrite.valueAt])
  · rw [moviEff, if_neg hv]
    exact effNext_reg64_constant hr hn d _

/-- A value of MOVI that SUB 2 admits has 32 bits (R77). -/
theorem movi_zeroExtend {h : Hd} {d : Code} {k : DWord} (hw : (Instr.movi h 2 d k).wellFormed = true) :
    k = (k.truncate 32 : Word).zeroExtend 64 := by
  have he : (if h.len.hasLit then false else decide (k.toNat < 2 ^ 32)) = true := Laws.entry_of_accepts hw
  have hk : k.toNat < 2 ^ 32 := by
    split at he
    · exact absurd he Bool.false_ne_true
    · exact of_decide_eq_true he
  apply BitVec.eq_of_toNat_eq
  rw [BitVec.truncate_eq_setWidth, BitVec.toNat_setWidth_of_le (by decide), BitVec.toNat_setWidth, Nat.mod_eq_of_lt hk]

/-! ### The statements -/

/-- The value of CBIT (R78). -/
def cbitValue (v : BitVec 4) (x y : Bool) : Bool :=
  match v.toNat with
  | 0 => x && y
  | 1 => x || y
  | 2 => x != y
  | 3 => !x
  | 4 => true
  | 5 => false
  | 6 => x && !y
  | _ => x

/-- R74, R75. -/
theorem bitFields : Claims.BitFields := by
  intro h v d a c b w num pos len
  refine ⟨?popc, ?clz, ?ctz, ?bfx, ?bfi⟩
  case popc =>
    refine computes_word (fun s th => BitVec.ofNat 32 (popCount (num s th a) (opWidth th w))) (fun _ => rfl)
      (fun s u ms th => by simp [num]) (ordinaryDest_one fun _ => rfl) fun s t th _ hd => ?_
    rw [hd, toNat_count (popCount_le _ _), popCount_eq]
  case clz =>
    refine computes_word (fun s th => BitVec.ofNat 32 (leadingZeros (opWidth th w) (num s th a))) (fun _ => rfl)
      (fun s u ms th => by simp [num]) (ordinaryDest_one fun _ => rfl) fun s t th _ hd => ?_
    have hs := leadingZeros_spec (intReg_toNat_lt s th w a)
    rw [hd, toNat_count hs.1]
    exact hs
  case ctz =>
    refine computes_word (fun s th => BitVec.ofNat 32 (trailingZeros (opWidth th w) (num s th a))) (fun _ => rfl)
      (fun s u ms th => by simp [num]) (ordinaryDest_one fun _ => rfl) fun s t th _ hd => ?_
    have hs := trailingZeros_spec (opWidth th w) (num s th a)
    rw [hd, toNat_count hs.1]
    exact hs
  case bfx =>
    refine computes_int (fun s th => extractField (opWidth th w) (v.getLsbD 0) (num s th a) (s.b32 th b)) (fun _ => rfl)
      (fun s u ms th => by simp [num]) (ordinaryDest_w64 fun _ => rfl) fun s t th _ hd => ?_
    exact (hd false).trans (by rw [extractField_eq]; rfl)
  case bfi =>
    refine computes_int (fun s th => (insertField (opWidth th w) (num s th a) (num s th c) (s.b32 th b) : Int)) (fun _ => rfl)
      (fun s u ms th => by simp [num]) (ordinaryDest_w64 fun _ => rfl) fun s t th _ hd j hj => ?_
    have hn : num t th d = insertField (opWidth th w) (num s th a) (num s th c) (s.b32 th b) % 2 ^ opWidth th w := by
      simp only [num, hd false]
      exact_mod_cast Int.toNat_natCast _
    rw [hn, Nat.testBit_mod_two_pow, decide_eq_true hj, Bool.true_and, testBit_insertField]

/-- R51, R76 to R78. -/
theorem selectAndConstants : Claims.SelectAndConstants := by
  intro h v d a b k cd ca cb
  refine ⟨?nop, ?sel, ?movi, ?cbit⟩
  case nop =>
    exact computes_done (fun _ _ => {}) (fun _ => rfl) (fun _ _ _ _ => rfl) (fun _ _ _ hw => absurd hw List.not_mem_nil)
      (fun _ _ _ hp => absurd hp List.not_mem_nil) (fun _ _ _ => rfl) fun _ _ _ _ _ => trivial
  case sel =>
    refine computes_inRange _ (fun _ => rfl) (by simp) (ordinaryDest_of_head (fun _ => rfl) fun hw => by rw [hw]; rfl)
      fun s th => ?_
    split
    · exact intReg_inRange s th _ false a
    · exact intB_inRange s th _ false b
  case movi =>
    refine (computes_movi h v d k).imp fun s t th hr hd => ⟨?_, ?_, ?_⟩
    · exact fun hv => ⟨reg32_of_reg (hd.1 hv), fun _ => hd.1 hv⟩
    · rintro rfl
      exact hd.2 (by decide)
    · rintro rfl
      refine (hd.2 (by decide)).trans ((ite_self k).trans (movi_zeroExtend hr.wellFormed))
  case cbit =>
    refine computes_bit (fun s th => cbitValue v (s.condBit th ca) (s.condBit th cb)) (fun _ => rfl) (by simp)
      fun s t th _ hb => ⟨?and, ?or, ?xor, ?not, ?set, ?clear, ?andn, ?mov⟩
    case set => rintro rfl; exact hb.trans (Bool.or_true _)
    case clear => rintro rfl; exact hb.trans (Bool.or_false _)
    all_goals rintro rfl; exact hb

theorem cbit_entryOk (h : Hd) (v : BitVec 4) (cd ca cb : CBit) : (Instr.cbit h v cd ca cb).entryOk
    = if v = 3 || v = 7 then cb == 0 else if v = 4 || v = 5 then ca == 0 && cb == 0 else true := rfl

/-- R75, R78: undefined SUB values, forms and fields. -/
theorem fieldForms : Claims.FieldForms := by
  intro h v d a c b cd ca cb
  refine ⟨fun hv => ?bfx, fun hv => ?bfi, fun hv => ?cbit⟩
  case bfx =>
    exact not_wellFormed_of_sub rfl rfl (getLsbD_two_forms v hv)
  case bfi =>
    have two : ∀ v : BitVec 4, v ∉ ([0, 4] : List (BitVec 4)) → (0x11 : BitVec 16).getLsbD v.toNat = false := by decide
    rcases hv with hv | hl
    · exact not_wellFormed_of_sub rfl rfl (two v hv)
    · exact not_wellFormed_of_len rfl rfl (lens_extended hl)
  case cbit =>
    rcases hv with hv | hl | hl | ⟨hv, (hb : cb ≠ 0#3)⟩ | ⟨hv, (ha : ca ≠ 0#3)⟩
    · exact not_wellFormed_of_sub rfl rfl (getLsbD_of_le hv)
    · exact not_wellFormed_of_len rfl rfl (lens_noLiteral (.inl hl))
    · exact not_wellFormed_of_len rfl rfl (lens_noLiteral (.inr hl))
    · refine not_wellFormed_of_entry ?_
      simp only [List.mem_cons, List.not_mem_nil, or_false] at hv
      rcases hv with rfl | rfl | rfl | rfl <;> simp [cbit_entryOk, hb]
    · refine not_wellFormed_of_entry ?_
      simp only [List.mem_cons, List.not_mem_nil, or_false] at hv
      rcases hv with rfl | rfl <;> simp [cbit_entryOk, ha]

/-- Settles O7: counts, fields and choices as their values, and MOVI as one constant effect of every member. -/
theorem fieldsAndChoices : Obligations.FieldsAndChoices := ⟨bitFields, selectAndConstants, fieldForms⟩

end Sys2Proof.Machine
end

section
/-! SUPPORT. PackedOperations (R79 to R82): the elements of a packed word, their finish, and the sums, shifts and widenings. -/

namespace Sys2Proof.Machine

open Sys2Proof

/-! ### Elements -/

theorem InRange.mono {sg : Bool} {m n : Nat} {x : Int} (h : InRange sg m x) (hmn : m ≤ n) : InRange sg n x := by
  have h1 : (2 : Int) ^ (m - 1) ≤ 2 ^ (n - 1) := pow_le_pow_right₀ (by decide) (by omega)
  have h2 : (2 : Int) ^ m ≤ 2 ^ n := pow_le_pow_right₀ (by decide) hmn
  cases sg with
  | true => exact ⟨(neg_le_neg h1).trans h.1, h.2.trans_le h1⟩
  | false => exact ⟨h.1, h.2.trans_le h2⟩

theorem sextNat_inRange {n : Nat} (hn : 0 < n) (x : Nat) : InRange true n (sextNat n x) := by
  have hp := two_pow_eq_double hn
  have hlt : ((x % 2 ^ n : Nat) : Int) < 2 ^ n := mod_cast Nat.mod_lt x (by positivity)
  have hc : ((2 ^ (n - 1) : Nat) : Int) = 2 ^ (n - 1) := by push_cast; rfl
  have hc' : ((2 ^ n : Nat) : Int) = 2 ^ n := by push_cast; rfl
  simp only [InRange, if_true, sextNat]
  split <;> omega

theorem elem_inRange {n : Nat} (hn : 0 < n) (sg : Bool) (x : Word) (j : Nat) : InRange sg n (elem n sg x j) := by
  cases sg with
  | true => exact sextNat_inRange hn _
  | false =>
    have : ((bitsAt x.toNat (n * j) n : Nat) : Int) < 2 ^ n := mod_cast Nat.mod_lt _ (by positivity)
    exact ⟨Int.natCast_nonneg _, this⟩

/-- A wrapped element reads back as the number modulo 2^n, under either reading. -/
theorem sextNat_toNat_emod {n : Nat} (hn : 0 < n) (x : Int) : sextNat n (x % 2 ^ n).toNat = x.bmod (2 ^ n) := by
  have hp := two_pow_eq_double hn
  have h0 : 0 ≤ x % 2 ^ n := Int.emod_nonneg _ (by positivity)
  have h1 : x % 2 ^ n < 2 ^ n := Int.emod_lt_of_pos _ (by positivity)
  have hc : ((2 ^ (n - 1) : Nat) : Int) = 2 ^ (n - 1) := by push_cast; rfl
  have hc' : ((2 ^ n : Nat) : Int) = 2 ^ n := by push_cast; rfl
  have hm : (x % 2 ^ n).toNat % 2 ^ n = (x % 2 ^ n).toNat := Nat.mod_eq_of_lt (by omega)
  simp only [sextNat, hm, Int.bmod, hc']
  split_ifs <;> omega

theorem toNat_emod_lt (n : Nat) (x : Int) : (x % 2 ^ n).toNat < 2 ^ n := by
  rw [Int.toNat_lt (Int.emod_nonneg _ (by positivity))]
  exact_mod_cast Int.emod_lt_of_pos x (by positivity)

/-- A register built of n-bit elements holds a number of as many bits. -/
theorem packElems_lt (n : Nat) (xs : List Int) : packElems n xs < 2 ^ (n * xs.length) := by
  induction xs with
  | nil => simp [packElems]
  | cons x xs ih =>
    rw [packElems, List.length_cons, Nat.mul_succ, pow_add, mul_comm (2 ^ (n * xs.length))]
    calc (x % 2 ^ n).toNat + 2 ^ n * packElems n xs < 2 ^ n + 2 ^ n * packElems n xs :=
          Nat.add_lt_add_right (toNat_emod_lt n x) _
      _ = 2 ^ n * (packElems n xs + 1) := by ring
      _ ≤ 2 ^ n * 2 ^ (n * xs.length) := Nat.mul_le_mul_left _ ih

/-- The field of an element is that element, wrapped. -/
theorem bitsAt_packElems (n : Nat) (xs : List Int) (j : Nat) (hj : j < xs.length) :
    bitsAt (packElems n xs) (n * j) n = (xs[j] % 2 ^ n).toNat := by
  induction xs generalizing j with
  | nil => exact absurd hj (Nat.not_lt_zero j)
  | cons x xs ih =>
    have hx := toNat_emod_lt n x
    rw [packElems, bitsAt_eq_div_mod]
    cases j with
    | zero => rw [Nat.mul_zero, pow_zero, Nat.div_one, Nat.add_mul_mod_self_left, Nat.mod_eq_of_lt hx]; rfl
    | succ j =>
      rw [Nat.mul_succ, Nat.add_comm (n * j), pow_add, ← Nat.div_div_eq_div_mul, Nat.add_mul_div_left _ _ (by positivity),
        Nat.div_eq_of_lt hx, Nat.zero_add, ← bitsAt_eq_div_mod, ih j (Nat.lt_of_succ_lt_succ hj)]
      rfl

/-- What an element of a register built of elements reads (R79). -/
theorem elem_packElems {n k : Nat} (hn : 0 < n) (hk : n * k = 32) (g : Nat → Int) (sg : Bool) {j : Nat} (hj : j < k) :
    elem n sg (BitVec.ofNat 32 (packElems n ((List.range k).map g))) j
      = if sg then (g j).bmod (2 ^ n) else g j % 2 ^ n := by
  have hlen : ((List.range k).map g).length = k := by simp
  have hlt : packElems n ((List.range k).map g) < 2 ^ 32 := by
    have := packElems_lt n ((List.range k).map g)
    rwa [hlen, hk] at this
  have hb := bitsAt_packElems n ((List.range k).map g) j (by rwa [hlen])
  rw [List.getElem_map, List.getElem_range] at hb
  rw [elem, BitVec.toNat_ofNat, Nat.mod_eq_of_lt hlt, hb, sextNat_toNat_emod hn,
    Int.toNat_of_nonneg (Int.emod_nonneg _ (by positivity))]

/-- Elements of the range read back as they are. -/
theorem elem_packElems_of_inRange {n k : Nat} (hn : 0 < n) (hk : n * k = 32) (g : Nat → Int) {sg : Bool} {j : Nat}
    (hj : j < k) (hr : InRange sg n (g j)) : elem n sg (BitVec.ofNat 32 (packElems n ((List.range k).map g))) j = g j :=
  (elem_packElems hn hk g sg hj).trans (wrap_of_inRange hn hr)

theorem clampInt_eq_self {lo hi x : Int} (_ : lo ≤ hi) : clampInt lo hi x = x ↔ ¬ x < lo ∧ ¬ hi < x := by
  unfold clampInt; split_ifs <;> omega

/-- Clamped elements are all as they were where none lies outside the bounds. -/
theorem map_clampInt_eq_self {lo hi : Int} (h : lo ≤ hi) (g : Nat → Int) (k : Nat) :
    ((List.range k).map g).map (clampInt lo hi) = (List.range k).map g
      ↔ ((List.range k).any fun j => decide (g j < lo) || decide (hi < g j)) = false := by
  simp [List.map_map, List.map_inj_left, clampInt_eq_self h]

/-! ### Element-by-element arithmetic (R79) -/

/-- The lower bound of a saturated element: signed for SUB 1, else unsigned (R79). -/
def packedLo (n : Nat) (v : BitVec 4) : Int := if v = 1 then -(2 ^ (n - 1)) else 0

/-- The upper bound of a saturated element (R79). -/
def packedHi (n : Nat) (v : BitVec 4) : Int := if v = 1 then 2 ^ (n - 1) - 1 else 2 ^ n - 1

theorem packedLo_le_packedHi (n : Nat) (v : BitVec 4) : packedLo n v ≤ packedHi n v := by
  have hp : (0 : Int) < 2 ^ (n - 1) := by positivity
  have hq : (0 : Int) < 2 ^ n := by positivity
  unfold packedLo packedHi
  split <;> omega

theorem clamp_inRange (n : Nat) {v : BitVec 4} (hv : v = 1 ∨ v = 2) (x : Int) :
    InRange (v != 2) n (clampInt (packedLo n v) (packedHi n v) x) := by
  rcases hv with rfl | rfl
  · exact satS_inRange n x
  · exact satU_inRange n x

theorem packedFinish_saturated (n : Nat) {v : BitVec 4} (hv : v ≠ 0) (xs : List Int) : packedFinish n v xs
    = (BitVec.ofNat 32 (packElems n (xs.map (clampInt (packedLo n v) (packedHi n v)))),
      if xs.map (clampInt (packedLo n v) (packedHi n v)) = xs then 0 else flagSAT) := by
  have hc : (fun x => if v = 1 then satS n x else satU n x) = clampInt (packedLo n v) (packedHi n v) := by
    unfold packedLo packedHi
    funext x
    split <;> rfl
  rw [packedFinish, if_neg hv, hc]

/-- What R79 asks of an operation on two words of n-bit elements. -/
def PackedDoes (n : Nat) (op : Int → Int → Int) (v : BitVec 4) (d a : Code) (b : SrcB) (s t : State) (th : Thread) : Prop :=
  let x (j : Nat) : Int := op (elem n (v != 2) (s.reg32 th a) j) (elem n (v != 2) (s.b32 th b) j)
  if v = 0 then
    (∀ j, j < 32 / n → elem n false (t.reg32 th d) j = x j % 2 ^ n) ∧ t.lswOf th = s.lswOf th
  else
    (∀ j, j < 32 / n → elem n (v != 2) (t.reg32 th d) j = max (packedLo n v) (min (packedHi n v) (x j)))
      ∧ t.lswOf th = s.lswOf th ||| (if (List.range (32 / n)).any fun j =>
          decide (x j < packedLo n v) || decide (packedHi n v < x j) then 0x10 else 0)

/-- A lane's instruction that finishes each element by itself (R79). -/
theorem computes_packed2 {i : Instr} {n : Nat} (hn : 0 < n) (hk : n * (32 / n) = 32) {op : Int → Int → Int} {v : BitVec 4}
    {d a : Code} {b : SrcB} (hx : ∀ s, exec i s = alu i (packed2 n op v d a b) s) (hd : OrdinaryDest i false d)
    (he : (enginesOf i).control = false) (hv : i.wellFormed = true → v = 0 ∨ v = 1 ∨ v = 2) :
    Computes i false [d] [] true (PackedDoes n op v d a b) := by
  refine computes_word_flags _ _ hx (fun s u ms th => by simp) hd fun s t th hr hreg hlsw => ?_
  rw [hr.not_control he, if_neg Bool.false_ne_true] at hlsw
  unfold PackedDoes
  by_cases h0 : v = 0
  · rw [packedFinish, if_pos h0] at hreg hlsw
    rw [if_pos h0, hreg]
    exact ⟨fun j hj => elem_packElems hn hk _ false hj, hlsw.trans (BitVec.or_zero ..)⟩
  · have h12 := (hv hr.wellFormed).resolve_left h0
    rw [packedFinish_saturated n h0] at hreg hlsw
    rw [if_neg h0, hreg]
    refine ⟨fun j hj => ?_, hlsw.trans ?_⟩
    · rw [List.map_map, elem_packElems_of_inRange hn hk _ hj (clamp_inRange n h12 _)]
      exact clampInt_eq (packedLo_le_packedHi n v) _
    · simp only [map_clampInt_eq_self (packedLo_le_packedHi n v), flagSAT]
      cases (List.range (32 / n)).any _ <;> rfl

/-- R79. -/
theorem packedArithmetic : Claims.PackedArithmetic := by
  intro h v d a b does
  have three : ∀ {i : Instr} {f : Fields} {p : Shape}, i.fields = some f → i.shape = some p → f.sub = v → p.subs = 7 →
      i.wellFormed = true → v = 0 ∨ v = 1 ∨ v = 2 := fun hf hp hs h7 hw => by
    have := Laws.sub_of_accepts hw hf hp
    rw [hs, h7] at this
    exact (sub_lt_three v).1 this
  refine ⟨?_, ?_, ?_, ?_⟩
  · exact computes_packed2 (by decide) (by decide) (fun _ => rfl) (ordinaryDest_one fun _ => rfl) rfl (three rfl rfl rfl rfl)
  · exact computes_packed2 (by decide) (by decide) (fun _ => rfl) (ordinaryDest_one fun _ => rfl) rfl (three rfl rfl rfl rfl)
  · exact computes_packed2 (by decide) (by decide) (fun _ => rfl) (ordinaryDest_one fun _ => rfl) rfl fun hw =>
      ((sub_lt_two v).1 (Laws.sub_of_accepts hw rfl rfl)).imp_right .inl
  · exact computes_packed2 (by decide) (by decide) (fun _ => rfl) (ordinaryDest_one fun _ => rfl) rfl (three rfl rfl rfl rfl)

/-! ### Choice (R79) -/

/-- An instruction that writes each half by itself, a number of the half's range. -/
theorem computes_halves {i : Instr} {d : Code} (sg : Bool) (g : State → Thread → Nat → Int)
    (hx : ∀ s, exec i s = alu i (fun s th =>
      { regs := [.r32 d (BitVec.ofNat 32 (packElems 16 ((List.range 2).map (g s th))))] }) s)
    (hf : ∀ s u ms th, g (s.touchLines u i ms) th = g s th) (hd : OrdinaryDest i false d)
    (hr : ∀ s th j, InRange sg 16 (g s th j)) :
    Computes i false [d] [] false fun s t th => ∀ j, j < 2 → elem 16 sg (t.reg32 th d) j = g s th j :=
  computes_word _ hx (fun s u ms th => by rw [hf]) hd fun s t th _ hreg j hj => by
    rw [hreg]
    exact elem_packElems_of_inRange (by decide) rfl _ hj (hr s th j)

/-- The comparison of PCMP2 (R79). -/
def pcmpHolds (v : BitVec 4) (x y : Int) : Bool :=
  match v.toNat with
  | 0 => x == y
  | 1 => decide (x < y)
  | 2 => decide (x ≤ y)
  | 3 => decide (x < y)
  | 4 => decide (x ≤ y)
  | _ => x != y

/-- R79. -/
theorem packedChoice : Claims.PackedChoice := by
  intro h v d a b x y
  have hx : ∀ s th sg j, InRange sg 16 (x s th sg j) := fun s th sg j => elem_inRange (by decide) sg _ j
  have hy : ∀ s th sg j, InRange sg 16 (y s th sg j) := fun s th sg j => elem_inRange (by decide) sg _ j
  refine ⟨?min, ?max, ?cmp⟩
  case min =>
    refine computes_halves (v == 0) (fun s th j => min (x s th (v == 0) j) (y s th (v == 0) j)) (fun _ => ?_)
      (fun s u ms th => by simp [x, y]) (ordinaryDest_one fun _ => rfl) fun s th j => (hx s th _ j).min (hy s th _ j)
    simp only [min_comm (x _ _ _ _), min_def_lt]
    rfl
  case max =>
    refine computes_halves (v == 0) (fun s th j => max (x s th (v == 0) j) (y s th (v == 0) j)) (fun _ => ?_)
      (fun s u ms th => by simp [x, y]) (ordinaryDest_one fun _ => rfl) fun s th j => (hx s th _ j).max (hy s th _ j)
    simp only [max_def_lt]
    rfl
  case cmp =>
    refine (computes_halves false (fun s th j => if pcmpHolds v (x s th (v != 3 && v != 4) j) (y s th (v != 3 && v != 4) j)
      then 0xFFFF else 0) (fun _ => rfl) (fun s u ms th => by simp [x, y]) (ordinaryDest_one fun _ => rfl)
      fun s th j => ?_).imp fun s t th _ hj j hlt => ?_
    · split <;> exact ⟨by decide, by decide⟩
    · refine ⟨?_, ?_, ?_, ?_, ?_, ?_⟩ <;> rintro rfl <;> refine (hj j hlt).trans ?_ <;>
        simp [pcmpHolds]

/-! ### Sums (R80) -/

/-- x saturated to a signed or an unsigned word. -/
def sat32 (sg : Bool) (x : Int) : Int := if sg then satS 32 x else satU 32 x

theorem asInt_ofInt_of_inRange {sg : Bool} {x : Int} (h : InRange sg 32 x) : asInt sg (BitVec.ofInt 32 x) = x := by
  refine Eq.trans ?_ (wrap_of_inRange (by decide) h)
  cases sg with
  | true => exact BitVec.toInt_ofInt x
  | false =>
    show ((BitVec.ofInt 32 x).toNat : Int) = x % 2 ^ 32
    rw [BitVec.toNat_ofInt, Int.toNat_of_nonneg (Int.emod_nonneg _ (by decide))]
    rfl

theorem sat32_inRange (sg : Bool) (x : Int) : InRange sg 32 (sat32 sg x) := by
  cases sg
  · exact satU_inRange 32 x
  · exact satS_inRange 32 x

/-- The effect of an instruction that saturates one exact sum into d (R80). -/
def satEff (sg : Bool) (d : Code) (x : Int) : Eff :=
  { regs := [.r32 d (BitVec.ofInt 32 (sat32 sg x))], flags := if sat32 sg x = x then 0 else flagSAT }

/-- A lane's instruction that saturates one exact sum, with SAT where that changes it (R80). -/
theorem computes_saturated {i : Instr} {sg : Bool} {d : Code} (x : State → Thread → Int)
    (hx : ∀ s, exec i s = alu i (fun s th => satEff sg d (x s th)) s)
    (hf : ∀ s u ms th, x (s.touchLines u i ms) th = x s th) (hd : OrdinaryDest i false d)
    (he : (enginesOf i).control = false) :
    Computes i false [d] [] true fun s t th => asInt sg (t.reg32 th d) = sat32 sg (x s th)
      ∧ t.lswOf th = s.lswOf th ||| (if sat32 sg (x s th) = x s th then 0 else 0x10) := by
  refine computes_word_flags _ _ hx (fun s u ms th => by simp only [hf, and_self]) hd fun s t th hr hreg hlsw => ?_
  rw [hr.not_control he, if_neg Bool.false_ne_true] at hlsw
  rw [hreg]
  exact ⟨asInt_ofInt_of_inRange (sat32_inRange sg _), hlsw⟩

/-- PDOT4's exact sum (R80). -/
def dotSum (v : BitVec 4) (d a : Code) (b : SrcB) (s : State) (th : Thread) : Int :=
  (List.range 4).foldl (fun n i => n + elem 8 (v == 0) (s.reg32 th a) i * elem 8 (v != 1) (s.b32 th b) i)
    (asInt (v != 1) (s.reg32 th d))

/-- PDOT4 with its signed and unsigned forms as one effect. -/
theorem execPdot4_eq (h : Hd) (v : BitVec 4) (d a : Code) (b : SrcB) (s : State) :
    exec (.pdot4 h v d a b) s = alu (.pdot4 h v d a b) (fun s th => satEff (v != 1) d (dotSum v d a b s th)) s := by
  have hs : ∀ e : Int, (if v = 1 then satU 32 e else satS 32 e) = sat32 (v != 1) e := fun e => by
    by_cases hv : v = 1 <;> simp [sat32, hv]
  show execPdot4 h v d a b s = _
  unfold execPdot4
  simp only [hs]
  rfl

/-- R80. -/
theorem packedSums : Claims.PackedSums := by
  intro h v d a b
  refine ⟨?pmac, ?pdot⟩
  case pmac =>
    refine (computes_saturated (sg := true) (fun s th => (s.reg32 th d).toInt
      + elem 16 true (s.reg32 th a) 0 * elem 16 true (s.b32 th b) 0
      + elem 16 true (s.reg32 th a) 1 * elem 16 true (s.b32 th b) 1) (fun _ => rfl) (fun s u ms th => by simp)
      (ordinaryDest_one fun _ => rfl) rfl).imp fun s t th _ hd => ?_
    intro e x y
    rw [← show satS 32 x = y from satS_eq 32 x]
    exact hd
  case pdot =>
    refine (computes_saturated (dotSum v d a b) (execPdot4_eq h v d a b) (fun s u ms th => by simp [dotSum])
      (ordinaryDest_one fun _ => rfl) rfl).imp fun s t th _ hd => ?_
    intro e sum
    have hsum : dotSum v d a b s th = asInt (v != 1) (s.reg32 th d) + sum := by
      show asInt _ _ + e 0 + e 1 + e 2 + e 3 = _
      ring
    rw [hsum] at hd
    refine ⟨?_, fun hv => ?_⟩
    · rintro rfl x y
      rw [← show satU 32 x = y from satU_eq 32 x]
      exact hd
    · rw [bne_iff_ne.2 hv] at hd
      intro x y
      rw [← show satS 32 x = y from satS_eq 32 x]
      exact hd

/-! ### Shifts, narrowing and widening (R81, R82) -/

/-- A rounding right shift of a half is a half. -/
theorem roundShift_inRange {x : Int} (h : InRange true 16 x) (n : Nat) : InRange true 16 (roundShift x n) := by
  have ⟨h1, h2⟩ : -(2 ^ 15) ≤ x ∧ x < 2 ^ 15 := h
  cases n with
  | zero => exact h
  | succ k =>
    have hp : (0 : Int) < 2 ^ k := by positivity
    show -(2 ^ 15) ≤ (x + 2 ^ k) / 2 ^ (k + 1) ∧ (x + 2 ^ k) / 2 ^ (k + 1) < 2 ^ 15
    rw [pow_succ]
    exact ⟨Int.le_ediv_of_mul_le (by omega) (by omega), Int.ediv_lt_of_lt_mul (by omega) (by omega)⟩

/-- So is a plain one. -/
theorem div_two_pow_inRange {x : Int} (h : InRange true 16 x) (n : Nat) : InRange true 16 (x / 2 ^ n) := by
  have ⟨h1, h2⟩ : -(2 ^ 15) ≤ x ∧ x < 2 ^ 15 := h
  have hp : (0 : Int) < 2 ^ n := by positivity
  exact ⟨Int.le_ediv_of_mul_le hp (by omega), Int.ediv_lt_of_lt_mul hp (by omega)⟩

/-- PNARROW's word: two rounded numbers, each saturated to a half (R81). -/
def narrowWord (n : Nat) (x y : Word) : Word :=
  BitVec.ofNat 32 (packElems 16 [satS 16 (roundShift x.toInt n), satS 16 (roundShift y.toInt n)])

/-- SAT, where PNARROW's saturation changes a number (R81). -/
def narrowFlags (n : Nat) (x y : Word) : Word :=
  if satS 16 (roundShift x.toInt n) = roundShift x.toInt n ∧ satS 16 (roundShift y.toInt n) = roundShift y.toInt n then 0
  else flagSAT

theorem elem_narrowWord (n : Nat) (x y : Word) {j : Nat} (hj : j < 2) :
    elem 16 true (narrowWord n x y) j = satS 16 (roundShift (if j = 0 then x.toInt else y.toInt) n) :=
  elem_packElems_of_inRange (k := 2) (by decide) rfl
    (fun j => satS 16 (roundShift (if j = 0 then x.toInt else y.toInt) n)) hj (satS_inRange 16 _)

/-- The element that PUNPK's SUB names (R82). -/
def unpkElem (n : Nat) (x : Word) : Int :=
  if n < 2 then elem 16 true x n else if n < 4 then elem 16 false x (n - 2)
  else if n < 8 then elem 8 true x (n - 4) else elem 8 false x (n - 8)

/-- An instruction of lanes only is undefined for every other engine. -/
theorem notLegal_of_lanesOnly {i : Instr} (he : enginesOf i = ⟨true, false, false⟩) (e : Engine) (hg : Option (BitVec 512))
    (handler : Bool) (hn : ∀ g, e ≠ .lane g) : legalFor e hg handler i = false := by
  have hh : (enginesOf i).has e = false := by
    rw [he]
    cases e with
    | lane g => exact absurd rfl (hn g)
    | control q => rfl
    | method k => rfl
  simp [legalFor, hh]

/-- R81, R82. -/
theorem packedShapes : Claims.PackedShapes := by
  intro h v d a b
  refine ⟨?pshr, ?pnarrow, ?punpk⟩
  case pshr =>
    refine (computes_halves true (fun s th j => if v = 0 then roundShift (elem 16 true (s.reg32 th a) j) ((s.b32 th b).toNat % 16)
      else elem 16 true (s.reg32 th a) j / 2 ^ ((s.b32 th b).toNat % 16)) (fun _ => rfl) (fun s u ms th => by simp)
      (ordinaryDest_one fun _ => rfl) fun s th j => ?_).imp fun s t th _ hj => ?_
    · have hx : InRange true 16 (elem 16 true (s.reg32 th a) j) := elem_inRange (by decide) true _ j
      split
      · exact roundShift_inRange hx _
      · exact div_two_pow_inRange hx _
    · intro n j hlt
      rw [hj j hlt]
      change (if v = 0 then roundShift _ n else _ / 2 ^ n) = _
      by_cases hv : v = 0 <;> by_cases hn : n = 0 <;> simp [hv, hn, roundShift]
  case pnarrow =>
    refine computes_word_flags (fun s th => narrowWord v.toNat (s.reg32 th a) (s.b32 th b))
      (fun s th => narrowFlags v.toNat (s.reg32 th a) (s.b32 th b)) (fun _ => rfl) (fun s u ms th => by simp)
      (ordinaryDest_one fun _ => rfl) fun s t th hr hreg hlsw => ?_
    rw [hr.not_control rfl, if_neg Bool.false_ne_true] at hlsw
    intro n r sat lo hi
    have hsat : ∀ x, sat x = satS 16 x := fun x => (satS_eq 16 x).symm
    rw [hreg, hsat, hsat]
    exact ⟨elem_narrowWord _ _ _ (j := 0) (by decide), elem_narrowWord _ _ _ (j := 1) (by decide), hlsw⟩
  case punpk =>
    refine computes_word (fun s th => BitVec.ofInt 32 (unpkElem v.toNat (s.reg32 th a))) (fun _ => rfl)
      (fun s u ms th => by simp) (ordinaryDest_one fun _ => rfl) fun s t th _ hreg => ?_
    intro x
    have hval : ∀ {n sg j}, 0 < n → n ≤ 32 → unpkElem v.toNat x = elem n sg x j →
        asInt sg (t.reg32 th d) = elem n sg x j :=
      fun hn hle he => by
        rw [hreg, he]
        exact asInt_ofInt_of_inRange ((elem_inRange hn _ x _).mono hle)
    refine ⟨fun h2 => ?_, fun h2 h4 => ?_, fun h4 h8 => ?_, fun h8 => ?_⟩
    · exact hval (sg := true) (by decide) (by decide) (if_pos h2)
    · exact hval (sg := false) (by decide) (by decide) (by rw [unpkElem, if_neg (by omega), if_pos h4])
    · exact hval (sg := true) (by decide) (by decide) (by rw [unpkElem, if_neg (by omega), if_neg (by omega), if_pos h8])
    · exact hval (sg := false) (by decide) (by decide)
        (by rw [unpkElem, if_neg (by omega), if_neg (by omega), if_neg (by omega)])

/-- R79: lanes only, and the undefined SUB values. -/
theorem packedForms : Claims.PackedForms := by
  intro h v d a b none'
  have pick : ∀ v : BitVec 4, v ≠ 0 → v ≠ 2 → (0x5 : BitVec 16).getLsbD v.toNat = false := by decide
  simp only [none', List.forall_mem_cons, List.not_mem_nil, false_imp_iff, implies_true, and_true]
  refine ⟨?lanes, fun hv => ?_, fun hv => ?_, fun h0 h2 => ?_, fun hv => ?_, fun hv => ?_⟩
  case lanes =>
    exact ⟨notLegal_of_lanesOnly rfl, notLegal_of_lanesOnly rfl, notLegal_of_lanesOnly rfl, notLegal_of_lanesOnly rfl,
      notLegal_of_lanesOnly rfl, notLegal_of_lanesOnly rfl, notLegal_of_lanesOnly rfl, notLegal_of_lanesOnly rfl,
      notLegal_of_lanesOnly rfl, notLegal_of_lanesOnly rfl, notLegal_of_lanesOnly rfl, notLegal_of_lanesOnly rfl⟩
  · exact ⟨not_wellFormed_of_sub rfl rfl (getLsbD_of_le hv), not_wellFormed_of_sub rfl rfl (getLsbD_of_le hv),
      not_wellFormed_of_sub rfl rfl (getLsbD_of_le hv), not_wellFormed_of_sub rfl rfl (getLsbD_of_le hv)⟩
  · exact ⟨not_wellFormed_of_sub rfl rfl (getLsbD_of_le hv), not_wellFormed_of_sub rfl rfl (getLsbD_of_le hv)⟩
  · exact ⟨not_wellFormed_of_sub rfl rfl (pick v h0 h2), not_wellFormed_of_sub rfl rfl (pick v h0 h2)⟩
  · exact not_wellFormed_of_sub rfl rfl (getLsbD_of_le hv)
  · exact not_wellFormed_of_sub rfl rfl (getLsbD_of_le hv)

/-- Settles O8: each packed word is read element by element, and a saturated element is a number of its range. -/
theorem packedOperations : Obligations.PackedOperations :=
  ⟨packedArithmetic, packedChoice, packedForms, packedSums, packedShapes⟩

end Sys2Proof.Machine
end
